-- ==== Sys2Proof/Word.lean ====
section
/-! DEFINITION. The word types of the core: bytes, 16-bit words and register numbers
(00_scope.md R8, R9). -/

namespace Sys2Proof

/-- A byte of the data space (00_scope.md R9). -/
abbrev Byte := BitVec 8

/-- A 16-bit word: a word of program memory or the view of a register pair (00_scope.md R9). -/
abbrev Word := BitVec 16

/-- A general register's number, 0 to 31 (10_state.md R51). -/
abbrev Reg := BitVec 5

end Sys2Proof
end

