-- ==== Sys2Proof/Syntax.lean ====
section
/-! DEFINITION. The syntax of the instruction set: one constructor for each row of
spec/opcode_table.json, with the operands of the row's format (30_encoding.md R151, R152).
Register operands are register NUMBERS 0 to 31 (the offsets 16 and 24 and the factor 2 are
already applied); immediates and bit numbers have the width of their field; displacements `k` of
F_BR and F_REL are the field's bits, read as two's complement by the meanings. -/

namespace Sys2Proof

/-- The instructions of the core (opcode_table.json). -/
inductive Instr where
  /-- ADC: `ADC Rd, Rr`, F_RR, rule R212. -/
  | adc (d : Reg) (r : Reg)
  /-- ADD: `ADD Rd, Rr`, F_RR, rule R211. -/
  | add (d : Reg) (r : Reg)
  /-- ADIW: `ADIW Rd+1:Rd, K`, F_IW, rule R213. -/
  | adiw (d : Reg) (K : BitVec 6)
  /-- AND: `AND Rd, Rr`, F_RR, rule R220. -/
  | and (d : Reg) (r : Reg)
  /-- ANDI: `ANDI Rd, K`, F_RK, rule R221. -/
  | andi (d : Reg) (K : Byte)
  /-- ASR: `ASR Rd`, F_R1, rule R364. -/
  | asr (d : Reg)
  /-- BCLR: `BCLR s`, F_S, rule R367. -/
  | bclr (n : BitVec 3)
  /-- BLD: `BLD Rd, b`, F_RB, rule R369. -/
  | bld (d : Reg) (b : BitVec 3)
  /-- BRBC: `BRBC s, k`, F_BR, rule R331. -/
  | brbc (n : BitVec 3) (k : BitVec 7)
  /-- BRBS: `BRBS s, k`, F_BR, rule R330. -/
  | brbs (n : BitVec 3) (k : BitVec 7)
  /-- BREAK: `BREAK`, F_0, rule R474. -/
  | brk
  /-- BSET: `BSET s`, F_S, rule R366. -/
  | bset (n : BitVec 3)
  /-- BST: `BST Rd, b`, F_RB, rule R368. -/
  | bst (d : Reg) (b : BitVec 3)
  /-- CALL: `CALL k`, F_ABS, rule R307. -/
  | call (k : BitVec 22)
  /-- CBI: `CBI A, b`, F_IOB, rule R361. -/
  | cbi (A : BitVec 5) (b : BitVec 3)
  /-- COM: `COM Rd`, F_R1, rule R224. -/
  | com (d : Reg)
  /-- CP: `CP Rd, Rr`, F_RR, rule R311. -/
  | cp (d : Reg) (r : Reg)
  /-- CPC: `CPC Rd, Rr`, F_RR, rule R312. -/
  | cpc (d : Reg) (r : Reg)
  /-- CPI: `CPI Rd, K`, F_RK, rule R313. -/
  | cpi (d : Reg) (K : Byte)
  /-- CPSE: `CPSE Rd, Rr`, F_RR, rule R310. -/
  | cpse (d : Reg) (r : Reg)
  /-- DEC: `DEC Rd`, F_R1, rule R227. -/
  | dec (d : Reg)
  /-- DES: `DES K`, F_K4, rule R166. -/
  | des (K : BitVec 4)
  /-- EICALL: `EICALL`, F_0, rule R306. -/
  | eicall
  /-- EIJMP: `EIJMP`, F_0, rule R302. -/
  | eijmp
  /-- ELPM: `ELPM`, F_0, rule R430. -/
  | elpm
  /-- ELPM_Z: `ELPM Rd, Z`, F_R1, rule R431. -/
  | elpmZ (d : Reg)
  /-- ELPM_ZP: `ELPM Rd, Z+`, F_R1, rule R432. -/
  | elpmZP (d : Reg)
  /-- EOR: `EOR Rd, Rr`, F_RR, rule R223. -/
  | eor (d : Reg) (r : Reg)
  /-- FMUL: `FMUL Rd, Rr`, F_R3, rule R233. -/
  | fmul (d : Reg) (r : Reg)
  /-- FMULS: `FMULS Rd, Rr`, F_R3, rule R234. -/
  | fmuls (d : Reg) (r : Reg)
  /-- FMULSU: `FMULSU Rd, Rr`, F_R3, rule R235. -/
  | fmulsu (d : Reg) (r : Reg)
  /-- ICALL: `ICALL`, F_0, rule R305. -/
  | icall
  /-- IJMP: `IJMP`, F_0, rule R301. -/
  | ijmp
  /-- IN: `IN Rd, A`, F_IO, rule R434. -/
  | inIo (d : Reg) (A : BitVec 6)
  /-- INC: `INC Rd`, F_R1, rule R226. -/
  | inc (d : Reg)
  /-- JMP: `JMP k`, F_ABS, rule R303. -/
  | jmp (k : BitVec 22)
  /-- LAC: `LAC Z, Rd`, F_R1, rule R441. -/
  | lac (d : Reg)
  /-- LAS: `LAS Z, Rd`, F_R1, rule R440. -/
  | las (d : Reg)
  /-- LAT: `LAT Z, Rd`, F_R1, rule R442. -/
  | lat (d : Reg)
  /-- LDI: `LDI Rd, K`, F_RK, rule R402. -/
  | ldi (d : Reg) (K : Byte)
  /-- LDS: `LDS Rd, k`, F_LDS, rule R413. -/
  | lds (d : Reg) (k : Word)
  /-- LD_X: `LD Rd, X`, F_R1, rule R403. -/
  | ldX (d : Reg)
  /-- LD_XP: `LD Rd, X+`, F_R1, rule R404. -/
  | ldXP (d : Reg)
  /-- LD_MX: `LD Rd, -X`, F_R1, rule R405. -/
  | ldMX (d : Reg)
  /-- LD_Y: `LD Rd, Y`, F_R1, rule R406. -/
  | ldY (d : Reg)
  /-- LD_YP: `LD Rd, Y+`, F_R1, rule R407. -/
  | ldYP (d : Reg)
  /-- LD_MY: `LD Rd, -Y`, F_R1, rule R408. -/
  | ldMY (d : Reg)
  /-- LDD_Y: `LDD Rd, Y+q`, F_Q, rule R409; q is not 0. -/
  | lddY (d : Reg) (q : BitVec 6)
  /-- LD_Z: `LD Rd, Z`, F_R1, rule R406. -/
  | ldZ (d : Reg)
  /-- LD_ZP: `LD Rd, Z+`, F_R1, rule R407. -/
  | ldZP (d : Reg)
  /-- LD_MZ: `LD Rd, -Z`, F_R1, rule R408. -/
  | ldMZ (d : Reg)
  /-- LDD_Z: `LDD Rd, Z+q`, F_Q, rule R409; q is not 0. -/
  | lddZ (d : Reg) (q : BitVec 6)
  /-- LPM: `LPM`, F_0, rule R427. -/
  | lpm
  /-- LPM_Z: `LPM Rd, Z`, F_R1, rule R428. -/
  | lpmZ (d : Reg)
  /-- LPM_ZP: `LPM Rd, Z+`, F_R1, rule R429. -/
  | lpmZP (d : Reg)
  /-- LSR: `LSR Rd`, F_R1, rule R362. -/
  | lsr (d : Reg)
  /-- MOV: `MOV Rd, Rr`, F_RR, rule R400. -/
  | mov (d : Reg) (r : Reg)
  /-- MOVW: `MOVW Rd+1:Rd, Rr+1:Rr`, F_W, rule R401. -/
  | movw (d : Reg) (r : Reg)
  /-- MUL: `MUL Rd, Rr`, F_RR, rule R230. -/
  | mul (d : Reg) (r : Reg)
  /-- MULS: `MULS Rd, Rr`, F_R4, rule R231. -/
  | muls (d : Reg) (r : Reg)
  /-- MULSU: `MULSU Rd, Rr`, F_R3, rule R232. -/
  | mulsu (d : Reg) (r : Reg)
  /-- NEG: `NEG Rd`, F_R1, rule R225. -/
  | neg (d : Reg)
  /-- NOP: `NOP`, F_0, rule R470. -/
  | nop
  /-- OR: `OR Rd, Rr`, F_RR, rule R222. -/
  | or (d : Reg) (r : Reg)
  /-- ORI: `ORI Rd, K`, F_RK, rule R222. -/
  | ori (d : Reg) (K : Byte)
  /-- OUT: `OUT A, Rr`, F_IO, rule R435. -/
  | outIo (A : BitVec 6) (r : Reg)
  /-- POP: `POP Rd`, F_R1, rule R437. -/
  | pop (d : Reg)
  /-- PUSH: `PUSH Rr`, F_R1, rule R436. -/
  | push (r : Reg)
  /-- RCALL: `RCALL k`, F_REL, rule R304. -/
  | rcall (k : BitVec 12)
  /-- RET: `RET`, F_0, rule R308. -/
  | ret
  /-- RETI: `RETI`, F_0, rule R309. -/
  | reti
  /-- RJMP: `RJMP k`, F_REL, rule R300. -/
  | rjmp (k : BitVec 12)
  /-- ROR: `ROR Rd`, F_R1, rule R363. -/
  | ror (d : Reg)
  /-- SBC: `SBC Rd, Rr`, F_RR, rule R216. -/
  | sbc (d : Reg) (r : Reg)
  /-- SBCI: `SBCI Rd, K`, F_RK, rule R217. -/
  | sbci (d : Reg) (K : Byte)
  /-- SBI: `SBI A, b`, F_IOB, rule R360. -/
  | sbi (A : BitVec 5) (b : BitVec 3)
  /-- SBIC: `SBIC A, b`, F_IOB, rule R316. -/
  | sbic (A : BitVec 5) (b : BitVec 3)
  /-- SBIS: `SBIS A, b`, F_IOB, rule R317. -/
  | sbis (A : BitVec 5) (b : BitVec 3)
  /-- SBIW: `SBIW Rd+1:Rd, K`, F_IW, rule R218. -/
  | sbiw (d : Reg) (K : BitVec 6)
  /-- SBRC: `SBRC Rr, b`, F_RB, rule R314. -/
  | sbrc (r : Reg) (b : BitVec 3)
  /-- SBRS: `SBRS Rr, b`, F_RB, rule R315. -/
  | sbrs (r : Reg) (b : BitVec 3)
  /-- SLEEP: `SLEEP`, F_0, rule R472. -/
  | sleep
  /-- SPM: `SPM`, F_0, rule R433. -/
  | spm
  /-- SPM_ZP: `SPM Z+`, F_0, rule R433. -/
  | spmZP
  /-- STS: `STS k, Rr`, F_LDS, rule R426. -/
  | sts (k : Word) (r : Reg)
  /-- ST_X: `ST X, Rr`, F_R1, rule R415. -/
  | stX (r : Reg)
  /-- ST_XP: `ST X+, Rr`, F_R1, rule R416. -/
  | stXP (r : Reg)
  /-- ST_MX: `ST -X, Rr`, F_R1, rule R417. -/
  | stMX (r : Reg)
  /-- ST_Y: `ST Y, Rr`, F_R1, rule R418. -/
  | stY (r : Reg)
  /-- ST_YP: `ST Y+, Rr`, F_R1, rule R419. -/
  | stYP (r : Reg)
  /-- ST_MY: `ST -Y, Rr`, F_R1, rule R420. -/
  | stMY (r : Reg)
  /-- STD_Y: `STD Y+q, Rr`, F_Q, rule R421; q is not 0. -/
  | stdY (q : BitVec 6) (r : Reg)
  /-- ST_Z: `ST Z, Rr`, F_R1, rule R418. -/
  | stZ (r : Reg)
  /-- ST_ZP: `ST Z+, Rr`, F_R1, rule R419. -/
  | stZP (r : Reg)
  /-- ST_MZ: `ST -Z, Rr`, F_R1, rule R420. -/
  | stMZ (r : Reg)
  /-- STD_Z: `STD Z+q, Rr`, F_Q, rule R421; q is not 0. -/
  | stdZ (q : BitVec 6) (r : Reg)
  /-- SUB: `SUB Rd, Rr`, F_RR, rule R214. -/
  | sub (d : Reg) (r : Reg)
  /-- SUBI: `SUBI Rd, K`, F_RK, rule R215. -/
  | subi (d : Reg) (K : Byte)
  /-- SWAP: `SWAP Rd`, F_R1, rule R365. -/
  | swap (d : Reg)
  /-- WDR: `WDR`, F_0, rule R473. -/
  | wdr
  /-- XCH: `XCH Z, Rd`, F_R1, rule R443. -/
  | xch (d : Reg)
  deriving DecidableEq, Repr

end Sys2Proof
end

