-- ==== Sys2Proof/WellFormed.lean ====
section
/-! DEFINITION. Which terms of the syntax an instruction word can stand for: the register ranges
and the displacement range of the formats (30_encoding.md R151, R152, R154; 10_state.md R51).
The undefined operand combinations of R167 are well formed: they decode to their row. -/

namespace Sys2Proof

/-- F_RK and F_R4 reach only r16 to r31 (10_state.md R51). -/
def hiReg (d : Reg) : Bool := decide (16 ≤ d.toNat)

/-- F_R3 reaches only r16 to r23 (10_state.md R51). -/
def midReg (d : Reg) : Bool := decide (16 ≤ d.toNat) && decide (d.toNat ≤ 23)

/-- F_W names even registers only (30_encoding.md R151). -/
def evenReg (d : Reg) : Bool := decide (d.toNat % 2 = 0)

/-- F_IW names r24, r26, r28 and r30 only (30_encoding.md R151). -/
def wordReg (d : Reg) : Bool := decide (24 ≤ d.toNat) && decide (d.toNat % 2 = 0)

/-- LDD and STD have q from 1 to 63; q = 0 is the LD or ST row (30_encoding.md R154). -/
def nonzeroDisp (q : BitVec 6) : Bool := decide (q ≠ 0)

/-- The instruction is one that some instruction word stands for. -/
def Instr.wf : Instr → Bool
  | .adc _ _ => true
  | .add _ _ => true
  | .adiw d _ => wordReg d
  | .and _ _ => true
  | .andi d _ => hiReg d
  | .asr _ => true
  | .bclr _ => true
  | .bld _ _ => true
  | .brbc _ _ => true
  | .brbs _ _ => true
  | .brk => true
  | .bset _ => true
  | .bst _ _ => true
  | .call _ => true
  | .cbi _ _ => true
  | .com _ => true
  | .cp _ _ => true
  | .cpc _ _ => true
  | .cpi d _ => hiReg d
  | .cpse _ _ => true
  | .dec _ => true
  | .des _ => true
  | .eicall => true
  | .eijmp => true
  | .elpm => true
  | .elpmZ _ => true
  | .elpmZP _ => true
  | .eor _ _ => true
  | .fmul d r => midReg d && midReg r
  | .fmuls d r => midReg d && midReg r
  | .fmulsu d r => midReg d && midReg r
  | .icall => true
  | .ijmp => true
  | .inIo _ _ => true
  | .inc _ => true
  | .jmp _ => true
  | .lac _ => true
  | .las _ => true
  | .lat _ => true
  | .ldi d _ => hiReg d
  | .lds _ _ => true
  | .ldX _ => true
  | .ldXP _ => true
  | .ldMX _ => true
  | .ldY _ => true
  | .ldYP _ => true
  | .ldMY _ => true
  | .lddY _ q => nonzeroDisp q
  | .ldZ _ => true
  | .ldZP _ => true
  | .ldMZ _ => true
  | .lddZ _ q => nonzeroDisp q
  | .lpm => true
  | .lpmZ _ => true
  | .lpmZP _ => true
  | .lsr _ => true
  | .mov _ _ => true
  | .movw d r => evenReg d && evenReg r
  | .mul _ _ => true
  | .muls d r => hiReg d && hiReg r
  | .mulsu d r => midReg d && midReg r
  | .neg _ => true
  | .nop => true
  | .or _ _ => true
  | .ori d _ => hiReg d
  | .outIo _ _ => true
  | .pop _ => true
  | .push _ => true
  | .rcall _ => true
  | .ret => true
  | .reti => true
  | .rjmp _ => true
  | .ror _ => true
  | .sbc _ _ => true
  | .sbci d _ => hiReg d
  | .sbi _ _ => true
  | .sbic _ _ => true
  | .sbis _ _ => true
  | .sbiw d _ => wordReg d
  | .sbrc _ _ => true
  | .sbrs _ _ => true
  | .sleep => true
  | .spm => true
  | .spmZP => true
  | .sts _ _ => true
  | .stX _ => true
  | .stXP _ => true
  | .stMX _ => true
  | .stY _ => true
  | .stYP _ => true
  | .stMY _ => true
  | .stdY q _ => nonzeroDisp q
  | .stZ _ => true
  | .stZP _ => true
  | .stMZ _ => true
  | .stdZ q _ => nonzeroDisp q
  | .sub _ _ => true
  | .subi d _ => hiReg d
  | .swap _ => true
  | .wdr => true
  | .xch _ => true

/-- `Instr.wf` as a proposition. -/
abbrev WellFormed (i : Instr) : Prop := i.wf = true

end Sys2Proof
end

