-- ==== Sys2Proof/Decode.lean ====
section
/-! DEFINITION. Decoding of instruction words by the rows of opcode_table.json (30_encoding.md
R151 to R158, R166), and after it the encoder, written from the same layouts. A decoder takes the
instruction's first word and the word after it; the second is read only by the four two-word
forms. -/

namespace Sys2Proof

/-! ### Fields of an instruction word (30_encoding.md R151, R152) -/

/-- d (or r) of F_RR, F_R1, F_IO, F_RB, F_LDS, F_Q: op[8:4]. -/
def fD (w : Word) : Reg := w.extractLsb' 4 5

/-- r of F_RR: op[9]:op[3:0]. -/
def fR (w : Word) : Reg := w.extractLsb' 9 1 ++ w.extractLsb' 0 4

/-- d of F_RK and F_R4: 16 + op[7:4]. -/
def fDhi (w : Word) : Reg := 1#1 ++ w.extractLsb' 4 4

/-- r of F_R4: 16 + op[3:0]. -/
def fRhi (w : Word) : Reg := 1#1 ++ w.extractLsb' 0 4

/-- d of F_R3: 16 + op[6:4]. -/
def fD3 (w : Word) : Reg := 0b10#2 ++ w.extractLsb' 4 3

/-- r of F_R3: 16 + op[2:0]. -/
def fR3 (w : Word) : Reg := 0b10#2 ++ w.extractLsb' 0 3

/-- d of F_W: 2 * op[7:4]. -/
def fDeven (w : Word) : Reg := w.extractLsb' 4 4 ++ 0#1

/-- r of F_W: 2 * op[3:0]. -/
def fReven (w : Word) : Reg := w.extractLsb' 0 4 ++ 0#1

/-- d of F_IW: 24 + 2 * op[5:4]. -/
def fDiw (w : Word) : Reg := 0b11#2 ++ w.extractLsb' 4 2 ++ 0#1

/-- K of F_RK: op[11:8]:op[3:0]. -/
def fK8 (w : Word) : Byte := w.extractLsb' 8 4 ++ w.extractLsb' 0 4

/-- K of F_IW: op[7:6]:op[3:0]. -/
def fK6 (w : Word) : BitVec 6 := w.extractLsb' 6 2 ++ w.extractLsb' 0 4

/-- A of F_IO: op[10:9]:op[3:0]. -/
def fA6 (w : Word) : BitVec 6 := w.extractLsb' 9 2 ++ w.extractLsb' 0 4

/-- A of F_IOB: op[7:3]. -/
def fA5 (w : Word) : BitVec 5 := w.extractLsb' 3 5

/-- b of F_IOB and F_RB, s of F_BR: op[2:0]. -/
def fb (w : Word) : BitVec 3 := w.extractLsb' 0 3

/-- k of F_BR: op[9:3]. -/
def fk7 (w : Word) : BitVec 7 := w.extractLsb' 3 7

/-- k of F_REL: op[11:0]. -/
def fk12 (w : Word) : BitVec 12 := w.extractLsb' 0 12

/-- k of F_ABS: op[8:4]:op[0]:w2[15:0]. -/
def fk22 (w w2 : Word) : BitVec 22 := w.extractLsb' 4 5 ++ w.extractLsb' 0 1 ++ w2

/-- q of F_Q: op[13]:op[11:10]:op[2:0]. -/
def fq (w : Word) : BitVec 6 := w.extractLsb' 13 1 ++ w.extractLsb' 10 2 ++ w.extractLsb' 0 3

/-- s of F_S: op[6:4]. -/
def fs (w : Word) : BitVec 3 := w.extractLsb' 4 3

/-- K of F_K4: op[7:4]. -/
def fK4 (w : Word) : BitVec 4 := w.extractLsb' 4 4

/-! ### The opcode table -/

/-- A row of opcode_table.json: the mask and match of the first word, and the instruction the row
stands for, from the first word and the word after it. -/
structure Row where
  mask : Word
  bits : Word
  instr : Word → Word → Instr

/-- `(w & mask) == match` (30_encoding.md R154). -/
def Row.matches (r : Row) (w : Word) : Bool := w &&& r.mask == r.bits

/-- Rows 1 to 13 of opcode_table.json. -/
def rows1 : List Row :=
  [ ⟨0xfc00, 0x1c00, fun w _ => .adc (fD w) (fR w)⟩
  , ⟨0xfc00, 0x0c00, fun w _ => .add (fD w) (fR w)⟩
  , ⟨0xff00, 0x9600, fun w _ => .adiw (fDiw w) (fK6 w)⟩
  , ⟨0xfc00, 0x2000, fun w _ => .and (fD w) (fR w)⟩
  , ⟨0xf000, 0x7000, fun w _ => .andi (fDhi w) (fK8 w)⟩
  , ⟨0xfe0f, 0x9405, fun w _ => .asr (fD w)⟩
  , ⟨0xff8f, 0x9488, fun w _ => .bclr (fs w)⟩
  , ⟨0xfe08, 0xf800, fun w _ => .bld (fD w) (fb w)⟩
  , ⟨0xfc00, 0xf400, fun w _ => .brbc (fb w) (fk7 w)⟩
  , ⟨0xfc00, 0xf000, fun w _ => .brbs (fb w) (fk7 w)⟩
  , ⟨0xffff, 0x9598, fun _ _ => .brk⟩
  , ⟨0xff8f, 0x9408, fun w _ => .bset (fs w)⟩
  , ⟨0xfe08, 0xfa00, fun w _ => .bst (fD w) (fb w)⟩ ]

/-- Rows 14 to 26 of opcode_table.json. -/
def rows2 : List Row :=
  [ ⟨0xfe0e, 0x940e, fun w w2 => .call (fk22 w w2)⟩
  , ⟨0xff00, 0x9800, fun w _ => .cbi (fA5 w) (fb w)⟩
  , ⟨0xfe0f, 0x9400, fun w _ => .com (fD w)⟩
  , ⟨0xfc00, 0x1400, fun w _ => .cp (fD w) (fR w)⟩
  , ⟨0xfc00, 0x0400, fun w _ => .cpc (fD w) (fR w)⟩
  , ⟨0xf000, 0x3000, fun w _ => .cpi (fDhi w) (fK8 w)⟩
  , ⟨0xfc00, 0x1000, fun w _ => .cpse (fD w) (fR w)⟩
  , ⟨0xfe0f, 0x940a, fun w _ => .dec (fD w)⟩
  , ⟨0xff0f, 0x940b, fun w _ => .des (fK4 w)⟩
  , ⟨0xffff, 0x9519, fun _ _ => .eicall⟩
  , ⟨0xffff, 0x9419, fun _ _ => .eijmp⟩
  , ⟨0xffff, 0x95d8, fun _ _ => .elpm⟩
  , ⟨0xfe0f, 0x9006, fun w _ => .elpmZ (fD w)⟩ ]

/-- Rows 27 to 39 of opcode_table.json. -/
def rows3 : List Row :=
  [ ⟨0xfe0f, 0x9007, fun w _ => .elpmZP (fD w)⟩
  , ⟨0xfc00, 0x2400, fun w _ => .eor (fD w) (fR w)⟩
  , ⟨0xff88, 0x0308, fun w _ => .fmul (fD3 w) (fR3 w)⟩
  , ⟨0xff88, 0x0380, fun w _ => .fmuls (fD3 w) (fR3 w)⟩
  , ⟨0xff88, 0x0388, fun w _ => .fmulsu (fD3 w) (fR3 w)⟩
  , ⟨0xffff, 0x9509, fun _ _ => .icall⟩
  , ⟨0xffff, 0x9409, fun _ _ => .ijmp⟩
  , ⟨0xf800, 0xb000, fun w _ => .inIo (fD w) (fA6 w)⟩
  , ⟨0xfe0f, 0x9403, fun w _ => .inc (fD w)⟩
  , ⟨0xfe0e, 0x940c, fun w w2 => .jmp (fk22 w w2)⟩
  , ⟨0xfe0f, 0x9206, fun w _ => .lac (fD w)⟩
  , ⟨0xfe0f, 0x9205, fun w _ => .las (fD w)⟩
  , ⟨0xfe0f, 0x9207, fun w _ => .lat (fD w)⟩ ]

/-- Rows 40 to 52 of opcode_table.json. -/
def rows4 : List Row :=
  [ ⟨0xf000, 0xe000, fun w _ => .ldi (fDhi w) (fK8 w)⟩
  , ⟨0xfe0f, 0x9000, fun w w2 => .lds (fD w) w2⟩
  , ⟨0xfe0f, 0x900c, fun w _ => .ldX (fD w)⟩
  , ⟨0xfe0f, 0x900d, fun w _ => .ldXP (fD w)⟩
  , ⟨0xfe0f, 0x900e, fun w _ => .ldMX (fD w)⟩
  , ⟨0xfe0f, 0x8008, fun w _ => .ldY (fD w)⟩
  , ⟨0xfe0f, 0x9009, fun w _ => .ldYP (fD w)⟩
  , ⟨0xfe0f, 0x900a, fun w _ => .ldMY (fD w)⟩
  , ⟨0xd208, 0x8008, fun w _ => .lddY (fD w) (fq w)⟩
  , ⟨0xfe0f, 0x8000, fun w _ => .ldZ (fD w)⟩
  , ⟨0xfe0f, 0x9001, fun w _ => .ldZP (fD w)⟩
  , ⟨0xfe0f, 0x9002, fun w _ => .ldMZ (fD w)⟩
  , ⟨0xd208, 0x8000, fun w _ => .lddZ (fD w) (fq w)⟩ ]

/-- Rows 53 to 65 of opcode_table.json. -/
def rows5 : List Row :=
  [ ⟨0xffff, 0x95c8, fun _ _ => .lpm⟩
  , ⟨0xfe0f, 0x9004, fun w _ => .lpmZ (fD w)⟩
  , ⟨0xfe0f, 0x9005, fun w _ => .lpmZP (fD w)⟩
  , ⟨0xfe0f, 0x9406, fun w _ => .lsr (fD w)⟩
  , ⟨0xfc00, 0x2c00, fun w _ => .mov (fD w) (fR w)⟩
  , ⟨0xff00, 0x0100, fun w _ => .movw (fDeven w) (fReven w)⟩
  , ⟨0xfc00, 0x9c00, fun w _ => .mul (fD w) (fR w)⟩
  , ⟨0xff00, 0x0200, fun w _ => .muls (fDhi w) (fRhi w)⟩
  , ⟨0xff88, 0x0300, fun w _ => .mulsu (fD3 w) (fR3 w)⟩
  , ⟨0xfe0f, 0x9401, fun w _ => .neg (fD w)⟩
  , ⟨0xffff, 0x0000, fun _ _ => .nop⟩
  , ⟨0xfc00, 0x2800, fun w _ => .or (fD w) (fR w)⟩
  , ⟨0xf000, 0x6000, fun w _ => .ori (fDhi w) (fK8 w)⟩ ]

/-- Rows 66 to 78 of opcode_table.json. -/
def rows6 : List Row :=
  [ ⟨0xf800, 0xb800, fun w _ => .outIo (fA6 w) (fD w)⟩
  , ⟨0xfe0f, 0x900f, fun w _ => .pop (fD w)⟩
  , ⟨0xfe0f, 0x920f, fun w _ => .push (fD w)⟩
  , ⟨0xf000, 0xd000, fun w _ => .rcall (fk12 w)⟩
  , ⟨0xffff, 0x9508, fun _ _ => .ret⟩
  , ⟨0xffff, 0x9518, fun _ _ => .reti⟩
  , ⟨0xf000, 0xc000, fun w _ => .rjmp (fk12 w)⟩
  , ⟨0xfe0f, 0x9407, fun w _ => .ror (fD w)⟩
  , ⟨0xfc00, 0x0800, fun w _ => .sbc (fD w) (fR w)⟩
  , ⟨0xf000, 0x4000, fun w _ => .sbci (fDhi w) (fK8 w)⟩
  , ⟨0xff00, 0x9a00, fun w _ => .sbi (fA5 w) (fb w)⟩
  , ⟨0xff00, 0x9900, fun w _ => .sbic (fA5 w) (fb w)⟩
  , ⟨0xff00, 0x9b00, fun w _ => .sbis (fA5 w) (fb w)⟩ ]

/-- Rows 79 to 91 of opcode_table.json. -/
def rows7 : List Row :=
  [ ⟨0xff00, 0x9700, fun w _ => .sbiw (fDiw w) (fK6 w)⟩
  , ⟨0xfe08, 0xfc00, fun w _ => .sbrc (fD w) (fb w)⟩
  , ⟨0xfe08, 0xfe00, fun w _ => .sbrs (fD w) (fb w)⟩
  , ⟨0xffff, 0x9588, fun _ _ => .sleep⟩
  , ⟨0xffff, 0x95e8, fun _ _ => .spm⟩
  , ⟨0xffff, 0x95f8, fun _ _ => .spmZP⟩
  , ⟨0xfe0f, 0x9200, fun w w2 => .sts w2 (fD w)⟩
  , ⟨0xfe0f, 0x920c, fun w _ => .stX (fD w)⟩
  , ⟨0xfe0f, 0x920d, fun w _ => .stXP (fD w)⟩
  , ⟨0xfe0f, 0x920e, fun w _ => .stMX (fD w)⟩
  , ⟨0xfe0f, 0x8208, fun w _ => .stY (fD w)⟩
  , ⟨0xfe0f, 0x9209, fun w _ => .stYP (fD w)⟩
  , ⟨0xfe0f, 0x920a, fun w _ => .stMY (fD w)⟩ ]

/-- Rows 92 to 101 of opcode_table.json. -/
def rows8 : List Row :=
  [ ⟨0xd208, 0x8208, fun w _ => .stdY (fq w) (fD w)⟩
  , ⟨0xfe0f, 0x8200, fun w _ => .stZ (fD w)⟩
  , ⟨0xfe0f, 0x9201, fun w _ => .stZP (fD w)⟩
  , ⟨0xfe0f, 0x9202, fun w _ => .stMZ (fD w)⟩
  , ⟨0xd208, 0x8200, fun w _ => .stdZ (fq w) (fD w)⟩
  , ⟨0xfc00, 0x1800, fun w _ => .sub (fD w) (fR w)⟩
  , ⟨0xf000, 0x5000, fun w _ => .subi (fDhi w) (fK8 w)⟩
  , ⟨0xfe0f, 0x9402, fun w _ => .swap (fD w)⟩
  , ⟨0xffff, 0x95a8, fun _ _ => .wdr⟩
  , ⟨0xfe0f, 0x9204, fun w _ => .xch (fD w)⟩ ]

/-- The 101 rows, in the table's order. The LD and ST rows of Y and Z stand before the LDD and STD
rows, so the first match gives a word with q = 0 to LD or ST (30_encoding.md R154, D30). -/
def opcodeTable : List Row :=
  rows1 ++ rows2 ++ rows3 ++ rows4 ++ rows5 ++ rows6 ++ rows7 ++ rows8

/-- Why a word is no instruction of the table. -/
inductive DecodeError where
  /-- The word matches no row: it is reserved (30_encoding.md R166), and the engine runs it as a
  1-cycle no-op. -/
  | reserved (w : Word)
  deriving DecidableEq, Repr

/-- Decode a first word `w`, with the word `w2` after it (30_encoding.md R154). Total; a reserved
word is rejected by name. -/
def decode (w w2 : Word) : Except DecodeError Instr :=
  match opcodeTable.find? (fun r => r.matches w) with
  | some r => .ok (r.instr w w2)
  | none => .error (.reserved w)

/-- Does `w` start a two-word instruction: LDS, STS, JMP or CALL (30_encoding.md R158). -/
def twoWord (w : Word) : Bool :=
  w &&& 0xfe0f == 0x9000 || w &&& 0xfe0f == 0x9200 ||
    w &&& 0xfe0e == 0x940c || w &&& 0xfe0e == 0x940e

/-- The instruction an instruction of `nbits` bits decodes to, its first word in the low 16 bits of
`w` and its second above them; bits at and above `nbits` are 0. -/
def decodeTableWord (nbits w : Nat) : Option Instr :=
  match decode (BitVec.ofNat 16 (w % 2 ^ nbits)) (BitVec.ofNat 16 (w % 2 ^ nbits / 65536)) with
  | .ok i => some i
  | .error _ => none

/-! ### Encoding (30_encoding.md R151): each layout from bit 15 down to bit 0 -/

/-- `oooo oord dddd rrrr`. -/
def encRR (o : BitVec 6) (d r : Reg) : Word :=
  o ++ r.extractLsb' 4 1 ++ d ++ r.extractLsb' 0 4

/-- `oooo KKKK dddd KKKK`. -/
def encRK (o : BitVec 4) (d : Reg) (K : Byte) : Word :=
  o ++ K.extractLsb' 4 4 ++ d.extractLsb' 0 4 ++ K.extractLsb' 0 4

/-- `oooo oood dddd oooo`. -/
def encR1 (o : BitVec 7) (l : BitVec 4) (d : Reg) : Word := o ++ d ++ l

/-- `oooo oooo dddd rrrr`. -/
def encR4 (o : BitVec 8) (d r : Reg) : Word :=
  o ++ d.extractLsb' 0 4 ++ r.extractLsb' 0 4

/-- `oooo oooo oddd orrr`. -/
def encR3 (o : BitVec 8) (m l : BitVec 1) (d r : Reg) : Word :=
  o ++ m ++ d.extractLsb' 0 3 ++ l ++ r.extractLsb' 0 3

/-- `oooo oooo dddd rrrr`, register numbers halved. -/
def encW (o : BitVec 8) (d r : Reg) : Word :=
  o ++ d.extractLsb' 1 4 ++ r.extractLsb' 1 4

/-- `oooo oooo KKdd KKKK`. -/
def encIW (o : BitVec 8) (d : Reg) (K : BitVec 6) : Word :=
  o ++ K.extractLsb' 4 2 ++ d.extractLsb' 1 2 ++ K.extractLsb' 0 4

/-- `oooo oAAd dddd AAAA`. -/
def encIO (o : BitVec 5) (d : Reg) (A : BitVec 6) : Word :=
  o ++ A.extractLsb' 4 2 ++ d ++ A.extractLsb' 0 4

/-- `oooo oooo AAAA Abbb`. -/
def encIOB (o : BitVec 8) (A : BitVec 5) (b : BitVec 3) : Word := o ++ A ++ b

/-- `oooo oood dddd obbb`, op[3] = 0. -/
def encRB (o : BitVec 7) (d : Reg) (b : BitVec 3) : Word := o ++ d ++ 0#1 ++ b

/-- `oooo ookk kkkk ksss`. -/
def encBR (o : BitVec 6) (k : BitVec 7) (n : BitVec 3) : Word := o ++ k ++ n

/-- `oooo kkkk kkkk kkkk`. -/
def encREL (o : BitVec 4) (k : BitVec 12) : Word := o ++ k

/-- `oooo oook kkkk oook`, the first word of `oooo oook kkkk oook; kkkk kkkk kkkk kkkk`. -/
def encABS (o : BitVec 7) (l : BitVec 3) (k : BitVec 22) : Word :=
  o ++ k.extractLsb' 17 5 ++ l ++ k.extractLsb' 16 1

/-- `ooqo qqod dddd oqqq`: bit 9 is 0 for LDD and 1 for STD, bit 3 is 1 for Y and 0 for Z. -/
def encQ (st y : BitVec 1) (d : Reg) (q : BitVec 6) : Word :=
  0b10#2 ++ q.extractLsb' 5 1 ++ 0#1 ++ q.extractLsb' 3 2 ++ st ++ d ++ y ++ q.extractLsb' 0 3

/-- `oooo oooo osss oooo`, with op[3:0] = 1000. -/
def encS (o : BitVec 9) (n : BitVec 3) : Word := o ++ n ++ 0b1000#4

/-- `oooo oooo KKKK oooo`. -/
def encK4 (o : BitVec 8) (l : BitVec 4) (K : BitVec 4) : Word := o ++ K ++ l

/-- The words of an instruction, the first word first (opcode_table.json's `encoding`). -/
def encode : Instr → List Word
  | .adc d r => [encRR 0b000111#6 d r]
  | .add d r => [encRR 0b000011#6 d r]
  | .adiw d K => [encIW 0b10010110#8 d K]
  | .and d r => [encRR 0b001000#6 d r]
  | .andi d K => [encRK 0b0111#4 d K]
  | .asr d => [encR1 0b1001010#7 0b0101#4 d]
  | .bclr n => [encS 0b100101001#9 n]
  | .bld d b => [encRB 0b1111100#7 d b]
  | .brbc n k => [encBR 0b111101#6 k n]
  | .brbs n k => [encBR 0b111100#6 k n]
  | .brk => [0x9598#16]
  | .bset n => [encS 0b100101000#9 n]
  | .bst d b => [encRB 0b1111101#7 d b]
  | .call k => [encABS 0b1001010#7 0b111#3 k, k.extractLsb' 0 16]
  | .cbi A b => [encIOB 0b10011000#8 A b]
  | .com d => [encR1 0b1001010#7 0b0000#4 d]
  | .cp d r => [encRR 0b000101#6 d r]
  | .cpc d r => [encRR 0b000001#6 d r]
  | .cpi d K => [encRK 0b0011#4 d K]
  | .cpse d r => [encRR 0b000100#6 d r]
  | .dec d => [encR1 0b1001010#7 0b1010#4 d]
  | .des K => [encK4 0b10010100#8 0b1011#4 K]
  | .eicall => [0x9519#16]
  | .eijmp => [0x9419#16]
  | .elpm => [0x95d8#16]
  | .elpmZ d => [encR1 0b1001000#7 0b0110#4 d]
  | .elpmZP d => [encR1 0b1001000#7 0b0111#4 d]
  | .eor d r => [encRR 0b001001#6 d r]
  | .fmul d r => [encR3 0b00000011#8 0b0#1 0b1#1 d r]
  | .fmuls d r => [encR3 0b00000011#8 0b1#1 0b0#1 d r]
  | .fmulsu d r => [encR3 0b00000011#8 0b1#1 0b1#1 d r]
  | .icall => [0x9509#16]
  | .ijmp => [0x9409#16]
  | .inIo d A => [encIO 0b10110#5 d A]
  | .inc d => [encR1 0b1001010#7 0b0011#4 d]
  | .jmp k => [encABS 0b1001010#7 0b110#3 k, k.extractLsb' 0 16]
  | .lac d => [encR1 0b1001001#7 0b0110#4 d]
  | .las d => [encR1 0b1001001#7 0b0101#4 d]
  | .lat d => [encR1 0b1001001#7 0b0111#4 d]
  | .ldi d K => [encRK 0b1110#4 d K]
  | .lds d k => [encR1 0b1001000#7 0b0000#4 d, k]
  | .ldX d => [encR1 0b1001000#7 0b1100#4 d]
  | .ldXP d => [encR1 0b1001000#7 0b1101#4 d]
  | .ldMX d => [encR1 0b1001000#7 0b1110#4 d]
  | .ldY d => [encR1 0b1000000#7 0b1000#4 d]
  | .ldYP d => [encR1 0b1001000#7 0b1001#4 d]
  | .ldMY d => [encR1 0b1001000#7 0b1010#4 d]
  | .lddY d q => [encQ 0b0#1 0b1#1 d q]
  | .ldZ d => [encR1 0b1000000#7 0b0000#4 d]
  | .ldZP d => [encR1 0b1001000#7 0b0001#4 d]
  | .ldMZ d => [encR1 0b1001000#7 0b0010#4 d]
  | .lddZ d q => [encQ 0b0#1 0b0#1 d q]
  | .lpm => [0x95c8#16]
  | .lpmZ d => [encR1 0b1001000#7 0b0100#4 d]
  | .lpmZP d => [encR1 0b1001000#7 0b0101#4 d]
  | .lsr d => [encR1 0b1001010#7 0b0110#4 d]
  | .mov d r => [encRR 0b001011#6 d r]
  | .movw d r => [encW 0b00000001#8 d r]
  | .mul d r => [encRR 0b100111#6 d r]
  | .muls d r => [encR4 0b00000010#8 d r]
  | .mulsu d r => [encR3 0b00000011#8 0b0#1 0b0#1 d r]
  | .neg d => [encR1 0b1001010#7 0b0001#4 d]
  | .nop => [0x0000#16]
  | .or d r => [encRR 0b001010#6 d r]
  | .ori d K => [encRK 0b0110#4 d K]
  | .outIo A r => [encIO 0b10111#5 r A]
  | .pop d => [encR1 0b1001000#7 0b1111#4 d]
  | .push r => [encR1 0b1001001#7 0b1111#4 r]
  | .rcall k => [encREL 0b1101#4 k]
  | .ret => [0x9508#16]
  | .reti => [0x9518#16]
  | .rjmp k => [encREL 0b1100#4 k]
  | .ror d => [encR1 0b1001010#7 0b0111#4 d]
  | .sbc d r => [encRR 0b000010#6 d r]
  | .sbci d K => [encRK 0b0100#4 d K]
  | .sbi A b => [encIOB 0b10011010#8 A b]
  | .sbic A b => [encIOB 0b10011001#8 A b]
  | .sbis A b => [encIOB 0b10011011#8 A b]
  | .sbiw d K => [encIW 0b10010111#8 d K]
  | .sbrc r b => [encRB 0b1111110#7 r b]
  | .sbrs r b => [encRB 0b1111111#7 r b]
  | .sleep => [0x9588#16]
  | .spm => [0x95e8#16]
  | .spmZP => [0x95f8#16]
  | .sts k r => [encR1 0b1001001#7 0b0000#4 r, k]
  | .stX r => [encR1 0b1001001#7 0b1100#4 r]
  | .stXP r => [encR1 0b1001001#7 0b1101#4 r]
  | .stMX r => [encR1 0b1001001#7 0b1110#4 r]
  | .stY r => [encR1 0b1000001#7 0b1000#4 r]
  | .stYP r => [encR1 0b1001001#7 0b1001#4 r]
  | .stMY r => [encR1 0b1001001#7 0b1010#4 r]
  | .stdY q r => [encQ 0b1#1 0b1#1 r q]
  | .stZ r => [encR1 0b1000001#7 0b0000#4 r]
  | .stZP r => [encR1 0b1001001#7 0b0001#4 r]
  | .stMZ r => [encR1 0b1001001#7 0b0010#4 r]
  | .stdZ q r => [encQ 0b1#1 0b0#1 r q]
  | .sub d r => [encRR 0b000110#6 d r]
  | .subi d K => [encRK 0b0101#4 d K]
  | .swap d => [encR1 0b1001010#7 0b0010#4 d]
  | .wdr => [0x95a8#16]
  | .xch d => [encR1 0b1001001#7 0b0100#4 d]

end Sys2Proof
end

