-- ==== Sys2Proof/Config.lean ====
section
/-! DEFINITION. What is fixed for the life of a core instance (00_scope.md R7), the interrupt
descriptors (10_state.md R68), what the environment may do when the core calls it (20_memory.md
R104), and the one free value of the model: what the environment answers. -/

namespace Sys2Proof

/-! ### Parameters -/

/-- The order of clock events with equal due cycles: an OPEN parameter (92_eei_decisions.md D12,
60_exceptions.md R521). -/
inductive TieOrder where
  | fifo
  | lifo
  deriving DecidableEq, Repr

/-- The implementation parameters of 00_scope.md R7, fixed for the life of a core instance. `PROG` and
`ENV` are in the state. -/
structure Config where
  /-- `L`: program memory length in 16-bit words. -/
  progWords : Nat
  /-- `REG_SPACE`: bytes of data space below SRAM. -/
  regSpace : Nat
  /-- `SRAM_BYTES`. -/
  sramBytes : Nat
  /-- `IRQ_CYCLES`: cycles an interrupt dispatch adds; the spec's value is 2 (90_conflicts.md C3). -/
  irqCycles : Nat
  /-- `TIE_ORDER`. -/
  tieOrder : TieOrder
  /-- `UPDATE_ADDS_IF_ABSENT`; the spec's value is true (92_eei_decisions.md D13). -/
  updateAddsIfAbsent : Bool
  deriving DecidableEq, Repr

/-- `DATA_SIZE = REG_SPACE + SRAM_BYTES`. -/
def Config.dataSize (c : Config) : Nat := c.regSpace + c.sramBytes

/-- `PC22`: true exactly when `L > 0x10000` (10_state.md R58). -/
def Config.pc22 (c : Config) : Bool := decide (0x10000 < c.progWords)

/-- The bytes of a return address: 3 in PC22 mode and 2 in PC16 mode (10_state.md R58). -/
def Config.pcBytes (c : Config) : Nat := if c.pc22 then 3 else 2

/-- `LaunchParams`: the sizes are inside their ranges (00_scope.md R7, 70_reset_and_hazards.md R604).
`IRQ_CYCLES` and `UPDATE_ADDS_IF_ABSENT` are left free here (93_implementation_defined.md section 1). -/
abbrev Config.Wf (c : Config) : Prop :=
  1 ≤ c.progWords ∧ c.progWords ≤ 2 ^ 22 ∧ 0x60 ≤ c.regSpace ∧ c.dataSize ≤ 0x10000

/-- DESIGN CHOICE (log 1): the parameters `State.reset` stands for are those of the conventions of
95_test_vectors.md section 0. Unsafe for a claim that rests on these numbers. -/
def Config.standard : Config where
  progWords := 0x100
  regSpace := 0x100
  sramBytes := 8192
  irqCycles := 2
  tieOrder := .fifo
  updateAddsIfAbsent := true

/-! ### Interrupt descriptors -/

/-- Edge-sensitive (the default) or level-sensitive (10_state.md R68, 60_exceptions.md R518). -/
inductive IrqKind where
  | edge
  | level
  deriving DecidableEq, Repr

/-- An interrupt descriptor (10_state.md R68). -/
structure Descriptor where
  vectorAddress : Nat
  enableRegister : Nat
  enableMask : Byte
  flagRegister : Nat
  flagMask : Byte
  kind : IrqKind
  inverseFlag : Bool
  deriving DecidableEq, Repr

/-- A clock event: the absolute due cycle and the callback's identity (10_state.md R63). -/
structure ClockEvent where
  due : Nat
  id : Nat
  deriving DecidableEq, Repr

/-! ### The environment (20_memory.md R104) -/

/-- One thing the environment may do in a call that calls no further hook: a scheduler operation
(60_exceptions.md R521 to R523), an interrupt-controller operation (R507 to R511), or a raw write of a
data byte. Reading state changes nothing and needs no operation here. -/
inductive EnvOp where
  | addClockEvent (id : Nat) (n : Int)
  | clearClockEvent (id : Nat)
  | updateClockEvent (id : Nat) (n : Int)
  | setInterruptFlag (q : Descriptor)
  | updateInterruptEnable (q : Descriptor) (v : Byte)
  | queueInterrupt (q : Descriptor)
  | clearInterrupt (q : Descriptor) (clearFlagBit : Bool)
  | clearInterruptByFlag (q : Descriptor) (v : Byte)
  | rawWrite (a : Nat) (v : Byte)
  deriving DecidableEq, Repr

/-- A finite sequence of the things the environment does in one call. Its own bus accesses may call
further hooks; what such a nested hook does is `nested`, used only when the address carries a hook,
and `handled` is a nested write hook's answer. -/
inductive EnvScript where
  | done
  | op (o : EnvOp) (rest : EnvScript)
  | busRead (a : Nat) (nested rest : EnvScript)
  | busWrite (a : Nat) (v mask : Byte) (handled : Bool) (nested rest : EnvScript)
  deriving DecidableEq, Repr, Inhabited

/-- What the environment answers when the core calls it: the value of a read hook (any number, used
mod 256, R100), the answer of a write hook (any boolean, R101), how many cycles past the
instruction's start the cycle count it sees is (cut off at the instruction's cost minus 1, R104), and
what it does. -/
structure EnvReply where
  value : Nat
  handled : Bool
  seen : Nat
  script : EnvScript
  deriving DecidableEq, Repr, Inhabited

/-- FREE VALUE (log 4): what the environment answers to the core's n-th call once the answers listed
in the state are used up. Nothing constrains it (20_memory.md R104 calls each answer a draw). -/
opaque Config.envReply : Nat → EnvReply

/-- A call the core makes to the environment, with what it hands over (20_memory.md R100, R101,
60_exceptions.md R524, 44_mcu_control.md R473). -/
inductive EnvCall where
  | readHook (a : Nat)
  | writeHook (newValue oldValue : Byte) (a : Nat) (mask : Byte)
  | callback (id : Nat)
  | watchdogReset
  deriving DecidableEq, Repr

end Sys2Proof
end

