-- ==== Sys2Proof/Machine/Memory.lean ====
section
/-! DEFINITION. A memory as plain data: a list of (address, cell) pairs in one canonical form. The data
space holds bytes (10_state.md R50) and program memory 16-bit words (10_state.md R59). -/

namespace Sys2Proof.Machine

/-- A memory with cells of `w` bits: a list of (address, cell) pairs. `Memory 8` is
`List Host.Cell`. -/
abbrev Memory (w : Nat) := List (Nat × BitVec w)

/-- What an address that is not listed reads as: 0. For the data space this is the reset value
(10_state.md R72); for program memory a DESIGN CHOICE (log 2). -/
def Memory.blank {w : Nat} : BitVec w := 0

/-- The cell at an address. -/
def Memory.read {w : Nat} : Memory w → Nat → BitVec w
  | [], _ => Memory.blank
  | (k, x) :: rest, a => if k = a then x else Memory.read rest a

/-- The memory without an entry at an address. -/
def Memory.erase {w : Nat} (m : Memory w) (a : Nat) : Memory w := m.filter (fun c => c.1 != a)

/-- Put an entry before the first one with a greater address. -/
def Memory.insert {w : Nat} : Memory w → Nat → BitVec w → Memory w
  | [], a, v => [(a, v)]
  | (k, x) :: rest, a, v =>
    if k < a then (k, x) :: Memory.insert rest a v else (a, v) :: (k, x) :: rest

/-- Write a cell, keeping the canonical form: writing the blank value lists nothing. -/
def Memory.write {w : Nat} (m : Memory w) (a : Nat) (v : BitVec w) : Memory w :=
  if v = Memory.blank then m.erase a else (m.erase a).insert a v

/-- The canonical form: addresses strictly rising, no entry equal to the blank value. -/
abbrev Memory.wf {w : Nat} (m : Memory w) : Prop :=
  m.Pairwise (fun c c' => c.1 < c'.1) ∧ ∀ c ∈ m, c.2 ≠ Memory.blank

/-- Every listed address is below `n`. -/
abbrev Memory.below {w : Nat} (m : Memory w) (n : Nat) : Prop := ∀ c ∈ m, c.1 < n

end Sys2Proof.Machine
end

