-- ==== Sys2Proof/Machine/State.lean ====
section
/-! DEFINITION. The state of the core as plain data (10_state.md), why a step can stop
(60_exceptions.md R501), and the state after construction (70_reset_and_hazards.md R600). -/

namespace Sys2Proof.Machine

/-- The whole state (10_state.md). The general registers, SREG, SP, RAMPZ and EIND are cells of `data`
(R50, R51, R54) and have no storage of their own. -/
structure State where
  /-- The parameters of this instance (00_scope.md R7). No step changes them. -/
  cfg : Config
  /-- PROG, the words of program memory (10_state.md R59). No step changes it. -/
  prog : Memory 16
  /-- D, the data space (10_state.md R50). -/
  data : Memory 8
  /-- The word address of the next instruction (10_state.md R57). -/
  pc : Nat
  /-- The cycle counter (10_state.md R60). -/
  cycles : Nat
  /-- The data addresses that carry a read hook (10_state.md R61). -/
  readHooks : List Nat
  /-- The data addresses that carry a write hook (10_state.md R61). -/
  writeHooks : List Nat
  /-- Is a watchdog peripheral attached (44_mcu_control.md R473). -/
  watchdog : Bool
  /-- Has the first step been taken: from then on the hook tables and the watchdog are fixed
  (00_scope.md R7, 60_exceptions.md R531; log 12). -/
  started : Bool
  /-- The pending set, in rising order of vector address (10_state.md R62). -/
  pending : List Descriptor
  /-- The event chain, in rising order of due cycle (10_state.md R63). -/
  events : List ClockEvent
  /-- The MODEL's own field (log 4): the environment's coming answers. -/
  replies : List EnvReply
  /-- The MODEL's own field (log 4): how many answers the environment has given. -/
  draws : Nat
  /-- The MODEL's own field (log 5): the calls made to the environment, the newest first. No step
  reads it. -/
  calls : List EnvCall
  deriving DecidableEq, Repr

/-- Why a step stops: the model faults of 60_exceptions.md R501. All are safe: the machine has no next
state where the spec gives none. -/
inductive Fault where
  /-- A data access at `a < 0` or `a >= DATA_SIZE` (20_memory.md R105). Raised by every bus and raw
  access with a computed address: loads, stores, the stack, interrupt flag bytes. Safe. -/
  | dataOutOfRange (a : Int)
  /-- A program-memory read at `i >= L` (20_memory.md R107). Raised by the fetch, the operand word, the
  skip look-ahead, LPM and ELPM. Safe. -/
  | progOutOfRange (i : Nat)
  /-- An operand combination of 30_encoding.md R167. Raised by the LD, ST, LPM and ELPM forms that update
  the pointer which is also the data register. Safe. -/
  | undefinedCombination
  /-- A scheduler or interrupt-controller operation, or `tick()`, found its chain or its pending set out of
  order (60_exceptions.md R501). Safe. -/
  | schedulerInvariant
  /-- The environment did what 20_memory.md R104 forbids, or the driver broke 60_exceptions.md R531.
  Raised by environment calls and driver operations. Safe. -/
  | envContract
  deriving DecidableEq, Repr

/-- Why an instruction has no meaning. -/
inductive Refusal where
  /-- The instruction has no meaning yet. Raised only by an arm of `exec` that is rejected by name; no
  arm of this model is. Safe. -/
  | notModelled (mnemonic : String)
  deriving DecidableEq, Repr

/-- The data space after reset (70_reset_and_hazards.md R601): every byte 0, but SP = DATA_SIZE - 1 in
D[0x5D] (low) and D[0x5E] (high). -/
def resetData (c : Config) : Memory 8 :=
  (Memory.write [] 0x5D (BitVec.ofNat 8 (c.dataSize - 1))).write 0x5E
    (BitVec.ofNat 8 ((c.dataSize - 1) / 256))

/-- The state after construction with parameters `c` and program `prog` (70_reset_and_hazards.md R600):
the values of 10_state.md R72 with `cycles = 0` and no hooks. -/
def State.construct (c : Config) (prog : Memory 16) : State where
  cfg := c
  prog := prog
  data := resetData c
  pc := 0
  cycles := 0
  readHooks := []
  writeHooks := []
  watchdog := false
  started := false
  pending := []
  events := []
  replies := []
  draws := 0
  calls := []

/-- The machine right after reset: construction with the conventions of 95_test_vectors.md section 0
(DESIGN CHOICE, log 1) and no program loaded (log 2, 3). -/
def State.reset : State := State.construct Config.standard []

end Sys2Proof.Machine
end

