-- ==== Sys2Proof/Machine/Ops.lean ====
section
/-! DEFINITION. The named operations over the state: data cells and registers (10_state.md R50 to
R56), raw access (20_memory.md R102, R105), program-memory reads (R107), the stack (R108), the trailing
step (30_encoding.md R156), the one exception of this core, interrupt dispatch (60_exceptions.md
R516), with the return from it (41_branch.md R308, R309), and the reset procedure
(70_reset_and_hazards.md R601). -/

namespace Sys2Proof.Machine

/-- How an `Except` result ends a step. -/
def toOutcome : Except Fault State → Host.Outcome State Fault Refusal
  | .ok s => .next s
  | .error f => .fault f

/-! ### Data cells, registers, pairs and the core-owned registers -/

/-- `D[a]`: the raw byte at a data address, no hook, no range check (10_state.md R50). -/
def State.byte (s : State) (a : Nat) : Byte := s.data.read a

/-- `D[a] <- v`: raw, no range check; used for registers and core-owned bytes, which every data space
has (00_scope.md R7: `DATA_SIZE >= 0x60`). -/
def State.setByte (s : State) (a : Nat) (v : Byte) : State := { s with data := s.data.write a v }

/-- `x[d]` (10_state.md R51). -/
def State.reg (s : State) (d : Reg) : Byte := s.byte d.toNat

/-- `x[d] <- v` (10_state.md R51). -/
def State.setReg (s : State) (d : Reg) (v : Byte) : State := s.setByte d.toNat v

/-- `Pair(a)` (10_state.md R52). -/
def State.pair (s : State) (a : Nat) : Word := s.byte (a + 1) ++ s.byte a

/-- `SetPair(a, v)` (10_state.md R52). -/
def State.setPair (s : State) (a : Nat) (v : Word) : State :=
  (s.setByte a (v.extractLsb' 0 8)).setByte (a + 1) (v.extractLsb' 8 8)

/-- The data address of RAMPZ (10_state.md R54). -/
def rampzAddr : Nat := 0x5B

/-- The data address of EIND (10_state.md R54). -/
def eindAddr : Nat := 0x5C

/-- The data address of SPL; SPH is the next one (10_state.md R54, R56). -/
def spAddr : Nat := 0x5D

/-- The data address of SREG (10_state.md R54). -/
def sregAddr : Nat := 0x5F

/-- SREG (10_state.md R55). -/
def State.sreg (s : State) : Byte := s.byte sregAddr

/-- A raw write of all of SREG. -/
def State.setSreg (s : State) (v : Byte) : State := s.setByte sregAddr v

/-- SP (10_state.md R56). -/
def State.sp (s : State) : Word := s.pair spAddr

/-- `SP <- v mod 65536`. -/
def State.setSp (s : State) (v : Int) : State := s.setPair spAddr (BitVec.ofInt 16 v)

/-- X, Y or Z by its low-byte address 26, 28 or 30, or any other pair. -/
def xAddr : Nat := 26
@[inherit_doc xAddr] def yAddr : Nat := 28
@[inherit_doc xAddr] def zAddr : Nat := 30

/-- The addresses of the core-owned registers RAMPZ, EIND, SPL, SPH and SREG (10_state.md R54). -/
def coreOwned (a : Nat) : Bool := decide (0x5B ≤ a) && decide (a ≤ 0x5F)

/-! ### Raw access -/

/-- `RawRead(a)` (20_memory.md R102). -/
def rawRead (a : Int) (s : State) : Except Fault Byte :=
  if 0 ≤ a ∧ a < s.cfg.dataSize then .ok (s.byte a.toNat) else .error (.dataOutOfRange a)

/-- `RawWrite(a, v)` (20_memory.md R102). -/
def rawWrite (a : Int) (v : Byte) (s : State) : Except Fault State :=
  if 0 ≤ a ∧ a < s.cfg.dataSize then .ok (s.setByte a.toNat v) else .error (.dataOutOfRange a)

/-! ### Program memory -/

/-- `ProgWord(i)` (20_memory.md R107). -/
def progWord (i : Nat) (s : State) : Except Fault Word :=
  if i < s.cfg.progWords then .ok (s.prog.read i) else .error (.progOutOfRange i)

/-- `ProgByte(b)` (20_memory.md R107). -/
def progByte (b : Nat) (s : State) : Except Fault Byte := do
  let w ← progWord (b / 2) s
  return if b % 2 = 0 then w.extractLsb' 0 8 else w.extractLsb' 8 8

/-! ### The trailing step -/

/-- The end of an instruction whose body left `p` in the program counter (`p` may be negative: a jump
leaves `target - 1`) and added `n` cycles: `pc <- (p + 1) mod L; cycles += n + 1` (30_encoding.md
R156). -/
def State.finishAt (s : State) (p : Int) (n : Nat) : State :=
  { s with pc := ((p + 1) % (s.cfg.progWords : Int)).toNat, cycles := s.cycles + n + 1 }

/-- The end of an instruction whose body left the program counter alone. -/
def State.finish (s : State) (n : Nat) : State := s.finishAt s.pc n

/-- The first step is behind the machine: the environment registers nothing more (60_exceptions.md
R531). -/
def State.start (s : State) : State := { s with started := true }

/-! ### The stack (20_memory.md R108) -/

/-- `Push1(v)`. -/
def push1 (v : Byte) (s : State) : Except Fault State := do
  let p : Int := s.sp.toNat
  let s1 ← rawWrite p v s
  return s1.setSp (p - 1)

/-- `Pop1()`. -/
def pop1 (s : State) : Except Fault (Byte × State) := do
  let p : Int := s.sp.toNat + 1
  let v ← rawRead p s
  return (v, s.setSp p)

/-- `PushPC(v)`: low byte first, downwards; 2 bytes in PC16 mode and 3 in PC22 mode. -/
def pushPC (v : Nat) (s : State) : Except Fault State := do
  let p : Int := s.sp.toNat
  let s1 ← rawWrite p (BitVec.ofNat 8 v) s
  let s2 ← rawWrite (p - 1) (BitVec.ofNat 8 (v / 256)) s1
  let s3 ← if s.cfg.pc22 then rawWrite (p - 2) (BitVec.ofNat 8 (v / 65536)) s2 else pure s2
  return s3.setSp (p - s.cfg.pcBytes)

/-- `PopPC()`. -/
def popPC (s : State) : Except Fault (Nat × State) := do
  let p : Int := s.sp.toNat
  if s.cfg.pc22 then
    let h ← rawRead (p + 1) s
    let m ← rawRead (p + 2) s
    let l ← rawRead (p + 3) s
    return (h.toNat * 65536 + m.toNat * 256 + l.toNat, s.setSp (p + 3))
  else
    let m ← rawRead (p + 1) s
    let l ← rawRead (p + 2) s
    return (m.toNat * 256 + l.toNat, s.setSp (p + 2))

/-! ### Taking an interrupt, and returning (60_exceptions.md R516, R517) -/

/-- `Dispatch(a)`: push `pc`, clear SREG.I, add `IRQ_CYCLES`, and go to the vector address, which is not
reduced mod L. This is the only exception entry of the core (60_exceptions.md R500, R516). -/
def dispatch (a : Nat) (s : State) : Except Fault State := do
  let s1 ← pushPC s.pc s
  let s2 := s1.setSreg (s1.sreg &&& 0x7F)
  return { s2 with cycles := s2.cycles + s.cfg.irqCycles, pc := a }

/-- The extra cycles of CALL, RET and RETI beyond the trailing one: 3 in PC16 mode and 4 in PC22 mode
(70_reset_and_hazards.md R610). -/
def farCycles (c : Config) : Nat := if c.pc22 then 4 else 3

/-- The extra cycles of RCALL and ICALL: 2 in PC16 mode and 3 in PC22 mode (70_reset_and_hazards.md
R610). -/
def nearCycles (c : Config) : Nat := if c.pc22 then 3 else 2

/-- Pop the return address and go to it (41_branch.md R308). -/
def returnFromSubroutine (s : State) : Except Fault State := do
  let (t, s1) ← popPC s
  return s1.finishAt ((t : Int) - 1) (farCycles s.cfg)

/-- Pop the return address, set SREG.I and go to the address (41_branch.md R309). -/
def returnFromInterrupt (s : State) : Except Fault State := do
  let (t, s1) ← popPC s
  let s2 := s1.setSreg (s1.sreg ||| 0x80)
  return s2.finishAt ((t : Int) - 1) (farCycles s.cfg)

/-! ### The reset procedure -/

/-- `reset()` (70_reset_and_hazards.md R601): the data space, pc, the pending set and the event chain
start again; the cycle counter, the hook tables and program memory are unchanged, and a run that had
begun has begun (70_reset_and_hazards.md R603). -/
def State.doReset (s : State) : State :=
  { s with data := resetData s.cfg, pc := 0, pending := [], events := [] }

end Sys2Proof.Machine
end

