-- ==== Sys2Proof/Machine/Flags.lean ====
section
/-! DEFINITION. SREG's flags (10_state.md R55) and every flag computation of the spec (40_alu.md R200
to R204, R213, R218, R224 to R227, R230 to R235). Each works on the SREG byte as it stood before the
instruction. -/

namespace Sys2Proof.Machine

/-- The flags of SREG (10_state.md R55). -/
inductive Flag where
  | C | Z | N | V | S | H | T | I
  deriving DecidableEq, Repr

/-- `bit(F)`: the flag's bit number in SREG (10_state.md R55, 92_eei_decisions.md D4). -/
def Flag.bit : Flag → Nat
  | .C => 0 | .Z => 1 | .N => 2 | .V => 3 | .S => 4 | .H => 5 | .T => 6 | .I => 7

/-- A flag's value in an SREG byte. -/
def flagOf (sreg : Byte) (f : Flag) : Bool := sreg.getLsbD f.bit

/-- `SREG.F`. -/
def State.flag (s : State) (f : Flag) : Bool := flagOf s.sreg f

/-- `1 << bit(F)`. -/
def Flag.mask (f : Flag) : Byte := 1#8 <<< f.bit

/-- `SetFlags(F1 = e1, ..., Fn = en)`: the bits named are replaced and the others left untouched
(40_alu.md R200). -/
def setFlags (fs : List (Flag × Bool)) (sreg : Byte) : Byte :=
  (sreg &&& ~~~(fs.foldr (fun p m => p.1.mask ||| m) 0)) |||
    fs.foldr (fun p m => (if p.2 then p.1.mask else 0) ||| m) 0

/-- A carry as a number. -/
def carry (c : Bool) : Byte := if c then 1 else 0

/-- `AddFlags(a, b, r)` (40_alu.md R201). -/
def addFlags (a b r sreg : Byte) : Byte :=
  let a3 := a.getLsbD 3; let b3 := b.getLsbD 3; let r3 := r.getLsbD 3
  let a7 := a.getLsbD 7; let b7 := b.getLsbD 7; let r7 := r.getLsbD 7
  let h := (a3 && b3) || (b3 && !r3) || (!r3 && a3)
  let v := (a7 && b7 && !r7) || (!a7 && !b7 && r7)
  let c := (a7 && b7) || (b7 && !r7) || (!r7 && a7)
  setFlags [(.H, h), (.S, r7 != v), (.V, v), (.N, r7), (.Z, r == 0), (.C, c)] sreg

/-- `SubFlags(a, b, r, chainZ)` (40_alu.md R202). -/
def subFlags (a b r : Byte) (chainZ : Bool) (sreg : Byte) : Byte :=
  let a3 := a.getLsbD 3; let b3 := b.getLsbD 3; let r3 := r.getLsbD 3
  let a7 := a.getLsbD 7; let b7 := b.getLsbD 7; let r7 := r.getLsbD 7
  let h := (!a3 && b3) || (b3 && r3) || (r3 && !a3)
  let v := (a7 && !b7 && !r7) || (!a7 && b7 && r7)
  let c := (!a7 && b7) || (b7 && r7) || (r7 && !a7)
  let z := if chainZ then (r == 0) && flagOf sreg .Z else r == 0
  setFlags [(.H, h), (.S, r7 != v), (.V, v), (.N, r7), (.Z, z), (.C, c)] sreg

/-- `LogicFlags(r)` (40_alu.md R203). -/
def logicFlags (r sreg : Byte) : Byte :=
  let r7 := r.getLsbD 7
  setFlags [(.S, r7), (.V, false), (.N, r7), (.Z, r == 0)] sreg

/-- `ShiftFlags(a, r)` (40_alu.md R204). -/
def shiftFlags (a r sreg : Byte) : Byte :=
  let c := a.getLsbD 0
  let n := r.getLsbD 7
  let v := n != c
  setFlags [(.S, n != v), (.V, v), (.N, n), (.Z, r == 0), (.C, c)] sreg

/-- The flags of COM (40_alu.md R224). -/
def comFlags (r sreg : Byte) : Byte :=
  let r7 := r.getLsbD 7
  setFlags [(.S, r7), (.V, false), (.N, r7), (.Z, r == 0), (.C, true)] sreg

/-- The flags of NEG (40_alu.md R225). -/
def negFlags (a r sreg : Byte) : Byte :=
  let h := r.getLsbD 3 || a.getLsbD 3
  let v := r == 0x80
  let n := r.getLsbD 7
  setFlags [(.H, h), (.S, n != v), (.V, v), (.N, n), (.Z, r == 0), (.C, r != 0)] sreg

/-- The flags of INC and DEC: V is set when the result is `edge`, 0x80 or 0x7F (40_alu.md R226,
R227). -/
def stepFlags (edge r sreg : Byte) : Byte :=
  let v := r == edge
  let n := r.getLsbD 7
  setFlags [(.S, n != v), (.V, v), (.N, n), (.Z, r == 0)] sreg

/-- The flags of ADIW (40_alu.md R213). -/
def adiwFlags (a r : Word) (sreg : Byte) : Byte :=
  let a15 := a.getLsbD 15; let r15 := r.getLsbD 15
  let v := !a15 && r15
  setFlags [(.S, r15 != v), (.V, v), (.N, r15), (.Z, r == 0), (.C, !r15 && a15)] sreg

/-- The flags of SBIW (40_alu.md R218). -/
def sbiwFlags (a r : Word) (sreg : Byte) : Byte :=
  let a15 := a.getLsbD 15; let r15 := r.getLsbD 15
  let v := a15 && !r15
  setFlags [(.S, r15 != v), (.V, v), (.N, r15), (.Z, r == 0), (.C, r15 && !a15)] sreg

/-- The flags of the multiplies: C from the product before any shift, Z from the stored result
(40_alu.md R230 to R235). -/
def mulFlags (p res : Word) (sreg : Byte) : Byte :=
  setFlags [(.C, p.getLsbD 15), (.Z, res == 0)] sreg

end Sys2Proof.Machine
end

