-- ==== Sys2Proof/Machine/Interrupts.lean ====
section
/-! DEFINITION. The Interrupt Controller's operations (60_exceptions.md R506 to R512) and the dispatch of
one pending vector (R514, R518). Flag and enable bytes are read and written raw (20_memory.md R103).
Each operation on the pending set finds it in order or raises `schedulerInvariant` (R501). -/

namespace Sys2Proof.Machine

/-- The pending set is a map: vector addresses strictly rising (10_state.md R62). -/
abbrev pendingSorted (ps : List Descriptor) : Prop :=
  ps.Pairwise (fun q q' => q.vectorAddress < q'.vectorAddress)

/-- `nextInterrupt`: the least key of `pending`, or none (10_state.md R62, 60_exceptions.md R512). -/
def State.nextInterrupt (s : State) : Option Nat := s.pending.head?.map Descriptor.vectorAddress

/-- `Enabled(q)` (60_exceptions.md R506). -/
def irqEnabled (q : Descriptor) (s : State) : Except Fault Bool := do
  let e ← rawRead q.enableRegister s
  return e &&& q.enableMask != 0

/-- `FlagActive(q)` (60_exceptions.md R506). -/
def irqFlagActive (q : Descriptor) (s : State) : Except Fault Bool := do
  let f ← rawRead q.flagRegister s
  return if q.inverseFlag then f &&& q.flagMask == 0 else f &&& q.flagMask != 0

/-- Put a descriptor at its vector address, replacing the one there (92_eei_decisions.md D32). -/
def insertPending (q : Descriptor) : List Descriptor → List Descriptor
  | [] => [q]
  | x :: rest =>
    if x.vectorAddress < q.vectorAddress then x :: insertPending q rest
    else if x.vectorAddress = q.vectorAddress then q :: rest
    else q :: x :: rest

/-- `queueInterrupt(q)` (60_exceptions.md R509). -/
def queueInterrupt (q : Descriptor) (s : State) : Except Fault State :=
  if pendingSorted s.pending then .ok { s with pending := insertPending q s.pending }
  else .error .schedulerInvariant

/-- The flag byte `f` with a descriptor's flag bits 0, whatever its `inverseFlag` (60_exceptions.md
R510, D33). -/
def clearedFlag (q : Descriptor) (f : Byte) : Byte := f &&& ~~~q.flagMask

/-- Clear a descriptor's flag bits (60_exceptions.md R510). -/
def clearFlagBits (q : Descriptor) (s : State) : Except Fault State := do
  let f ← rawRead q.flagRegister s
  rawWrite q.flagRegister (clearedFlag q f) s

/-- `clearInterrupt(q, clearFlagBit)` (60_exceptions.md R510). -/
def clearInterrupt (q : Descriptor) (clearFlagBit : Bool) (s : State) : Except Fault State := do
  let s1 ← if clearFlagBit then clearFlagBits q s else pure s
  if pendingSorted s1.pending then
    return { s1 with
      pending := s1.pending.filter (fun x => x.vectorAddress != q.vectorAddress) }
  else throw .schedulerInvariant

/-- The flag byte `f` with a descriptor's flag made active (60_exceptions.md R507). -/
def raisedFlag (q : Descriptor) (f : Byte) : Byte :=
  if q.inverseFlag then f &&& ~~~q.flagMask else f ||| q.flagMask

/-- `setInterruptFlag(q)` (60_exceptions.md R507). -/
def setInterruptFlag (q : Descriptor) (s : State) : Except Fault State := do
  let f ← rawRead q.flagRegister s
  let s1 ← rawWrite q.flagRegister (raisedFlag q f) s
  if ← irqEnabled q s1 then queueInterrupt q s1 else return s1

/-- `updateInterruptEnable(q, v)`: by the new value alone (60_exceptions.md R508, 90_conflicts.md
C4). -/
def updateInterruptEnable (q : Descriptor) (v : Byte) (s : State) : Except Fault State := do
  if v &&& q.enableMask != 0 then
    if ← irqFlagActive q s then queueInterrupt q s else return s
  else clearInterrupt q false s

/-- `clearInterruptByFlag(q, v)` (60_exceptions.md R511). -/
def clearInterruptByFlag (q : Descriptor) (v : Byte) (s : State) : Except Fault State := do
  if v &&& q.flagMask != 0 then
    let s1 ← clearFlagBits q s
    clearInterrupt q true s1
  else return s

/-- The second half of `tick()`: if SREG.I is set and a vector is pending, dispatch the least one, and
remove it when it is edge-sensitive (60_exceptions.md R514, R518). -/
def dispatchPending (s : State) : Except Fault State :=
  if pendingSorted s.pending then
    match s.flag .I, s.pending with
    | true, q :: _ => do
      let s1 ← dispatch q.vectorAddress s
      match q.kind with
      | .edge => clearInterrupt q true s1
      | .level => return s1
    | _, _ => .ok s
  else .error .schedulerInvariant

end Sys2Proof.Machine
end

