-- ==== Sys2Proof/Machine/Scheduler.lean ====
section
/-! DEFINITION. The Clock Event Scheduler's operations (60_exceptions.md R521 to R523). Each finds its
chain sorted or raises `schedulerInvariant` (R501). `now` is the value of the cycle counter the caller
sees: the counter itself between steps and in a callback, a value inside the instruction's range in a
hook (20_memory.md R104). -/

namespace Sys2Proof.Machine

/-- `events[i].due <= events[i+1].due` for every i (10_state.md R63). -/
abbrev eventsSorted (es : List ClockEvent) : Prop := es.Pairwise (fun e e' => e.due ≤ e'.due)

/-- Put an entry after every entry with `due' <= due` (FIFO) or `due' < due` (LIFO). -/
def insertEvent (tie : TieOrder) (e : ClockEvent) : List ClockEvent → List ClockEvent
  | [] => [e]
  | x :: rest =>
    let past := match tie with
      | .fifo => decide (x.due ≤ e.due)
      | .lifo => decide (x.due < e.due)
    if past then x :: insertEvent tie e rest else e :: x :: rest

/-- Remove the first entry with an id, in chain order (92_eei_decisions.md D34). -/
def removeEvent (id : Nat) : List ClockEvent → List ClockEvent
  | [] => []
  | x :: rest => if x.id = id then rest else x :: removeEvent id rest

/-- The due cycle of an event scheduled `n` cycles ahead: `cycles + max(1, n)`. -/
def dueAt (now : Nat) (n : Int) : Nat := now + (max 1 n).toNat

/-- `addClockEvent(id, n)`: the id, and the chain with the new entry (60_exceptions.md R521). -/
def addClockEvent (now id : Nat) (n : Int) (s : State) : Except Fault (Nat × State) :=
  if eventsSorted s.events then
    .ok (id, { s with events := insertEvent s.cfg.tieOrder ⟨dueAt now n, id⟩ s.events })
  else .error .schedulerInvariant

/-- `clearClockEvent(id)`: whether one was found, and the chain without it (60_exceptions.md R522). -/
def clearClockEvent (id : Nat) (s : State) : Except Fault (Bool × State) :=
  if eventsSorted s.events then
    .ok (s.events.any (fun e => e.id == id), { s with events := removeEvent id s.events })
  else .error .schedulerInvariant

/-- `updateClockEvent(id, n)`: whether a prior entry existed (60_exceptions.md R523). -/
def updateClockEvent (now id : Nat) (n : Int) (s : State) : Except Fault (Bool × State) := do
  let (found, s1) ← clearClockEvent id s
  if found || s1.cfg.updateAddsIfAbsent then
    let (_, s2) ← addClockEvent now id n s1
    return (found, s2)
  else
    return (found, s1)

end Sys2Proof.Machine
end

