-- ==== Sys2Proof/Machine/Environment.lean ====
section
/-! DEFINITION. Calls to the environment (20_memory.md R104, 60_exceptions.md R524): an oracle that
answers with a draw and does any finite sequence of the things its contract allows. What the contract
forbids raises `envContract` (60_exceptions.md R501). -/

namespace Sys2Proof.Machine

/-- A data byte the environment may change: `32 <= a < DATA_SIZE` and not core-owned (20_memory.md
R104). -/
def envWritable (c : Config) (a : Nat) : Bool :=
  decide (32 ≤ a) && decide (a < c.dataSize) && !coreOwned a

/-- A bus write or an interrupt operation of the environment may store `v` at `a`: the byte is one it may
change, or does not change (20_memory.md R104 forbids to change r0 to r31 and the core-owned bytes). -/
def envMayStore (s : State) (a : Nat) (v : Byte) : Bool :=
  envWritable s.cfg a || (decide (a < s.cfg.dataSize) && s.byte a == v)

/-- A descriptor as 10_state.md R68 asks: its registers are data addresses at 32 or above. A vector
address at L or above is not caught here: it faults at the next fetch (93_implementation_defined.md
section 1). -/
def registersOk (c : Config) (q : Descriptor) : Bool :=
  decide (32 ≤ q.enableRegister) && decide (q.enableRegister < c.dataSize) &&
    decide (32 ≤ q.flagRegister) && decide (q.flagRegister < c.dataSize)

/-- Go on if the contract holds. -/
def contract {α : Type} (ok : Bool) (r : Except Fault α) : Except Fault α :=
  if ok then r else .error .envContract

/-- One operation of the environment during a call, at the cycle count `now` it sees. -/
def envOp (now : Nat) (o : EnvOp) (s : State) : Except Fault State :=
  match o with
  | .addClockEvent id n => (addClockEvent now id n s).map Prod.snd
  | .clearClockEvent id => (clearClockEvent id s).map Prod.snd
  | .updateClockEvent id n => (updateClockEvent now id n s).map Prod.snd
  | .setInterruptFlag q =>
    contract (registersOk s.cfg q &&
        envMayStore s q.flagRegister (raisedFlag q (s.byte q.flagRegister)))
      (setInterruptFlag q s)
  | .updateInterruptEnable q v =>
    contract (registersOk s.cfg q) (updateInterruptEnable q v s)
  | .queueInterrupt q => contract (registersOk s.cfg q) (queueInterrupt q s)
  | .clearInterrupt q clearFlagBit =>
    contract (registersOk s.cfg q && (!clearFlagBit ||
        envMayStore s q.flagRegister (clearedFlag q (s.byte q.flagRegister))))
      (clearInterrupt q clearFlagBit s)
  | .clearInterruptByFlag q v =>
    contract (registersOk s.cfg q && (v &&& q.flagMask == 0 ||
        envMayStore s q.flagRegister (clearedFlag q (s.byte q.flagRegister))))
      (clearInterruptByFlag q v s)
  | .rawWrite a v => contract (envWritable s.cfg a) (rawWrite a v s)

/-- The store at the end of a bus write by the environment. -/
def envStore (a : Nat) (v : Byte) (s : State) : Except Fault State :=
  contract (envMayStore s a v) (rawWrite a v s)

/-- A read hook is registered at `a` and is called by a bus read (20_memory.md R100). -/
def State.readHooked (s : State) (a : Nat) : Bool := decide (32 ≤ a) && s.readHooks.contains a

/-- A write hook is registered at `a` (20_memory.md R101). -/
def State.writeHooked (s : State) (a : Nat) : Bool := s.writeHooks.contains a

/-- Note a call to the environment. -/
def State.noteCall (s : State) (c : EnvCall) : State := { s with calls := c :: s.calls }

/-- The environment runs to completion, at the cycle count `now` it sees. Its bus accesses are those of
20_memory.md R100 and R101, with the nested hooks' answers in the script. -/
def runScript (now : Nat) : EnvScript → State → Except Fault State
  | .done, s => .ok s
  | .op o rest, s => do runScript now rest (← envOp now o s)
  | .busRead a nested rest, s => do
    if a < s.cfg.dataSize then
      let s1 ← if s.readHooked a then runScript now nested (s.noteCall (.readHook a)) else pure s
      runScript now rest s1
    else throw (.dataOutOfRange a)
  | .busWrite a v mask handled nested rest, s => do
    if a < s.cfg.dataSize then
      let s1 ←
        if s.writeHooked a then do
          let s2 ← runScript now nested (s.noteCall (.writeHook v (s.byte a) a mask))
          if handled then pure s2 else envStore a v s2
        else envStore a v s
      runScript now rest s1
    else throw (.dataOutOfRange a)

/-- What the environment answers to the next call: the first of the listed answers, or the free value
(log 4). -/
def State.nextReply (s : State) : EnvReply := s.replies.headD (Config.envReply s.draws)

/-- The state with that answer used up. -/
def State.useReply (s : State) : State :=
  { s with replies := s.replies.tail, draws := s.draws + 1 }

/-- One call to the environment: note it, take the answer, let the environment run. `slack` gives, from
the byte answered, how far past the instruction's start the cycle count seen may be (20_memory.md
R104). -/
def envCall (c : EnvCall) (slack : Byte → Nat) (s : State) : Except Fault (EnvReply × State) := do
  let r := s.nextReply
  let now := s.cycles + min r.seen (slack (BitVec.ofNat 8 r.value))
  let s1 ← runScript now r.script (s.useReply.noteCall c)
  return (r, s1)

/-- `EnvCallback(id)` (60_exceptions.md R524). -/
def envCallback (id : Nat) (s : State) : Except Fault State :=
  (envCall (.callback id) (fun _ => 0) s).map Prod.snd

/-- `EnvWatchdogReset()`: one notification; with no watchdog attached the call does nothing
(44_mcu_control.md R473). -/
def envWatchdogReset (s : State) : Except Fault State :=
  if s.watchdog then (envCall .watchdogReset (fun _ => 0) s).map Prod.snd
  else .ok (s.noteCall .watchdogReset)

end Sys2Proof.Machine
end

