-- ==== Sys2Proof/Machine/Bus.lean ====
section
/-! DEFINITION. The Memory Bus (20_memory.md R100, R101): one-byte reads and writes that dispatch the
hooks. `slack` is the instruction's cost minus 1, the range of the cycle count a hook sees (R104). -/

namespace Sys2Proof.Machine

/-- `MemRead(a, 1)` (20_memory.md R100). `slack` may depend on the byte read, as the cost of SBIC and
SBIS does. -/
def busRead (slack : Byte → Nat) (a : Nat) (s : State) : Except Fault (Byte × State) :=
  if a < s.cfg.dataSize then
    if s.readHooked a then
      (envCall (.readHook a) slack s).map (fun p => (BitVec.ofNat 8 p.1.value, p.2))
    else .ok (s.byte a, s)
  else .error (.dataOutOfRange a)

/-- `MemWrite(a, 1, v, mask)` (20_memory.md R101). -/
def busWrite (slack : Nat) (a : Nat) (v mask : Byte) (s : State) : Except Fault State :=
  if a < s.cfg.dataSize then
    if s.writeHooked a then
      (envCall (.writeHook v (s.byte a) a mask) (fun _ => slack) s).map
        (fun p => if p.1.handled then p.2 else p.2.setByte a v)
    else .ok (s.setByte a v)
  else .error (.dataOutOfRange a)

end Sys2Proof.Machine
end

