-- ==== Sys2Proof/Machine/Operands.lean ====
section
/-! DEFINITION. The operand forms: pointers with their addressing modes (43_transfer.md), I/O
addresses (10_state.md R53), program-memory byte addresses (43_transfer.md R427 to R432), relative and
extended targets (41_branch.md), and the skip (30_encoding.md R159). -/

namespace Sys2Proof.Machine

/-- The data address of I/O address `A` (10_state.md R53). -/
def ioAddr (A : Nat) : Nat := A + 0x20

/-- The pointer registers (10_state.md R52). -/
inductive Ptr where
  | x | y | z
  deriving DecidableEq, Repr

/-- The address of a pointer's low byte: `pp` of 43_transfer.md. -/
def Ptr.base : Ptr → Nat
  | .x => xAddr
  | .y => yAddr
  | .z => zAddr

/-- `P`: the pointer's value. -/
def State.ptr (s : State) (p : Ptr) : Word := s.pair p.base

/-- The data register is a byte of the pointer: undefined with post-increment and pre-decrement
(30_encoding.md R167). -/
def clash (p : Ptr) (d : Reg) : Bool := d.toNat == p.base || d.toNat == p.base + 1

/-- Raise `undefinedCombination` for a combination of 30_encoding.md R167. -/
def unlessClash (p : Ptr) (d : Reg) (r : Except Fault State) : Except Fault State :=
  if clash p d then .error .undefinedCombination else r

/-! ### Loads (43_transfer.md R403 to R409) -/

/-- `x[d] <- MemRead(a, 1)` for an instruction that costs `n` cycles beyond the trailing one. -/
def loadFrom (n : Nat) (a : Nat) (d : Reg) (s : State) : Except Fault State := do
  let (v, s1) ← busRead (fun _ => n) a s
  return s1.setReg d v

/-- `LD Rd, P` (43_transfer.md R403, R406). -/
def loadPlain (p : Ptr) (d : Reg) (s : State) : Except Fault State := do
  let s1 ← loadFrom 1 (s.ptr p).toNat d s
  return s1.finish 1

/-- `LD Rd, P+` (43_transfer.md R404, R407). -/
def loadPostInc (p : Ptr) (d : Reg) (s : State) : Except Fault State :=
  unlessClash p d do
    let a := s.ptr p
    let s1 ← loadFrom 1 a.toNat d s
    return (s1.setPair p.base (a + 1)).finish 1

/-- `LD Rd, -P` (43_transfer.md R405, R408). -/
def loadPreDec (p : Ptr) (d : Reg) (s : State) : Except Fault State :=
  unlessClash p d do
    let a := s.ptr p - 1
    let s1 ← loadFrom 2 a.toNat d (s.setPair p.base a)
    return s1.finish 2

/-- `LDD Rd, P+q`: the effective address does not wrap (43_transfer.md R409, D28). -/
def loadDisp (p : Ptr) (d : Reg) (q : BitVec 6) (s : State) : Except Fault State := do
  let s1 ← loadFrom 1 ((s.ptr p).toNat + q.toNat) d s
  return s1.finish 1

/-! ### Stores (43_transfer.md R415 to R421) -/

/-- `ST P, Rr` (43_transfer.md R415, R418). -/
def storePlain (p : Ptr) (r : Reg) (s : State) : Except Fault State := do
  let s1 ← busWrite 1 (s.ptr p).toNat (s.reg r) 0xFF s
  return s1.finish 1

/-- `ST P+, Rr` (43_transfer.md R416, R419). -/
def storePostInc (p : Ptr) (r : Reg) (s : State) : Except Fault State :=
  unlessClash p r do
    let a := s.ptr p
    let s1 ← busWrite 1 a.toNat (s.reg r) 0xFF s
    return (s1.setPair p.base (a + 1)).finish 1

/-- `ST -P, Rr` (43_transfer.md R417, R420). -/
def storePreDec (p : Ptr) (r : Reg) (s : State) : Except Fault State :=
  unlessClash p r do
    let a := s.ptr p - 1
    let s0 := s.setPair p.base a
    let s1 ← busWrite 1 a.toNat (s0.reg r) 0xFF s0
    return s1.finish 1

/-- `STD P+q, Rr` (43_transfer.md R421, D28). -/
def storeDisp (p : Ptr) (q : BitVec 6) (r : Reg) (s : State) : Except Fault State := do
  let s1 ← busWrite 1 ((s.ptr p).toNat + q.toNat) (s.reg r) 0xFF s
  return s1.finish 1

/-! ### Read-modify-write through Z (43_transfer.md R440 to R443) -/

/-- Read the byte `v` at Z, write `f v x[d]` there, put `v` in Rd. -/
def exchangeZ (f : Byte → Byte → Byte) (d : Reg) (s : State) : Except Fault State := do
  let z := (s.ptr .z).toNat
  let rd := s.reg d
  let (v, s1) ← busRead (fun _ => 1) z s
  let s2 ← busWrite 1 z (f v rd) 0xFF s1
  return (s2.setReg d v).finish 1

/-! ### Program-memory reads (43_transfer.md R427 to R432) -/

/-- The byte address of the ELPM forms: `RAMPZ * 65536 + Z` (43_transfer.md R430). -/
def elpmAddr (s : State) : Nat := (s.byte rampzAddr).toNat * 65536 + (s.ptr .z).toNat

/-- `x[d] <- ProgByte(b); cycles += 2`. -/
def loadProg (b : Nat) (d : Reg) (s : State) : Except Fault State := do
  let v ← progByte b s
  return (s.setReg d v).finish 2

/-! ### Control-transfer targets (41_branch.md) -/

/-- The target of EIJMP and EICALL: `EIND * 65536 + Z`, in both PC modes (41_branch.md R302, D24). -/
def extendedTarget (s : State) : Nat := (s.byte eindAddr).toNat * 65536 + (s.ptr .z).toNat

/-- A branch body: `pc <- pc + k; cycles += 1` if taken (41_branch.md R330, R331). -/
def branchIf (taken : Bool) (k : BitVec 7) (s : State) : State :=
  if taken then s.finishAt (s.pc + k.toInt) 1 else s.finish 0

/-- A call: push the return address, then go to the word address `t` (41_branch.md R304 to R307). -/
def callTo (ret : Nat) (t : Int) (n : Nat) (s : State) : Except Fault State := do
  let s1 ← pushPC ret s
  return s1.finishAt (t - 1) n

/-! ### Skips (30_encoding.md R159) -/

/-- How many words a skip taken at `pc` skips; the look-ahead faults when `pc + 1 >= L`. -/
def skipWords (s : State) : Except Fault Nat := do
  let nw ← progWord (s.pc + 1) s
  return if twoWord nw then 2 else 1

/-- The rest of a skip instruction: `Skip()` if the condition holds. -/
def skipIf (cond : Bool) (s : State) : Except Fault State :=
  if cond then do
    let n ← skipWords s
    return s.finishAt (s.pc + n) n
  else .ok (s.finish 0)

/-- The cycles a skip instruction costs beyond the trailing one (70_reset_and_hazards.md R610). -/
def skipSlack (cond : Bool) (s : State) : Nat :=
  if cond then (match skipWords s with | .ok n => n | .error _ => 0) else 0

end Sys2Proof.Machine
end

