-- ==== Sys2Proof/Machine/Alu.lean ====
section
/-! DEFINITION. The arithmetic, logic and multiply instructions (40_alu.md R211 to R235). -/

namespace Sys2Proof.Machine

/-- `x[d] <- res` with new flags: the end of an 8-bit arithmetic or logic instruction. -/
def writeResult (d : Reg) (res sreg : Byte) (s : State) : State :=
  ((s.setReg d res).setSreg sreg).finish 0

/-- `SetPair(d, res)` with new flags and one extra cycle: the end of ADIW and SBIW. -/
def writeWord (d : Reg) (res : Word) (sreg : Byte) (s : State) : State :=
  ((s.setPair d.toNat res).setSreg sreg).finish 1

/-- The end of a multiply: `SetPair(0, res)` with C from the product `p` and Z from `res`. -/
def writeProduct (p res : Word) (s : State) : State :=
  ((s.setPair 0 res).setSreg (mulFlags p res s.sreg)).finish 1

/-- `(x[d] * x[r]) mod 65536`. -/
def mulUU (a b : Byte) : Word := BitVec.ofNat 16 (a.toNat * b.toNat)

/-- `(s8(x[d]) * s8(x[r])) mod 65536`. -/
def mulSS (a b : Byte) : Word := BitVec.ofInt 16 (a.toInt * b.toInt)

/-- `(s8(x[d]) * x[r]) mod 65536`. -/
def mulSU (a b : Byte) : Word := BitVec.ofInt 16 (a.toInt * (b.toNat : Int))

/-- `(p * 2) mod 65536`. -/
def doubled (p : Word) : Word := p <<< 1

/-- ADD (40_alu.md R211). -/
def execAdd (d r : Reg) (s : State) : Host.Outcome State Fault Refusal :=
  let a := s.reg d; let b := s.reg r
  let res := a + b
  .next (writeResult d res (addFlags a b res s.sreg) s)

/-- ADC (40_alu.md R212). -/
def execAdc (d r : Reg) (s : State) : Host.Outcome State Fault Refusal :=
  let a := s.reg d; let b := s.reg r
  let res := a + b + carry (s.flag .C)
  .next (writeResult d res (addFlags a b res s.sreg) s)

/-- ADIW (40_alu.md R213). -/
def execAdiw (d : Reg) (K : BitVec 6) (s : State) : Host.Outcome State Fault Refusal :=
  let a := s.pair d.toNat
  let res := a + K.setWidth 16
  .next (writeWord d res (adiwFlags a res s.sreg) s)

/-- SUB (40_alu.md R214). -/
def execSub (d r : Reg) (s : State) : Host.Outcome State Fault Refusal :=
  let a := s.reg d; let b := s.reg r
  let res := a - b
  .next (writeResult d res (subFlags a b res false s.sreg) s)

/-- SUBI (40_alu.md R215). -/
def execSubi (d : Reg) (K : Byte) (s : State) : Host.Outcome State Fault Refusal :=
  let a := s.reg d
  let res := a - K
  .next (writeResult d res (subFlags a K res false s.sreg) s)

/-- SBC (40_alu.md R216). -/
def execSbc (d r : Reg) (s : State) : Host.Outcome State Fault Refusal :=
  let a := s.reg d; let b := s.reg r
  let res := a - b - carry (s.flag .C)
  .next (writeResult d res (subFlags a b res true s.sreg) s)

/-- SBCI (40_alu.md R217). -/
def execSbci (d : Reg) (K : Byte) (s : State) : Host.Outcome State Fault Refusal :=
  let a := s.reg d
  let res := a - K - carry (s.flag .C)
  .next (writeResult d res (subFlags a K res true s.sreg) s)

/-- SBIW (40_alu.md R218). -/
def execSbiw (d : Reg) (K : BitVec 6) (s : State) : Host.Outcome State Fault Refusal :=
  let a := s.pair d.toNat
  let res := a - K.setWidth 16
  .next (writeWord d res (sbiwFlags a res s.sreg) s)

/-- AND (40_alu.md R220). -/
def execAnd (d r : Reg) (s : State) : Host.Outcome State Fault Refusal :=
  let res := s.reg d &&& s.reg r
  .next (writeResult d res (logicFlags res s.sreg) s)

/-- ANDI (40_alu.md R221). -/
def execAndi (d : Reg) (K : Byte) (s : State) : Host.Outcome State Fault Refusal :=
  let res := s.reg d &&& K
  .next (writeResult d res (logicFlags res s.sreg) s)

/-- OR (40_alu.md R222). -/
def execOr (d r : Reg) (s : State) : Host.Outcome State Fault Refusal :=
  let res := s.reg d ||| s.reg r
  .next (writeResult d res (logicFlags res s.sreg) s)

/-- ORI (40_alu.md R222). -/
def execOri (d : Reg) (K : Byte) (s : State) : Host.Outcome State Fault Refusal :=
  let res := s.reg d ||| K
  .next (writeResult d res (logicFlags res s.sreg) s)

/-- EOR (40_alu.md R223). -/
def execEor (d r : Reg) (s : State) : Host.Outcome State Fault Refusal :=
  let res := s.reg d ^^^ s.reg r
  .next (writeResult d res (logicFlags res s.sreg) s)

/-- COM (40_alu.md R224). -/
def execCom (d : Reg) (s : State) : Host.Outcome State Fault Refusal :=
  let res := 0xFF - s.reg d
  .next (writeResult d res (comFlags res s.sreg) s)

/-- NEG (40_alu.md R225). -/
def execNeg (d : Reg) (s : State) : Host.Outcome State Fault Refusal :=
  let a := s.reg d
  let res := 0 - a
  .next (writeResult d res (negFlags a res s.sreg) s)

/-- INC (40_alu.md R226). -/
def execInc (d : Reg) (s : State) : Host.Outcome State Fault Refusal :=
  let res := s.reg d + 1
  .next (writeResult d res (stepFlags 0x80 res s.sreg) s)

/-- DEC (40_alu.md R227). -/
def execDec (d : Reg) (s : State) : Host.Outcome State Fault Refusal :=
  let res := s.reg d - 1
  .next (writeResult d res (stepFlags 0x7F res s.sreg) s)

/-- MUL (40_alu.md R230). -/
def execMul (d r : Reg) (s : State) : Host.Outcome State Fault Refusal :=
  let p := mulUU (s.reg d) (s.reg r)
  .next (writeProduct p p s)

/-- MULS (40_alu.md R231). -/
def execMuls (d r : Reg) (s : State) : Host.Outcome State Fault Refusal :=
  let p := mulSS (s.reg d) (s.reg r)
  .next (writeProduct p p s)

/-- MULSU (40_alu.md R232). -/
def execMulsu (d r : Reg) (s : State) : Host.Outcome State Fault Refusal :=
  let p := mulSU (s.reg d) (s.reg r)
  .next (writeProduct p p s)

/-- FMUL (40_alu.md R233). -/
def execFmul (d r : Reg) (s : State) : Host.Outcome State Fault Refusal :=
  let p := mulUU (s.reg d) (s.reg r)
  .next (writeProduct p (doubled p) s)

/-- FMULS (40_alu.md R234). -/
def execFmuls (d r : Reg) (s : State) : Host.Outcome State Fault Refusal :=
  let p := mulSS (s.reg d) (s.reg r)
  .next (writeProduct p (doubled p) s)

/-- FMULSU (40_alu.md R235). -/
def execFmulsu (d r : Reg) (s : State) : Host.Outcome State Fault Refusal :=
  let p := mulSU (s.reg d) (s.reg r)
  .next (writeProduct p (doubled p) s)

end Sys2Proof.Machine
end

