-- ==== Sys2Proof/Machine/Branch.lean ====
section
/-! DEFINITION. The control-transfer, compare and skip instructions (41_branch.md R300 to R331). The
operand word of JMP and CALL is fetched with the instruction (Machine/Engine.lean). -/

namespace Sys2Proof.Machine

/-- New flags and nothing else: the end of a compare. -/
def writeFlags (sreg : Byte) (s : State) : State := (s.setSreg sreg).finish 0

/-- RJMP (41_branch.md R300). -/
def execRjmp (k : BitVec 12) (s : State) : Host.Outcome State Fault Refusal :=
  .next (s.finishAt (s.pc + k.toInt) 1)

/-- IJMP (41_branch.md R301). -/
def execIjmp (s : State) : Host.Outcome State Fault Refusal :=
  .next (s.finishAt ((s.ptr .z).toNat - 1 : Int) 1)

/-- EIJMP (41_branch.md R302). -/
def execEijmp (s : State) : Host.Outcome State Fault Refusal :=
  .next (s.finishAt (extendedTarget s - 1 : Int) 1)

/-- JMP (41_branch.md R303). -/
def execJmp (k : BitVec 22) (s : State) : Host.Outcome State Fault Refusal :=
  .next (s.finishAt (k.toNat - 1 : Int) 2)

/-- RCALL (41_branch.md R304). -/
def execRcall (k : BitVec 12) (s : State) : Host.Outcome State Fault Refusal :=
  toOutcome (callTo (s.pc + 1) (s.pc + k.toInt + 1) (nearCycles s.cfg) s)

/-- ICALL (41_branch.md R305). -/
def execIcall (s : State) : Host.Outcome State Fault Refusal :=
  toOutcome (callTo (s.pc + 1) (s.ptr .z).toNat (nearCycles s.cfg) s)

/-- EICALL: 3 extra cycles in both PC modes (41_branch.md R306). -/
def execEicall (s : State) : Host.Outcome State Fault Refusal :=
  toOutcome (callTo (s.pc + 1) (extendedTarget s) 3 s)

/-- CALL (41_branch.md R307). -/
def execCall (k : BitVec 22) (s : State) : Host.Outcome State Fault Refusal :=
  toOutcome (callTo (s.pc + 2) k.toNat (farCycles s.cfg) s)

/-- RET (41_branch.md R308). -/
def execRet (s : State) : Host.Outcome State Fault Refusal :=
  toOutcome (returnFromSubroutine s)

/-- RETI (41_branch.md R309). -/
def execReti (s : State) : Host.Outcome State Fault Refusal :=
  toOutcome (returnFromInterrupt s)

/-- CPSE (41_branch.md R310). -/
def execCpse (d r : Reg) (s : State) : Host.Outcome State Fault Refusal :=
  toOutcome (skipIf (s.reg d == s.reg r) s)

/-- CP (41_branch.md R311). -/
def execCp (d r : Reg) (s : State) : Host.Outcome State Fault Refusal :=
  let a := s.reg d; let b := s.reg r
  .next (writeFlags (subFlags a b (a - b) false s.sreg) s)

/-- CPC (41_branch.md R312). -/
def execCpc (d r : Reg) (s : State) : Host.Outcome State Fault Refusal :=
  let a := s.reg d; let b := s.reg r
  .next (writeFlags (subFlags a b (a - b - carry (s.flag .C)) true s.sreg) s)

/-- CPI (41_branch.md R313). -/
def execCpi (d : Reg) (K : Byte) (s : State) : Host.Outcome State Fault Refusal :=
  let a := s.reg d
  .next (writeFlags (subFlags a K (a - K) false s.sreg) s)

/-- SBRC (41_branch.md R314). -/
def execSbrc (r : Reg) (b : BitVec 3) (s : State) : Host.Outcome State Fault Refusal :=
  toOutcome (skipIf (!(s.reg r).getLsbD b.toNat) s)

/-- SBRS (41_branch.md R315). -/
def execSbrs (r : Reg) (b : BitVec 3) (s : State) : Host.Outcome State Fault Refusal :=
  toOutcome (skipIf ((s.reg r).getLsbD b.toNat) s)

/-- SBIC (41_branch.md R316): the bus read happens whether or not the skip is taken. -/
def execSbic (A : BitVec 5) (b : BitVec 3) (s : State) : Host.Outcome State Fault Refusal :=
  toOutcome do
    let (v, s1) ← busRead (fun v => skipSlack (!v.getLsbD b.toNat) s) (ioAddr A.toNat) s
    skipIf (!v.getLsbD b.toNat) s1

/-- SBIS (41_branch.md R317). -/
def execSbis (A : BitVec 5) (b : BitVec 3) (s : State) : Host.Outcome State Fault Refusal :=
  toOutcome do
    let (v, s1) ← busRead (fun v => skipSlack (v.getLsbD b.toNat) s) (ioAddr A.toNat) s
    skipIf (v.getLsbD b.toNat) s1

/-- BRBS (41_branch.md R330). -/
def execBrbs (n : BitVec 3) (k : BitVec 7) (s : State) : Host.Outcome State Fault Refusal :=
  .next (branchIf (s.sreg.getLsbD n.toNat) k s)

/-- BRBC (41_branch.md R331). -/
def execBrbc (n : BitVec 3) (k : BitVec 7) (s : State) : Host.Outcome State Fault Refusal :=
  .next (branchIf (!s.sreg.getLsbD n.toNat) k s)

end Sys2Proof.Machine
end

