-- ==== Sys2Proof/Machine/Bit.lean ====
section
/-! DEFINITION. The bit, shift and status-bit instructions (42_bit.md R360 to R369). -/

namespace Sys2Proof.Machine

/-- `1 << b`. -/
def bitMask (b : BitVec 3) : Byte := 1#8 <<< b.toNat

/-- Bus read of an I/O byte, then bus write of its new value with the bit as the mask; 2 cycles
(42_bit.md R360, R361). -/
def modifyIo (A : BitVec 5) (mask : Byte) (f : Byte → Byte) (s : State) : Except Fault State := do
  let a := ioAddr A.toNat
  let (v, s1) ← busRead (fun _ => 1) a s
  let s2 ← busWrite 1 a (f v) mask s1
  return s2.finish 1

/-- SBI (42_bit.md R360). -/
def execSbi (A : BitVec 5) (b : BitVec 3) (s : State) : Host.Outcome State Fault Refusal :=
  toOutcome (modifyIo A (bitMask b) (fun v => v ||| bitMask b) s)

/-- CBI: the mask passed is the bit cleared (42_bit.md R361). -/
def execCbi (A : BitVec 5) (b : BitVec 3) (s : State) : Host.Outcome State Fault Refusal :=
  toOutcome (modifyIo A (bitMask b) (fun v => v &&& (0xFF - bitMask b)) s)

/-- LSR (42_bit.md R362). -/
def execLsr (d : Reg) (s : State) : Host.Outcome State Fault Refusal :=
  let a := s.reg d
  let res := a >>> 1
  .next (writeResult d res (shiftFlags a res s.sreg) s)

/-- ROR (42_bit.md R363). -/
def execRor (d : Reg) (s : State) : Host.Outcome State Fault Refusal :=
  let a := s.reg d
  let res := (if s.flag .C then 0x80 else 0) ||| a >>> 1
  .next (writeResult d res (shiftFlags a res s.sreg) s)

/-- ASR (42_bit.md R364). -/
def execAsr (d : Reg) (s : State) : Host.Outcome State Fault Refusal :=
  let a := s.reg d
  let res := (a &&& 0x80) ||| a >>> 1
  .next (writeResult d res (shiftFlags a res s.sreg) s)

/-- SWAP (42_bit.md R365). -/
def execSwap (d : Reg) (s : State) : Host.Outcome State Fault Refusal :=
  let a := s.reg d
  .next ((s.setReg d (a.extractLsb' 0 4 ++ a.extractLsb' 4 4)).finish 0)

/-- BSET (42_bit.md R366). -/
def execBset (n : BitVec 3) (s : State) : Host.Outcome State Fault Refusal :=
  .next (writeFlags (s.sreg ||| bitMask n) s)

/-- BCLR (42_bit.md R367). -/
def execBclr (n : BitVec 3) (s : State) : Host.Outcome State Fault Refusal :=
  .next (writeFlags (s.sreg &&& (0xFF - bitMask n)) s)

/-- BST (42_bit.md R368). -/
def execBst (d : Reg) (b : BitVec 3) (s : State) : Host.Outcome State Fault Refusal :=
  .next (writeFlags (setFlags [(.T, (s.reg d).getLsbD b.toNat)] s.sreg) s)

/-- BLD (42_bit.md R369). -/
def execBld (d : Reg) (b : BitVec 3) (s : State) : Host.Outcome State Fault Refusal :=
  let t := if s.flag .T then bitMask b else 0
  .next ((s.setReg d ((s.reg d &&& (0xFF - bitMask b)) ||| t)).finish 0)

end Sys2Proof.Machine
end

