-- ==== Sys2Proof/Machine/McuControl.lean ====
section
/-! DEFINITION. The MCU control instructions (44_mcu_control.md R470 to R474), DES and the reserved
words (30_encoding.md R166). -/

namespace Sys2Proof.Machine

/-- NOP (44_mcu_control.md R470). -/
def execNop (s : State) : Host.Outcome State Fault Refusal := .next (s.finish 0)

/-- SLEEP: a no-op, the engine never suspends (44_mcu_control.md R472, D18). -/
def execSleep (s : State) : Host.Outcome State Fault Refusal := .next (s.finish 0)

/-- WDR: one notification to the environment (44_mcu_control.md R473). -/
def execWdr (s : State) : Host.Outcome State Fault Refusal :=
  toOutcome do
    let s1 ← envWatchdogReset s
    return s1.finish 0

/-- BREAK: a no-op, the core has no debug system (44_mcu_control.md R474, D18). -/
def execBrk (s : State) : Host.Outcome State Fault Refusal := .next (s.finish 0)

/-- DES: a no-op, the core does not implement it (30_encoding.md R166). -/
def execDes (_K : BitVec 4) (s : State) : Host.Outcome State Fault Refusal := .next (s.finish 0)

/-- A word that matches no row of the opcode table: a no-op (30_encoding.md R166). -/
def execReserved (s : State) : Host.Outcome State Fault Refusal := .next (s.finish 0)

end Sys2Proof.Machine
end

