-- ==== Sys2Proof/Machine/Transfer.lean ====
section
/-! DEFINITION. The data-transfer instructions (43_transfer.md R400 to R443). The operand word of LDS
and STS is fetched with the instruction (Machine/Engine.lean). -/

namespace Sys2Proof.Machine

/-! ### Register moves -/

/-- MOV (43_transfer.md R400). -/
def execMov (d r : Reg) (s : State) : Host.Outcome State Fault Refusal :=
  .next ((s.setReg d (s.reg r)).finish 0)

/-- MOVW (43_transfer.md R401). -/
def execMovw (d r : Reg) (s : State) : Host.Outcome State Fault Refusal :=
  .next ((s.setPair d.toNat (s.pair r.toNat)).finish 0)

/-- LDI (43_transfer.md R402). -/
def execLdi (d : Reg) (K : Byte) (s : State) : Host.Outcome State Fault Refusal :=
  .next ((s.setReg d K).finish 0)

/-! ### Loads -/

/-- LD Rd, X (43_transfer.md R403). -/
def execLdX (d : Reg) (s : State) : Host.Outcome State Fault Refusal :=
  toOutcome (loadPlain .x d s)

/-- LD Rd, X+ (43_transfer.md R404). -/
def execLdXP (d : Reg) (s : State) : Host.Outcome State Fault Refusal :=
  toOutcome (loadPostInc .x d s)

/-- LD Rd, -X (43_transfer.md R405). -/
def execLdMX (d : Reg) (s : State) : Host.Outcome State Fault Refusal :=
  toOutcome (loadPreDec .x d s)

/-- LD Rd, Y (43_transfer.md R406). -/
def execLdY (d : Reg) (s : State) : Host.Outcome State Fault Refusal :=
  toOutcome (loadPlain .y d s)

/-- LD Rd, Y+ (43_transfer.md R407). -/
def execLdYP (d : Reg) (s : State) : Host.Outcome State Fault Refusal :=
  toOutcome (loadPostInc .y d s)

/-- LD Rd, -Y (43_transfer.md R408). -/
def execLdMY (d : Reg) (s : State) : Host.Outcome State Fault Refusal :=
  toOutcome (loadPreDec .y d s)

/-- LD Rd, Z (43_transfer.md R406). -/
def execLdZ (d : Reg) (s : State) : Host.Outcome State Fault Refusal :=
  toOutcome (loadPlain .z d s)

/-- LD Rd, Z+ (43_transfer.md R407). -/
def execLdZP (d : Reg) (s : State) : Host.Outcome State Fault Refusal :=
  toOutcome (loadPostInc .z d s)

/-- LD Rd, -Z (43_transfer.md R408). -/
def execLdMZ (d : Reg) (s : State) : Host.Outcome State Fault Refusal :=
  toOutcome (loadPreDec .z d s)

/-- LDD Rd, Y+q (43_transfer.md R409). -/
def execLddY (d : Reg) (q : BitVec 6) (s : State) : Host.Outcome State Fault Refusal :=
  toOutcome (loadDisp .y d q s)

/-- LDD Rd, Z+q (43_transfer.md R409). -/
def execLddZ (d : Reg) (q : BitVec 6) (s : State) : Host.Outcome State Fault Refusal :=
  toOutcome (loadDisp .z d q s)

/-- LDS (43_transfer.md R413): `pc <- pc + 1` passes the operand word. -/
def execLds (d : Reg) (k : Word) (s : State) : Host.Outcome State Fault Refusal :=
  toOutcome do
    let s1 ← loadFrom 1 k.toNat d s
    return s1.finishAt (s.pc + 1) 1

/-! ### Stores -/

/-- ST X, Rr (43_transfer.md R415). -/
def execStX (r : Reg) (s : State) : Host.Outcome State Fault Refusal :=
  toOutcome (storePlain .x r s)

/-- ST X+, Rr (43_transfer.md R416). -/
def execStXP (r : Reg) (s : State) : Host.Outcome State Fault Refusal :=
  toOutcome (storePostInc .x r s)

/-- ST -X, Rr (43_transfer.md R417). -/
def execStMX (r : Reg) (s : State) : Host.Outcome State Fault Refusal :=
  toOutcome (storePreDec .x r s)

/-- ST Y, Rr (43_transfer.md R418). -/
def execStY (r : Reg) (s : State) : Host.Outcome State Fault Refusal :=
  toOutcome (storePlain .y r s)

/-- ST Y+, Rr (43_transfer.md R419). -/
def execStYP (r : Reg) (s : State) : Host.Outcome State Fault Refusal :=
  toOutcome (storePostInc .y r s)

/-- ST -Y, Rr (43_transfer.md R420). -/
def execStMY (r : Reg) (s : State) : Host.Outcome State Fault Refusal :=
  toOutcome (storePreDec .y r s)

/-- ST Z, Rr (43_transfer.md R418). -/
def execStZ (r : Reg) (s : State) : Host.Outcome State Fault Refusal :=
  toOutcome (storePlain .z r s)

/-- ST Z+, Rr (43_transfer.md R419). -/
def execStZP (r : Reg) (s : State) : Host.Outcome State Fault Refusal :=
  toOutcome (storePostInc .z r s)

/-- ST -Z, Rr (43_transfer.md R420). -/
def execStMZ (r : Reg) (s : State) : Host.Outcome State Fault Refusal :=
  toOutcome (storePreDec .z r s)

/-- STD Y+q, Rr (43_transfer.md R421). -/
def execStdY (q : BitVec 6) (r : Reg) (s : State) : Host.Outcome State Fault Refusal :=
  toOutcome (storeDisp .y q r s)

/-- STD Z+q, Rr (43_transfer.md R421). -/
def execStdZ (q : BitVec 6) (r : Reg) (s : State) : Host.Outcome State Fault Refusal :=
  toOutcome (storeDisp .z q r s)

/-- STS (43_transfer.md R426). -/
def execSts (k : Word) (r : Reg) (s : State) : Host.Outcome State Fault Refusal :=
  toOutcome do
    let s1 ← busWrite 1 k.toNat (s.reg r) 0xFF s
    return s1.finishAt (s.pc + 1) 1

/-! ### Program-memory reads and SPM -/

/-- LPM (43_transfer.md R427). -/
def execLpm (s : State) : Host.Outcome State Fault Refusal :=
  toOutcome (loadProg (s.ptr .z).toNat 0 s)

/-- LPM Rd, Z (43_transfer.md R428). -/
def execLpmZ (d : Reg) (s : State) : Host.Outcome State Fault Refusal :=
  toOutcome (loadProg (s.ptr .z).toNat d s)

/-- LPM Rd, Z+ (43_transfer.md R429). -/
def execLpmZP (d : Reg) (s : State) : Host.Outcome State Fault Refusal :=
  toOutcome (unlessClash .z d do
    let b := s.ptr .z
    let v ← progByte b.toNat s
    return ((s.setReg d v).setPair zAddr (b + 1)).finish 2)

/-- ELPM (43_transfer.md R430). -/
def execElpm (s : State) : Host.Outcome State Fault Refusal :=
  toOutcome (loadProg (elpmAddr s) 0 s)

/-- ELPM Rd, Z (43_transfer.md R431). -/
def execElpmZ (d : Reg) (s : State) : Host.Outcome State Fault Refusal :=
  toOutcome (loadProg (elpmAddr s) d s)

/-- ELPM Rd, Z+: RAMPZ:Z counts up as one 24-bit value (43_transfer.md R432, D23). -/
def execElpmZP (d : Reg) (s : State) : Host.Outcome State Fault Refusal :=
  toOutcome (unlessClash .z d do
    let b := elpmAddr s
    let v ← progByte b s
    let b2 := (b + 1) % 2 ^ 24
    let s1 := (s.setReg d v).setPair zAddr (BitVec.ofNat 16 b2)
    return (s1.setByte rampzAddr (BitVec.ofNat 8 (b2 / 65536))).finish 2)

/-- SPM: a no-op (43_transfer.md R433, D18). -/
def execSpm (s : State) : Host.Outcome State Fault Refusal := .next (s.finish 0)

/-- SPM Z+: a no-op (43_transfer.md R433, D18). -/
def execSpmZP (s : State) : Host.Outcome State Fault Refusal := .next (s.finish 0)

/-! ### I/O and stack -/

/-- IN (43_transfer.md R434). -/
def execInIo (d : Reg) (A : BitVec 6) (s : State) : Host.Outcome State Fault Refusal :=
  toOutcome do
    let s1 ← loadFrom 0 (ioAddr A.toNat) d s
    return s1.finish 0

/-- OUT (43_transfer.md R435). -/
def execOutIo (A : BitVec 6) (r : Reg) (s : State) : Host.Outcome State Fault Refusal :=
  toOutcome do
    let s1 ← busWrite 0 (ioAddr A.toNat) (s.reg r) 0xFF s
    return s1.finish 0

/-- PUSH (43_transfer.md R436). -/
def execPush (r : Reg) (s : State) : Host.Outcome State Fault Refusal :=
  toOutcome do
    let s1 ← push1 (s.reg r) s
    return s1.finish 1

/-- POP (43_transfer.md R437). -/
def execPop (d : Reg) (s : State) : Host.Outcome State Fault Refusal :=
  toOutcome do
    let (v, s1) ← pop1 s
    return (s1.setReg d v).finish 1

/-! ### Read-modify-write through Z -/

/-- LAS (43_transfer.md R440). -/
def execLas (d : Reg) (s : State) : Host.Outcome State Fault Refusal :=
  toOutcome (exchangeZ (fun v rd => v ||| rd) d s)

/-- LAC (43_transfer.md R441). -/
def execLac (d : Reg) (s : State) : Host.Outcome State Fault Refusal :=
  toOutcome (exchangeZ (fun v rd => v &&& (0xFF - rd)) d s)

/-- LAT (43_transfer.md R442). -/
def execLat (d : Reg) (s : State) : Host.Outcome State Fault Refusal :=
  toOutcome (exchangeZ (fun v rd => v ^^^ rd) d s)

/-- XCH (43_transfer.md R443). -/
def execXch (d : Reg) (s : State) : Host.Outcome State Fault Refusal :=
  toOutcome (exchangeZ (fun _ rd => rd) d s)

end Sys2Proof.Machine
end

