-- ==== Sys2Proof/Machine/Dispatch.lean ====
section
/-! DEFINITION. The meaning of every instruction: one arm per constructor of `Instr`, in the order of
opcode_table.json. `Execute(ins)` of 30_encoding.md R156 with the trailing step. -/

namespace Sys2Proof.Machine

def exec (i : Instr) (s : State) : Host.Outcome State Fault Refusal :=
  match i with
  | .adc d r => Sys2Proof.Machine.execAdc d r s
  | .add d r => Sys2Proof.Machine.execAdd d r s
  | .adiw d K => Sys2Proof.Machine.execAdiw d K s
  | .and d r => Sys2Proof.Machine.execAnd d r s
  | .andi d K => Sys2Proof.Machine.execAndi d K s
  | .asr d => Sys2Proof.Machine.execAsr d s
  | .bclr n => Sys2Proof.Machine.execBclr n s
  | .bld d b => Sys2Proof.Machine.execBld d b s
  | .brbc n k => Sys2Proof.Machine.execBrbc n k s
  | .brbs n k => Sys2Proof.Machine.execBrbs n k s
  | .brk => Sys2Proof.Machine.execBrk s
  | .bset n => Sys2Proof.Machine.execBset n s
  | .bst d b => Sys2Proof.Machine.execBst d b s
  | .call k => Sys2Proof.Machine.execCall k s
  | .cbi A b => Sys2Proof.Machine.execCbi A b s
  | .com d => Sys2Proof.Machine.execCom d s
  | .cp d r => Sys2Proof.Machine.execCp d r s
  | .cpc d r => Sys2Proof.Machine.execCpc d r s
  | .cpi d K => Sys2Proof.Machine.execCpi d K s
  | .cpse d r => Sys2Proof.Machine.execCpse d r s
  | .dec d => Sys2Proof.Machine.execDec d s
  | .des K => Sys2Proof.Machine.execDes K s
  | .eicall => Sys2Proof.Machine.execEicall s
  | .eijmp => Sys2Proof.Machine.execEijmp s
  | .elpm => Sys2Proof.Machine.execElpm s
  | .elpmZ d => Sys2Proof.Machine.execElpmZ d s
  | .elpmZP d => Sys2Proof.Machine.execElpmZP d s
  | .eor d r => Sys2Proof.Machine.execEor d r s
  | .fmul d r => Sys2Proof.Machine.execFmul d r s
  | .fmuls d r => Sys2Proof.Machine.execFmuls d r s
  | .fmulsu d r => Sys2Proof.Machine.execFmulsu d r s
  | .icall => Sys2Proof.Machine.execIcall s
  | .ijmp => Sys2Proof.Machine.execIjmp s
  | .inIo d A => Sys2Proof.Machine.execInIo d A s
  | .inc d => Sys2Proof.Machine.execInc d s
  | .jmp k => Sys2Proof.Machine.execJmp k s
  | .lac d => Sys2Proof.Machine.execLac d s
  | .las d => Sys2Proof.Machine.execLas d s
  | .lat d => Sys2Proof.Machine.execLat d s
  | .ldi d K => Sys2Proof.Machine.execLdi d K s
  | .lds d k => Sys2Proof.Machine.execLds d k s
  | .ldX d => Sys2Proof.Machine.execLdX d s
  | .ldXP d => Sys2Proof.Machine.execLdXP d s
  | .ldMX d => Sys2Proof.Machine.execLdMX d s
  | .ldY d => Sys2Proof.Machine.execLdY d s
  | .ldYP d => Sys2Proof.Machine.execLdYP d s
  | .ldMY d => Sys2Proof.Machine.execLdMY d s
  | .lddY d q => Sys2Proof.Machine.execLddY d q s
  | .ldZ d => Sys2Proof.Machine.execLdZ d s
  | .ldZP d => Sys2Proof.Machine.execLdZP d s
  | .ldMZ d => Sys2Proof.Machine.execLdMZ d s
  | .lddZ d q => Sys2Proof.Machine.execLddZ d q s
  | .lpm => Sys2Proof.Machine.execLpm s
  | .lpmZ d => Sys2Proof.Machine.execLpmZ d s
  | .lpmZP d => Sys2Proof.Machine.execLpmZP d s
  | .lsr d => Sys2Proof.Machine.execLsr d s
  | .mov d r => Sys2Proof.Machine.execMov d r s
  | .movw d r => Sys2Proof.Machine.execMovw d r s
  | .mul d r => Sys2Proof.Machine.execMul d r s
  | .muls d r => Sys2Proof.Machine.execMuls d r s
  | .mulsu d r => Sys2Proof.Machine.execMulsu d r s
  | .neg d => Sys2Proof.Machine.execNeg d s
  | .nop => Sys2Proof.Machine.execNop s
  | .or d r => Sys2Proof.Machine.execOr d r s
  | .ori d K => Sys2Proof.Machine.execOri d K s
  | .outIo A r => Sys2Proof.Machine.execOutIo A r s
  | .pop d => Sys2Proof.Machine.execPop d s
  | .push r => Sys2Proof.Machine.execPush r s
  | .rcall k => Sys2Proof.Machine.execRcall k s
  | .ret => Sys2Proof.Machine.execRet s
  | .reti => Sys2Proof.Machine.execReti s
  | .rjmp k => Sys2Proof.Machine.execRjmp k s
  | .ror d => Sys2Proof.Machine.execRor d s
  | .sbc d r => Sys2Proof.Machine.execSbc d r s
  | .sbci d K => Sys2Proof.Machine.execSbci d K s
  | .sbi A b => Sys2Proof.Machine.execSbi A b s
  | .sbic A b => Sys2Proof.Machine.execSbic A b s
  | .sbis A b => Sys2Proof.Machine.execSbis A b s
  | .sbiw d K => Sys2Proof.Machine.execSbiw d K s
  | .sbrc r b => Sys2Proof.Machine.execSbrc r b s
  | .sbrs r b => Sys2Proof.Machine.execSbrs r b s
  | .sleep => Sys2Proof.Machine.execSleep s
  | .spm => Sys2Proof.Machine.execSpm s
  | .spmZP => Sys2Proof.Machine.execSpmZP s
  | .sts k r => Sys2Proof.Machine.execSts k r s
  | .stX r => Sys2Proof.Machine.execStX r s
  | .stXP r => Sys2Proof.Machine.execStXP r s
  | .stMX r => Sys2Proof.Machine.execStMX r s
  | .stY r => Sys2Proof.Machine.execStY r s
  | .stYP r => Sys2Proof.Machine.execStYP r s
  | .stMY r => Sys2Proof.Machine.execStMY r s
  | .stdY q r => Sys2Proof.Machine.execStdY q r s
  | .stZ r => Sys2Proof.Machine.execStZ r s
  | .stZP r => Sys2Proof.Machine.execStZP r s
  | .stMZ r => Sys2Proof.Machine.execStMZ r s
  | .stdZ q r => Sys2Proof.Machine.execStdZ q r s
  | .sub d r => Sys2Proof.Machine.execSub d r s
  | .subi d K => Sys2Proof.Machine.execSubi d K s
  | .swap d => Sys2Proof.Machine.execSwap d s
  | .wdr => Sys2Proof.Machine.execWdr s
  | .xch d => Sys2Proof.Machine.execXch d s

end Sys2Proof.Machine
end

