-- ==== Sys2Proof/Machine/Engine.lean ====
section
/-! DEFINITION. The engine step (30_encoding.md R156), `tick()` (60_exceptions.md R514) and the driver's
step (R530), and how an instruction is placed where the next step fetches it. -/

namespace Sys2Proof.Machine

/-- `ProgWord(pc)`, and for the four two-word forms `ProgWord(pc + 1)`, which faults when
`pc + 1 >= L` (30_encoding.md R158). A one-word instruction reads no second word. -/
def fetch (s : State) : Except Fault (Word × Word) := do
  let w ← progWord s.pc s
  if twoWord w then
    let w2 ← progWord (s.pc + 1) s
    return (w, w2)
  else return (w, 0)

/-- Execute the instruction of the words fetched; a reserved word is a no-op (30_encoding.md R166). -/
def execWords (w w2 : Word) (s : State) : Host.Outcome State Fault Refusal :=
  match decode w w2 with
  | .ok i => exec i s
  | .error _ => execReserved s

/-- `EngineStep()` (30_encoding.md R156). -/
def engineStep (s : State) : Host.Outcome State Fault Refusal :=
  match fetch s with
  | .ok (w, w2) => execWords w w2 s
  | .error f => .fault f

/-- The first half of `tick()`: at most one clock event, the head of the chain when it is due, removed
before its callback runs (60_exceptions.md R514, D14, D15). -/
def fireEvent (s : State) : Except Fault State :=
  if eventsSorted s.events then
    match s.events with
    | [] => .ok s
    | e :: rest =>
      if e.due ≤ s.cycles then envCallback e.id { s with events := rest } else .ok s
  else .error .schedulerInvariant

/-- `tick()` (60_exceptions.md R514): the event first, then at most one interrupt. -/
def tick (s : State) : Except Fault State := do
  let s1 ← fireEvent s
  dispatchPending s1

/-- Go on with `tick()` after the engine step; the first step is then behind the machine. -/
def thenTick (o : Host.Outcome State Fault Refusal) : Host.Outcome State Fault Refusal :=
  match o with
  | .next s => toOutcome (tick s.start)
  | .fault f => .fault f
  | .refused r => .refused r

/-- `Step()` (60_exceptions.md R530): one engine step, then one `tick()`. -/
def driverStep (s : State) : Host.Outcome State Fault Refusal := thenTick (engineStep s)

/-- The state with the words of an instruction at `pc`: the first word in the low 16 bits of `w` and the
second above them, the bits at and above `nbits` 0. Only program memory changes. A second word at
L or beyond has no place and is left out. -/
def placeWord (s : State) (nbits w : Nat) : State :=
  let n := w % 2 ^ nbits
  let p1 := s.prog.write s.pc (BitVec.ofNat 16 n)
  { s with
    prog := if s.pc + 1 < s.cfg.progWords then p1.write (s.pc + 1) (BitVec.ofNat 16 (n / 65536))
            else p1 }

end Sys2Proof.Machine
end

