-- ==== Sys2Proof/Machine/Step.lean ====
section
/-! DEFINITION. The step the host runs, and how it places an instruction; both only call
Machine/Engine.lean. -/

namespace Sys2Proof.Machine

/-- One `Step()` of the driver: `EngineStep()` then `tick()` (60_exceptions.md R530). -/
def step (s : State) : Host.Outcome State Fault Refusal := driverStep s

/-- `s` with the instruction of `nbits` bits `w` where `step` fetches next (log 3). -/
def State.withFetchWord (s : State) (nbits w : Nat) : State := placeWord s nbits w

end Sys2Proof.Machine
end

