-- ==== Sys2Proof/Machine/Driver.lean ====
section
/-! DEFINITION. The host interface beside `step`: what the driver and the peripherals may do between
steps and at construction (60_exceptions.md R531, 10_state.md R61, 70_reset_and_hazards.md R600, R601).
Anything else breaks the contract and raises `envContract`. -/

namespace Sys2Proof.Machine

/-- One access between two steps, or a registration before the first (60_exceptions.md R531). -/
inductive DriverAction where
  | reset
  | readPc
  | writePc (v : Nat)
  | readCycles
  | writeCycles (v : Nat)
  | readData (a : Nat)
  | writeData (a : Nat) (v : Byte)
  | addClockEvent (id : Nat) (n : Int)
  | clearClockEvent (id : Nat)
  | updateClockEvent (id : Nat) (n : Int)
  | setInterruptFlag (q : Descriptor)
  | updateInterruptEnable (q : Descriptor) (v : Byte)
  | queueInterrupt (q : Descriptor)
  | clearInterrupt (q : Descriptor) (clearFlagBit : Bool)
  | clearInterruptByFlag (q : Descriptor) (v : Byte)
  | registerReadHook (a : Nat)
  | registerWriteHook (a : Nat)
  | attachWatchdog
  deriving DecidableEq, Repr

/-- What the driver gets back (60_exceptions.md R531): nothing, the value of `pc` or of `cycles`, a data
byte, the id of the event added, or whether an event was there to clear or to update. -/
inductive DriverAnswer where
  | nothing
  | number (n : Nat)
  | byte (v : Byte)
  | event (id : Nat)
  | found (b : Bool)
  deriving DecidableEq, Repr

/-- A data address that may carry a hook: `32 <= a < DATA_SIZE` (20_memory.md R104). -/
def hookable (c : Config) (a : Nat) : Bool := decide (32 ≤ a) && decide (a < c.dataSize)

/-- Add an address to a hook table. -/
def addHook (a : Nat) (hs : List Nat) : List Nat := if hs.contains a then hs else a :: hs

/-- An access that gives nothing back. -/
def silently (r : Except Fault State) : Except Fault (DriverAnswer × State) :=
  r.map (fun t => (.nothing, t))

/-- An access that gives something back. -/
def answering {α : Type} (f : α → DriverAnswer) (r : Except Fault (α × State)) :
    Except Fault (DriverAnswer × State) :=
  r.map (fun p => (f p.1, p.2))

/-- One driver action (60_exceptions.md R531). The driver writes `cycles` only upward (D36), `D[a]` only
in range, hands over descriptors as in 10_state.md R68, and registers only before the first step
(00_scope.md R7, 70_reset_and_hazards.md R603). -/
def driverAct (act : DriverAction) (s : State) : Except Fault (DriverAnswer × State) :=
  match act with
  | .reset => silently (.ok s.doReset)
  | .readPc => .ok (.number s.pc, s)
  | .writePc v => silently (.ok { s with pc := v })
  | .readCycles => .ok (.number s.cycles, s)
  | .writeCycles v => silently (contract (decide (s.cycles ≤ v)) (.ok { s with cycles := v }))
  | .readData a => (rawRead a s).map (fun v => (.byte v, s))
  | .writeData a v => silently (rawWrite a v s)
  | .addClockEvent id n => answering .event (addClockEvent s.cycles id n s)
  | .clearClockEvent id => answering .found (clearClockEvent id s)
  | .updateClockEvent id n => answering .found (updateClockEvent s.cycles id n s)
  | .setInterruptFlag q => silently (contract (registersOk s.cfg q) (setInterruptFlag q s))
  | .updateInterruptEnable q v =>
    silently (contract (registersOk s.cfg q) (updateInterruptEnable q v s))
  | .queueInterrupt q => silently (contract (registersOk s.cfg q) (queueInterrupt q s))
  | .clearInterrupt q b => silently (contract (registersOk s.cfg q) (clearInterrupt q b s))
  | .clearInterruptByFlag q v =>
    silently (contract (registersOk s.cfg q) (clearInterruptByFlag q v s))
  | .registerReadHook a =>
    silently (contract (!s.started && hookable s.cfg a)
      (.ok { s with readHooks := addHook a s.readHooks }))
  | .registerWriteHook a =>
    silently (contract (!s.started && hookable s.cfg a)
      (.ok { s with writeHooks := addHook a s.writeHooks }))
  | .attachWatchdog => silently (contract (!s.started) (.ok { s with watchdog := true }))

end Sys2Proof.Machine
end

