-- ==== Sys2Proof/Safety.lean ====
section
/-! DEFINITION. The terms claims are stated in: what an instruction leaves alone, the invariant of the
machine, runs and where they end, and the premises a run is launched under. -/

namespace Sys2Proof.Machine

/-! ### What a step leaves alone -/

/-- What no instruction changes: the parameters, program memory, the hook tables, and whether the first
step has been taken. A step leaves them too, but for the last, which it sets. -/
structure SameBuild (s t : State) : Prop where
  cfg : t.cfg = s.cfg
  prog : t.prog = s.prog
  readHooks : t.readHooks = s.readHooks
  writeHooks : t.writeHooks = s.writeHooks
  watchdog : t.watchdog = s.watchdog
  started : t.started = s.started

/-- Nothing outside the data space, `pc` and `cycles` changed: no environment call was made (the model's
own fields of log 4 and 5 are as before), and so are the pending set and the event chain. -/
structure Quiet (s t : State) : Prop where
  build : SameBuild s t
  pending : t.pending = s.pending
  events : t.events = s.events
  replies : t.replies = s.replies
  draws : t.draws = s.draws
  calls : t.calls = s.calls

/-- The next instruction is `k` words on (mod L) and `n` cycles have passed. -/
structure Advances (k n : Nat) (s t : State) : Prop where
  pc : t.pc = (s.pc + k) % s.cfg.progWords
  cycles : t.cycles = s.cycles + n

/-- The next instruction is at `target` (mod L, never negative) and `n` cycles have passed. -/
structure GoesTo (target : Int) (n : Nat) (s t : State) : Prop where
  pc : (t.pc : Int) = target % (s.cfg.progWords : Int)
  cycles : t.cycles = s.cycles + n

/-- Every data byte outside the addresses listed is unchanged. -/
def DataFrame (changed : List Nat) (s t : State) : Prop :=
  ∀ a, a ∉ changed → t.byte a = s.byte a

/-- Every flag outside the flags listed is unchanged. -/
def FlagFrame (changed : List Flag) (s t : State) : Prop :=
  ∀ f, f ∉ changed → t.flag f = s.flag f

/-- An instruction that runs on to the next word in `n` cycles, calls nobody, and changes no flag and no
byte but those listed. -/
structure RunsOn (n : Nat) (flags : List Flag) (bytes : List Nat) (s t : State) : Prop where
  advances : Advances 1 n s t
  quiet : Quiet s t
  flags : FlagFrame flags s t
  bytes : DataFrame bytes s t

/-- Nobody is called: no hook and no watchdog. -/
structure NoHooks (s : State) : Prop where
  readHooks : s.readHooks = []
  writeHooks : s.writeHooks = []
  watchdog : s.watchdog = false

/-- What the environment leaves alone in a call: `pc`, `cycles`, r0 to r31, the core-owned registers,
the hook tables, program memory and the parameters (20_memory.md R104). -/
structure EnvKeeps (s t : State) : Prop where
  build : SameBuild s t
  pc : t.pc = s.pc
  cycles : t.cycles = s.cycles
  bytes : ∀ a, (a < 32 ∨ coreOwned a = true ∨ s.cfg.dataSize ≤ a) → t.byte a = s.byte a

/-! ### What each instruction writes -/

/-- The bytes a pushed return address and the stack pointer occupy (20_memory.md R108). -/
def pushedAddrs (s : State) : List Nat :=
  let p := s.sp.toNat
  [p, p - 1, 0x5D, 0x5E] ++ (if s.cfg.pc22 then [p - 2] else [])

/-- The data addresses an instruction writes by its own rule (40_alu.md to 44_mcu_control.md): its
destination registers, SREG where it writes flags, the pointer or the stack pointer it moves, and the
bytes it stores to. -/
def writeSet (i : Instr) (s : State) : List Nat :=
  match i with
  | .add d _ | .adc d _ | .sub d _ | .sbc d _ | .and d _ | .or d _ | .eor d _ => [d.toNat, 0x5F]
  | .subi d _ | .sbci d _ | .andi d _ | .ori d _ => [d.toNat, 0x5F]
  | .com d | .neg d | .inc d | .dec d | .lsr d | .ror d | .asr d => [d.toNat, 0x5F]
  | .adiw d _ | .sbiw d _ => [d.toNat, d.toNat + 1, 0x5F]
  | .mul _ _ | .muls _ _ | .mulsu _ _ | .fmul _ _ | .fmuls _ _ | .fmulsu _ _ => [0, 1, 0x5F]
  | .cp _ _ | .cpc _ _ | .cpi _ _ | .bset _ | .bclr _ | .bst _ _ => [0x5F]
  | .swap d | .mov d _ | .ldi d _ | .bld d _ | .inIo d _ => [d.toNat]
  | .movw d _ => [d.toNat, d.toNat + 1]
  | .ldX d | .ldY d | .ldZ d | .lddY d _ | .lddZ d _ | .lds d _ => [d.toNat]
  | .ldXP d | .ldMX d => [d.toNat, 26, 27]
  | .ldYP d | .ldMY d => [d.toNat, 28, 29]
  | .ldZP d | .ldMZ d => [d.toNat, 30, 31]
  | .stX _ => [(s.pair 26).toNat]
  | .stXP _ => [(s.pair 26).toNat, 26, 27]
  | .stMX _ => [(s.pair 26 - 1).toNat, 26, 27]
  | .stY _ => [(s.pair 28).toNat]
  | .stYP _ => [(s.pair 28).toNat, 28, 29]
  | .stMY _ => [(s.pair 28 - 1).toNat, 28, 29]
  | .stdY q _ => [(s.pair 28).toNat + q.toNat]
  | .stZ _ => [(s.pair 30).toNat]
  | .stZP _ => [(s.pair 30).toNat, 30, 31]
  | .stMZ _ => [(s.pair 30 - 1).toNat, 30, 31]
  | .stdZ q _ => [(s.pair 30).toNat + q.toNat]
  | .sts k _ => [k.toNat]
  | .lpm | .elpm => [0]
  | .lpmZ d | .elpmZ d => [d.toNat]
  | .lpmZP d => [d.toNat, 30, 31]
  | .elpmZP d => [d.toNat, 30, 31, 0x5B]
  | .outIo A _ => [A.toNat + 0x20]
  | .sbi A _ | .cbi A _ => [A.toNat + 0x20]
  | .push _ => [s.sp.toNat, 0x5D, 0x5E]
  | .pop d => [d.toNat, 0x5D, 0x5E]
  | .xch d | .las d | .lac d | .lat d => [(s.pair 30).toNat, d.toNat]
  | .rcall _ | .icall | .eicall | .call _ => pushedAddrs s
  | .ret => [0x5D, 0x5E]
  | .reti => [0x5D, 0x5E, 0x5F]
  | .rjmp _ | .ijmp | .eijmp | .jmp _ | .brbs _ _ | .brbc _ _ => []
  | .cpse _ _ | .sbrc _ _ | .sbrs _ _ | .sbic _ _ | .sbis _ _ => []
  | .nop | .sleep | .wdr | .brk | .des _ | .spm | .spmZP => []

/-! ### The invariant -/

/-- Hooks are registered only at `32 <= a < DATA_SIZE` (10_state.md R61, 20_memory.md R104). -/
def hooksInRange (c : Config) (hs : List Nat) : Prop := ∀ a ∈ hs, 32 ≤ a ∧ a < c.dataSize

/-- What every step and every driver action keeps: parameters in range, both memories canonical and
inside their spaces, hooks in range, the event chain sorted and the pending set a map. -/
structure Inv (s : State) : Prop where
  cfg : s.cfg.Wf
  data : s.data.wf
  dataBelow : s.data.below s.cfg.dataSize
  prog : s.prog.wf
  progBelow : s.prog.below s.cfg.progWords
  readHooks : hooksInRange s.cfg s.readHooks
  writeHooks : hooksInRange s.cfg s.writeHooks
  events : eventsSorted s.events
  pending : pendingSorted s.pending

/-! ### Runs (60_exceptions.md R530 to R532) -/

/-- One `Step()` takes `s` to `t` (60_exceptions.md R530). -/
def Stepped (s t : State) : Prop := step s = .next t

/-- One driver access between steps takes `s` to `t` (60_exceptions.md R531). -/
def Driven (s t : State) : Prop := ∃ act answer, driverAct act s = .ok (answer, t)

/-- A run by the moves `R` has come from `s` to `t`: `Stepped` for a run the driver does not touch. -/
abbrev Run (R : State → State → Prop) : State → State → Prop := Relation.ReflTransGen R

/-- A state after construction, with parameters in their ranges and a program inside program memory
(70_reset_and_hazards.md R600). -/
def Constructed (s : State) : Prop :=
  ∃ (c : Config) (prog : Memory 16), c.Wf ∧ prog.wf ∧ prog.below c.progWords ∧
    s = State.construct c prog

/-- The states a run from construction reaches, by steps with driver accesses between them
(60_exceptions.md R530). -/
def Reachable (s : State) : Prop :=
  ∃ s0, Constructed s0 ∧ Run (fun s t => Stepped s t ∨ Driven s t) s0 s

/-- A state, between steps, whose `pc` holds the word 0xCFFF: `RJMP -1`, a jump to itself
(60_exceptions.md R532, D35). It says nothing of the machine but this: the loop runs on, and an event
or an interrupt may still fire and leave it. -/
def AtSelfLoop (s : State) : Prop := s.pc < s.cfg.progWords ∧ s.prog.read s.pc = 0xCFFF

/-- The end of a run (60_exceptions.md R532): the run from `s` by the moves `R` ends at `t`, the first of
its states that is at a self-loop. -/
inductive EndsAt (R : State → State → Prop) : State → State → Prop where
  | here {s : State} (h : AtSelfLoop s) : EndsAt R s s
  | move {s t u : State} (h : ¬AtSelfLoop s) (hm : R s t) (hr : EndsAt R t u) : EndsAt R s u

/-! ### The premises of a launch (70_reset_and_hazards.md R604)

`LaunchParams` is `Config.Wf`. `NoFault` and `NothingInFlight` hold of every `State`: a step that faults
leaves none, and a `State` stands between two steps. -/

/-- `CleanEntry`: the state after construction or after `reset()`, changed only by driver accesses. The
registrations of 70_reset_and_hazards.md R600 are among them. -/
def CleanEntry (s : State) : Prop :=
  ∃ s0, (Constructed s0 ∨ ∃ u, Reachable u ∧ s0 = u.doReset) ∧ Run Driven s0 s

/-- `EnvObeys`, for the run from `s` by the moves `R`: hooks stand only where they may, and no step
breaks the environment's contract. The driver's own is part of `Driven`, which takes only accesses
that answer. -/
structure EnvObeys (R : State → State → Prop) (s : State) : Prop where
  readHooks : hooksInRange s.cfg s.readHooks
  writeHooks : hooksInRange s.cfg s.writeHooks
  calls : ∀ t, Run R s t → step t ≠ .fault .envContract

/-- The descriptor an operation of the environment hands over. -/
def opDescriptors : EnvOp → List Descriptor
  | .setInterruptFlag q | .updateInterruptEnable q _ | .queueInterrupt q => [q]
  | .clearInterrupt q _ | .clearInterruptByFlag q _ => [q]
  | .addClockEvent _ _ | .clearClockEvent _ | .updateClockEvent _ _ | .rawWrite _ _ => []

/-- The descriptors the environment hands over in a call, nested hooks included. -/
def scriptDescriptors : EnvScript → List Descriptor
  | .done => []
  | .op o rest => opDescriptors o ++ scriptDescriptors rest
  | .busRead _ nested rest => scriptDescriptors nested ++ scriptDescriptors rest
  | .busWrite _ _ _ _ nested rest => scriptDescriptors nested ++ scriptDescriptors rest

/-- The descriptor a driver access hands over. -/
def actionDescriptors : DriverAction → List Descriptor
  | .setInterruptFlag q | .updateInterruptEnable q _ | .queueInterrupt q => [q]
  | .clearInterrupt q _ | .clearInterruptByFlag q _ => [q]
  | .reset | .readPc | .writePc _ | .readCycles | .writeCycles _ | .readData _ | .writeData _ _ => []
  | .addClockEvent _ _ | .clearClockEvent _ | .updateClockEvent _ _ => []
  | .registerReadHook _ | .registerWriteHook _ | .attachWatchdog => []

/-- The `k`-th answer the environment gives from `s` on, the next one being the 0-th. -/
def State.answer (s : State) (k : Nat) : EnvReply :=
  s.replies.getD k (Config.envReply (s.draws + k))

/-- Every descriptor's vector address is below L. -/
def VectorsBelow (c : Config) (qs : List Descriptor) : Prop :=
  ∀ q ∈ qs, q.vectorAddress < c.progWords

/-- A driver access that hands over no vector address at L or beyond. -/
def DrivenInRange (s t : State) : Prop :=
  ∃ act answer, VectorsBelow s.cfg (actionDescriptors act) ∧ driverAct act s = .ok (answer, t)

/-- `VectorsInRange`, for the run from `s` by the moves `R`: every descriptor that is pending, or that the
environment hands over in a call the run makes, has its vector address below L. Where the driver hands
over descriptors, `R` takes `DrivenInRange`. -/
structure VectorsInRange (R : State → State → Prop) (s : State) : Prop where
  pending : VectorsBelow s.cfg s.pending
  answers : ∀ k t, Run R s t → s.draws + k < t.draws →
    VectorsBelow s.cfg (scriptDescriptors (s.answer k).script)

/-- The premises of a launch together, for the run from `s` by the moves `R`. -/
structure Launch (R : State → State → Prop) (s : State) : Prop where
  launchParams : s.cfg.Wf
  cleanEntry : CleanEntry s
  envObeys : EnvObeys R s
  vectorsInRange : VectorsInRange R s

end Sys2Proof.Machine
end

