-- ==== Sys2Proof/Certificates/Slice0/Obligations.lean ====
section
/-! DEFINITION. The statements about the core, each from rules of spec/, and the readings they are
written in. -/

namespace Sys2Proof.Claims

open Sys2Proof Sys2Proof.Machine

/-! ### Readings of results as integers -/

/-- The flags of an addition of `a`, `b` and a carry, as arithmetic (40_alu.md R201). -/
structure AddedFlags (a b : Byte) (c : Bool) (t : State) : Prop where
  C : t.flag .C = decide (256 ≤ a.toNat + b.toNat + c.toNat)
  H : t.flag .H = decide (16 ≤ a.toNat % 16 + b.toNat % 16 + c.toNat)
  N : t.flag .N = decide (128 ≤ (a.toNat + b.toNat + c.toNat) % 256)
  Z : t.flag .Z = decide ((a.toNat + b.toNat + c.toNat) % 256 = 0)
  V : t.flag .V = decide (a.toInt + b.toInt + c.toNat < -128 ∨ 127 < a.toInt + b.toInt + c.toNat)
  S : t.flag .S = (t.flag .N != t.flag .V)

/-- The flags of a subtraction or a compare of `a`, `b` and a borrow, as arithmetic; `z` is the old Z
where Z is chained, and true where it is not (40_alu.md R202). -/
structure SubtractedFlags (a b : Byte) (c z : Bool) (t : State) : Prop where
  C : t.flag .C = decide (a.toNat < b.toNat + c.toNat)
  H : t.flag .H = decide (a.toNat % 16 < b.toNat % 16 + c.toNat)
  N : t.flag .N = decide (128 ≤ ((a.toNat : Int) - b.toNat - c.toNat) % 256)
  Z : t.flag .Z = (z && decide (((a.toNat : Int) - b.toNat - c.toNat) % 256 = 0))
  V : t.flag .V = decide (a.toInt - b.toInt - c.toNat < -128 ∨ 127 < a.toInt - b.toInt - c.toNat)
  S : t.flag .S = (t.flag .N != t.flag .V)

/-- H, S, V, N, Z, C: what an addition, a subtraction or a compare writes. -/
def arithFlags : List Flag := [.H, .S, .V, .N, .Z, .C]

/-- `x[d] <- a + b + c`, with the flags of the addition. -/
def Added (d : Reg) (a b : Byte) (c : Bool) (s t : State) : Prop :=
  (t.reg d).toNat = (a.toNat + b.toNat + c.toNat) % 256 ∧ AddedFlags a b c t ∧
    RunsOn 1 arithFlags [d.toNat, 0x5F] s t

/-- `x[d] <- a - b - c`, with the flags of the subtraction. -/
def Subtracted (d : Reg) (a b : Byte) (c z : Bool) (s t : State) : Prop :=
  ((t.reg d).toNat : Int) = ((a.toNat : Int) - b.toNat - c.toNat) % 256 ∧
    SubtractedFlags a b c z t ∧ RunsOn 1 arithFlags [d.toNat, 0x5F] s t

/-- The flags of the subtraction `a - b - c` and no register written. -/
def Compared (a b : Byte) (c z : Bool) (s t : State) : Prop :=
  SubtractedFlags a b c z t ∧ RunsOn 1 arithFlags [0x5F] s t

/-- `x[d] <- v` by a logic instruction: V cleared, N and S from bit 7, Z, and H and C kept
(40_alu.md R203). -/
def LogicResult (d : Reg) (v : Byte) (s t : State) : Prop :=
  t.reg d = v ∧ t.flag .V = false ∧ t.flag .N = decide (128 ≤ v.toNat) ∧
    t.flag .S = t.flag .N ∧ t.flag .Z = decide (v.toNat = 0) ∧
    RunsOn 1 [.S, .V, .N, .Z] [d.toNat, 0x5F] s t

/-- N, Z, S of an 8-bit result `v`, with V given. -/
def SignFlags (v : Nat) (ov : Bool) (t : State) : Prop :=
  t.flag .N = decide (128 ≤ v) ∧ t.flag .Z = decide (v = 0) ∧ t.flag .V = ov ∧
    t.flag .S = (t.flag .N != ov)

/-- `x[d+1]:x[d] <- v` with the flags of ADIW or SBIW and 2 cycles. -/
def WordResult (d : Reg) (v : Nat) (c ov : Bool) (s t : State) : Prop :=
  (t.pair d.toNat).toNat = v ∧ t.flag .C = c ∧ t.flag .V = ov ∧
    t.flag .N = decide (32768 ≤ v) ∧ t.flag .Z = decide (v = 0) ∧
    t.flag .S = (t.flag .N != ov) ∧
    RunsOn 2 [.S, .V, .N, .Z, .C] [d.toNat, d.toNat + 1, 0x5F] s t

/-- `r1:r0 <- factor * p mod 65536`, C bit 15 of `p mod 65536`, Z whether the stored result is 0. -/
def ProductResult (factor : Int) (p : Int) (s t : State) : Prop :=
  ((t.pair 0).toNat : Int) = factor * p % 65536 ∧
    t.flag .C = decide (32768 ≤ p % 65536) ∧ t.flag .Z = decide (factor * p % 65536 = 0) ∧
    RunsOn 2 [.C, .Z] [0, 1, 0x5F] s t

/-- `x[d] <- v` by a right shift of a byte whose bit 0 is `c` (40_alu.md R204). -/
def ShiftResult (d : Reg) (v : Nat) (c : Bool) (s t : State) : Prop :=
  (t.reg d).toNat = v ∧ t.flag .C = c ∧ SignFlags v (decide (128 ≤ v) != c) t ∧
    RunsOn 1 [.S, .V, .N, .Z, .C] [d.toNat, 0x5F] s t

/-! ### Readings of memory and the stack -/

/-- The byte at `x` once `pushed` lies on the stack at SP, its low byte at the highest address, and SP
has moved below it (20_memory.md R108). -/
def afterPush (s : State) (v x : Nat) : Byte :=
  let p : Int := s.sp.toNat
  if x = 0x5D then BitVec.ofInt 8 (p - s.cfg.pcBytes)
  else if x = 0x5E then BitVec.ofInt 8 ((p - s.cfg.pcBytes) / 256)
  else if (x : Int) = p then BitVec.ofNat 8 v
  else if (x : Int) = p - 1 then BitVec.ofNat 8 (v / 256)
  else if (x : Int) = p - 2 ∧ s.cfg.pc22 then BitVec.ofNat 8 (v / 65536)
  else s.byte x

/-- The 2 or 3 bytes a call or a dispatch pushes lie inside the data space. -/
def RoomToPush (s : State) : Prop :=
  s.cfg.pcBytes ≤ s.sp.toNat + 1 ∧ s.sp.toNat < s.cfg.dataSize

/-- The 2 or 3 bytes a return pops lie inside the data space. -/
def RoomToPop (s : State) : Prop := s.sp.toNat + s.cfg.pcBytes < s.cfg.dataSize

/-- Nothing changed but bytes of the data space. -/
structure OnlyData (s t : State) : Prop where
  quiet : Quiet s t
  pc : t.pc = s.pc
  cycles : t.cycles = s.cycles

/-- The return address above SP: high byte at the lowest address. -/
def returnAddress (s : State) : Nat :=
  let p := s.sp.toNat
  if s.cfg.pc22 then
    (s.byte (p + 1)).toNat * 65536 + (s.byte (p + 2)).toNat * 256 + (s.byte (p + 3)).toNat
  else (s.byte (p + 1)).toNat * 256 + (s.byte (p + 2)).toNat

/-- Byte `b` of the byte view of program memory: the low byte of word i at 2i, the high byte at
2i + 1 (20_memory.md R107). -/
def flash (s : State) (b : Nat) : Byte :=
  BitVec.ofNat 8 ((s.prog.read (b / 2)).toNat / 256 ^ (b % 2))

/-- An answer of the environment that does nothing else: it runs no script. -/
def Silent (s : State) : Prop := s.nextReply.script = .done

/-- The calls `cs` were made to the environment, the newest first, and as many answers used up (the
model's own fields of log 4 and 5); nothing else but the data space, `pc` and `cycles` may differ. -/
structure Called (cs : List EnvCall) (s t : State) : Prop where
  build : SameBuild s t
  pending : t.pending = s.pending
  events : t.events = s.events
  replies : t.replies = s.replies.drop cs.length
  draws : t.draws = s.draws + cs.length
  calls : t.calls = cs ++ s.calls

/-- The byte a bus read at `a` gives: a hook's answer mod 256, or the stored byte. -/
def readValue (s : State) (a : Nat) : Byte :=
  if s.readHooked a then BitVec.ofNat 8 s.nextReply.value else s.byte a

/-- The call a bus read at `a` makes. -/
def readCall (s : State) (a : Nat) : List EnvCall := if s.readHooked a then [.readHook a] else []

/-- A bus read at `a` has used up the answer it needs. -/
def afterRead (s : State) (a : Nat) : State := if s.readHooked a then s.useReply else s

/-- A read hook at `a`, if there is one, does nothing but answer. -/
def SilentRead (s : State) (a : Nat) : Prop := s.readHooked a = true → Silent s

/-- The call a bus write at `a` makes, `old` the byte there. -/
def writeCall (s : State) (v old : Byte) (a : Nat) (mask : Byte) : List EnvCall :=
  if s.writeHooked a then [.writeHook v old a mask] else []

/-- A write hook at `a`, if there is one, does nothing but answer. -/
def SilentWrite (s : State) (a : Nat) : Prop := s.writeHooked a = true → Silent s

/-- The store of a bus write at `a` happens: no write hook there says that it handled the write. -/
def stores (s : State) (a : Nat) : Prop := (s.writeHooked a && s.nextReply.handled) = false

/-- No clock event is due: the chain is empty or its head lies ahead. -/
def NoneDue (s : State) : Prop := ∀ e ∈ s.events.head?, s.cycles < e.due

/-- A skip instruction that makes the calls `cs` runs on when its condition fails, skips the next one or
two words when it holds, and faults when there is no next word to look at (30_encoding.md R159). -/
def SkipRule (i : Instr) (condition : Bool) (cs : List EnvCall) (s : State) : Prop :=
  let n := if twoWord (s.prog.read (s.pc + 1)) then 2 else 1
  (condition = false → ∃ t, exec i s = .next t ∧ Advances 1 1 s t ∧ Called cs s t ∧
    DataFrame [] s t) ∧
  (condition = true → s.pc + 1 < s.cfg.progWords →
    ∃ t, exec i s = .next t ∧ Advances (n + 1) (n + 1) s t ∧ Called cs s t ∧ DataFrame [] s t) ∧
  (condition = true → s.cfg.progWords ≤ s.pc + 1 →
    exec i s = .fault (.progOutOfRange (s.pc + 1)))

/-- The instructions that write flags of SREG by their own rule, not as a byte they store to. -/
def writesFlags : Instr → Bool
  | .add _ _ | .adc _ _ | .sub _ _ | .sbc _ _ | .and _ _ | .or _ _ | .eor _ _ => true
  | .subi _ _ | .sbci _ _ | .andi _ _ | .ori _ _ | .adiw _ _ | .sbiw _ _ => true
  | .com _ | .neg _ | .inc _ | .dec _ | .lsr _ | .ror _ | .asr _ => true
  | .mul _ _ | .muls _ _ | .mulsu _ _ | .fmul _ _ | .fmuls _ _ | .fmulsu _ _ => true
  | .cp _ _ | .cpc _ _ | .cpi _ _ | .bst _ _ | .bset _ | .bclr _ | .reti => true
  | _ => false

/-- The words of an instruction stand at `pc`, inside program memory. -/
def StandsAtPc (i : Instr) (s : State) : Prop :=
  ∃ w ws, encode i = w :: ws ∧ s.prog.read s.pc = w ∧ s.pc + ws.length < s.cfg.progWords ∧
    ∀ k, ws = [k] → s.prog.read (s.pc + 1) = k

end Sys2Proof.Claims

open Sys2Proof Sys2Proof.Machine Sys2Proof.Claims

/-! ## Encoding and decoding -/

/-- 30_encoding.md sections 1 and 2: decoding the words of any well-formed instruction gives the
instruction back, whatever stands in the word after a one-word form. -/
def Obligations.DecodeOfEncode : Prop :=
  ∀ i : Instr, WellFormed i →
    (∃ w, encode i = [w] ∧ ∀ w2, decode w w2 = .ok i) ∨
    (∃ w w2, encode i = [w, w2] ∧ decode w w2 = .ok i)

/-- 30_encoding.md section 2: a word the decoder accepts is the first word of the well-formed
instruction it gives, with the word after it when that is an operand; a word it rejects is the first
word of no well-formed instruction. -/
def Obligations.EncodeOfDecode : Prop :=
  ∀ w w2 : Word,
    (∀ i, decode w w2 = .ok i →
      WellFormed i ∧ encode i = if twoWord w then [w, w2] else [w]) ∧
    (∀ e, decode w w2 = .error e →
      e = .reserved w ∧ ∀ i ws, WellFormed i → encode i ≠ w :: ws)

/-- 30_encoding.md section 4: a word starts a two-word form exactly when it decodes to LDS, STS, JMP
or CALL. -/
def Obligations.TwoWordForms : Prop :=
  ∀ w w2 : Word, twoWord w = true ↔
    (∃ d k, decode w w2 = .ok (.lds d k)) ∨ (∃ k r, decode w w2 = .ok (.sts k r)) ∨
      (∃ k, decode w w2 = .ok (.jmp k)) ∨ (∃ k, decode w w2 = .ok (.call k))

/-- 30_encoding.md R172: the worked encodings decode to the instructions they stand for. -/
def Obligations.WorkedEncodings : Prop :=
  (∀ w2, decode 0x1C45 w2 = .ok (.adc 4 5)) ∧ decode 0x940E 0x005C = .ok (.call 0x5C) ∧
    (∀ w2, decode 0xF7F1 w2 = .ok (.brbc 1 (BitVec.ofInt 7 (-2)))) ∧
    (∀ w2, decode 0xCFFF w2 = .ok (.rjmp (BitVec.ofInt 12 (-1)))) ∧
    (∀ w2, decode 0xAD8F w2 = .ok (.lddY 24 63)) ∧ (∀ w2, decode 0x96FF w2 = .ok (.adiw 30 63)) ∧
    (∀ w2, decode 0xB70F w2 = .ok (.inIo 16 0x3F)) ∧ (∀ w2, decode 0x9A2B w2 = .ok (.sbi 5 3)) ∧
    (∀ w2, decode 0x03F8 w2 = .ok (.fmulsu 23 16)) ∧ decode 0x95FD 0xFFFF = .ok (.jmp 0x3FFFFF)

/-! ## The engine step -/

/-- 30_encoding.md section 3 and 60_exceptions.md section 5: with the words of a well-formed
instruction at `pc`, a step is that instruction and then one `tick()`. That between the two the step
notes in `started` that it has been taken (`State.start`) is the model's choice (log 12). -/
def Obligations.StepRunsTheInstruction : Prop :=
  ∀ (i : Instr) (s : State), WellFormed i → StandsAtPc i s →
    step s = match exec i s with
      | .next u => toOutcome (tick u.start)
      | .fault f => .fault f
      | .refused r => .refused r

/-- 30_encoding.md section 5: a word that is the first word of no well-formed instruction runs on to the
next word in 1 cycle and changes nothing else; then comes the `tick()`. That between the two the step
notes in `started` that it has been taken (`State.start`) is the model's choice (log 12). -/
def Obligations.ReservedWordIsNop : Prop :=
  ∀ s : State, s.pc < s.cfg.progWords →
    (∀ i ws, WellFormed i → encode i ≠ s.prog.read s.pc :: ws) →
    ∃ t, engineStep s = .next t ∧ RunsOn 1 [] [] s t ∧ step s = toOutcome (tick t.start)

/-- 20_memory.md section 3: program words and bytes inside program memory, the words the fetch and the
operand read give there, and the fault of every read at L or beyond: a byte read, the fetch, the operand
word and the look-ahead of a skip that skips. SBIC and SBIS with a hook that only answers, or none (its
answer is the free value of log 4). -/
def Obligations.ProgramMemoryReads : Prop :=
  ∀ s : State,
    (∀ i, progWord i s =
      if i < s.cfg.progWords then .ok (s.prog.read i) else .error (.progOutOfRange i)) ∧
    (∀ b, progByte b s =
      if b / 2 < s.cfg.progWords then .ok (flash s b) else .error (.progOutOfRange (b / 2))) ∧
    (s.pc < s.cfg.progWords → (twoWord (s.prog.read s.pc) = true → s.pc + 1 < s.cfg.progWords) →
      ∃ w2, fetch s = .ok (s.prog.read s.pc, w2) ∧
        (twoWord (s.prog.read s.pc) = true → w2 = s.prog.read (s.pc + 1))) ∧
    (s.cfg.progWords ≤ s.pc → step s = .fault (.progOutOfRange s.pc)) ∧
    (s.pc < s.cfg.progWords → s.cfg.progWords ≤ s.pc + 1 → twoWord (s.prog.read s.pc) = true →
      step s = .fault (.progOutOfRange (s.pc + 1))) ∧
    (s.cfg.progWords ≤ s.pc + 1 →
      (∀ d r, s.reg d = s.reg r → exec (.cpse d r) s = .fault (.progOutOfRange (s.pc + 1))) ∧
      (∀ r b, exec (if (s.reg r).getLsbD b.toNat then Instr.sbrs r b else .sbrc r b) s =
        .fault (.progOutOfRange (s.pc + 1))) ∧
      (∀ (A : BitVec 5) b, A.toNat + 0x20 < s.cfg.dataSize → SilentRead s (A.toNat + 0x20) →
        exec (if (readValue s (A.toNat + 0x20)).getLsbD b.toNat then Instr.sbis A b else .sbic A b) s =
          .fault (.progOutOfRange (s.pc + 1))))

/-- 30_encoding.md section 3 and 10_state.md section 3: an instruction that completes leaves `pc` inside
program memory and adds at least one cycle; a whole step adds at least one cycle too, and neither
changes the parameters, program memory or the hook tables. Only a step notes that it has been taken
(log 12). -/
def Obligations.StepsTakeTime : Prop :=
  ∀ s t : State, 0 < s.cfg.progWords →
    (∀ i, exec i s = .next t → SameBuild s t ∧ t.pc < s.cfg.progWords ∧ s.cycles < t.cycles) ∧
    (step s = .next t → SameBuild s.start t ∧ s.cycles < t.cycles)

/-- 60_exceptions.md section 1: nothing is refused; every stop of an instruction or a step is one of the
model faults. -/
def Obligations.NothingIsRefused : Prop :=
  ∀ (s : State) (r : Refusal), (∀ i, exec i s ≠ .refused r) ∧ step s ≠ .refused r

/-! ## Invariants and frames of the whole machine -/

/-- 10_state.md: every step keeps the invariant (canonical memories inside their spaces, hooks in range,
the event chain sorted, the pending set a map). -/
def Obligations.StepKeepsInvariant : Prop :=
  ∀ s t : State, Inv s → step s = .next t → Inv t

/-- 10_state.md section 6: construction inside the parameters' ranges meets the invariant, and so does
`State.reset` (whose parameters are the model's choice, log 1). -/
def Obligations.ConstructionMeetsInvariant : Prop :=
  (∀ (c : Config) (prog : Memory 16), c.Wf → prog.wf → prog.below c.progWords →
    Inv (State.construct c prog)) ∧ Inv State.reset

/-- 60_exceptions.md section 5: every driver access that answers keeps the invariant, the parameters and
program memory, and after the first step the hook tables too (the model notes that step, log 12); so
every state a run reaches, by steps and driver accesses in any order, meets the invariant. -/
def Obligations.ReachableStatesMeetInvariant : Prop :=
  (∀ (act : DriverAction) (answer : DriverAnswer) (s t : State), Inv s →
    driverAct act s = .ok (answer, t) → Inv t ∧ t.cfg = s.cfg ∧ t.prog = s.prog ∧
      (s.started = true → SameBuild s t)) ∧
  ∀ s : State, Reachable s → Inv s

/-- 40_alu.md to 44_mcu_control.md and 20_memory.md section 1: no instruction changes a general register,
a core-owned register or a byte outside the data space other than those it writes by its own rule,
whatever the hooks it calls do; with no hook and no watchdog, it changes no byte at all but those. -/
def Obligations.InstructionFrame : Prop :=
  ∀ (i : Instr) (s t : State), exec i s = .next t → ∀ a, a ∉ writeSet i s →
    (a < 32 ∨ coreOwned a = true ∨ s.cfg.dataSize ≤ a ∨ NoHooks s) → t.byte a = s.byte a

/-- 60_exceptions.md section 2: with no hook and no watchdog, no instruction changes the pending set or the
event chain. The model's own fields (its choice, log 4, 5 and 6): no answer is used up, and only WDR notes
a call, its notification, which the model notes with no watchdog attached too. -/
def Obligations.InstructionsRaiseNoInterrupt : Prop :=
  ∀ (i : Instr) (s t : State), NoHooks s → exec i s = .next t →
    t.pending = s.pending ∧ t.events = s.events ∧ t.replies = s.replies ∧ t.draws = s.draws ∧
      t.calls = if i = .wdr then .watchdogReset :: s.calls else s.calls

/-- 60_exceptions.md section 3 and 70_reset_and_hazards.md section 3: an instruction that changes I is
BSET 7, BCLR 7, RETI, or one that stores a byte at SREG's own address; no flag computation touches
it. -/
def Obligations.InterruptEnableChanges : Prop :=
  ∀ (i : Instr) (s t : State), exec i s = .next t → t.flag .I ≠ s.flag .I →
    i = .bset 7 ∨ i = .bclr 7 ∨ i = .reti ∨ (writesFlags i = false ∧ 0x5F ∈ writeSet i s)

/-! ## The bus, raw access and the stack -/

/-- 20_memory.md R102: raw access bypasses the hooks, checks the range, and nothing else happens; reading
and writing a register, a pair, SP or SREG is raw access to its bytes. -/
def Obligations.RawAccess : Prop :=
  ∀ (s : State) (a : Int) (v : Byte),
    (rawRead a s =
      if 0 ≤ a ∧ a < s.cfg.dataSize then .ok (s.byte a.toNat) else .error (.dataOutOfRange a)) ∧
    (if 0 ≤ a ∧ a < s.cfg.dataSize then
      ∃ t, rawWrite a v s = .ok t ∧ OnlyData s t ∧
        ∀ x : Nat, t.byte x = if (x : Int) = a then v else s.byte x
     else rawWrite a v s = .error (.dataOutOfRange a)) ∧
    (∀ d, s.reg d = s.byte d.toNat ∧ OnlyData s (s.setReg d v) ∧
      ∀ x, (s.setReg d v).byte x = if x = d.toNat then v else s.byte x) ∧
    (∀ p w, (s.pair p).toNat = (s.byte (p + 1)).toNat * 256 + (s.byte p).toNat ∧
      OnlyData s (s.setPair p w) ∧ ∀ x, (s.setPair p w).byte x =
        if x = p then BitVec.ofNat 8 w.toNat else if x = p + 1 then BitVec.ofNat 8 (w.toNat / 256)
        else s.byte x) ∧
    (∀ w : Int, s.sp.toNat = (s.byte 0x5E).toNat * 256 + (s.byte 0x5D).toNat ∧
      OnlyData s (s.setSp w) ∧ ∀ x, (s.setSp w).byte x =
        if x = 0x5D then BitVec.ofInt 8 w else if x = 0x5E then BitVec.ofInt 8 (w / 256)
        else s.byte x) ∧
    (s.sreg = s.byte 0x5F ∧ OnlyData s (s.setSreg v) ∧
      ∀ x, (s.setSreg v).byte x = if x = 0x5F then v else s.byte x)

/-- 20_memory.md section 1: a bus read gives the stored byte with nothing else happening, unless the address
is at 32 or above and carries a read hook; then the hook runs and its answer counts mod 256. That the
call is noted in `calls` and that the answer is the next of `replies`, one draw, are the model's choice
(log 4, 5). -/
def Obligations.BusReads : Prop :=
  ∀ (s : State) (n a : Nat),
    (s.cfg.dataSize ≤ a → busRead (fun _ => n) a s = .error (.dataOutOfRange a)) ∧
    (a < s.cfg.dataSize → (a < 32 ∨ a ∉ s.readHooks) →
      busRead (fun _ => n) a s = .ok (s.byte a, s)) ∧
    (a < s.cfg.dataSize → 32 ≤ a → a ∈ s.readHooks →
      (∀ p, busRead (fun _ => n) a s = .ok p → p.1.toNat = s.nextReply.value % 256 ∧
        EnvKeeps s p.2 ∧ ∃ later, p.2.calls = later ++ .readHook a :: s.calls) ∧
      (Silent s → ∃ p, busRead (fun _ => n) a s = .ok p ∧ Called [.readHook a] s p.2 ∧
        p.2.data = s.data))

/-- 20_memory.md section 1: a bus write stores the byte, unless the address carries a write hook; the hook is
given the new value, the old byte, the address and the mask, and the whole byte is stored after it
returns, whatever the mask, unless it says the write is handled. That the call is noted in `calls` and
that the answer is the next of `replies`, one draw, are the model's choice (log 4, 5). -/
def Obligations.BusWrites : Prop :=
  ∀ (s : State) (n a : Nat) (v mask : Byte),
    (s.cfg.dataSize ≤ a → busWrite n a v mask s = .error (.dataOutOfRange a)) ∧
    (a < s.cfg.dataSize → a ∉ s.writeHooks → ∃ t, busWrite n a v mask s = .ok t ∧ Quiet s t ∧
      ∀ x, t.byte x = if x = a then v else s.byte x) ∧
    (a < s.cfg.dataSize → a ∈ s.writeHooks →
      (∀ t, busWrite n a v mask s = .ok t → ∃ u, EnvKeeps s u ∧
        (∃ later, u.calls = later ++ .writeHook v (s.byte a) a mask :: s.calls) ∧
        t = if s.nextReply.handled = true then u else u.setByte a v) ∧
      (Silent s → ∃ t, busWrite n a v mask s = .ok t ∧
        Called [.writeHook v (s.byte a) a mask] s t ∧
        ∀ x, t.byte x = if x = a ∧ s.nextReply.handled = false then v else s.byte x))

/-- 20_memory.md section 4: what `PushPC` pushes `PopPC` gives back, with SP where it was, when the stack
lies inside the data space and clear of SP's own bytes; the pushed bytes lie low byte highest. -/
def Obligations.PushThenPop : Prop :=
  ∀ (s : State) (v : Nat), v < 256 ^ s.cfg.pcBytes → s.cfg.pcBytes ≤ s.sp.toNat →
    s.sp.toNat < s.cfg.dataSize →
    (∀ j < s.cfg.pcBytes, s.sp.toNat - j ≠ 0x5D ∧ s.sp.toNat - j ≠ 0x5E) →
    ∃ t u, pushPC v s = .ok t ∧ (∀ x, t.byte x = afterPush s v x) ∧ popPC t = .ok (v, u) ∧
      u.sp = s.sp

/-! ## Taking an interrupt, and returning -/

/-- 60_exceptions.md section 3: dispatch pushes `pc`, clears I, adds IRQ_CYCLES and goes to the
vector address, which is not reduced; nothing else changes; and a push outside the data space
faults at the first byte outside. -/
def Obligations.DispatchEntry : Prop :=
  ∀ (s : State) (a : Nat),
    (RoomToPush s → ∃ t, dispatch a s = .ok t ∧ t.pc = a ∧ t.cycles = s.cycles + s.cfg.irqCycles ∧
      Quiet s t ∧ t.flag .I = false ∧
      ∀ x, t.byte x = if x = 0x5F then afterPush s s.pc x &&& 0x7F else afterPush s s.pc x) ∧
    (s.cfg.dataSize ≤ s.sp.toNat → dispatch a s = .error (.dataOutOfRange s.sp.toNat)) ∧
    (s.sp.toNat < s.cfg.dataSize → s.sp.toNat + 1 < s.cfg.pcBytes →
      dispatch a s = .error (.dataOutOfRange (-1)))

/-- 60_exceptions.md section 3: with no event due, one `tick()` changes nothing when I is clear or nothing
is pending; with I set it dispatches the least pending vector, and an edge-sensitive one leaves the
pending set and its flag bits are cleared, a level-sensitive one stays with its flag byte
untouched. -/
def Obligations.TickTakesLeastVector : Prop :=
  ∀ s : State, eventsSorted s.events → pendingSorted s.pending → NoneDue s →
    ((s.flag .I = false ∨ s.nextInterrupt = none) → tick s = .ok s) ∧
    ∀ (q : Descriptor) (rest : List Descriptor), s.pending = q :: rest → s.flag .I = true →
      RoomToPush s → q.flagRegister < s.cfg.dataSize →
      (∀ p ∈ rest, q.vectorAddress < p.vectorAddress) ∧
      ∃ t, tick s = .ok t ∧ t.pc = q.vectorAddress ∧ t.cycles = s.cycles + s.cfg.irqCycles ∧
        t.flag .I = false ∧ t.events = s.events ∧ t.calls = s.calls ∧ SameBuild s t ∧
        (q.kind = .edge → t.pending = rest) ∧ (q.kind = .level → t.pending = q :: rest) ∧
        ∀ x, t.byte x =
          (if x = 0x5F then afterPush s s.pc x &&& 0x7F else afterPush s s.pc x) &&&
            (if x = q.flagRegister ∧ q.kind = .edge then 0xFF - q.flagMask else 0xFF)

/-- 60_exceptions.md sections 3 and 4: a `tick()` fires the head event when it is due, and no other, the
head already removed when its callback runs; the callback leaves `pc`, `cycles`, the general and the
core-owned registers alone. That calls and answers are seen in `calls` and `draws` is the model's choice
(log 4, 5). -/
def Obligations.TickFiresOneEvent : Prop :=
  ∀ (s : State) (e : ClockEvent) (rest : List ClockEvent), eventsSorted s.events →
    s.events = e :: rest → e.due ≤ s.cycles →
    fireEvent s = envCallback e.id { s with events := rest } ∧
    (∀ t, fireEvent s = .ok t → EnvKeeps s t ∧ t.draws = s.draws + 1) ∧
    (Silent s → pendingSorted s.pending → s.flag .I = false →
      ∃ t, tick s = .ok t ∧ t.events = rest ∧ t.data = s.data ∧ t.pc = s.pc ∧
        t.cycles = s.cycles ∧ t.pending = s.pending ∧ t.calls = .callback e.id :: s.calls)

/-- 70_reset_and_hazards.md section 3: SEI lets the same step dispatch what is pending, and CLI stops it
in the same step. -/
def Obligations.InterruptEnableHasNoDelay : Prop :=
  ∀ (s : State) (q : Descriptor) (rest : List Descriptor), s.pc < s.cfg.progWords →
    s.events = [] → pendingSorted s.pending → s.pending = q :: rest →
    (s.prog.read s.pc = 0x9478 → RoomToPush s → q.flagRegister < s.cfg.dataSize →
      ∃ t, step s = .next t ∧ t.pc = q.vectorAddress ∧ t.flag .I = false ∧
        t.cycles = s.cycles + 1 + s.cfg.irqCycles) ∧
    (s.prog.read s.pc = 0x94F8 →
      ∃ t, step s = .next t ∧ t.pc = (s.pc + 1) % s.cfg.progWords ∧ t.flag .I = false ∧
        t.pending = q :: rest ∧ t.cycles = s.cycles + 1)

/-- 60_exceptions.md R507: the flag bit is set (cleared for an inverse flag) raw, and the vector is
queued when its enable bit is set in the state after that write. -/
def Obligations.SetInterruptFlagRule : Prop :=
  ∀ (s : State) (q : Descriptor), pendingSorted s.pending →
    q.flagRegister < s.cfg.dataSize → q.enableRegister < s.cfg.dataSize →
    ∃ t, setInterruptFlag q s = .ok t ∧ SameBuild s t ∧ t.events = s.events ∧ t.calls = s.calls ∧
      t.pc = s.pc ∧ t.cycles = s.cycles ∧
      (∀ x, t.byte x =
        if x ≠ q.flagRegister then s.byte x
        else if q.inverseFlag then s.byte x &&& (0xFF - q.flagMask) else s.byte x ||| q.flagMask) ∧
      (t.byte q.enableRegister &&& q.enableMask = 0 → t.pending = s.pending) ∧
      (t.byte q.enableRegister &&& q.enableMask ≠ 0 → queueInterrupt q s = .ok
        { s with pending := t.pending })

/-- 60_exceptions.md R508: with the enable bit in the new value, the vector is queued when its flag is
active; without it, any pending entry is removed; no data byte changes. -/
def Obligations.UpdateInterruptEnableRule : Prop :=
  ∀ (s : State) (q : Descriptor) (v : Byte), pendingSorted s.pending →
    q.flagRegister < s.cfg.dataSize →
    ((v &&& q.enableMask ≠ 0 ∧
        (s.byte q.flagRegister &&& q.flagMask = 0 ↔ q.inverseFlag = true)) →
      updateInterruptEnable q v s = queueInterrupt q s) ∧
    ((v &&& q.enableMask ≠ 0 ∧
        ¬(s.byte q.flagRegister &&& q.flagMask = 0 ↔ q.inverseFlag = true)) →
      updateInterruptEnable q v s = .ok s) ∧
    (v &&& q.enableMask = 0 →
      ∃ t, updateInterruptEnable q v s = .ok t ∧
        t = { s with pending := t.pending } ∧
        ∀ p, p ∈ t.pending ↔ p ∈ s.pending ∧ p.vectorAddress ≠ q.vectorAddress)

/-- 60_exceptions.md R509: queueing puts the descriptor at its vector address, replacing the one there,
keeps every other, and changes nothing else; `nextInterrupt` is the least key. -/
def Obligations.QueueInterruptRule : Prop :=
  ∀ (s : State) (q : Descriptor), pendingSorted s.pending →
    ∃ t, queueInterrupt q s = .ok t ∧ t = { s with pending := t.pending } ∧
      pendingSorted t.pending ∧
      (∀ p, p ∈ t.pending ↔ p = q ∨ (p ∈ s.pending ∧ p.vectorAddress ≠ q.vectorAddress)) ∧
      ∃ a, t.nextInterrupt = some a ∧ (∃ p ∈ t.pending, p.vectorAddress = a) ∧
        ∀ p ∈ t.pending, a ≤ p.vectorAddress

/-- 60_exceptions.md R510: clearing removes the vector address, clears the flag bits to 0 only when
asked (whatever `inverseFlag` says), and changes nothing else; `nextInterrupt` is the least key left. -/
def Obligations.ClearInterruptRule : Prop :=
  ∀ (s : State) (q : Descriptor) (b : Bool), pendingSorted s.pending →
    q.flagRegister < s.cfg.dataSize →
    ∃ t, clearInterrupt q b s = .ok t ∧ SameBuild s t ∧ t.events = s.events ∧ t.calls = s.calls ∧
      t.pc = s.pc ∧ t.cycles = s.cycles ∧
      (∀ x, t.byte x =
        if x = q.flagRegister ∧ b = true then s.byte x &&& (0xFF - q.flagMask) else s.byte x) ∧
      (∀ p, p ∈ t.pending ↔ p ∈ s.pending ∧ p.vectorAddress ≠ q.vectorAddress) ∧
      (t.nextInterrupt = none ↔ t.pending = []) ∧
      ∀ a, t.nextInterrupt = some a →
        (∃ p ∈ t.pending, p.vectorAddress = a) ∧ ∀ p ∈ t.pending, a ≤ p.vectorAddress

/-- 60_exceptions.md R511: a value with none of the flag bits changes nothing; any other is
`clearInterrupt` with the flag bits cleared. -/
def Obligations.ClearInterruptByFlagRule : Prop :=
  ∀ (s : State) (q : Descriptor) (v : Byte),
    (v &&& q.flagMask = 0 → clearInterruptByFlag q v s = .ok s) ∧
    (v &&& q.flagMask ≠ 0 → clearInterruptByFlag q v s = clearInterrupt q true s)

/-! ## The scheduler -/

/-- 60_exceptions.md R521: the id is given back; the new event is due `max(1, n)` cycles after now,
behind every entry due earlier and ahead of every entry due later; among entries due together it is last
(FIFO) or first (LIFO); the others keep their order and the chain stays sorted. -/
def Obligations.AddClockEventRule : Prop :=
  ∀ (s : State) (now id : Nat) (n : Int), eventsSorted s.events →
    ∃ t e before after, addClockEvent now id n s = .ok (id, t) ∧
      t = { s with events := t.events } ∧
      e.id = id ∧ (e.due : Int) = now + max 1 n ∧ now < e.due ∧
      s.events = before ++ after ∧ t.events = before ++ e :: after ∧ eventsSorted t.events ∧
      (s.cfg.tieOrder = .fifo → (∀ x ∈ before, x.due ≤ e.due) ∧ ∀ x ∈ after, e.due < x.due) ∧
      (s.cfg.tieOrder = .lifo → (∀ x ∈ before, x.due < e.due) ∧ ∀ x ∈ after, e.due ≤ x.due)

/-- 60_exceptions.md R522 and R523: clearing removes the first entry with the id, every other stays in
order, and the answer says whether there was one; updating clears, then adds when one was found or
UPDATE_ADDS_IF_ABSENT holds, and answers the same. -/
def Obligations.ClearAndUpdateClockEventRule : Prop :=
  ∀ (s : State) (now id : Nat) (n : Int), eventsSorted s.events →
    ∃ found t u, clearClockEvent id s = .ok (found, t) ∧ t = { s with events := t.events } ∧
      (found = false ↔ ∀ e ∈ s.events, e.id ≠ id) ∧ (found = false → t = s) ∧
      (found = true → ∃ before e after, s.events = before ++ e :: after ∧ e.id = id ∧
        (∀ x ∈ before, x.id ≠ id) ∧ t.events = before ++ after) ∧
      updateClockEvent now id n s = .ok (found, u) ∧
      (found = true ∨ s.cfg.updateAddsIfAbsent = true →
        addClockEvent now id n t = .ok (id, u)) ∧
      (found = false → s.cfg.updateAddsIfAbsent = false → u = s)

/-! ## Construction and reset -/

/-- 70_reset_and_hazards.md section 1: the state after construction. -/
def Obligations.ConstructionValues : Prop :=
  ∀ (c : Config) (prog : Memory 16), c.Wf →
    let s := State.construct c prog
    s.cfg = c ∧ s.prog = prog ∧ s.pc = 0 ∧ s.cycles = 0 ∧ s.sp.toNat = c.dataSize - 1 ∧
      (∀ a, a ≠ 0x5D → a ≠ 0x5E → s.byte a = 0) ∧ s.readHooks = [] ∧ s.writeHooks = [] ∧
      s.events = [] ∧ s.nextInterrupt = none

/-- 70_reset_and_hazards.md section 1: `reset()` zeroes every data byte but SP's, which hold DATA_SIZE - 1,
sets `pc` to 0, empties the pending set and the event chain, and leaves `cycles`, the hook tables,
program memory and the PC mode; no hook runs. That it keeps the model's own `started`, so that it opens
no registration again, and `watchdog` and `calls`, is the model's reading (log 12, 6, 5). -/
def Obligations.ResetProcedure : Prop :=
  ∀ s : State, s.cfg.Wf →
    let t := s.doReset
    driverAct .reset s = .ok (.nothing, t) ∧ t.pc = 0 ∧ t.sp.toNat = s.cfg.dataSize - 1 ∧
      (∀ a, a ≠ 0x5D → a ≠ 0x5E → t.byte a = 0) ∧ t.pending = [] ∧ t.nextInterrupt = none ∧
      t.events = [] ∧ t.cycles = s.cycles ∧ SameBuild s t ∧ t.calls = s.calls

/-! ## Arithmetic and logic -/

/-- 40_alu.md section 2: ADD and ADC. -/
def Obligations.Addition : Prop :=
  ∀ (s : State) (d r : Reg),
    (∃ t, exec (.add d r) s = .next t ∧ Added d (s.reg d) (s.reg r) false s t) ∧
    (∃ t, exec (.adc d r) s = .next t ∧ Added d (s.reg d) (s.reg r) (s.flag .C) s t)

/-- 40_alu.md section 3: SUB, SUBI, SBC and SBCI; Z is chained in the last two. -/
def Obligations.Subtraction : Prop :=
  ∀ (s : State) (d r : Reg) (K : Byte),
    (∃ t, exec (.sub d r) s = .next t ∧ Subtracted d (s.reg d) (s.reg r) false true s t) ∧
    (∃ t, exec (.subi d K) s = .next t ∧ Subtracted d (s.reg d) K false true s t) ∧
    (∃ t, exec (.sbc d r) s = .next t ∧
      Subtracted d (s.reg d) (s.reg r) (s.flag .C) (s.flag .Z) s t) ∧
    (∃ t, exec (.sbci d K) s = .next t ∧ Subtracted d (s.reg d) K (s.flag .C) (s.flag .Z) s t)

/-- 41_branch.md section 3: CP, CPC and CPI. -/
def Obligations.Compares : Prop :=
  ∀ (s : State) (d r : Reg) (K : Byte),
    (∃ t, exec (.cp d r) s = .next t ∧ Compared (s.reg d) (s.reg r) false true s t) ∧
    (∃ t, exec (.cpc d r) s = .next t ∧
      Compared (s.reg d) (s.reg r) (s.flag .C) (s.flag .Z) s t) ∧
    (∃ t, exec (.cpi d K) s = .next t ∧ Compared (s.reg d) K false true s t)

/-- 40_alu.md section 4: AND, ANDI, OR, ORI and EOR. -/
def Obligations.Logic : Prop :=
  ∀ (s : State) (d r : Reg) (K : Byte),
    (∃ t, exec (.and d r) s = .next t ∧ LogicResult d (s.reg d &&& s.reg r) s t) ∧
    (∃ t, exec (.andi d K) s = .next t ∧ LogicResult d (s.reg d &&& K) s t) ∧
    (∃ t, exec (.or d r) s = .next t ∧ LogicResult d (s.reg d ||| s.reg r) s t) ∧
    (∃ t, exec (.ori d K) s = .next t ∧ LogicResult d (s.reg d ||| K) s t) ∧
    (∃ t, exec (.eor d r) s = .next t ∧ LogicResult d (s.reg d ^^^ s.reg r) s t)

/-- 40_alu.md section 4: COM, NEG, INC and DEC. -/
def Obligations.OneOperandArithmetic : Prop :=
  ∀ (s : State) (d : Reg), let a := (s.reg d).toNat
    (∃ t, exec (.com d) s = .next t ∧ (t.reg d).toNat = 255 - a ∧ SignFlags (255 - a) false t ∧
      t.flag .C = true ∧ RunsOn 1 [.S, .V, .N, .Z, .C] [d.toNat, 0x5F] s t) ∧
    (∃ t, exec (.neg d) s = .next t ∧ (t.reg d).toNat = (256 - a) % 256 ∧
      SignFlags ((256 - a) % 256) (decide (a = 128)) t ∧ t.flag .C = decide (a ≠ 0) ∧
      t.flag .H = decide (a % 16 ≠ 0) ∧ RunsOn 1 arithFlags [d.toNat, 0x5F] s t) ∧
    (∃ t, exec (.inc d) s = .next t ∧ (t.reg d).toNat = (a + 1) % 256 ∧
      SignFlags ((a + 1) % 256) (decide (a = 127)) t ∧
      RunsOn 1 [.S, .V, .N, .Z] [d.toNat, 0x5F] s t) ∧
    (∃ t, exec (.dec d) s = .next t ∧ (t.reg d).toNat = (a + 255) % 256 ∧
      SignFlags ((a + 255) % 256) (decide (a = 128)) t ∧
      RunsOn 1 [.S, .V, .N, .Z] [d.toNat, 0x5F] s t)

/-- 40_alu.md sections 2 and 3: ADIW and SBIW, with C and V as unsigned and signed overflow. -/
def Obligations.WordArithmetic : Prop :=
  ∀ (s : State) (d : Reg) (K : BitVec 6), let a := (s.pair d.toNat).toNat
    (∃ t, exec (.adiw d K) s = .next t ∧
      WordResult d ((a + K.toNat) % 65536) (decide (65536 ≤ a + K.toNat))
        (decide (32767 < (s.pair d.toNat).toInt + K.toNat)) s t) ∧
    (∃ t, exec (.sbiw d K) s = .next t ∧
      WordResult d ((a + 65536 - K.toNat) % 65536) (decide (a < K.toNat))
        (decide ((s.pair d.toNat).toInt - K.toNat < -32768)) s t)

/-- 40_alu.md section 5: the six multiplies. -/
def Obligations.Multiplication : Prop :=
  ∀ (s : State) (d r : Reg), let x := s.reg d; let y := s.reg r
    (∃ t, exec (.mul d r) s = .next t ∧ ProductResult 1 (x.toNat * y.toNat) s t) ∧
    (∃ t, exec (.muls d r) s = .next t ∧ ProductResult 1 (x.toInt * y.toInt) s t) ∧
    (∃ t, exec (.mulsu d r) s = .next t ∧ ProductResult 1 (x.toInt * y.toNat) s t) ∧
    (∃ t, exec (.fmul d r) s = .next t ∧ ProductResult 2 (x.toNat * y.toNat) s t) ∧
    (∃ t, exec (.fmuls d r) s = .next t ∧ ProductResult 2 (x.toInt * y.toInt) s t) ∧
    (∃ t, exec (.fmulsu d r) s = .next t ∧ ProductResult 2 (x.toInt * y.toNat) s t)

/-! ## Bits and shifts -/

/-- 42_bit.md section 2: LSR, ROR, ASR and SWAP; ASR halves the signed value, rounding down. -/
def Obligations.Shifts : Prop :=
  ∀ (s : State) (d : Reg), let a := (s.reg d).toNat
    (∃ t, exec (.lsr d) s = .next t ∧ ShiftResult d (a / 2) (decide (a % 2 = 1)) s t) ∧
    (∃ t, exec (.ror d) s = .next t ∧
      ShiftResult d ((s.flag .C).toNat * 128 + a / 2) (decide (a % 2 = 1)) s t) ∧
    (∃ t, exec (.asr d) s = .next t ∧ (t.reg d).toInt = (s.reg d).toInt / 2 ∧
      ShiftResult d (t.reg d).toNat (decide (a % 2 = 1)) s t) ∧
    (∃ t, exec (.swap d) s = .next t ∧ (t.reg d).toNat = a % 16 * 16 + a / 16 ∧
      RunsOn 1 [] [d.toNat] s t)

/-- 42_bit.md section 3: BSET, BCLR, BST and BLD, flag by flag and bit by bit. -/
def Obligations.StatusBits : Prop :=
  ∀ (s : State) (n : BitVec 3) (d : Reg),
    (∃ t, exec (.bset n) s = .next t ∧ RunsOn 1 [.C, .Z, .N, .V, .S, .H, .T, .I] [0x5F] s t ∧
      ∀ f : Flag, t.flag f = if f.bit = n.toNat then true else s.flag f) ∧
    (∃ t, exec (.bclr n) s = .next t ∧ RunsOn 1 [.C, .Z, .N, .V, .S, .H, .T, .I] [0x5F] s t ∧
      ∀ f : Flag, t.flag f = if f.bit = n.toNat then false else s.flag f) ∧
    (∃ t, exec (.bst d n) s = .next t ∧ RunsOn 1 [.T] [0x5F] s t ∧
      t.flag .T = (s.reg d).getLsbD n.toNat) ∧
    (∃ t, exec (.bld d n) s = .next t ∧ RunsOn 1 [] [d.toNat] s t ∧
      ∀ j < 8, (t.reg d).getLsbD j = if j = n.toNat then s.flag .T else (s.reg d).getLsbD j)

/-- 42_bit.md section 1: SBI and CBI read the I/O byte over the bus and write it back with one bit
changed; a write hook is given the new byte, the old byte and the bit as the mask. Hooks that only
answer (their calls are seen in the model's own `calls`, log 5), or none. -/
def Obligations.IoBits : Prop :=
  ∀ (s : State) (A : BitVec 5) (b : BitVec 3),
    let a := A.toNat + 0x20; let v := (readValue s a).toNat
    a < s.cfg.dataSize → SilentRead s a → SilentWrite (afterRead s a) a →
    ∀ p ∈ [(Instr.sbi A b, BitVec.ofNat 8 (v ||| 2 ^ b.toNat)),
           (Instr.cbi A b, BitVec.ofNat 8 (v &&& (255 - 2 ^ b.toNat)))],
      ∃ t, exec p.1 s = .next t ∧ Advances 1 2 s t ∧
        Called (writeCall s p.2 (s.byte a) a (BitVec.ofNat 8 (2 ^ b.toNat)) ++ readCall s a) s t ∧
        (stores (afterRead s a) a → t.byte a = p.2) ∧
        (¬stores (afterRead s a) a → t.byte a = s.byte a) ∧ DataFrame [a] s t

/-! ## Data transfer -/

/-- 43_transfer.md section 1: MOV, MOVW and LDI. -/
def Obligations.RegisterMoves : Prop :=
  ∀ (s : State) (d r : Reg) (K : Byte),
    (∃ t, exec (.mov d r) s = .next t ∧ RunsOn 1 [] [d.toNat] s t ∧ t.reg d = s.reg r) ∧
    (WellFormed (.movw d r) → ∃ t, exec (.movw d r) s = .next t ∧
      RunsOn 1 [] [d.toNat, d.toNat + 1] s t ∧ t.reg d = s.reg r ∧
      t.reg (d + 1) = s.reg (r + 1)) ∧
    (∃ t, exec (.ldi d K) s = .next t ∧ RunsOn 1 [] [d.toNat] s t ∧ t.reg d = K)

/-- 43_transfer.md section 2: the loads that move no pointer (LD X, Y, Z, LDD, LDS). A hook that only
answers (its call is seen in the model's own `calls`, log 5), or none. -/
def Obligations.PlainLoads : Prop :=
  ∀ (s : State) (d : Reg) (q : BitVec 6) (k : Word),
    ∀ p ∈ [(Instr.ldX d, (s.pair 26).toNat, 1), (Instr.ldY d, (s.pair 28).toNat, 1),
           (Instr.ldZ d, (s.pair 30).toNat, 1), (Instr.lddY d q, (s.pair 28).toNat + q.toNat, 1),
           (Instr.lddZ d q, (s.pair 30).toNat + q.toNat, 1), (Instr.lds d k, k.toNat, 2)],
      p.2.1 < s.cfg.dataSize → SilentRead s p.2.1 →
      ∃ t, exec p.1 s = .next t ∧ Advances p.2.2 2 s t ∧ Called (readCall s p.2.1) s t ∧
        ∀ x, t.byte x = if x = d.toNat then readValue s p.2.1 else s.byte x

/-- 43_transfer.md section 2: the loads with post-increment and pre-decrement. A post-increment moves the
pointer after the read, a pre-decrement before it. A hook that only answers (its call is seen in the
model's own `calls`, log 5), or none. -/
def Obligations.PointerUpdateLoads : Prop :=
  ∀ (s : State) (d : Reg),
    (∀ p ∈ [(Instr.ldXP d, 26), (Instr.ldYP d, 28), (Instr.ldZP d, 30)],
      let a := (s.pair p.2).toNat
      d.toNat ≠ p.2 → d.toNat ≠ p.2 + 1 → a < s.cfg.dataSize → SilentRead s a →
      ∃ t, exec p.1 s = .next t ∧ Advances 1 2 s t ∧ Called (readCall s a) s t ∧
        t.reg d = readValue s a ∧ (t.pair p.2).toNat = (a + 1) % 65536 ∧
        DataFrame [d.toNat, p.2, p.2 + 1] s t) ∧
    (∀ p ∈ [(Instr.ldMX d, 26), (Instr.ldMY d, 28), (Instr.ldMZ d, 30)],
      let a := ((s.pair p.2).toNat + 65535) % 65536
      d.toNat ≠ p.2 → d.toNat ≠ p.2 + 1 → a < s.cfg.dataSize → SilentRead s a →
      ∃ t, exec p.1 s = .next t ∧ Advances 1 3 s t ∧ Called (readCall s a) s t ∧
        (t.pair p.2).toNat = a ∧ DataFrame [d.toNat, p.2, p.2 + 1] s t ∧
        t.reg d = if a = p.2 then BitVec.ofNat 8 a
          else if a = p.2 + 1 then BitVec.ofNat 8 (a / 256) else readValue s a)

/-- 43_transfer.md section 3: the stores that move no pointer (ST X, Y, Z, STD, STS). A hook that only
answers (its call is seen in the model's own `calls`, log 5), or none; it may suppress the store. -/
def Obligations.PlainStores : Prop :=
  ∀ (s : State) (r : Reg) (q : BitVec 6) (k : Word),
    ∀ p ∈ [(Instr.stX r, (s.pair 26).toNat, 1), (Instr.stY r, (s.pair 28).toNat, 1),
           (Instr.stZ r, (s.pair 30).toNat, 1), (Instr.stdY q r, (s.pair 28).toNat + q.toNat, 1),
           (Instr.stdZ q r, (s.pair 30).toNat + q.toNat, 1), (Instr.sts k r, k.toNat, 2)],
      p.2.1 < s.cfg.dataSize → SilentWrite s p.2.1 →
      ∃ t, exec p.1 s = .next t ∧ Advances p.2.2 2 s t ∧
        Called (writeCall s (s.reg r) (s.byte p.2.1) p.2.1 0xFF) s t ∧
        (stores s p.2.1 → t.byte p.2.1 = s.reg r) ∧
        (¬stores s p.2.1 → t.byte p.2.1 = s.byte p.2.1) ∧ DataFrame [p.2.1] s t

/-- 43_transfer.md section 3: the stores with post-increment and pre-decrement. A post-increment moves the
pointer after the store, a pre-decrement before it. A hook that only answers (its call is seen in the
model's own `calls`, log 5), or none; it may suppress the store. -/
def Obligations.PointerUpdateStores : Prop :=
  ∀ (s : State) (r : Reg),
    (∀ p ∈ [(Instr.stXP r, 26), (Instr.stYP r, 28), (Instr.stZP r, 30)],
      let a := (s.pair p.2).toNat
      r.toNat ≠ p.2 → r.toNat ≠ p.2 + 1 → a < s.cfg.dataSize → SilentWrite s a →
      ∃ t, exec p.1 s = .next t ∧ Advances 1 2 s t ∧
        Called (writeCall s (s.reg r) (s.byte a) a 0xFF) s t ∧
        (stores s a → ∀ x, t.byte x = if x = p.2 then BitVec.ofNat 8 (a + 1)
          else if x = p.2 + 1 then BitVec.ofNat 8 ((a + 1) / 256)
          else if x = a then s.reg r else s.byte x) ∧
        (¬stores s a → ∀ x, t.byte x = if x = p.2 then BitVec.ofNat 8 (a + 1)
          else if x = p.2 + 1 then BitVec.ofNat 8 ((a + 1) / 256) else s.byte x)) ∧
    (∀ p ∈ [(Instr.stMX r, 26), (Instr.stMY r, 28), (Instr.stMZ r, 30)],
      let a := ((s.pair p.2).toNat + 65535) % 65536
      let moved (x : Nat) : Byte := if x = p.2 then BitVec.ofNat 8 a
        else if x = p.2 + 1 then BitVec.ofNat 8 (a / 256) else s.byte x
      r.toNat ≠ p.2 → r.toNat ≠ p.2 + 1 → a < s.cfg.dataSize → SilentWrite s a →
      ∃ t, exec p.1 s = .next t ∧ Advances 1 2 s t ∧
        Called (writeCall s (s.reg r) (moved a) a 0xFF) s t ∧
        (stores s a → ∀ x, t.byte x = if x = a then s.reg r else moved x) ∧
        (¬stores s a → ∀ x, t.byte x = moved x))

/-- 43_transfer.md section 4: LPM and ELPM, and their Z+ forms, which move Z, or RAMPZ:Z as one 24-bit
value. -/
def Obligations.ProgramMemoryLoads : Prop :=
  ∀ (s : State) (d : Reg),
    let z := (s.pair 30).toNat; let e := (s.byte 0x5B).toNat * 65536 + z
    (∀ p ∈ [(Instr.lpm, (0 : Reg), z), (Instr.lpmZ d, d, z), (Instr.elpm, (0 : Reg), e),
            (Instr.elpmZ d, d, e)], p.2.2 / 2 < s.cfg.progWords →
      ∃ t, exec p.1 s = .next t ∧ RunsOn 3 [] [p.2.1.toNat] s t ∧ t.reg p.2.1 = flash s p.2.2) ∧
    (d.toNat < 30 → z / 2 < s.cfg.progWords →
      ∃ t, exec (.lpmZP d) s = .next t ∧ RunsOn 3 [] [d.toNat, 30, 31] s t ∧
        t.reg d = flash s z ∧ (t.pair 30).toNat = (z + 1) % 65536) ∧
    (d.toNat < 30 → e / 2 < s.cfg.progWords →
      ∃ t, exec (.elpmZP d) s = .next t ∧ RunsOn 3 [] [d.toNat, 30, 31, 0x5B] s t ∧
        t.reg d = flash s e ∧
        (t.byte 0x5B).toNat * 65536 + (t.pair 30).toNat = (e + 1) % 2 ^ 24)

/-- 43_transfer.md section 5: IN and OUT; OUT may replace SREG, SP, RAMPZ or EIND. A hook that only answers
(its call is seen in the model's own `calls`, log 5), or none; it may suppress the store. -/
def Obligations.InOut : Prop :=
  ∀ (s : State) (d : Reg) (A : BitVec 6), let a := A.toNat + 0x20
    a < s.cfg.dataSize →
    (SilentRead s a → ∃ t, exec (.inIo d A) s = .next t ∧ Advances 1 1 s t ∧
      Called (readCall s a) s t ∧
      ∀ x, t.byte x = if x = d.toNat then readValue s a else s.byte x) ∧
    (SilentWrite s a → ∃ t, exec (.outIo A d) s = .next t ∧ Advances 1 1 s t ∧
      Called (writeCall s (s.reg d) (s.byte a) a 0xFF) s t ∧ (stores s a → t.byte a = s.reg d) ∧
      (¬stores s a → t.byte a = s.byte a) ∧ DataFrame [a] s t)

/-- 43_transfer.md section 5: PUSH and POP. -/
def Obligations.PushPop : Prop :=
  ∀ (s : State) (d : Reg), let p := s.sp.toNat
    (p < s.cfg.dataSize → ∃ t, exec (.push d) s = .next t ∧ Advances 1 2 s t ∧ Quiet s t ∧
      t.sp.toNat = (p + 65535) % 65536 ∧
      ∀ x, x ≠ 0x5D → x ≠ 0x5E → t.byte x = if x = p then s.reg d else s.byte x) ∧
    (p + 1 < s.cfg.dataSize → ∃ t, exec (.pop d) s = .next t ∧ Advances 1 2 s t ∧ Quiet s t ∧
      t.sp.toNat = (p + 1) % 65536 ∧
      ∀ x, x ≠ 0x5D → x ≠ 0x5E → t.byte x = if x = d.toNat then s.byte (p + 1) else s.byte x)

/-- 43_transfer.md section 6: XCH, LAS, LAC and LAT read the byte at Z over the bus and write it over the
bus, and Rd takes the byte read; where Z addresses Rd itself, Rd keeps its value. Hooks that only
answer (their calls are seen in the model's own `calls`, log 5), or none. -/
def Obligations.ReadModifyWrite : Prop :=
  ∀ (s : State) (d : Reg), let z := (s.pair 30).toNat; let v := readValue s z
    z < s.cfg.dataSize → SilentRead s z → SilentWrite (afterRead s z) z →
    ∀ p ∈ [(Instr.xch d, s.reg d), (Instr.las d, v ||| s.reg d),
           (Instr.lac d, v &&& (0xFF - s.reg d)), (Instr.lat d, v ^^^ s.reg d)],
      ∃ t, exec p.1 s = .next t ∧ Advances 1 2 s t ∧
        Called (writeCall s p.2 (s.byte z) z 0xFF ++ readCall s z) s t ∧ t.reg d = v ∧
        (z ≠ d.toNat → stores (afterRead s z) z → t.byte z = p.2) ∧
        (z ≠ d.toNat → ¬stores (afterRead s z) z → t.byte z = s.byte z) ∧
        DataFrame [d.toNat, z] s t

/-! ## Control transfer -/

/-- 41_branch.md section 1: RJMP, IJMP, EIJMP and JMP; targets are words mod L and no data byte
changes. -/
def Obligations.Jumps : Prop :=
  ∀ (s : State) (k : BitVec 12) (k22 : BitVec 22), 0 < s.cfg.progWords →
    ∀ p ∈ [(Instr.rjmp k, (s.pc : Int) + k.toInt + 1, 2),
           (Instr.ijmp, ((s.pair 30).toNat : Int), 2),
           (Instr.eijmp, ((s.byte 0x5C).toNat * 65536 + (s.pair 30).toNat : Int), 2),
           (Instr.jmp k22, (k22.toNat : Int), 3)],
      ∃ t, exec p.1 s = .next t ∧ GoesTo p.2.1 p.2.2 s t ∧ Quiet s t ∧ DataFrame [] s t

/-- 41_branch.md section 2: RCALL, ICALL, EICALL and CALL push the address of the instruction after them,
not reduced, and go to their target; cycles by PC mode. -/
def Obligations.Calls : Prop :=
  ∀ (s : State) (k : BitVec 12) (k22 : BitVec 22), 0 < s.cfg.progWords → RoomToPush s →
    let m := if s.cfg.pc22 then 1 else 0
    ∀ p ∈ [(Instr.rcall k, s.pc + 1, (s.pc : Int) + k.toInt + 1, 3 + m),
           (Instr.icall, s.pc + 1, ((s.pair 30).toNat : Int), 3 + m),
           (Instr.eicall, s.pc + 1, ((s.byte 0x5C).toNat * 65536 + (s.pair 30).toNat : Int), 4),
           (Instr.call k22, s.pc + 2, (k22.toNat : Int), 4 + m)],
      ∃ t, exec p.1 s = .next t ∧ GoesTo p.2.2.1 p.2.2.2 s t ∧ Quiet s t ∧
        ∀ x, t.byte x = afterPush s p.2.1 x

/-- 41_branch.md section 2: RET and RETI go to the popped address and move SP above it; RETI sets I and
no other flag, RET none. -/
def Obligations.Returns : Prop :=
  ∀ s : State, 0 < s.cfg.progWords → RoomToPop s →
    let n := 4 + (if s.cfg.pc22 then 1 else 0)
    (∃ t, exec .ret s = .next t ∧ GoesTo (returnAddress s) n s t ∧ Quiet s t ∧
      t.sp.toNat = (s.sp.toNat + s.cfg.pcBytes) % 65536 ∧ DataFrame [0x5D, 0x5E] s t) ∧
    (∃ t, exec .reti s = .next t ∧ GoesTo (returnAddress s) n s t ∧ Quiet s t ∧
      t.sp.toNat = (s.sp.toNat + s.cfg.pcBytes) % 65536 ∧ DataFrame [0x5D, 0x5E, 0x5F] s t ∧
      t.flag .I = true ∧ FlagFrame [.I] s t)

/-- 41_branch.md section 2 and 60_exceptions.md section 3: a RET right after a CALL continues behind the
call, and a RETI right after a dispatch continues at the interrupted word with I set, when the stack
lies inside the data space and clear of the registers SP and SREG live in. -/
def Obligations.CallReturnRoundTrip : Prop :=
  ∀ (s : State) (k : BitVec 22) (a : Nat), 0 < s.cfg.progWords → s.pc < s.cfg.progWords →
    s.cfg.progWords ≤ 2 ^ 22 → s.cfg.pcBytes ≤ s.sp.toNat → s.sp.toNat < s.cfg.dataSize →
    (∀ j < s.cfg.pcBytes, s.sp.toNat - j < 0x5D ∨ 0x5F < s.sp.toNat - j) →
    (s.pc + 2 < 65536 ∨ s.cfg.pc22 = true →
      ∃ t u, exec (.call k) s = .next t ∧ exec .ret t = .next u ∧
        u.pc = (s.pc + 2) % s.cfg.progWords ∧ u.sp = s.sp) ∧
    (∃ t u, dispatch a s = .ok t ∧ exec .reti t = .next u ∧ u.pc = s.pc ∧ u.sp = s.sp ∧
      u.flag .I = true)

/-- 30_encoding.md section 4 and 41_branch.md sections 3 and 4: CPSE, SBRC, SBRS, SBIC and SBIS run on when
their condition fails, and skip the next instruction, one word or two, when it holds. SBIC and SBIS
read the I/O byte over the bus: a hook that only answers (its call is seen in the model's own
`calls`, log 5), or none. -/
def Obligations.Skips : Prop :=
  ∀ (s : State) (d r : Reg) (b : BitVec 3) (A : BitVec 5), let a := A.toNat + 0x20
    SkipRule (.cpse d r) (decide (s.reg d = s.reg r)) [] s ∧
    SkipRule (.sbrc r b) (!(s.reg r).getLsbD b.toNat) [] s ∧
    SkipRule (.sbrs r b) ((s.reg r).getLsbD b.toNat) [] s ∧
    (a < s.cfg.dataSize → SilentRead s a →
      SkipRule (.sbic A b) (!(readValue s a).getLsbD b.toNat) (readCall s a) s ∧
      SkipRule (.sbis A b) ((readValue s a).getLsbD b.toNat) (readCall s a) s)

/-- 41_branch.md section 5: BRBS and BRBC. -/
def Obligations.Branches : Prop :=
  ∀ (s : State) (n : BitVec 3) (k : BitVec 7), 0 < s.cfg.progWords →
    ∀ p ∈ [(Instr.brbs n k, true), (Instr.brbc n k, false)],
      ∃ t, exec p.1 s = .next t ∧ Quiet s t ∧ DataFrame [] s t ∧
        if s.sreg.getLsbD n.toNat = p.2 then GoesTo ((s.pc : Int) + k.toInt + 1) 2 s t
        else Advances 1 1 s t

/-! ## MCU control, and where instructions stop -/

/-- 44_mcu_control.md, 43_transfer.md section 4 and 30_encoding.md section 5: NOP, SLEEP, BREAK, DES, SPM
and SPM Z+ run on in 1 cycle and change nothing; WDR too, but for the one notification it makes,
which a watchdog that does nothing leaves at that (seen in the model's own `calls`, log 5). -/
def Obligations.NoOperations : Prop :=
  ∀ (s : State) (K : BitVec 4),
    (∀ i ∈ [Instr.nop, .sleep, .brk, .des K, .spm, .spmZP],
      ∃ t, exec i s = .next t ∧ RunsOn 1 [] [] s t) ∧
    (s.watchdog = false ∨ Silent s → ∃ t, exec .wdr s = .next t ∧ Advances 1 1 s t ∧
      DataFrame [] s t ∧ SameBuild s t ∧ t.pending = s.pending ∧ t.events = s.events ∧
      t.calls = .watchdogReset :: s.calls)

/-- 30_encoding.md section 5: the operand combinations that are undefined stop with their fault, whatever
the state. -/
def Obligations.UndefinedCombinations : Prop :=
  ∀ (s : State) (d : Reg),
    ∀ p ∈ [(Instr.ldXP d, 26), (Instr.ldMX d, 26), (Instr.stXP d, 26), (Instr.stMX d, 26),
           (Instr.ldYP d, 28), (Instr.ldMY d, 28), (Instr.stYP d, 28), (Instr.stMY d, 28),
           (Instr.ldZP d, 30), (Instr.ldMZ d, 30), (Instr.stZP d, 30), (Instr.stMZ d, 30),
           (Instr.lpmZP d, 30), (Instr.elpmZP d, 30)],
      (d.toNat = p.2 ∨ d.toNat = p.2 + 1) → exec p.1 s = .fault .undefinedCombination

/-- 20_memory.md sections 1 and 3: a load, a store or a read-modify-write at DATA_SIZE or beyond, and a
push or a pop that leaves the data space, stop with the fault of the first address outside; an LPM or an
ELPM whose word is at L or beyond stops with the fault of that word. -/
def Obligations.OutOfRangeAccesses : Prop :=
  ∀ (s : State) (d : Reg) (q : BitVec 6) (k : Word) (k12 : BitVec 12) (k22 : BitVec 22),
    (∀ p ∈ [(Instr.ldX d, (s.pair 26).toNat), (Instr.ldY d, (s.pair 28).toNat),
            (Instr.ldZ d, (s.pair 30).toNat), (Instr.lddY d q, (s.pair 28).toNat + q.toNat),
            (Instr.lddZ d q, (s.pair 30).toNat + q.toNat), (Instr.lds d k, k.toNat),
            (Instr.stX d, (s.pair 26).toNat), (Instr.stY d, (s.pair 28).toNat),
            (Instr.stZ d, (s.pair 30).toNat), (Instr.stdY q d, (s.pair 28).toNat + q.toNat),
            (Instr.stdZ q d, (s.pair 30).toNat + q.toNat), (Instr.sts k d, k.toNat),
            (Instr.xch d, (s.pair 30).toNat), (Instr.las d, (s.pair 30).toNat),
            (Instr.lac d, (s.pair 30).toNat), (Instr.lat d, (s.pair 30).toNat),
            (Instr.push d, s.sp.toNat), (Instr.pop d, s.sp.toNat + 1)],
      s.cfg.dataSize ≤ p.2 → exec p.1 s = .fault (.dataOutOfRange p.2)) ∧
    (∀ p ∈ [(Instr.ldXP d, 26), (Instr.stXP d, 26), (Instr.ldYP d, 28), (Instr.stYP d, 28),
            (Instr.ldZP d, 30), (Instr.stZP d, 30)],
      d.toNat ≠ p.2 → d.toNat ≠ p.2 + 1 → s.cfg.dataSize ≤ (s.pair p.2).toNat →
      exec p.1 s = .fault (.dataOutOfRange (s.pair p.2).toNat)) ∧
    (∀ p ∈ [(Instr.ldMX d, 26), (Instr.stMX d, 26), (Instr.ldMY d, 28), (Instr.stMY d, 28),
            (Instr.ldMZ d, 30), (Instr.stMZ d, 30)], let a := ((s.pair p.2).toNat + 65535) % 65536
      d.toNat ≠ p.2 → d.toNat ≠ p.2 + 1 → s.cfg.dataSize ≤ a →
      exec p.1 s = .fault (.dataOutOfRange a)) ∧
    (∀ i ∈ [Instr.rcall k12, .icall, .eicall, .call k22], ¬RoomToPush s →
      exec i s = .fault (.dataOutOfRange
        (if s.cfg.dataSize ≤ s.sp.toNat then s.sp.toNat else -1))) ∧
    (∀ i ∈ [Instr.ret, .reti], ¬RoomToPop s →
      exec i s = .fault (.dataOutOfRange (max (s.sp.toNat + 1) s.cfg.dataSize : Nat))) ∧
    (let z := (s.pair 30).toNat; let e := (s.byte 0x5B).toNat * 65536 + z
      (∀ p ∈ [(Instr.lpm, z), (Instr.lpmZ d, z), (Instr.elpm, e), (Instr.elpmZ d, e)],
        s.cfg.progWords ≤ p.2 / 2 → exec p.1 s = .fault (.progOutOfRange (p.2 / 2))) ∧
      (∀ p ∈ [(Instr.lpmZP d, z), (Instr.elpmZP d, e)], d.toNat < 30 →
        s.cfg.progWords ≤ p.2 / 2 → exec p.1 s = .fault (.progOutOfRange (p.2 / 2))))
end

