-- ==== Sys2Proof/Laws/Memory.lean ====
section
/-! SUPPORT. The laws of a memory: a read after a write, and that every operation keeps the canonical
form. -/

namespace Sys2Proof.Machine

variable {w : Nat}

@[simp] theorem Memory.read_nil (a : Nat) : Memory.read ([] : Memory w) a = Memory.blank := rfl

theorem Memory.read_cons (c : Nat × BitVec w) (m : Memory w) (a : Nat) :
    Memory.read (c :: m) a = if c.1 = a then c.2 else Memory.read m a := rfl

theorem Memory.read_erase (m : Memory w) (a b : Nat) :
    Memory.read (m.erase a) b = if a = b then Memory.blank else m.read b := by
  induction m with
  | nil => simp [Memory.erase]
  | cons c m ih =>
    simp only [Memory.erase, List.filter_cons] at ih ⊢
    by_cases hc : c.1 = a
    · simp only [hc, bne_self_eq_false, Bool.false_eq_true, if_false, ih]
      by_cases hb : a = b <;> simp [hb, Memory.read_cons, hc]
    · simp only [bne_iff_ne, ne_eq, hc, not_false_eq_true, if_true, Memory.read_cons, ih]
      by_cases hb : a = b
      · subst hb; simp [hc]
      · simp [hb]

theorem Memory.read_insert (m : Memory w) (a b : Nat) (v : BitVec w) (h : ∀ c ∈ m, c.1 ≠ a) :
    Memory.read (m.insert a v) b = if a = b then v else m.read b := by
  induction m with
  | nil => simp [Memory.insert, Memory.read_cons]
  | cons c m ih =>
    have hc : c.1 ≠ a := h c (by simp)
    have ih := ih (fun x hx => h x (by simp [hx]))
    simp only [Memory.insert]
    split
    · simp only [Memory.read_cons, ih]
      by_cases hb : a = b
      · subst hb; simp [hc]
      · simp [hb]
    · simp [Memory.read_cons]

theorem Memory.not_mem_erase {m : Memory w} {a : Nat} : ∀ c ∈ m.erase a, c.1 ≠ a := by
  intro c hc
  simpa [Memory.erase] using (List.mem_filter.mp hc).2

/-- A write changes the cell written and no other, in every list, canonical or not. -/
theorem Memory.read_write (m : Memory w) (a b : Nat) (v : BitVec w) :
    Memory.read (m.write a v) b = if a = b then v else m.read b := by
  unfold Memory.write
  split
  · rename_i h; rw [Memory.read_erase, h]
  · rw [Memory.read_insert _ _ _ _ Memory.not_mem_erase, Memory.read_erase]
    by_cases hb : a = b <;> simp [hb]

@[simp] theorem Memory.read_write_same (m : Memory w) (a : Nat) (v : BitVec w) :
    Memory.read (m.write a v) a = v := by simp [Memory.read_write]

theorem Memory.read_write_ne (m : Memory w) {a b : Nat} (v : BitVec w) (h : a ≠ b) :
    Memory.read (m.write a v) b = m.read b := by simp [Memory.read_write, h]

theorem Memory.mem_insert {m : Memory w} {a : Nat} {v : BitVec w} {c : Nat × BitVec w}
    (h : c ∈ m.insert a v) : c = (a, v) ∨ c ∈ m := by
  induction m with
  | nil => simpa [Memory.insert] using h
  | cons x m ih =>
    simp only [Memory.insert] at h
    split at h
    · rcases List.mem_cons.mp h with h | h
      · exact .inr (by simp [h])
      · rcases ih h with h | h
        · exact .inl h
        · exact .inr (by simp [h])
    · simpa using h

theorem Memory.wf_nil : Memory.wf ([] : Memory w) := by simp [Memory.wf]

theorem Memory.wf_erase {m : Memory w} (h : m.wf) (a : Nat) : (m.erase a).wf :=
  ⟨h.1.filter _, fun c hc => h.2 c (List.mem_filter.mp hc).1⟩

theorem Memory.wf_insert {m : Memory w} (h : m.wf) {a : Nat} {v : BitVec w}
    (hv : v ≠ Memory.blank) (ha : ∀ c ∈ m, c.1 ≠ a) : (m.insert a v).wf := by
  induction m with
  | nil => simpa [Memory.wf, Memory.insert] using hv
  | cons x m ih =>
    obtain ⟨⟨hx, hm⟩, hz⟩ := (⟨List.pairwise_cons.mp h.1, h.2⟩ : _ ∧ _)
    have hmw : Memory.wf m := ⟨hm, fun c hc => hz c (by simp [hc])⟩
    have ih := ih hmw (fun c hc => ha c (by simp [hc]))
    have hxa : x.1 ≠ a := ha x (by simp)
    simp only [Memory.insert]
    split
    · rename_i hlt
      refine ⟨List.pairwise_cons.mpr ⟨fun c hc => ?_, ih.1⟩, fun c hc => ?_⟩
      · rcases Memory.mem_insert hc with rfl | hc
        · exact hlt
        · exact hx c hc
      · rcases List.mem_cons.mp hc with rfl | hc
        · exact hz _ (by simp)
        · exact ih.2 c hc
    · rename_i hlt
      have hax : a < x.1 := by omega
      refine ⟨List.pairwise_cons.mpr ⟨fun c hc => ?_, h.1⟩, fun c hc => ?_⟩
      · rcases List.mem_cons.mp hc with rfl | hc
        · exact hax
        · exact Nat.lt_trans hax (hx c hc)
      · rcases List.mem_cons.mp hc with rfl | hc
        · exact hv
        · exact hz c hc

/-- Every write keeps the canonical form. -/
theorem Memory.wf_write {m : Memory w} (h : m.wf) (a : Nat) (v : BitVec w) : (m.write a v).wf := by
  unfold Memory.write
  split
  · exact Memory.wf_erase h a
  · exact Memory.wf_insert (Memory.wf_erase h a) ‹_› Memory.not_mem_erase

/-- A write inside a space keeps every listed address inside it. -/
theorem Memory.below_write {m : Memory w} {n a : Nat} (h : m.below n) (ha : a < n)
    (v : BitVec w) : (m.write a v).below n := by
  intro c hc
  unfold Memory.write at hc
  split at hc
  · exact h c (List.mem_filter.mp hc).1
  · rcases Memory.mem_insert hc with rfl | hc
    · exact ha
    · exact h c (List.mem_filter.mp hc).1

/-- Canonical memories that read alike everywhere are equal data. -/
theorem Memory.ext_of_wf {m m' : Memory w} (h : m.wf) (h' : m'.wf)
    (hr : ∀ a, m.read a = m'.read a) : m = m' := by
  induction m generalizing m' with
  | nil =>
    cases m' with
    | nil => rfl
    | cons c m' =>
      have := hr c.1
      rw [Memory.read_cons] at this
      exact absurd this.symm (by simpa using h'.2 c (by simp))
  | cons c m ih =>
    have lower : ∀ {x : Nat × BitVec w} {l : Memory w}, Memory.wf (x :: l) →
        ∀ a, a < x.1 → Memory.read (x :: l) a = Memory.blank := by
      intro x l hl a ha
      have key : ∀ l : Memory w, (∀ c ∈ l, a < c.1) → Memory.read l a = Memory.blank := by
        intro l hl
        induction l with
        | nil => rfl
        | cons y l ihl =>
          have hy := hl y (by simp)
          rw [Memory.read_cons, if_neg (by omega)]
          exact ihl (fun c hc => hl c (by simp [hc]))
      refine key _ (fun c hc => ?_)
      rcases List.mem_cons.mp hc with rfl | hc
      · exact ha
      · exact Nat.lt_trans ha ((List.pairwise_cons.mp hl.1).1 c hc)
    cases m' with
    | nil =>
      have := hr c.1
      rw [Memory.read_cons] at this
      exact absurd this (by simpa using h.2 c (by simp))
    | cons c' m' =>
      have h1 : c.1 = c'.1 := by
        rcases Nat.lt_trichotomy c.1 c'.1 with hlt | heq | hgt
        · have := hr c.1
          rw [lower h' _ hlt, Memory.read_cons, if_pos rfl] at this
          exact absurd this (h.2 c (by simp))
        · exact heq
        · have := hr c'.1
          rw [lower h _ hgt, Memory.read_cons, if_pos rfl] at this
          exact absurd this.symm (h'.2 c' (by simp))
      have h2 : c.2 = c'.2 := by
        have := hr c.1
        simpa [Memory.read_cons, h1] using this
      have hc : c = c' := Prod.ext h1 h2
      subst hc
      have hp := List.pairwise_cons.mp h.1
      have hp' := List.pairwise_cons.mp h'.1
      have hm : Memory.wf m := ⟨hp.2, fun x hx => h.2 x (by simp [hx])⟩
      have hm' : Memory.wf m' := ⟨hp'.2, fun x hx => h'.2 x (by simp [hx])⟩
      refine congrArg _ (ih hm hm' (fun a => ?_))
      have key : ∀ l : Memory w, (∀ x ∈ l, c.1 < x.1) → Memory.read l c.1 = Memory.blank := by
        intro l hl
        induction l with
        | nil => rfl
        | cons y l ihl =>
          have hy := hl y (by simp)
          rw [Memory.read_cons, if_neg (by omega)]
          exact ihl (fun x hx => hl x (by simp [hx]))
      by_cases ha : c.1 = a
      · subst ha; rw [key m hp.1, key m' hp'.1]
      · have := hr a
        simpa [Memory.read_cons, ha] using this

end Sys2Proof.Machine
end

