-- ==== Sys2Proof/Laws/State.lean ====
section
/-! SUPPORT. The laws of the state: one lemma for each field and each update, and what a data byte reads
as after each update. -/

namespace Sys2Proof.Machine

variable (s : State)

/-! ### Fields an update leaves alone -/

@[simp] theorem setByte_cfg (a : Nat) (v : Byte) : (s.setByte a v).cfg = s.cfg := rfl
@[simp] theorem setByte_prog (a : Nat) (v : Byte) : (s.setByte a v).prog = s.prog := rfl
@[simp] theorem setByte_pc (a : Nat) (v : Byte) : (s.setByte a v).pc = s.pc := rfl
@[simp] theorem setByte_cycles (a : Nat) (v : Byte) : (s.setByte a v).cycles = s.cycles := rfl
@[simp] theorem setByte_readHooks (a : Nat) (v : Byte) : (s.setByte a v).readHooks = s.readHooks := rfl
@[simp] theorem setByte_writeHooks (a : Nat) (v : Byte) : (s.setByte a v).writeHooks = s.writeHooks := rfl
@[simp] theorem setByte_watchdog (a : Nat) (v : Byte) : (s.setByte a v).watchdog = s.watchdog := rfl
@[simp] theorem setByte_started (a : Nat) (v : Byte) : (s.setByte a v).started = s.started := rfl
@[simp] theorem setByte_pending (a : Nat) (v : Byte) : (s.setByte a v).pending = s.pending := rfl
@[simp] theorem setByte_events (a : Nat) (v : Byte) : (s.setByte a v).events = s.events := rfl
@[simp] theorem setByte_replies (a : Nat) (v : Byte) : (s.setByte a v).replies = s.replies := rfl
@[simp] theorem setByte_draws (a : Nat) (v : Byte) : (s.setByte a v).draws = s.draws := rfl
@[simp] theorem setByte_calls (a : Nat) (v : Byte) : (s.setByte a v).calls = s.calls := rfl

@[simp] theorem setReg_cfg (d : Reg) (v : Byte) : (s.setReg d v).cfg = s.cfg := rfl
@[simp] theorem setReg_prog (d : Reg) (v : Byte) : (s.setReg d v).prog = s.prog := rfl
@[simp] theorem setReg_pc (d : Reg) (v : Byte) : (s.setReg d v).pc = s.pc := rfl
@[simp] theorem setReg_cycles (d : Reg) (v : Byte) : (s.setReg d v).cycles = s.cycles := rfl
@[simp] theorem setReg_readHooks (d : Reg) (v : Byte) : (s.setReg d v).readHooks = s.readHooks := rfl
@[simp] theorem setReg_writeHooks (d : Reg) (v : Byte) : (s.setReg d v).writeHooks = s.writeHooks := rfl
@[simp] theorem setReg_watchdog (d : Reg) (v : Byte) : (s.setReg d v).watchdog = s.watchdog := rfl
@[simp] theorem setReg_started (d : Reg) (v : Byte) : (s.setReg d v).started = s.started := rfl
@[simp] theorem setReg_pending (d : Reg) (v : Byte) : (s.setReg d v).pending = s.pending := rfl
@[simp] theorem setReg_events (d : Reg) (v : Byte) : (s.setReg d v).events = s.events := rfl
@[simp] theorem setReg_replies (d : Reg) (v : Byte) : (s.setReg d v).replies = s.replies := rfl
@[simp] theorem setReg_draws (d : Reg) (v : Byte) : (s.setReg d v).draws = s.draws := rfl
@[simp] theorem setReg_calls (d : Reg) (v : Byte) : (s.setReg d v).calls = s.calls := rfl

@[simp] theorem setPair_cfg (a : Nat) (v : Word) : (s.setPair a v).cfg = s.cfg := rfl
@[simp] theorem setPair_prog (a : Nat) (v : Word) : (s.setPair a v).prog = s.prog := rfl
@[simp] theorem setPair_pc (a : Nat) (v : Word) : (s.setPair a v).pc = s.pc := rfl
@[simp] theorem setPair_cycles (a : Nat) (v : Word) : (s.setPair a v).cycles = s.cycles := rfl
@[simp] theorem setPair_readHooks (a : Nat) (v : Word) : (s.setPair a v).readHooks = s.readHooks := rfl
@[simp] theorem setPair_writeHooks (a : Nat) (v : Word) : (s.setPair a v).writeHooks = s.writeHooks := rfl
@[simp] theorem setPair_watchdog (a : Nat) (v : Word) : (s.setPair a v).watchdog = s.watchdog := rfl
@[simp] theorem setPair_started (a : Nat) (v : Word) : (s.setPair a v).started = s.started := rfl
@[simp] theorem setPair_pending (a : Nat) (v : Word) : (s.setPair a v).pending = s.pending := rfl
@[simp] theorem setPair_events (a : Nat) (v : Word) : (s.setPair a v).events = s.events := rfl
@[simp] theorem setPair_replies (a : Nat) (v : Word) : (s.setPair a v).replies = s.replies := rfl
@[simp] theorem setPair_draws (a : Nat) (v : Word) : (s.setPair a v).draws = s.draws := rfl
@[simp] theorem setPair_calls (a : Nat) (v : Word) : (s.setPair a v).calls = s.calls := rfl

@[simp] theorem setSreg_cfg (v : Byte) : (s.setSreg v).cfg = s.cfg := rfl
@[simp] theorem setSreg_prog (v : Byte) : (s.setSreg v).prog = s.prog := rfl
@[simp] theorem setSreg_pc (v : Byte) : (s.setSreg v).pc = s.pc := rfl
@[simp] theorem setSreg_cycles (v : Byte) : (s.setSreg v).cycles = s.cycles := rfl
@[simp] theorem setSreg_readHooks (v : Byte) : (s.setSreg v).readHooks = s.readHooks := rfl
@[simp] theorem setSreg_writeHooks (v : Byte) : (s.setSreg v).writeHooks = s.writeHooks := rfl
@[simp] theorem setSreg_watchdog (v : Byte) : (s.setSreg v).watchdog = s.watchdog := rfl
@[simp] theorem setSreg_started (v : Byte) : (s.setSreg v).started = s.started := rfl
@[simp] theorem setSreg_pending (v : Byte) : (s.setSreg v).pending = s.pending := rfl
@[simp] theorem setSreg_events (v : Byte) : (s.setSreg v).events = s.events := rfl
@[simp] theorem setSreg_replies (v : Byte) : (s.setSreg v).replies = s.replies := rfl
@[simp] theorem setSreg_draws (v : Byte) : (s.setSreg v).draws = s.draws := rfl
@[simp] theorem setSreg_calls (v : Byte) : (s.setSreg v).calls = s.calls := rfl

@[simp] theorem setSp_cfg (v : Int) : (s.setSp v).cfg = s.cfg := rfl
@[simp] theorem setSp_prog (v : Int) : (s.setSp v).prog = s.prog := rfl
@[simp] theorem setSp_pc (v : Int) : (s.setSp v).pc = s.pc := rfl
@[simp] theorem setSp_cycles (v : Int) : (s.setSp v).cycles = s.cycles := rfl
@[simp] theorem setSp_readHooks (v : Int) : (s.setSp v).readHooks = s.readHooks := rfl
@[simp] theorem setSp_writeHooks (v : Int) : (s.setSp v).writeHooks = s.writeHooks := rfl
@[simp] theorem setSp_watchdog (v : Int) : (s.setSp v).watchdog = s.watchdog := rfl
@[simp] theorem setSp_started (v : Int) : (s.setSp v).started = s.started := rfl
@[simp] theorem setSp_pending (v : Int) : (s.setSp v).pending = s.pending := rfl
@[simp] theorem setSp_events (v : Int) : (s.setSp v).events = s.events := rfl
@[simp] theorem setSp_replies (v : Int) : (s.setSp v).replies = s.replies := rfl
@[simp] theorem setSp_draws (v : Int) : (s.setSp v).draws = s.draws := rfl
@[simp] theorem setSp_calls (v : Int) : (s.setSp v).calls = s.calls := rfl

@[simp] theorem finishAt_cfg (p : Int) (n : Nat) : (s.finishAt p n).cfg = s.cfg := rfl
@[simp] theorem finishAt_prog (p : Int) (n : Nat) : (s.finishAt p n).prog = s.prog := rfl
@[simp] theorem finishAt_data (p : Int) (n : Nat) : (s.finishAt p n).data = s.data := rfl
@[simp] theorem finishAt_readHooks (p : Int) (n : Nat) : (s.finishAt p n).readHooks = s.readHooks := rfl
@[simp] theorem finishAt_writeHooks (p : Int) (n : Nat) : (s.finishAt p n).writeHooks = s.writeHooks := rfl
@[simp] theorem finishAt_watchdog (p : Int) (n : Nat) : (s.finishAt p n).watchdog = s.watchdog := rfl
@[simp] theorem finishAt_started (p : Int) (n : Nat) : (s.finishAt p n).started = s.started := rfl
@[simp] theorem finishAt_pending (p : Int) (n : Nat) : (s.finishAt p n).pending = s.pending := rfl
@[simp] theorem finishAt_events (p : Int) (n : Nat) : (s.finishAt p n).events = s.events := rfl
@[simp] theorem finishAt_replies (p : Int) (n : Nat) : (s.finishAt p n).replies = s.replies := rfl
@[simp] theorem finishAt_draws (p : Int) (n : Nat) : (s.finishAt p n).draws = s.draws := rfl
@[simp] theorem finishAt_calls (p : Int) (n : Nat) : (s.finishAt p n).calls = s.calls := rfl

@[simp] theorem finish_cfg (n : Nat) : (s.finish n).cfg = s.cfg := rfl
@[simp] theorem finish_prog (n : Nat) : (s.finish n).prog = s.prog := rfl
@[simp] theorem finish_data (n : Nat) : (s.finish n).data = s.data := rfl
@[simp] theorem finish_readHooks (n : Nat) : (s.finish n).readHooks = s.readHooks := rfl
@[simp] theorem finish_writeHooks (n : Nat) : (s.finish n).writeHooks = s.writeHooks := rfl
@[simp] theorem finish_watchdog (n : Nat) : (s.finish n).watchdog = s.watchdog := rfl
@[simp] theorem finish_started (n : Nat) : (s.finish n).started = s.started := rfl
@[simp] theorem finish_pending (n : Nat) : (s.finish n).pending = s.pending := rfl
@[simp] theorem finish_events (n : Nat) : (s.finish n).events = s.events := rfl
@[simp] theorem finish_replies (n : Nat) : (s.finish n).replies = s.replies := rfl
@[simp] theorem finish_draws (n : Nat) : (s.finish n).draws = s.draws := rfl
@[simp] theorem finish_calls (n : Nat) : (s.finish n).calls = s.calls := rfl

@[simp] theorem noteCall_cfg (c : EnvCall) : (s.noteCall c).cfg = s.cfg := rfl
@[simp] theorem noteCall_prog (c : EnvCall) : (s.noteCall c).prog = s.prog := rfl
@[simp] theorem noteCall_data (c : EnvCall) : (s.noteCall c).data = s.data := rfl
@[simp] theorem noteCall_pc (c : EnvCall) : (s.noteCall c).pc = s.pc := rfl
@[simp] theorem noteCall_cycles (c : EnvCall) : (s.noteCall c).cycles = s.cycles := rfl
@[simp] theorem noteCall_readHooks (c : EnvCall) : (s.noteCall c).readHooks = s.readHooks := rfl
@[simp] theorem noteCall_writeHooks (c : EnvCall) : (s.noteCall c).writeHooks = s.writeHooks := rfl
@[simp] theorem noteCall_watchdog (c : EnvCall) : (s.noteCall c).watchdog = s.watchdog := rfl
@[simp] theorem noteCall_started (c : EnvCall) : (s.noteCall c).started = s.started := rfl
@[simp] theorem noteCall_pending (c : EnvCall) : (s.noteCall c).pending = s.pending := rfl
@[simp] theorem noteCall_events (c : EnvCall) : (s.noteCall c).events = s.events := rfl
@[simp] theorem noteCall_replies (c : EnvCall) : (s.noteCall c).replies = s.replies := rfl
@[simp] theorem noteCall_draws (c : EnvCall) : (s.noteCall c).draws = s.draws := rfl

@[simp] theorem useReply_cfg : (s.useReply).cfg = s.cfg := rfl
@[simp] theorem useReply_prog : (s.useReply).prog = s.prog := rfl
@[simp] theorem useReply_data : (s.useReply).data = s.data := rfl
@[simp] theorem useReply_pc : (s.useReply).pc = s.pc := rfl
@[simp] theorem useReply_cycles : (s.useReply).cycles = s.cycles := rfl
@[simp] theorem useReply_readHooks : (s.useReply).readHooks = s.readHooks := rfl
@[simp] theorem useReply_writeHooks : (s.useReply).writeHooks = s.writeHooks := rfl
@[simp] theorem useReply_watchdog : (s.useReply).watchdog = s.watchdog := rfl
@[simp] theorem useReply_started : (s.useReply).started = s.started := rfl
@[simp] theorem useReply_pending : (s.useReply).pending = s.pending := rfl
@[simp] theorem useReply_events : (s.useReply).events = s.events := rfl
@[simp] theorem useReply_calls : (s.useReply).calls = s.calls := rfl

@[simp] theorem doReset_cfg : (s.doReset).cfg = s.cfg := rfl
@[simp] theorem doReset_prog : (s.doReset).prog = s.prog := rfl
@[simp] theorem doReset_cycles : (s.doReset).cycles = s.cycles := rfl
@[simp] theorem doReset_readHooks : (s.doReset).readHooks = s.readHooks := rfl
@[simp] theorem doReset_writeHooks : (s.doReset).writeHooks = s.writeHooks := rfl
@[simp] theorem doReset_watchdog : (s.doReset).watchdog = s.watchdog := rfl
@[simp] theorem doReset_started : (s.doReset).started = s.started := rfl
@[simp] theorem doReset_replies : (s.doReset).replies = s.replies := rfl
@[simp] theorem doReset_draws : (s.doReset).draws = s.draws := rfl
@[simp] theorem doReset_calls : (s.doReset).calls = s.calls := rfl

@[simp] theorem start_cfg : s.start.cfg = s.cfg := rfl
@[simp] theorem start_prog : s.start.prog = s.prog := rfl
@[simp] theorem start_data : s.start.data = s.data := rfl
@[simp] theorem start_pc : s.start.pc = s.pc := rfl
@[simp] theorem start_cycles : s.start.cycles = s.cycles := rfl
@[simp] theorem start_readHooks : s.start.readHooks = s.readHooks := rfl
@[simp] theorem start_writeHooks : s.start.writeHooks = s.writeHooks := rfl
@[simp] theorem start_watchdog : s.start.watchdog = s.watchdog := rfl
@[simp] theorem start_pending : s.start.pending = s.pending := rfl
@[simp] theorem start_events : s.start.events = s.events := rfl
@[simp] theorem start_replies : s.start.replies = s.replies := rfl
@[simp] theorem start_draws : s.start.draws = s.draws := rfl
@[simp] theorem start_calls : s.start.calls = s.calls := rfl
@[simp] theorem start_sreg : s.start.sreg = s.sreg := rfl
@[simp] theorem start_sp : s.start.sp = s.sp := rfl
@[simp] theorem byte_start (a : Nat) : s.start.byte a = s.byte a := rfl
@[simp] theorem reg_start (d : Reg) : s.start.reg d = s.reg d := rfl
@[simp] theorem pair_start (a : Nat) : s.start.pair a = s.pair a := rfl
@[simp] theorem flag_start (f : Flag) : s.start.flag f = s.flag f := rfl

/-! ### Fields an update sets -/

@[simp] theorem finishAt_pc (p : Int) (n : Nat) :
    (s.finishAt p n).pc = ((p + 1) % (s.cfg.progWords : Int)).toNat := rfl
@[simp] theorem finishAt_cycles (p : Int) (n : Nat) :
    (s.finishAt p n).cycles = s.cycles + n + 1 := rfl
theorem finish_pc (n : Nat) : (s.finish n).pc = (s.pc + 1) % s.cfg.progWords := by
  show (((s.pc : Int) + 1) % (s.cfg.progWords : Int)).toNat = _
  rw [← Int.toNat_natCast ((s.pc + 1) % s.cfg.progWords)]
  simp
@[simp] theorem finish_cycles (n : Nat) : (s.finish n).cycles = s.cycles + n + 1 := rfl
@[simp] theorem noteCall_calls (c : EnvCall) : (s.noteCall c).calls = c :: s.calls := rfl
@[simp] theorem useReply_replies : s.useReply.replies = s.replies.tail := rfl
@[simp] theorem useReply_draws : s.useReply.draws = s.draws + 1 := rfl
@[simp] theorem start_started : s.start.started = true := rfl
@[simp] theorem doReset_data : s.doReset.data = resetData s.cfg := rfl
@[simp] theorem doReset_pc : s.doReset.pc = 0 := rfl
@[simp] theorem doReset_pending : s.doReset.pending = [] := rfl
@[simp] theorem doReset_events : s.doReset.events = [] := rfl

/-! ### Data bytes after an update -/

theorem byte_setByte (a b : Nat) (v : Byte) :
    (s.setByte a v).byte b = if a = b then v else s.byte b := Memory.read_write ..

@[simp] theorem byte_setByte_same (a : Nat) (v : Byte) : (s.setByte a v).byte a = v := by
  simp [byte_setByte]

theorem byte_setByte_ne {a b : Nat} (v : Byte) (h : a ≠ b) :
    (s.setByte a v).byte b = s.byte b := by simp [byte_setByte, h]

theorem reg_def (d : Reg) : s.reg d = s.byte d.toNat := rfl

theorem sreg_def : s.sreg = s.byte 0x5F := rfl

theorem pair_def (a : Nat) : s.pair a = s.byte (a + 1) ++ s.byte a := rfl

theorem byte_setReg (d : Reg) (b : Nat) (v : Byte) :
    (s.setReg d v).byte b = if d.toNat = b then v else s.byte b := byte_setByte ..

theorem byte_setSreg (b : Nat) (v : Byte) :
    (s.setSreg v).byte b = if b = 0x5F then v else s.byte b := by
  simp only [State.setSreg, byte_setByte, sregAddr, eq_comm]

theorem byte_setPair (a b : Nat) (v : Word) :
    (s.setPair a v).byte b =
      if b = a then v.extractLsb' 0 8 else if b = a + 1 then v.extractLsb' 8 8
      else s.byte b := by
  simp only [State.setPair, byte_setByte]
  by_cases h1 : b = a
  · subst h1; simp
  · by_cases h2 : b = a + 1
    · subst h2; simp
    · simp [h1, h2, Ne.symm h1, Ne.symm h2]

theorem byte_setSp (b : Nat) (v : Int) :
    (s.setSp v).byte b =
      if b = 0x5D then (BitVec.ofInt 16 v).extractLsb' 0 8
      else if b = 0x5E then (BitVec.ofInt 16 v).extractLsb' 8 8 else s.byte b := byte_setPair ..

@[simp] theorem byte_finishAt (p : Int) (n b : Nat) : (s.finishAt p n).byte b = s.byte b := rfl
@[simp] theorem byte_finish (n b : Nat) : (s.finish n).byte b = s.byte b := rfl
@[simp] theorem byte_noteCall (c : EnvCall) (b : Nat) : (s.noteCall c).byte b = s.byte b := rfl
@[simp] theorem byte_useReply (b : Nat) : s.useReply.byte b = s.byte b := rfl

/-- A byte is read from the data space alone. -/
theorem byte_congr {s t : State} (h : t.data = s.data) (a : Nat) : t.byte a = s.byte a := by
  simp only [State.byte, h]

/-! ### Registers, pairs and flags after an update -/

theorem reg_lt (d : Reg) : d.toNat < 32 := d.isLt

theorem reg_inj {d r : Reg} : d.toNat = r.toNat ↔ d = r := BitVec.toNat_inj

theorem reg_setReg (d r : Reg) (v : Byte) :
    (s.setReg d v).reg r = if d = r then v else s.reg r := by
  simp only [reg_def, byte_setReg, reg_inj]

@[simp] theorem reg_setReg_same (d : Reg) (v : Byte) : (s.setReg d v).reg d = v := by
  simp [reg_setReg]

@[simp] theorem reg_setSreg (d : Reg) (v : Byte) : (s.setSreg v).reg d = s.reg d := by
  have := reg_lt d
  simp only [reg_def, byte_setSreg]
  rw [if_neg (by omega)]

@[simp] theorem sreg_setSreg (v : Byte) : (s.setSreg v).sreg = v := by
  simp [sreg_def, byte_setSreg]

@[simp] theorem sreg_setReg (d : Reg) (v : Byte) : (s.setReg d v).sreg = s.sreg := by
  have := reg_lt d
  simp only [sreg_def, byte_setReg]
  rw [if_neg (by omega)]

theorem pair_setPair_same (a : Nat) (v : Word) : (s.setPair a v).pair a = v := by
  simp only [pair_def, byte_setPair]
  simp only [if_true, Nat.add_eq_left, Nat.one_ne_zero, if_false]
  apply BitVec.eq_of_getLsbD_eq
  intro i hi
  simp only [BitVec.getLsbD_append, BitVec.getLsbD_extractLsb']
  by_cases h : i < 8
  · simp [h]
  · simp only [h, if_false, decide_eq_true (show i - 8 < 8 by omega), Bool.true_and, decide_false]
    rw [show 8 + (i - 8) = i by omega]

@[simp] theorem sp_setSp (v : Int) : (s.setSp v).sp = BitVec.ofInt 16 v := pair_setPair_same ..

@[simp] theorem flag_setSreg (f : Flag) (v : Byte) : (s.setSreg v).flag f = flagOf v f := by
  simp [State.flag]

@[simp] theorem reg_finishAt (p : Int) (n : Nat) (d : Reg) : (s.finishAt p n).reg d = s.reg d := rfl
@[simp] theorem reg_finish (n : Nat) (d : Reg) : (s.finish n).reg d = s.reg d := rfl
@[simp] theorem sreg_finishAt (p : Int) (n : Nat) : (s.finishAt p n).sreg = s.sreg := rfl
@[simp] theorem sreg_finish (n : Nat) : (s.finish n).sreg = s.sreg := rfl
@[simp] theorem flag_finishAt (p : Int) (n : Nat) (f : Flag) :
    (s.finishAt p n).flag f = s.flag f := rfl
@[simp] theorem flag_finish (n : Nat) (f : Flag) : (s.finish n).flag f = s.flag f := rfl

/-- `pc` after the trailing step is the target mod L, never negative. -/
theorem finishAt_pc_int (p : Int) (n : Nat) (hL : 0 < s.cfg.progWords) :
    ((s.finishAt p n).pc : Int) = (p + 1) % (s.cfg.progWords : Int) := by
  rw [finishAt_pc, Int.toNat_of_nonneg (Int.emod_nonneg _ (by omega))]

/-- After the trailing step `pc` is inside program memory (10_state.md R57). -/
theorem finishAt_pc_lt (p : Int) (n : Nat) (hL : 0 < s.cfg.progWords) :
    (s.finishAt p n).pc < s.cfg.progWords := by
  have h := finishAt_pc_int s p n hL
  have := Int.emod_lt_of_pos (p + 1) (show (0 : Int) < s.cfg.progWords by omega)
  omega

end Sys2Proof.Machine
end

