-- ==== Sys2Proof/Laws/Flags.lean ====
section
/-! SUPPORT. What each flag computation sets each flag to, bit by bit and as arithmetic (40_alu.md R200
to R204 and their derived readings). -/

namespace Sys2Proof.Machine

/-! ### SetFlags -/

theorem bit_lt (f : Flag) : f.bit < 8 := by cases f <;> decide

theorem mask_bit (f g : Flag) : f.mask.getLsbD g.bit = decide (f = g) := by
  cases f <;> cases g <;> decide

theorem bit_inj {f g : Flag} (h : f.bit = g.bit) : f = g := by
  revert h; cases f <;> cases g <;> decide

theorem zero_bit (f : Flag) : (0 : Byte).getLsbD f.bit = false := by cases f <;> decide

theorem masks_bit (fs : List (Flag × Bool)) (f : Flag) :
    (fs.foldr (fun p m => p.1.mask ||| m) (0 : Byte)).getLsbD f.bit =
      fs.any (fun p => decide (p.1 = f)) := by
  induction fs with
  | nil => exact zero_bit f
  | cons p fs ih => simp only [List.foldr_cons, BitVec.getLsbD_or, ih, mask_bit, List.any_cons]

theorem values_bit (fs : List (Flag × Bool)) (f : Flag) :
    (fs.foldr (fun p m => (if p.2 then p.1.mask else 0) ||| m) (0 : Byte)).getLsbD f.bit =
      fs.any (fun p => decide (p.1 = f) && p.2) := by
  induction fs with
  | nil => exact zero_bit f
  | cons p fs ih =>
    simp only [List.foldr_cons, BitVec.getLsbD_or, ih, List.any_cons]
    cases h : p.2
    · simp
    · simp [mask_bit]

/-- `SetFlags` sets the flags named and leaves the others (40_alu.md R200). -/
theorem flagOf_setFlags (fs : List (Flag × Bool)) (sreg : Byte) (f : Flag) :
    flagOf (setFlags fs sreg) f =
      if fs.any (fun p => decide (p.1 = f)) then fs.any (fun p => decide (p.1 = f) && p.2)
      else flagOf sreg f := by
  have h8 := bit_lt f
  simp only [flagOf, setFlags, BitVec.getLsbD_or, BitVec.getLsbD_and, BitVec.getLsbD_not, h8,
    decide_true, Bool.true_and, masks_bit, values_bit]
  by_cases h : fs.any (fun p => decide (p.1 = f)) = true
  · simp [h]
  · have hv : fs.any (fun p => decide (p.1 = f) && p.2) = false := by
      simp only [List.any_eq_true, not_exists, not_and, decide_eq_true_eq] at h
      simp only [List.any_eq_false, Bool.and_eq_true, decide_eq_true_eq, not_and]
      intro p hp hpf; exact absurd hpf (h p hp)
    simp only [Bool.not_eq_true] at h
    simp [h, hv]

/-! ### Each flag of each computation -/

section
variable (a b r sreg : Byte) (z : Bool)

@[simp] theorem addFlags_C : flagOf (addFlags a b r sreg) .C =
    ((a.getLsbD 7 && b.getLsbD 7) || (b.getLsbD 7 && !r.getLsbD 7) ||
      (!r.getLsbD 7 && a.getLsbD 7)) := by simp [addFlags, flagOf_setFlags]
@[simp] theorem addFlags_H : flagOf (addFlags a b r sreg) .H =
    ((a.getLsbD 3 && b.getLsbD 3) || (b.getLsbD 3 && !r.getLsbD 3) ||
      (!r.getLsbD 3 && a.getLsbD 3)) := by simp [addFlags, flagOf_setFlags]
@[simp] theorem addFlags_V : flagOf (addFlags a b r sreg) .V =
    ((a.getLsbD 7 && b.getLsbD 7 && !r.getLsbD 7) ||
      (!a.getLsbD 7 && !b.getLsbD 7 && r.getLsbD 7)) := by simp [addFlags, flagOf_setFlags]
@[simp] theorem addFlags_N : flagOf (addFlags a b r sreg) .N = r.getLsbD 7 := by
  simp [addFlags, flagOf_setFlags]
@[simp] theorem addFlags_Z : flagOf (addFlags a b r sreg) .Z = (r == 0) := by
  simp [addFlags, flagOf_setFlags]
@[simp] theorem addFlags_S : flagOf (addFlags a b r sreg) .S =
    (flagOf (addFlags a b r sreg) .N != flagOf (addFlags a b r sreg) .V) := by
  simp [addFlags, flagOf_setFlags]
@[simp] theorem addFlags_T : flagOf (addFlags a b r sreg) .T = flagOf sreg .T := by
  simp [addFlags, flagOf_setFlags]
@[simp] theorem addFlags_I : flagOf (addFlags a b r sreg) .I = flagOf sreg .I := by
  simp [addFlags, flagOf_setFlags]

@[simp] theorem subFlags_C : flagOf (subFlags a b r z sreg) .C =
    ((!a.getLsbD 7 && b.getLsbD 7) || (b.getLsbD 7 && r.getLsbD 7) ||
      (r.getLsbD 7 && !a.getLsbD 7)) := by simp [subFlags, flagOf_setFlags]
@[simp] theorem subFlags_H : flagOf (subFlags a b r z sreg) .H =
    ((!a.getLsbD 3 && b.getLsbD 3) || (b.getLsbD 3 && r.getLsbD 3) ||
      (r.getLsbD 3 && !a.getLsbD 3)) := by simp [subFlags, flagOf_setFlags]
@[simp] theorem subFlags_V : flagOf (subFlags a b r z sreg) .V =
    ((a.getLsbD 7 && !b.getLsbD 7 && !r.getLsbD 7) ||
      (!a.getLsbD 7 && b.getLsbD 7 && r.getLsbD 7)) := by simp [subFlags, flagOf_setFlags]
@[simp] theorem subFlags_N : flagOf (subFlags a b r z sreg) .N = r.getLsbD 7 := by
  simp [subFlags, flagOf_setFlags]
@[simp] theorem subFlags_Z : flagOf (subFlags a b r z sreg) .Z =
    if z then (r == 0) && flagOf sreg .Z else r == 0 := by
  cases z <;> simp [subFlags, flagOf_setFlags]
@[simp] theorem subFlags_S : flagOf (subFlags a b r z sreg) .S =
    (flagOf (subFlags a b r z sreg) .N != flagOf (subFlags a b r z sreg) .V) := by
  simp [subFlags, flagOf_setFlags]
@[simp] theorem subFlags_T : flagOf (subFlags a b r z sreg) .T = flagOf sreg .T := by
  simp [subFlags, flagOf_setFlags]
@[simp] theorem subFlags_I : flagOf (subFlags a b r z sreg) .I = flagOf sreg .I := by
  simp [subFlags, flagOf_setFlags]

/-- `LogicFlags` (40_alu.md R203). -/
theorem flagOf_logicFlags (f : Flag) : flagOf (logicFlags r sreg) f =
    match f with
    | .S => r.getLsbD 7 | .V => false | .N => r.getLsbD 7 | .Z => r == 0
    | .C => flagOf sreg .C | .H => flagOf sreg .H | .T => flagOf sreg .T | .I => flagOf sreg .I := by
  cases f <;> simp [logicFlags, flagOf_setFlags]

/-- `ShiftFlags` (40_alu.md R204). -/
theorem flagOf_shiftFlags (f : Flag) : flagOf (shiftFlags a r sreg) f =
    match f with
    | .C => a.getLsbD 0 | .N => r.getLsbD 7 | .V => r.getLsbD 7 != a.getLsbD 0 | .Z => r == 0
    | .S => r.getLsbD 7 != (r.getLsbD 7 != a.getLsbD 0)
    | .H => flagOf sreg .H | .T => flagOf sreg .T | .I => flagOf sreg .I := by
  cases f <;> simp [shiftFlags, flagOf_setFlags]

/-- The flags of COM (40_alu.md R224). -/
theorem flagOf_comFlags (f : Flag) : flagOf (comFlags r sreg) f =
    match f with
    | .S => r.getLsbD 7 | .V => false | .N => r.getLsbD 7 | .Z => r == 0 | .C => true
    | .H => flagOf sreg .H | .T => flagOf sreg .T | .I => flagOf sreg .I := by
  cases f <;> simp [comFlags, flagOf_setFlags]

/-- The flags of NEG (40_alu.md R225). -/
theorem flagOf_negFlags (f : Flag) : flagOf (negFlags a r sreg) f =
    match f with
    | .H => r.getLsbD 3 || a.getLsbD 3 | .S => r.getLsbD 7 != (r == 0x80) | .V => r == 0x80
    | .N => r.getLsbD 7 | .Z => r == 0 | .C => r != 0
    | .T => flagOf sreg .T | .I => flagOf sreg .I := by
  cases f <;> simp [negFlags, flagOf_setFlags]

/-- The flags of INC and DEC (40_alu.md R226, R227). -/
theorem flagOf_stepFlags (e : Byte) (f : Flag) : flagOf (stepFlags e r sreg) f =
    match f with
    | .S => r.getLsbD 7 != (r == e) | .V => r == e | .N => r.getLsbD 7 | .Z => r == 0
    | .C => flagOf sreg .C | .H => flagOf sreg .H | .T => flagOf sreg .T | .I => flagOf sreg .I := by
  cases f <;> simp [stepFlags, flagOf_setFlags]

/-- The flags of ADIW (40_alu.md R213). -/
theorem flagOf_adiwFlags (x y : Word) (f : Flag) : flagOf (adiwFlags x y sreg) f =
    match f with
    | .S => y.getLsbD 15 != (!x.getLsbD 15 && y.getLsbD 15) | .V => !x.getLsbD 15 && y.getLsbD 15
    | .N => y.getLsbD 15 | .Z => y == 0 | .C => !y.getLsbD 15 && x.getLsbD 15
    | .H => flagOf sreg .H | .T => flagOf sreg .T | .I => flagOf sreg .I := by
  cases f <;> simp [adiwFlags, flagOf_setFlags]

/-- The flags of SBIW (40_alu.md R218). -/
theorem flagOf_sbiwFlags (x y : Word) (f : Flag) : flagOf (sbiwFlags x y sreg) f =
    match f with
    | .S => y.getLsbD 15 != (x.getLsbD 15 && !y.getLsbD 15) | .V => x.getLsbD 15 && !y.getLsbD 15
    | .N => y.getLsbD 15 | .Z => y == 0 | .C => y.getLsbD 15 && !x.getLsbD 15
    | .H => flagOf sreg .H | .T => flagOf sreg .T | .I => flagOf sreg .I := by
  cases f <;> simp [sbiwFlags, flagOf_setFlags]

/-- The flags of the multiplies (40_alu.md R230 to R235). -/
theorem flagOf_mulFlags (p res : Word) (f : Flag) : flagOf (mulFlags p res sreg) f =
    match f with
    | .C => p.getLsbD 15 | .Z => res == 0 | .N => flagOf sreg .N | .V => flagOf sreg .V
    | .S => flagOf sreg .S | .H => flagOf sreg .H | .T => flagOf sreg .T | .I => flagOf sreg .I := by
  cases f <;> simp [mulFlags, flagOf_setFlags]

end

/-! ### Bits as arithmetic -/

/-- Bit 7 of a byte, as arithmetic. -/
theorem bit7 (x : Byte) : x.getLsbD 7 = decide (128 ≤ x.toNat) := by
  have := x.isLt
  rw [BitVec.getLsbD, Nat.testBit_eq_decide_div_mod_eq]
  exact decide_eq_decide.mpr (by omega)

/-- Bit 3 of a byte, as arithmetic. -/
theorem bit3 (x : Byte) : x.getLsbD 3 = decide (8 ≤ x.toNat % 16) := by
  rw [BitVec.getLsbD, Nat.testBit_eq_decide_div_mod_eq]
  exact decide_eq_decide.mpr (by omega)

/-- Bit 0 of a byte, as arithmetic. -/
theorem bit0 (x : Byte) : x.getLsbD 0 = decide (x.toNat % 2 = 1) := by
  rw [BitVec.getLsbD, Nat.testBit_eq_decide_div_mod_eq]
  exact decide_eq_decide.mpr (by omega)

/-- Bit 15 of a word, as arithmetic. -/
theorem bit15 (x : Word) : x.getLsbD 15 = decide (32768 ≤ x.toNat) := by
  have := x.isLt
  rw [BitVec.getLsbD, Nat.testBit_eq_decide_div_mod_eq]
  exact decide_eq_decide.mpr (by omega)

/-- The signed value of a byte (00_scope.md R9, `s8`). -/
theorem toInt_byte (x : Byte) :
    x.toInt = if 128 ≤ x.toNat then (x.toNat : Int) - 256 else x.toNat := by
  have := x.isLt
  rw [BitVec.toInt_eq_toNat_cond]
  split <;> split <;> omega

theorem toNat_carry (c : Bool) : (carry c).toNat = c.toNat := by cases c <;> rfl

theorem toNat_addCarry (a b : Byte) (c : Bool) :
    (a + b + carry c).toNat = (a.toNat + b.toNat + c.toNat) % 256 := by
  rw [BitVec.toNat_add, BitVec.toNat_add, toNat_carry]; omega

theorem toNat_subBorrow (a b : Byte) (c : Bool) :
    ((a - b - carry c).toNat : Int) = ((a.toNat : Int) - b.toNat - c.toNat) % 256 := by
  have := a.isLt; have := b.isLt; have := c.toNat_le
  rw [BitVec.toNat_sub, BitVec.toNat_sub, toNat_carry]; omega

end Sys2Proof.Machine
end

