-- ==== Sys2Proof/Laws/Ops.lean ====
section
/-! SUPPORT. What the shared operations of Machine/Ops.lean do: for each, exactly when it answers and
with what, so that callers cite this and do not unfold it. -/

namespace Sys2Proof.Machine

/-! ### Except, and how a meaning ends -/

@[simp] theorem bind_ok {α β : Type} (a : α) (f : α → Except Fault β) :
    (Except.ok a >>= f) = f a := rfl
@[simp] theorem bind_error {α β : Type} (e : Fault) (f : α → Except Fault β) :
    ((Except.error e : Except Fault α) >>= f) = .error e := rfl

/-- A bind answers only through its first part's answer. -/
theorem bind_eq_ok {α β : Type} {x : Except Fault α} {f : α → Except Fault β} {b : β} :
    (x >>= f) = .ok b ↔ ∃ a, x = .ok a ∧ f a = .ok b := by
  cases x <;> simp

theorem map_eq_ok {α β : Type} {x : Except Fault α} {f : α → β} {b : β} :
    x.map f = .ok b ↔ ∃ a, x = .ok a ∧ f a = b := by
  cases x <;> simp [Except.map]

@[simp] theorem toOutcome_ok (s : State) : toOutcome (.ok s) = .next s := rfl
@[simp] theorem toOutcome_error (f : Fault) : toOutcome (.error f) = .fault f := rfl

theorem toOutcome_eq_next {x : Except Fault State} {t : State} :
    toOutcome x = .next t ↔ x = .ok t := by
  cases x <;> simp [toOutcome]

theorem toOutcome_eq_fault {x : Except Fault State} {f : Fault} :
    toOutcome x = .fault f ↔ x = .error f := by
  cases x <;> simp [toOutcome]

theorem toOutcome_ne_refused {x : Except Fault State} {r : Refusal} : toOutcome x ≠ .refused r := by
  cases x <;> simp [toOutcome]

/-! ### Raw access (20_memory.md R102, R105) -/

variable {s t : State}

theorem rawRead_eq_ok {a : Int} {v : Byte} :
    rawRead a s = .ok v ↔ (0 ≤ a ∧ a < s.cfg.dataSize) ∧ v = s.byte a.toNat := by
  unfold rawRead; split <;> simp_all [eq_comm]

theorem rawWrite_eq_ok {a : Int} {v : Byte} :
    rawWrite a v s = .ok t ↔ (0 ≤ a ∧ a < s.cfg.dataSize) ∧ t = s.setByte a.toNat v := by
  unfold rawWrite; split <;> simp_all [eq_comm]

theorem rawRead_nat {a : Nat} (h : a < s.cfg.dataSize) : rawRead (a : Int) s = .ok (s.byte a) := by
  unfold rawRead; rw [if_pos (by omega)]; rfl

theorem rawWrite_nat {a : Nat} (v : Byte) (h : a < s.cfg.dataSize) :
    rawWrite (a : Int) v s = .ok (s.setByte a v) := by
  unfold rawWrite; rw [if_pos (by omega)]; rfl

theorem rawRead_out {a : Int} (h : ¬(0 ≤ a ∧ a < s.cfg.dataSize)) :
    rawRead a s = .error (.dataOutOfRange a) := if_neg h

theorem rawWrite_out {a : Int} (v : Byte) (h : ¬(0 ≤ a ∧ a < s.cfg.dataSize)) :
    rawWrite a v s = .error (.dataOutOfRange a) := if_neg h

/-! ### Program memory (20_memory.md R107) -/

theorem progWord_eq_ok {i : Nat} {w : Word} :
    progWord i s = .ok w ↔ i < s.cfg.progWords ∧ w = s.prog.read i := by
  unfold progWord; split <;> simp_all [eq_comm]

theorem progWord_in {i : Nat} (h : i < s.cfg.progWords) : progWord i s = .ok (s.prog.read i) :=
  if_pos h

theorem progWord_out {i : Nat} (h : s.cfg.progWords ≤ i) :
    progWord i s = .error (.progOutOfRange i) := if_neg (by omega)

theorem progByte_in {b : Nat} (h : b / 2 < s.cfg.progWords) :
    progByte b s = .ok (if b % 2 = 0 then (s.prog.read (b / 2)).extractLsb' 0 8
      else (s.prog.read (b / 2)).extractLsb' 8 8) := by
  simp only [progByte, progWord_in h]; rfl

theorem progByte_out {b : Nat} (h : s.cfg.progWords ≤ b / 2) :
    progByte b s = .error (.progOutOfRange (b / 2)) := by
  simp only [progByte, progWord_out h]; rfl

/-! ### The stack (20_memory.md R108) -/

theorem sp_lt (s : State) : s.sp.toNat < 65536 := s.sp.isLt

/-- `Push1` answers exactly when SP is inside the data space. -/
theorem push1_eq_ok {v : Byte} :
    push1 v s = .ok t ↔ s.sp.toNat < s.cfg.dataSize ∧
      t = (s.setByte s.sp.toNat v).setSp (s.sp.toNat - 1 : Int) := by
  simp only [push1, bind_eq_ok, rawWrite_eq_ok]
  constructor
  · rintro ⟨_, ⟨h, rfl⟩, h2⟩
    refine ⟨by omega, ?_⟩
    cases h2; simp
  · rintro ⟨h, rfl⟩
    exact ⟨_, ⟨by omega, rfl⟩, by simp [pure, Except.pure]⟩

/-- `Pop1` answers exactly when SP + 1 is inside the data space. -/
theorem pop1_eq_ok {p : Byte × State} :
    pop1 s = .ok p ↔ s.sp.toNat + 1 < s.cfg.dataSize ∧
      p = (s.byte (s.sp.toNat + 1), s.setSp (s.sp.toNat + 1 : Int)) := by
  simp only [pop1, bind_eq_ok, rawRead_eq_ok]
  constructor
  · rintro ⟨_, ⟨h, rfl⟩, h2⟩
    refine ⟨by omega, ?_⟩
    cases h2; rfl
  · rintro ⟨h, rfl⟩
    exact ⟨_, ⟨by omega, rfl⟩, rfl⟩

/-- The state with the bytes of `v` stored at SP and below, SP not yet moved. -/
def pushBytes (v : Nat) (s : State) : State :=
  let s2 := (s.setByte s.sp.toNat (BitVec.ofNat 8 v)).setByte (s.sp.toNat - 1)
    (BitVec.ofNat 8 (v / 256))
  if s.cfg.pc22 then s2.setByte (s.sp.toNat - 2) (BitVec.ofNat 8 (v / 65536)) else s2

/-- `PushPC` answers exactly when all 2 or 3 bytes are inside the data space. -/
theorem pushPC_eq_ok {v : Nat} :
    pushPC v s = .ok t ↔ (s.cfg.pcBytes ≤ s.sp.toNat + 1 ∧ s.sp.toNat < s.cfg.dataSize) ∧
      t = (pushBytes v s).setSp ((s.sp.toNat : Int) - s.cfg.pcBytes) := by
  have hsub1 : ∀ n : Nat, 2 ≤ n + 1 → ((n : Int) - 1).toNat = n - 1 := by intros; omega
  have hsub2 : ∀ n : Nat, 3 ≤ n + 1 → ((n : Int) - 2).toNat = n - 2 := by intros; omega
  simp only [pushPC, bind_eq_ok, rawWrite_eq_ok, pushBytes, Config.pcBytes]
  cases hp : s.cfg.pc22
  · simp only [Bool.false_eq_true, if_false]
    constructor
    · rintro ⟨_, ⟨h, rfl⟩, _, ⟨h', rfl⟩, h3⟩
      cases h3
      simp only [setByte_cfg] at h'
      refine ⟨by omega, ?_⟩
      rw [hsub1 _ (by omega)]; rfl
    · rintro ⟨h, rfl⟩
      refine ⟨_, ⟨by omega, rfl⟩, _, ⟨by simp only [setByte_cfg]; omega, rfl⟩, ?_⟩
      rw [hsub1 _ (by omega)]; rfl
  · simp only [if_true, bind_eq_ok, rawWrite_eq_ok]
    constructor
    · rintro ⟨_, ⟨h, rfl⟩, _, ⟨h', rfl⟩, _, ⟨h'', rfl⟩, h3⟩
      cases h3
      simp only [setByte_cfg] at h' h''
      refine ⟨by omega, ?_⟩
      rw [hsub1 _ (by omega), hsub2 _ (by omega)]; rfl
    · rintro ⟨h, rfl⟩
      refine ⟨_, ⟨by omega, rfl⟩, _, ⟨by simp only [setByte_cfg]; omega, rfl⟩, _,
        ⟨by simp only [setByte_cfg]; omega, rfl⟩, ?_⟩
      rw [hsub1 _ (by omega), hsub2 _ (by omega)]; rfl

/-- The value `PopPC` reads above SP, high byte first. -/
def poppedPC (s : State) : Nat :=
  if s.cfg.pc22 then
    (s.byte (s.sp.toNat + 1)).toNat * 65536 + (s.byte (s.sp.toNat + 2)).toNat * 256 +
      (s.byte (s.sp.toNat + 3)).toNat
  else (s.byte (s.sp.toNat + 1)).toNat * 256 + (s.byte (s.sp.toNat + 2)).toNat

/-- `PopPC` answers exactly when all 2 or 3 bytes are inside the data space. -/
theorem popPC_eq_ok {p : Nat × State} :
    popPC s = .ok p ↔ s.sp.toNat + s.cfg.pcBytes < s.cfg.dataSize ∧
      p = (poppedPC s, s.setSp ((s.sp.toNat : Int) + s.cfg.pcBytes)) := by
  simp only [popPC, poppedPC, Config.pcBytes]
  cases hp : s.cfg.pc22
  · simp only [Bool.false_eq_true, if_false, bind_eq_ok, rawRead_eq_ok]
    constructor
    · rintro ⟨_, ⟨h, rfl⟩, _, ⟨h', rfl⟩, h2⟩
      cases h2
      exact ⟨by omega, rfl⟩
    · rintro ⟨h, rfl⟩
      exact ⟨_, ⟨by omega, rfl⟩, _, ⟨by omega, rfl⟩, rfl⟩
  · simp only [if_true, bind_eq_ok, rawRead_eq_ok]
    constructor
    · rintro ⟨_, ⟨h, rfl⟩, _, ⟨h', rfl⟩, _, ⟨h'', rfl⟩, h2⟩
      cases h2
      exact ⟨by omega, rfl⟩
    · rintro ⟨h, rfl⟩
      exact ⟨_, ⟨by omega, rfl⟩, _, ⟨by omega, rfl⟩, _, ⟨by omega, rfl⟩, rfl⟩

/-! ### Dispatch and return (60_exceptions.md R516, 41_branch.md R308, R309) -/

theorem dispatch_eq_ok {a : Nat} :
    dispatch a s = .ok t ↔ ∃ s1, pushPC s.pc s = .ok s1 ∧
      t = { s1.setSreg (s1.sreg &&& 0x7F) with cycles := s1.cycles + s.cfg.irqCycles, pc := a } := by
  simp only [dispatch, bind_eq_ok, pure, Except.pure, Except.ok.injEq]
  exact ⟨fun ⟨x, h, e⟩ => ⟨x, h, e.symm⟩, fun ⟨x, h, e⟩ => ⟨x, h, e.symm⟩⟩

theorem returnFromSubroutine_eq_ok :
    returnFromSubroutine s = .ok t ↔ s.sp.toNat + s.cfg.pcBytes < s.cfg.dataSize ∧
      t = (s.setSp ((s.sp.toNat : Int) + s.cfg.pcBytes)).finishAt ((poppedPC s : Int) - 1)
        (farCycles s.cfg) := by
  simp only [returnFromSubroutine, bind_eq_ok, popPC_eq_ok]
  constructor
  · rintro ⟨_, ⟨h, rfl⟩, h2⟩; cases h2; exact ⟨h, rfl⟩
  · rintro ⟨h, rfl⟩; exact ⟨_, ⟨h, rfl⟩, rfl⟩

theorem returnFromInterrupt_eq_ok :
    returnFromInterrupt s = .ok t ↔ s.sp.toNat + s.cfg.pcBytes < s.cfg.dataSize ∧
      t = ((s.setSp ((s.sp.toNat : Int) + s.cfg.pcBytes)).setSreg (s.sreg ||| 0x80)).finishAt
        ((poppedPC s : Int) - 1) (farCycles s.cfg) := by
  have hs : ∀ v, (s.setSp v).sreg = s.sreg := by
    intro v; simp [sreg_def, byte_setSp]
  simp only [returnFromInterrupt, bind_eq_ok, popPC_eq_ok]
  constructor
  · rintro ⟨_, ⟨h, rfl⟩, h2⟩; cases h2; exact ⟨h, by simp only [hs]⟩
  · rintro ⟨h, rfl⟩; refine ⟨_, ⟨h, rfl⟩, ?_⟩; simp only [hs]; rfl

end Sys2Proof.Machine
end

