-- ==== Sys2Proof/Laws/Interrupts.lean ====
section
/-! SUPPORT. What the interrupt controller's operations do (60_exceptions.md R506 to R518). -/

namespace Sys2Proof.Machine

/-! ### The pending set as a map -/

theorem mem_insertPending {q x : Descriptor} {ps : List Descriptor}
    (h : x ∈ insertPending q ps) : x = q ∨ x ∈ ps := by
  induction ps with
  | nil => simpa [insertPending] using h
  | cons y ps ih =>
    simp only [insertPending] at h
    split at h
    · rcases List.mem_cons.mp h with rfl | h
      · exact .inr (by simp)
      · rcases ih h with h | h
        · exact .inl h
        · exact .inr (by simp [h])
    · split at h
      · rcases List.mem_cons.mp h with h | h
        · exact .inl h
        · exact .inr (by simp [h])
      · simpa using h

/-- Queueing keeps the pending set a map (10_state.md R62). -/
theorem pendingSorted_insertPending (q : Descriptor) {ps : List Descriptor}
    (h : pendingSorted ps) : pendingSorted (insertPending q ps) := by
  induction ps with
  | nil => simp [insertPending]
  | cons y ps ih =>
    have hp := List.pairwise_cons.mp h
    simp only [insertPending]
    split
    · rename_i hy
      refine List.pairwise_cons.mpr ⟨fun x hx => ?_, ih hp.2⟩
      rcases mem_insertPending hx with rfl | hx
      · exact hy
      · exact hp.1 x hx
    · split
      · rename_i hy
        exact List.pairwise_cons.mpr ⟨fun x hx => by have := hp.1 x hx; omega, hp.2⟩
      · refine List.pairwise_cons.mpr ⟨fun x hx => ?_, h⟩
        rcases List.mem_cons.mp hx with rfl | hx
        · omega
        · have := hp.1 x hx; omega

/-- Removing a vector keeps the pending set a map. -/
theorem pendingSorted_filter {ps : List Descriptor} (f : Descriptor → Bool)
    (h : pendingSorted ps) : pendingSorted (ps.filter f) := h.filter f

variable {s t : State}

theorem queueInterrupt_eq_ok {q : Descriptor} :
    queueInterrupt q s = .ok t ↔ pendingSorted s.pending ∧
      t = { s with pending := insertPending q s.pending } := by
  unfold queueInterrupt; split <;> simp_all [eq_comm]

theorem irqEnabled_eq_ok {q : Descriptor} {b : Bool} :
    irqEnabled q s = .ok b ↔ q.enableRegister < s.cfg.dataSize ∧
      b = (s.byte q.enableRegister &&& q.enableMask != 0) := by
  simp only [irqEnabled, bind_eq_ok, rawRead_eq_ok]
  constructor
  · rintro ⟨_, ⟨h, rfl⟩, h2⟩; cases h2; exact ⟨by omega, rfl⟩
  · rintro ⟨h, rfl⟩; exact ⟨_, ⟨by omega, rfl⟩, rfl⟩

/-- Is the flag of a descriptor active in the state (60_exceptions.md R506). -/
def flagActive (q : Descriptor) (s : State) : Bool :=
  if q.inverseFlag then s.byte q.flagRegister &&& q.flagMask == 0
  else s.byte q.flagRegister &&& q.flagMask != 0

theorem irqFlagActive_eq_ok {q : Descriptor} {b : Bool} :
    irqFlagActive q s = .ok b ↔ q.flagRegister < s.cfg.dataSize ∧ b = flagActive q s := by
  simp only [irqFlagActive, bind_eq_ok, rawRead_eq_ok, flagActive]
  constructor
  · rintro ⟨_, ⟨h, rfl⟩, h2⟩; cases h2; exact ⟨by omega, rfl⟩
  · rintro ⟨h, rfl⟩; exact ⟨_, ⟨by omega, rfl⟩, rfl⟩

theorem clearFlagBits_eq_ok {q : Descriptor} :
    clearFlagBits q s = .ok t ↔ q.flagRegister < s.cfg.dataSize ∧
      t = s.setByte q.flagRegister (clearedFlag q (s.byte q.flagRegister)) := by
  simp only [clearFlagBits, bind_eq_ok, rawRead_eq_ok, rawWrite_eq_ok]
  constructor
  · rintro ⟨_, ⟨h, rfl⟩, _, h2⟩; exact ⟨by omega, h2⟩
  · rintro ⟨h, rfl⟩; exact ⟨_, ⟨by omega, rfl⟩, by omega, rfl⟩

/-- The pending set without a vector address. -/
def withoutVector (a : Nat) (ps : List Descriptor) : List Descriptor :=
  ps.filter (fun x => x.vectorAddress != a)

theorem clearInterrupt_eq_ok {q : Descriptor} {b : Bool} :
    clearInterrupt q b s = .ok t ↔ (b = true → q.flagRegister < s.cfg.dataSize) ∧
      pendingSorted s.pending ∧
      t = { (if b then s.setByte q.flagRegister (clearedFlag q (s.byte q.flagRegister)) else s)
            with pending := withoutVector q.vectorAddress s.pending } := by
  simp only [clearInterrupt, withoutVector]
  cases b
  · simp only [Bool.false_eq_true, if_false, false_implies, true_and]
    show (if pendingSorted s.pending then _ else _) = _ ↔ _
    split <;> simp_all [pure, Except.pure, throw, throwThe, MonadExceptOf.throw, eq_comm]
  · simp only [if_true, bind_eq_ok, clearFlagBits_eq_ok, true_implies]
    constructor
    · rintro ⟨_, ⟨h, rfl⟩, h2⟩
      split at h2
      · rename_i hp; cases h2; exact ⟨h, hp, rfl⟩
      · cases h2
    · rintro ⟨h, hp, rfl⟩
      refine ⟨_, ⟨h, rfl⟩, ?_⟩
      split
      · rfl
      · rename_i hn; exact absurd hp hn

/-- The second half of `setInterruptFlag`: queue if the enable bit is set. -/
theorem queueIfEnabled_eq_ok {q : Descriptor} {s1 : State} :
    (do if ← irqEnabled q s1 then queueInterrupt q s1 else return s1) = .ok t ↔
      q.enableRegister < s1.cfg.dataSize ∧
      (if s1.byte q.enableRegister &&& q.enableMask != 0 then
         pendingSorted s1.pending ∧ t = { s1 with pending := insertPending q s1.pending }
       else t = s1) := by
  simp only [bind_eq_ok, irqEnabled_eq_ok]
  constructor
  · rintro ⟨_, ⟨h, rfl⟩, h2⟩
    refine ⟨h, ?_⟩
    split at h2
    · rename_i hc; rw [if_pos hc]; exact queueInterrupt_eq_ok.mp h2
    · rename_i hc; rw [if_neg hc]; cases h2; rfl
  · rintro ⟨h, h2⟩
    refine ⟨_, ⟨h, rfl⟩, ?_⟩
    split at h2
    · rename_i hc; rw [if_pos hc]; exact queueInterrupt_eq_ok.mpr h2
    · rename_i hc; rw [if_neg hc, h2]; rfl

theorem setInterruptFlag_eq_ok {q : Descriptor} :
    setInterruptFlag q s = .ok t ↔
      q.flagRegister < s.cfg.dataSize ∧ q.enableRegister < s.cfg.dataSize ∧
      (let s1 := s.setByte q.flagRegister (raisedFlag q (s.byte q.flagRegister))
       if s1.byte q.enableRegister &&& q.enableMask != 0 then
         pendingSorted s.pending ∧ t = { s1 with pending := insertPending q s.pending }
       else t = s1) := by
  unfold setInterruptFlag
  rw [bind_eq_ok]
  constructor
  · rintro ⟨_, h, h2⟩
    obtain ⟨h, rfl⟩ := rawRead_eq_ok.mp h
    obtain ⟨_, h3, h4⟩ := bind_eq_ok.mp h2
    obtain ⟨-, rfl⟩ := rawWrite_eq_ok.mp h3
    exact ⟨by omega, queueIfEnabled_eq_ok.mp h4⟩
  · rintro ⟨h, h2⟩
    exact ⟨_, rawRead_nat h, bind_eq_ok.mpr ⟨_, rawWrite_nat _ h, queueIfEnabled_eq_ok.mpr h2⟩⟩

theorem updateInterruptEnable_eq_ok {q : Descriptor} {v : Byte} :
    updateInterruptEnable q v s = .ok t ↔
      if v &&& q.enableMask != 0 then
        q.flagRegister < s.cfg.dataSize ∧
          if flagActive q s then
            pendingSorted s.pending ∧ t = { s with pending := insertPending q s.pending }
          else t = s
      else pendingSorted s.pending ∧
        t = { s with pending := withoutVector q.vectorAddress s.pending } := by
  simp only [updateInterruptEnable]
  split
  · simp only [bind_eq_ok, irqFlagActive_eq_ok]
    constructor
    · rintro ⟨_, ⟨h2, rfl⟩, h3⟩
      refine ⟨h2, ?_⟩
      split at h3
      · rename_i hc; rw [if_pos hc]; simpa only [queueInterrupt_eq_ok] using h3
      · rename_i hc; rw [if_neg hc]; cases h3; rfl
    · rintro ⟨h2, h3⟩
      refine ⟨_, ⟨h2, rfl⟩, ?_⟩
      split at h3
      · rename_i hc; rw [if_pos hc]; simpa only [queueInterrupt_eq_ok] using h3
      · rename_i hc; rw [if_neg hc, h3]; rfl
  · rename_i h
    simp only [clearInterrupt_eq_ok, Bool.false_eq_true, false_implies, true_and, if_false]

theorem clearInterruptByFlag_eq_ok {q : Descriptor} {v : Byte} :
    clearInterruptByFlag q v s = .ok t ↔
      if v &&& q.flagMask != 0 then
        q.flagRegister < s.cfg.dataSize ∧ pendingSorted s.pending ∧
          t = { s.setByte q.flagRegister (clearedFlag q (s.byte q.flagRegister)) with
                pending := withoutVector q.vectorAddress s.pending }
      else t = s := by
  have twice : ∀ (a : Nat) (x : Byte),
      (s.setByte a (clearedFlag q x)).setByte a (clearedFlag q (clearedFlag q x)) =
        s.setByte a (clearedFlag q x) := by
    intro a x
    rw [show clearedFlag q (clearedFlag q x) = clearedFlag q x by
      simp only [clearedFlag, BitVec.and_assoc, BitVec.and_self]]
    simp only [State.setByte, State.mk.injEq, true_and, and_true]
    have ins : ∀ (l : Memory 8) (v : Byte), (∀ c ∈ l, c.1 ≠ a) →
        (l.insert a v).filter (fun c => c.1 != a) = l := by
      intro l v hl
      induction l with
      | nil => simp [Memory.insert]
      | cons c l ih =>
        have hc := hl c (by simp)
        have ih := ih (fun y hy => hl y (by simp [hy]))
        simp only [Memory.insert]
        split
        · simp [hc, ih]
        · have : (l.filter (fun c => c.1 != a)) = l :=
            List.filter_eq_self.mpr (fun y hy => by simp [hl y (by simp [hy])])
          simp [hc, this]
    unfold Memory.write
    split
    · simp [Memory.erase]
    · rw [Memory.erase, ins _ _ Memory.not_mem_erase]
  simp only [clearInterruptByFlag]
  split
  · rename_i h
    simp only [bind_eq_ok, clearFlagBits_eq_ok, clearInterrupt_eq_ok]
    constructor
    · rintro ⟨_, ⟨h1, rfl⟩, _, h3, rfl⟩
      refine ⟨h1, h3, ?_⟩
      simp only [if_true, byte_setByte_same, twice, setByte_pending]
    · rintro ⟨h1, h3, rfl⟩
      refine ⟨_, ⟨h1, rfl⟩, fun _ => h1, h3, ?_⟩
      simp only [if_true, byte_setByte_same, twice, setByte_pending]
  · simp [pure, Except.pure, eq_comm]

/-- What the second half of `tick()` does when it answers (60_exceptions.md R514, R518). -/
theorem dispatchPending_eq_ok : dispatchPending s = .ok t ↔ pendingSorted s.pending ∧
    match s.flag .I, s.pending with
    | true, q :: _ => ∃ s1, dispatch q.vectorAddress s = .ok s1 ∧
        (match q.kind with
         | .edge => clearInterrupt q true s1 = .ok t
         | .level => t = s1)
    | _, _ => t = s := by
  unfold dispatchPending
  split
  · rename_i hp
    simp only [hp, true_and]
    cases hI : s.flag .I with
    | false => simp [eq_comm]
    | true =>
      cases hq : s.pending with
      | nil => simp [eq_comm]
      | cons q rest =>
        simp only [bind_eq_ok]
        refine exists_congr fun s1 => and_congr_right fun _ => ?_
        cases q.kind <;> simp [pure, Except.pure, eq_comm]
  · rename_i hp; simp [hp]

end Sys2Proof.Machine
end

