-- ==== Sys2Proof/Laws/Scheduler.lean ====
section
/-! SUPPORT. What the scheduler's operations do to the event chain (60_exceptions.md R521 to R523). -/

namespace Sys2Proof.Machine

/-- An event goes between the entries it follows and those it precedes, which keep their order. -/
theorem insertEvent_split (tie : TieOrder) (e : ClockEvent) (es : List ClockEvent)
    (h : eventsSorted es) :
    ∃ before after, es = before ++ after ∧ insertEvent tie e es = before ++ e :: after ∧
      (∀ x ∈ before, match tie with | .fifo => x.due ≤ e.due | .lifo => x.due < e.due) ∧
      (∀ x ∈ after, match tie with | .fifo => e.due < x.due | .lifo => e.due ≤ x.due) := by
  induction es with
  | nil => exact ⟨[], [], rfl, rfl, by simp, by simp⟩
  | cons x es ih =>
    have hp := List.pairwise_cons.mp h
    obtain ⟨before, after, h1, h2, h3, h4⟩ := ih hp.2
    cases tie with
    | fifo =>
      by_cases hx : x.due ≤ e.due
      · refine ⟨x :: before, after, by simp [h1], by simp [insertEvent, hx, h2], ?_, h4⟩
        simpa [hx] using h3
      · refine ⟨[], x :: es, rfl, by simp [insertEvent, hx], by simp, ?_⟩
        intro y hy
        rcases List.mem_cons.mp hy with rfl | hy
        · simp only; omega
        · have := hp.1 y hy; simp only; omega
    | lifo =>
      by_cases hx : x.due < e.due
      · refine ⟨x :: before, after, by simp [h1], by simp [insertEvent, hx, h2], ?_, h4⟩
        simpa [hx] using h3
      · refine ⟨[], x :: es, rfl, by simp [insertEvent, hx], by simp, ?_⟩
        intro y hy
        rcases List.mem_cons.mp hy with rfl | hy
        · simp only; omega
        · have := hp.1 y hy; simp only; omega

/-- Scheduling keeps the chain sorted (10_state.md R63). -/
theorem eventsSorted_insertEvent (tie : TieOrder) (e : ClockEvent) {es : List ClockEvent}
    (h : eventsSorted es) : eventsSorted (insertEvent tie e es) := by
  obtain ⟨before, after, h1, h2, h3, h4⟩ := insertEvent_split tie e es h
  rw [h2]
  rw [h1] at h
  have hp := List.pairwise_append.mp h
  refine List.pairwise_append.mpr ⟨hp.1, List.pairwise_cons.mpr ⟨fun y hy => ?_, hp.2.1⟩, ?_⟩
  · have := h4 y hy; cases tie <;> simp only at this <;> omega
  · intro x hx y hy
    rcases List.mem_cons.mp hy with rfl | hy
    · have := h3 x hx; cases tie <;> simp only at this <;> omega
    · exact hp.2.2 x hx y hy

theorem removeEvent_sublist (id : Nat) (es : List ClockEvent) :
    (removeEvent id es).Sublist es := by
  induction es with
  | nil => exact List.Sublist.refl _
  | cons x es ih =>
    simp only [removeEvent]
    split
    · exact List.sublist_cons_self ..
    · exact ih.cons_cons x

/-- Removing an event keeps the chain sorted. -/
theorem eventsSorted_removeEvent (id : Nat) {es : List ClockEvent} (h : eventsSorted es) :
    eventsSorted (removeEvent id es) := h.sublist (removeEvent_sublist id es)

variable {s t : State}

theorem addClockEvent_eq_ok {now id : Nat} {n : Int} {p : Nat × State} :
    addClockEvent now id n s = .ok p ↔ eventsSorted s.events ∧
      p = (id, { s with events := insertEvent s.cfg.tieOrder ⟨dueAt now n, id⟩ s.events }) := by
  unfold addClockEvent; split <;> simp_all [eq_comm]

theorem clearClockEvent_eq_ok {id : Nat} {p : Bool × State} :
    clearClockEvent id s = .ok p ↔ eventsSorted s.events ∧
      p = (s.events.any (fun e => e.id == id),
        { s with events := removeEvent id s.events }) := by
  unfold clearClockEvent; split <;> simp_all [eq_comm]

theorem updateClockEvent_eq_ok {now id : Nat} {n : Int} {p : Bool × State} :
    updateClockEvent now id n s = .ok p ↔ eventsSorted s.events ∧
      p = (s.events.any (fun e => e.id == id),
        { s with events :=
            if s.events.any (fun e => e.id == id) || s.cfg.updateAddsIfAbsent
            then insertEvent s.cfg.tieOrder ⟨dueAt now n, id⟩ (removeEvent id s.events)
            else removeEvent id s.events }) := by
  simp only [updateClockEvent, bind_eq_ok, clearClockEvent_eq_ok]
  constructor
  · rintro ⟨_, ⟨h, rfl⟩, h2⟩
    refine ⟨h, ?_⟩
    revert h2
    simp only
    split
    · simp only [bind_eq_ok, addClockEvent_eq_ok]
      rintro ⟨_, ⟨_, rfl⟩, h3⟩
      cases h3; rfl
    · intro h3; cases h3; rfl
  · rintro ⟨h, rfl⟩
    refine ⟨_, ⟨h, rfl⟩, ?_⟩
    simp only
    split
    · simp only [bind_eq_ok, addClockEvent_eq_ok]
      exact ⟨_, ⟨eventsSorted_removeEvent id h, rfl⟩, rfl⟩
    · rfl

end Sys2Proof.Machine
end

