-- ==== Sys2Proof/Laws/Environment.lean ====
section
/-! SUPPORT. What a call to the environment can and cannot change (20_memory.md R104). -/

namespace Sys2Proof.Machine

/-! ### The relations compose -/

theorem SameBuild.refl (s : State) : SameBuild s s := ⟨rfl, rfl, rfl, rfl, rfl, rfl⟩

theorem SameBuild.trans {s t u : State} (h : SameBuild s t) (h' : SameBuild t u) :
    SameBuild s u :=
  ⟨h'.cfg.trans h.cfg, h'.prog.trans h.prog, h'.readHooks.trans h.readHooks,
    h'.writeHooks.trans h.writeHooks, h'.watchdog.trans h.watchdog, h'.started.trans h.started⟩

theorem EnvKeeps.refl (s : State) : EnvKeeps s s := ⟨.refl s, rfl, rfl, fun _ _ => rfl⟩

theorem EnvKeeps.trans {s t u : State} (h : EnvKeeps s t) (h' : EnvKeeps t u) : EnvKeeps s u :=
  ⟨h.build.trans h'.build, h'.pc.trans h.pc, h'.cycles.trans h.cycles,
    fun a ha => (h'.bytes a (by rw [h.build.cfg]; exact ha)).trans (h.bytes a ha)⟩

variable {s t : State}

/-- A change of the pending set, the event chain or the model's own fields alone. -/
theorem EnvKeeps.of_data (hb : SameBuild s t) (hp : t.pc = s.pc) (hc : t.cycles = s.cycles)
    (hd : t.data = s.data) : EnvKeeps s t := ⟨hb, hp, hc, fun a _ => byte_congr hd a⟩

/-! ### What the contract lets pass -/

theorem contract_eq_ok {α : Type} {b : Bool} {r : Except Fault α} {t : α} :
    contract b r = .ok t ↔ b = true ∧ r = .ok t := by
  cases b <;> simp [contract]

theorem envWritable_eq_true {c : Config} {a : Nat} :
    envWritable c a = true ↔ 32 ≤ a ∧ a < c.dataSize ∧ coreOwned a = false := by
  simp [envWritable, and_assoc]

theorem envMayStore_eq_true {a : Nat} {v : Byte} :
    envMayStore s a v = true ↔
      envWritable s.cfg a = true ∨ (a < s.cfg.dataSize ∧ s.byte a = v) := by
  simp [envMayStore]

/-- A store the environment may make leaves alone what its contract names: the byte is not one of those,
or does not change. -/
theorem EnvKeeps.setByte {a : Nat} {v : Byte} (h : envMayStore s a v = true) :
    EnvKeeps s (s.setByte a v) := by
  refine ⟨⟨rfl, rfl, rfl, rfl, rfl, rfl⟩, rfl, rfl, fun b hb => ?_⟩
  rw [byte_setByte]
  split
  · subst a
    rcases envMayStore_eq_true.mp h with h | h
    · obtain ⟨h1, h2, h3⟩ := envWritable_eq_true.mp h
      rcases hb with hb | hb | hb
      · omega
      · simp [h3] at hb
      · omega
    · exact h.2.symm
  · rfl

/-- A raw write where the environment may write. -/
theorem envMayStore_of_envWritable {a : Nat} (v : Byte) (h : envWritable s.cfg a = true) :
    envMayStore s a v = true := envMayStore_eq_true.mpr (.inl h)

theorem rawWrite_nat_eq_ok {a : Nat} {v : Byte} :
    rawWrite (a : Int) v s = .ok t ↔ a < s.cfg.dataSize ∧ t = s.setByte a v := by
  rw [rawWrite_eq_ok, Int.toNat_natCast]
  exact and_congr_left' (by omega)

/-- One operation of the environment. -/
theorem envOp_keeps {now : Nat} {o : EnvOp} (h : envOp now o s = .ok t) : EnvKeeps s t := by
  cases o with
  | addClockEvent id n =>
    obtain ⟨p, hp, rfl⟩ := map_eq_ok.mp h
    obtain ⟨_, rfl⟩ := addClockEvent_eq_ok.mp hp
    exact .of_data ⟨rfl, rfl, rfl, rfl, rfl, rfl⟩ rfl rfl rfl
  | clearClockEvent id =>
    obtain ⟨p, hp, rfl⟩ := map_eq_ok.mp h
    obtain ⟨_, rfl⟩ := clearClockEvent_eq_ok.mp hp
    exact .of_data ⟨rfl, rfl, rfl, rfl, rfl, rfl⟩ rfl rfl rfl
  | updateClockEvent id n =>
    obtain ⟨p, hp, rfl⟩ := map_eq_ok.mp h
    obtain ⟨_, rfl⟩ := updateClockEvent_eq_ok.mp hp
    exact .of_data ⟨rfl, rfl, rfl, rfl, rfl, rfl⟩ rfl rfl rfl
  | setInterruptFlag q =>
    obtain ⟨hc, h⟩ := contract_eq_ok.mp h
    have hw := (Bool.and_eq_true_iff.mp hc).2
    obtain ⟨_, _, h⟩ := setInterruptFlag_eq_ok.mp h
    dsimp only at h
    refine (EnvKeeps.setByte hw).trans ?_
    split at h
    · rw [h.2]; exact .of_data ⟨rfl, rfl, rfl, rfl, rfl, rfl⟩ rfl rfl rfl
    · rw [h]; exact .refl _
  | updateInterruptEnable q v =>
    obtain ⟨_, h⟩ := contract_eq_ok.mp h
    have h := updateInterruptEnable_eq_ok.mp h
    split at h
    · obtain ⟨_, h⟩ := h
      split at h
      · rw [h.2]; exact .of_data ⟨rfl, rfl, rfl, rfl, rfl, rfl⟩ rfl rfl rfl
      · rw [h]; exact .refl _
    · rw [h.2]; exact .of_data ⟨rfl, rfl, rfl, rfl, rfl, rfl⟩ rfl rfl rfl
  | queueInterrupt q =>
    obtain ⟨_, h⟩ := contract_eq_ok.mp h
    obtain ⟨_, rfl⟩ := queueInterrupt_eq_ok.mp h
    exact .of_data ⟨rfl, rfl, rfl, rfl, rfl, rfl⟩ rfl rfl rfl
  | clearInterrupt q b =>
    obtain ⟨hc, h⟩ := contract_eq_ok.mp h
    obtain ⟨_, _, rfl⟩ := clearInterrupt_eq_ok.mp h
    cases b
    · exact .of_data ⟨rfl, rfl, rfl, rfl, rfl, rfl⟩ rfl rfl rfl
    · have hw := (Bool.and_eq_true_iff.mp hc).2
      exact (EnvKeeps.setByte (by simpa using hw)).trans
        (.of_data ⟨rfl, rfl, rfl, rfl, rfl, rfl⟩ rfl rfl rfl)
  | clearInterruptByFlag q v =>
    obtain ⟨hc, h⟩ := contract_eq_ok.mp h
    have h := clearInterruptByFlag_eq_ok.mp h
    split at h
    · rename_i hv
      have hw := (Bool.and_eq_true_iff.mp hc).2
      have hw := (Bool.or_eq_true_iff.mp hw).resolve_left (by simpa using hv)
      rw [h.2.2]
      exact (EnvKeeps.setByte hw).trans (.of_data ⟨rfl, rfl, rfl, rfl, rfl, rfl⟩ rfl rfl rfl)
    · rw [h]; exact .refl _
  | rawWrite a v =>
    obtain ⟨hc, h⟩ := contract_eq_ok.mp h
    obtain ⟨_, rfl⟩ := rawWrite_nat_eq_ok.mp h
    exact .setByte (envMayStore_of_envWritable v hc)

theorem envStore_keeps {a : Nat} {v : Byte} (h : envStore a v s = .ok t) : EnvKeeps s t := by
  obtain ⟨hc, h⟩ := contract_eq_ok.mp h
  obtain ⟨_, rfl⟩ := rawWrite_nat_eq_ok.mp h
  exact .setByte hc

theorem EnvKeeps.noteCall (s : State) (c : EnvCall) : EnvKeeps s (s.noteCall c) :=
  .of_data ⟨rfl, rfl, rfl, rfl, rfl, rfl⟩ rfl rfl rfl

theorem EnvKeeps.useReply (s : State) : EnvKeeps s s.useReply :=
  .of_data ⟨rfl, rfl, rfl, rfl, rfl, rfl⟩ rfl rfl rfl

/-- Whatever a script does is kept if every operation, store and note keeps it. -/
theorem runScript_induct (R : State → State → Prop) (hr : ∀ s, R s s)
    (ht : ∀ {s t u}, R s t → R t u → R s u)
    (hop : ∀ {now o s t}, envOp now o s = .ok t → R s t)
    (hst : ∀ {a v s t}, envStore a v s = .ok t → R s t)
    (hn : ∀ s c, R s (s.noteCall c)) (now : Nat) (sc : EnvScript) :
    ∀ {s t : State}, runScript now sc s = .ok t → R s t := by
  induction sc with
  | done => intro s t h; cases h; exact hr s
  | op o rest ih =>
    intro s t h
    obtain ⟨s1, h1, h2⟩ := bind_eq_ok.mp h
    exact ht (hop h1) (ih h2)
  | busRead a nested rest ihn ihr =>
    intro s t h
    simp only [runScript] at h
    split at h
    · split at h
      · obtain ⟨s1, h1, h2⟩ := bind_eq_ok.mp h
        exact ht (ht (hn _ _) (ihn h1)) (ihr h2)
      · exact ihr h
    · cases h
  | busWrite a v mask handled nested rest ihn ihr =>
    intro s t h
    simp only [runScript] at h
    split at h
    · split at h
      · obtain ⟨s1, h1, h2⟩ := bind_eq_ok.mp h
        refine ht (ht (hn _ _) (ihn h1)) ?_
        split at h2
        · exact ihr h2
        · obtain ⟨s2, h3, h4⟩ := bind_eq_ok.mp h2
          exact ht (hst h3) (ihr h4)
      · obtain ⟨s1, h1, h2⟩ := bind_eq_ok.mp h
        exact ht (hst h1) (ihr h2)
    · cases h

/-- A script of the environment leaves alone what its contract names. -/
theorem runScript_keeps {now : Nat} {sc : EnvScript} (h : runScript now sc s = .ok t) :
    EnvKeeps s t :=
  runScript_induct EnvKeeps .refl .trans envOp_keeps envStore_keeps .noteCall now sc h

/-- A script uses up no further answer. -/
theorem runScript_replies {now : Nat} {sc : EnvScript} (h : runScript now sc s = .ok t) :
    t.replies = s.replies ∧ t.draws = s.draws := by
  refine runScript_induct (fun s t => t.replies = s.replies ∧ t.draws = s.draws)
    (fun _ => ⟨rfl, rfl⟩) (fun h h' => ⟨h'.1.trans h.1, h'.2.trans h.2⟩) ?_ ?_
    (fun _ _ => ⟨rfl, rfl⟩) now sc h
  · intro now o s t h
    cases o with
    | addClockEvent id n =>
      obtain ⟨p, hp, rfl⟩ := map_eq_ok.mp h
      obtain ⟨_, rfl⟩ := addClockEvent_eq_ok.mp hp; exact ⟨rfl, rfl⟩
    | clearClockEvent id =>
      obtain ⟨p, hp, rfl⟩ := map_eq_ok.mp h
      obtain ⟨_, rfl⟩ := clearClockEvent_eq_ok.mp hp; exact ⟨rfl, rfl⟩
    | updateClockEvent id n =>
      obtain ⟨p, hp, rfl⟩ := map_eq_ok.mp h
      obtain ⟨_, rfl⟩ := updateClockEvent_eq_ok.mp hp; exact ⟨rfl, rfl⟩
    | setInterruptFlag q =>
      obtain ⟨_, _, h⟩ := setInterruptFlag_eq_ok.mp (contract_eq_ok.mp h).2
      dsimp only at h
      split at h
      · rw [h.2]; exact ⟨rfl, rfl⟩
      · rw [h]; exact ⟨rfl, rfl⟩
    | updateInterruptEnable q v =>
      have h := updateInterruptEnable_eq_ok.mp (contract_eq_ok.mp h).2
      split at h
      · obtain ⟨_, h⟩ := h
        split at h
        · rw [h.2]; exact ⟨rfl, rfl⟩
        · rw [h]; exact ⟨rfl, rfl⟩
      · rw [h.2]; exact ⟨rfl, rfl⟩
    | queueInterrupt q =>
      obtain ⟨_, rfl⟩ := queueInterrupt_eq_ok.mp (contract_eq_ok.mp h).2; exact ⟨rfl, rfl⟩
    | clearInterrupt q b =>
      obtain ⟨_, _, rfl⟩ := clearInterrupt_eq_ok.mp (contract_eq_ok.mp h).2
      cases b <;> exact ⟨rfl, rfl⟩
    | clearInterruptByFlag q v =>
      have h := clearInterruptByFlag_eq_ok.mp (contract_eq_ok.mp h).2
      split at h
      · rw [h.2.2]; exact ⟨rfl, rfl⟩
      · rw [h]; exact ⟨rfl, rfl⟩
    | rawWrite a v =>
      obtain ⟨_, rfl⟩ := rawWrite_nat_eq_ok.mp (contract_eq_ok.mp h).2; exact ⟨rfl, rfl⟩
  · intro a v s t h
    obtain ⟨_, rfl⟩ := rawWrite_nat_eq_ok.mp (contract_eq_ok.mp h).2; exact ⟨rfl, rfl⟩

/-! ### One call -/

/-- The cycle count the environment sees: the instruction's start plus what the answer says, cut off at
`slack` (20_memory.md R104). -/
def seenCycles (slack : Byte → Nat) (s : State) : Nat :=
  s.cycles + min s.nextReply.seen (slack (BitVec.ofNat 8 s.nextReply.value))

theorem envCall_eq_ok {c : EnvCall} {slack : Byte → Nat} {p : EnvReply × State} :
    envCall c slack s = .ok p ↔ p.1 = s.nextReply ∧
      runScript (seenCycles slack s) s.nextReply.script (s.useReply.noteCall c) = .ok p.2 := by
  simp only [envCall, bind_eq_ok, seenCycles]
  constructor
  · rintro ⟨t, h, h2⟩; cases h2; exact ⟨rfl, h⟩
  · rintro ⟨h1, h2⟩; exact ⟨_, h2, by rw [← h1]; rfl⟩

/-- A call to the environment leaves alone what the contract names, and uses up one answer. -/
theorem envCall_keeps {c : EnvCall} {slack : Byte → Nat} {p : EnvReply × State}
    (h : envCall c slack s = .ok p) : EnvKeeps s p.2 ∧ p.2.draws = s.draws + 1 := by
  obtain ⟨_, h⟩ := envCall_eq_ok.mp h
  exact ⟨((EnvKeeps.useReply s).trans (.noteCall _ c)).trans (runScript_keeps h),
    (runScript_replies h).2⟩

theorem envCallback_keeps {id : Nat} (h : envCallback id s = .ok t) : EnvKeeps s t := by
  obtain ⟨p, hp, rfl⟩ := map_eq_ok.mp h
  exact (envCall_keeps hp).1

theorem envWatchdogReset_keeps (h : envWatchdogReset s = .ok t) : EnvKeeps s t := by
  unfold envWatchdogReset at h
  split at h
  · obtain ⟨p, hp, rfl⟩ := map_eq_ok.mp h
    exact (envCall_keeps hp).1
  · cases h; exact .noteCall ..

end Sys2Proof.Machine
end

