-- ==== Sys2Proof/Laws/Bus.lean ====
section
/-! SUPPORT. What the Memory Bus does: with no hook, with a hook, and out of range (20_memory.md R100,
R101, R105). -/

namespace Sys2Proof.Machine

variable {s t : State}

theorem busRead_plain {slack : Byte → Nat} {a : Nat} (ha : a < s.cfg.dataSize)
    (hh : s.readHooked a = false) : busRead slack a s = .ok (s.byte a, s) := by
  simp [busRead, ha, hh]

theorem busRead_out {slack : Byte → Nat} {a : Nat} (ha : s.cfg.dataSize ≤ a) :
    busRead slack a s = .error (.dataOutOfRange a) := by
  simp [busRead, Nat.not_lt.mpr ha]

/-- A bus read gives the stored byte, or a hook's answer mod 256 after the hook has run. -/
theorem busRead_eq_ok {slack : Byte → Nat} {a : Nat} {p : Byte × State} :
    busRead slack a s = .ok p ↔ a < s.cfg.dataSize ∧
      (if s.readHooked a then
         p.1 = BitVec.ofNat 8 s.nextReply.value ∧
           envCall (.readHook a) slack s = .ok (s.nextReply, p.2)
       else p = (s.byte a, s)) := by
  unfold busRead
  by_cases ha : a < s.cfg.dataSize
  · simp only [ha, if_true, true_and]
    by_cases hh : s.readHooked a = true
    · simp only [hh, if_true, map_eq_ok]
      constructor
      · rintro ⟨q, hq, rfl⟩
        have h1 := (envCall_eq_ok.mp hq).1
        exact ⟨by rw [h1], by rw [hq, ← h1]⟩
      · rintro ⟨h1, h2⟩
        exact ⟨_, h2, Prod.ext h1.symm rfl⟩
    · simp [hh, eq_comm]
  · simp [ha]

theorem busWrite_plain {slack a : Nat} {v mask : Byte} (ha : a < s.cfg.dataSize)
    (hh : s.writeHooked a = false) : busWrite slack a v mask s = .ok (s.setByte a v) := by
  simp [busWrite, ha, hh]

theorem busWrite_out {slack a : Nat} {v mask : Byte} (ha : s.cfg.dataSize ≤ a) :
    busWrite slack a v mask s = .error (.dataOutOfRange a) := by
  simp [busWrite, Nat.not_lt.mpr ha]

/-- A bus write stores the byte, or calls the hook and stores unless the hook handled the write. -/
theorem busWrite_eq_ok {slack a : Nat} {v mask : Byte} :
    busWrite slack a v mask s = .ok t ↔ a < s.cfg.dataSize ∧
      (if s.writeHooked a then
         ∃ s1, envCall (.writeHook v (s.byte a) a mask) (fun _ => slack) s =
             .ok (s.nextReply, s1) ∧
           t = if s.nextReply.handled then s1 else s1.setByte a v
       else t = s.setByte a v) := by
  unfold busWrite
  by_cases ha : a < s.cfg.dataSize
  · simp only [ha, if_true, true_and]
    by_cases hh : s.writeHooked a = true
    · simp only [hh, if_true, map_eq_ok]
      constructor
      · rintro ⟨q, hq, rfl⟩
        have h1 := (envCall_eq_ok.mp hq).1
        exact ⟨q.2, by rw [hq, ← h1], by rw [h1]⟩
      · rintro ⟨s1, h2, rfl⟩
        exact ⟨_, h2, rfl⟩
    · simp [hh, eq_comm]
  · simp [ha]

/-- A bus read changes only what the environment may change. -/
theorem busRead_keeps {slack : Byte → Nat} {a : Nat} {p : Byte × State}
    (h : busRead slack a s = .ok p) : EnvKeeps s p.2 := by
  obtain ⟨_, h⟩ := busRead_eq_ok.mp h
  split at h
  · exact (envCall_keeps h.2).1
  · rw [h]; exact .refl s

/-- A bus write changes only the byte written and what the environment may change. -/
theorem busWrite_keeps {slack a : Nat} {v mask : Byte} (h : busWrite slack a v mask s = .ok t) :
    ∃ s1, EnvKeeps s s1 ∧ (t = s1 ∨ t = s1.setByte a v) := by
  obtain ⟨_, h⟩ := busWrite_eq_ok.mp h
  split at h
  · obtain ⟨s1, h1, rfl⟩ := h
    refine ⟨s1, (envCall_keeps h1).1, ?_⟩
    split
    · exact .inl rfl
    · exact .inr rfl
  · exact ⟨s, .refl s, .inr h⟩

theorem busWrite_build {slack a : Nat} {v mask : Byte} (h : busWrite slack a v mask s = .ok t) :
    SameBuild s t ∧ t.pc = s.pc ∧ t.cycles = s.cycles := by
  obtain ⟨s1, h1, rfl | rfl⟩ := busWrite_keeps h
  · exact ⟨h1.build, h1.pc, h1.cycles⟩
  · exact ⟨h1.build.trans ⟨rfl, rfl, rfl, rfl, rfl, rfl⟩, h1.pc, h1.cycles⟩

end Sys2Proof.Machine
end

