-- ==== Sys2Proof/Laws/Decode.lean ====
section
/-! SUPPORT. The laws of decoding: two rows of the opcode table never match one word (30_encoding.md
R154), and for each layout, its fixed bits and its fields (R151, R152). -/

namespace Sys2Proof

/-! ### Rows -/

/-- Two rows differ in a bit both fix. -/
def Row.apart (r r' : Row) : Bool := (r.bits ^^^ r'.bits) &&& (r.mask &&& r'.mask) != 0

theorem Row.not_matches_of_apart {r r' : Row} {w : Word} (h : r.apart r' = true)
    (hm : r'.matches w = true) : r.matches w = false := by
  rw [Bool.eq_false_iff]
  intro hr
  simp only [Row.matches, beq_iff_eq] at hr hm
  simp only [Row.apart, bne_iff_ne, ne_eq] at h
  apply h
  rw [← hr, ← hm]
  ext i hi
  simp only [BitVec.ofNat_eq_ofNat, BitVec.getElem_and, BitVec.getElem_xor, BitVec.getElem_zero]
  cases w[i] <;> cases r.mask[i] <;> cases r'.mask[i] <;> rfl

theorem find_row {l l' : List Row} {r : Row} {w : Word} (h : ∀ x ∈ l, x.matches w = false)
    (hr : r.matches w = true) : (l ++ r :: l').find? (fun x => x.matches w) = some r := by
  induction l with
  | nil => simp [hr]
  | cons x l ih =>
    rw [List.cons_append, List.find?_cons_of_neg (by simp [h x (by simp)])]
    exact ih fun y hy => h y (by simp [hy])

/-- The row a word matches is the row the decoder takes, when every row before it fixes a bit
differently. -/
theorem decode_of_row {l l' : List Row} {r : Row} {w w2 : Word} (ht : opcodeTable = l ++ r :: l')
    (ha : ∀ x ∈ l, x.apart r = true) (hr : r.matches w = true) :
    decode w w2 = .ok (r.instr w w2) := by
  rw [decode, ht, find_row (fun x hx => Row.not_matches_of_apart (ha x hx) hr) hr]

/-- The row at place `k` of the table, when every row before it fixes a bit differently. -/
theorem decode_of_place (k : Nat) {r : Row} {w w2 : Word} (hk : opcodeTable[k]? = some r)
    (ha : (opcodeTable.take k).all (fun x => x.apart r) = true) (hr : r.matches w = true) :
    decode w w2 = .ok (r.instr w w2) := by
  obtain ⟨hlt, hget⟩ := List.getElem?_eq_some_iff.mp hk
  refine decode_of_row (l := opcodeTable.take k) (l' := opcodeTable.drop (k + 1)) ?_
    (fun x hx => List.all_eq_true.mp ha x hx) hr
  rw [← hget, ← List.drop_eq_getElem_cons hlt, List.take_append_drop]

/-- The row at place `k` of the table, when the rows before it that fix no bit differently (the LD or
ST row of an LDD or STD word) do not match either. -/
theorem decode_of_place_not (k : Nat) {r : Row} {w w2 : Word} (hk : opcodeTable[k]? = some r)
    (ha : ∀ x ∈ opcodeTable.take k, x.apart r = true ∨ x.matches w = false)
    (hr : r.matches w = true) : decode w w2 = .ok (r.instr w w2) := by
  obtain ⟨hlt, hget⟩ := List.getElem?_eq_some_iff.mp hk
  have ht : opcodeTable = opcodeTable.take k ++ r :: opcodeTable.drop (k + 1) := by
    rw [← hget, ← List.drop_eq_getElem_cons hlt, List.take_append_drop]
  rw [decode, ht, find_row (fun x hx => ?_) hr]
  exact (ha x hx).elim (fun h => Row.not_matches_of_apart h hr) id

/-- A word that some row matches is decoded by the first such row. -/
theorem decode_eq_ok {w w2 : Word} {i : Instr} :
    decode w w2 = .ok i ↔
      ∃ r, opcodeTable.find? (fun r => r.matches w) = some r ∧ i = r.instr w w2 := by
  unfold decode
  split <;> rename_i h <;> simp [h, eq_comm]

/-! ### The layouts: fixed bits and fields -/


theorem encRR_mask (o : BitVec 6) (d r : Reg) : encRR o d r &&& 0xfc00 = o ++ 0#10 := by
  apply BitVec.eq_of_getLsbD_eq
  intro i hi
  interval_cases i <;>
    simp only [encRR, BitVec.getLsbD_and, BitVec.getLsbD_append] <;>
    simp [-BitVec.getLsbD_eq_getElem]

@[simp] theorem fD_encRR (o : BitVec 6) (d r : Reg) : fD (encRR o d r) = d := by
  apply BitVec.eq_of_getLsbD_eq
  intro i hi
  interval_cases i <;>
    simp only [encRR, fD, BitVec.getLsbD_extractLsb', BitVec.getLsbD_append] <;>
    simp [-BitVec.getLsbD_eq_getElem]

@[simp] theorem fR_encRR (o : BitVec 6) (d r : Reg) : fR (encRR o d r) = r := by
  apply BitVec.eq_of_getLsbD_eq
  intro i hi
  interval_cases i <;>
    simp only [encRR, fR, BitVec.getLsbD_extractLsb', BitVec.getLsbD_append] <;>
    simp [-BitVec.getLsbD_eq_getElem]

theorem encRK_mask (o : BitVec 4) (d : Reg) (K : Byte) : encRK o d K &&& 0xf000 = o ++ 0#12 := by
  apply BitVec.eq_of_getLsbD_eq
  intro i hi
  interval_cases i <;>
    simp only [encRK, BitVec.getLsbD_and, BitVec.getLsbD_append] <;>
    simp [-BitVec.getLsbD_eq_getElem]

@[simp] theorem fDhi_encRK (o : BitVec 4) (d : Reg) (K : Byte) : fDhi (encRK o d K) = 1#1 ++ d.extractLsb' 0 4 := by
  apply BitVec.eq_of_getLsbD_eq
  intro i hi
  interval_cases i <;>
    simp only [encRK, fDhi, BitVec.getLsbD_extractLsb', BitVec.getLsbD_append] <;>
    simp [-BitVec.getLsbD_eq_getElem]

@[simp] theorem fK8_encRK (o : BitVec 4) (d : Reg) (K : Byte) : fK8 (encRK o d K) = K := by
  apply BitVec.eq_of_getLsbD_eq
  intro i hi
  interval_cases i <;>
    simp only [encRK, fK8, BitVec.getLsbD_extractLsb', BitVec.getLsbD_append] <;>
    simp [-BitVec.getLsbD_eq_getElem]

theorem encR1_mask (o : BitVec 7) (l : BitVec 4) (d : Reg) : encR1 o l d &&& 0xfe0f = o ++ 0#5 ++ l := by
  apply BitVec.eq_of_getLsbD_eq
  intro i hi
  interval_cases i <;>
    simp only [encR1, BitVec.getLsbD_and, BitVec.getLsbD_append] <;>
    simp [-BitVec.getLsbD_eq_getElem]

@[simp] theorem fD_encR1 (o : BitVec 7) (l : BitVec 4) (d : Reg) : fD (encR1 o l d) = d := by
  apply BitVec.eq_of_getLsbD_eq
  intro i hi
  interval_cases i <;>
    simp only [encR1, fD, BitVec.getLsbD_extractLsb', BitVec.getLsbD_append] <;>
    simp [-BitVec.getLsbD_eq_getElem]

theorem encR4_mask (o : BitVec 8) (d r : Reg) : encR4 o d r &&& 0xff00 = o ++ 0#8 := by
  apply BitVec.eq_of_getLsbD_eq
  intro i hi
  interval_cases i <;>
    simp only [encR4, BitVec.getLsbD_and, BitVec.getLsbD_append] <;>
    simp [-BitVec.getLsbD_eq_getElem]

@[simp] theorem fDhi_encR4 (o : BitVec 8) (d r : Reg) : fDhi (encR4 o d r) = 1#1 ++ d.extractLsb' 0 4 := by
  apply BitVec.eq_of_getLsbD_eq
  intro i hi
  interval_cases i <;>
    simp only [encR4, fDhi, BitVec.getLsbD_extractLsb', BitVec.getLsbD_append] <;>
    simp [-BitVec.getLsbD_eq_getElem]

@[simp] theorem fRhi_encR4 (o : BitVec 8) (d r : Reg) : fRhi (encR4 o d r) = 1#1 ++ r.extractLsb' 0 4 := by
  apply BitVec.eq_of_getLsbD_eq
  intro i hi
  interval_cases i <;>
    simp only [encR4, fRhi, BitVec.getLsbD_extractLsb', BitVec.getLsbD_append] <;>
    simp [-BitVec.getLsbD_eq_getElem]

theorem encR3_mask (o : BitVec 8) (m l : BitVec 1) (d r : Reg) : encR3 o m l d r &&& 0xff88 = o ++ m ++ 0#3 ++ l ++ 0#3 := by
  apply BitVec.eq_of_getLsbD_eq
  intro i hi
  interval_cases i <;>
    simp only [encR3, BitVec.getLsbD_and, BitVec.getLsbD_append] <;>
    simp [-BitVec.getLsbD_eq_getElem]

@[simp] theorem fD3_encR3 (o : BitVec 8) (m l : BitVec 1) (d r : Reg) : fD3 (encR3 o m l d r) = 0b10#2 ++ d.extractLsb' 0 3 := by
  apply BitVec.eq_of_getLsbD_eq
  intro i hi
  interval_cases i <;>
    simp only [encR3, fD3, BitVec.getLsbD_extractLsb', BitVec.getLsbD_append] <;>
    simp [-BitVec.getLsbD_eq_getElem]

@[simp] theorem fR3_encR3 (o : BitVec 8) (m l : BitVec 1) (d r : Reg) : fR3 (encR3 o m l d r) = 0b10#2 ++ r.extractLsb' 0 3 := by
  apply BitVec.eq_of_getLsbD_eq
  intro i hi
  interval_cases i <;>
    simp only [encR3, fR3, BitVec.getLsbD_extractLsb', BitVec.getLsbD_append] <;>
    simp [-BitVec.getLsbD_eq_getElem]

theorem encW_mask (o : BitVec 8) (d r : Reg) : encW o d r &&& 0xff00 = o ++ 0#8 := by
  apply BitVec.eq_of_getLsbD_eq
  intro i hi
  interval_cases i <;>
    simp only [encW, BitVec.getLsbD_and, BitVec.getLsbD_append] <;>
    simp [-BitVec.getLsbD_eq_getElem]

@[simp] theorem fDeven_encW (o : BitVec 8) (d r : Reg) : fDeven (encW o d r) = d.extractLsb' 1 4 ++ 0#1 := by
  apply BitVec.eq_of_getLsbD_eq
  intro i hi
  interval_cases i <;>
    simp only [encW, fDeven, BitVec.getLsbD_extractLsb', BitVec.getLsbD_append] <;>
    simp [-BitVec.getLsbD_eq_getElem]

@[simp] theorem fReven_encW (o : BitVec 8) (d r : Reg) : fReven (encW o d r) = r.extractLsb' 1 4 ++ 0#1 := by
  apply BitVec.eq_of_getLsbD_eq
  intro i hi
  interval_cases i <;>
    simp only [encW, fReven, BitVec.getLsbD_extractLsb', BitVec.getLsbD_append] <;>
    simp [-BitVec.getLsbD_eq_getElem]

theorem encIW_mask (o : BitVec 8) (d : Reg) (K : BitVec 6) : encIW o d K &&& 0xff00 = o ++ 0#8 := by
  apply BitVec.eq_of_getLsbD_eq
  intro i hi
  interval_cases i <;>
    simp only [encIW, BitVec.getLsbD_and, BitVec.getLsbD_append] <;>
    simp [-BitVec.getLsbD_eq_getElem]

@[simp] theorem fDiw_encIW (o : BitVec 8) (d : Reg) (K : BitVec 6) : fDiw (encIW o d K) = 0b11#2 ++ d.extractLsb' 1 2 ++ 0#1 := by
  apply BitVec.eq_of_getLsbD_eq
  intro i hi
  interval_cases i <;>
    simp only [encIW, fDiw, BitVec.getLsbD_extractLsb', BitVec.getLsbD_append] <;>
    simp [-BitVec.getLsbD_eq_getElem]

@[simp] theorem fK6_encIW (o : BitVec 8) (d : Reg) (K : BitVec 6) : fK6 (encIW o d K) = K := by
  apply BitVec.eq_of_getLsbD_eq
  intro i hi
  interval_cases i <;>
    simp only [encIW, fK6, BitVec.getLsbD_extractLsb', BitVec.getLsbD_append] <;>
    simp [-BitVec.getLsbD_eq_getElem]

theorem encIO_mask (o : BitVec 5) (d : Reg) (A : BitVec 6) : encIO o d A &&& 0xf800 = o ++ 0#11 := by
  apply BitVec.eq_of_getLsbD_eq
  intro i hi
  interval_cases i <;>
    simp only [encIO, BitVec.getLsbD_and, BitVec.getLsbD_append] <;>
    simp [-BitVec.getLsbD_eq_getElem]

@[simp] theorem fD_encIO (o : BitVec 5) (d : Reg) (A : BitVec 6) : fD (encIO o d A) = d := by
  apply BitVec.eq_of_getLsbD_eq
  intro i hi
  interval_cases i <;>
    simp only [encIO, fD, BitVec.getLsbD_extractLsb', BitVec.getLsbD_append] <;>
    simp [-BitVec.getLsbD_eq_getElem]

@[simp] theorem fA6_encIO (o : BitVec 5) (d : Reg) (A : BitVec 6) : fA6 (encIO o d A) = A := by
  apply BitVec.eq_of_getLsbD_eq
  intro i hi
  interval_cases i <;>
    simp only [encIO, fA6, BitVec.getLsbD_extractLsb', BitVec.getLsbD_append] <;>
    simp [-BitVec.getLsbD_eq_getElem]

theorem encIOB_mask (o : BitVec 8) (A : BitVec 5) (b : BitVec 3) : encIOB o A b &&& 0xff00 = o ++ 0#8 := by
  apply BitVec.eq_of_getLsbD_eq
  intro i hi
  interval_cases i <;>
    simp only [encIOB, BitVec.getLsbD_and, BitVec.getLsbD_append] <;>
    simp [-BitVec.getLsbD_eq_getElem]

@[simp] theorem fA5_encIOB (o : BitVec 8) (A : BitVec 5) (b : BitVec 3) : fA5 (encIOB o A b) = A := by
  apply BitVec.eq_of_getLsbD_eq
  intro i hi
  interval_cases i <;>
    simp only [encIOB, fA5, BitVec.getLsbD_extractLsb', BitVec.getLsbD_append] <;>
    simp [-BitVec.getLsbD_eq_getElem]

@[simp] theorem fb_encIOB (o : BitVec 8) (A : BitVec 5) (b : BitVec 3) : fb (encIOB o A b) = b := by
  apply BitVec.eq_of_getLsbD_eq
  intro i hi
  interval_cases i <;>
    simp only [encIOB, fb, BitVec.getLsbD_extractLsb', BitVec.getLsbD_append] <;>
    simp [-BitVec.getLsbD_eq_getElem]

theorem encRB_mask (o : BitVec 7) (d : Reg) (b : BitVec 3) : encRB o d b &&& 0xfe08 = o ++ 0#9 := by
  apply BitVec.eq_of_getLsbD_eq
  intro i hi
  interval_cases i <;>
    simp only [encRB, BitVec.getLsbD_and, BitVec.getLsbD_append] <;>
    simp [-BitVec.getLsbD_eq_getElem]

@[simp] theorem fD_encRB (o : BitVec 7) (d : Reg) (b : BitVec 3) : fD (encRB o d b) = d := by
  apply BitVec.eq_of_getLsbD_eq
  intro i hi
  interval_cases i <;>
    simp only [encRB, fD, BitVec.getLsbD_extractLsb', BitVec.getLsbD_append] <;>
    simp [-BitVec.getLsbD_eq_getElem]

@[simp] theorem fb_encRB (o : BitVec 7) (d : Reg) (b : BitVec 3) : fb (encRB o d b) = b := by
  apply BitVec.eq_of_getLsbD_eq
  intro i hi
  interval_cases i <;>
    simp only [encRB, fb, BitVec.getLsbD_extractLsb', BitVec.getLsbD_append] <;>
    simp [-BitVec.getLsbD_eq_getElem]

theorem encBR_mask (o : BitVec 6) (k : BitVec 7) (n : BitVec 3) : encBR o k n &&& 0xfc00 = o ++ 0#10 := by
  apply BitVec.eq_of_getLsbD_eq
  intro i hi
  interval_cases i <;>
    simp only [encBR, BitVec.getLsbD_and, BitVec.getLsbD_append] <;>
    simp [-BitVec.getLsbD_eq_getElem]

@[simp] theorem fk7_encBR (o : BitVec 6) (k : BitVec 7) (n : BitVec 3) : fk7 (encBR o k n) = k := by
  apply BitVec.eq_of_getLsbD_eq
  intro i hi
  interval_cases i <;>
    simp only [encBR, fk7, BitVec.getLsbD_extractLsb', BitVec.getLsbD_append] <;>
    simp [-BitVec.getLsbD_eq_getElem]

@[simp] theorem fb_encBR (o : BitVec 6) (k : BitVec 7) (n : BitVec 3) : fb (encBR o k n) = n := by
  apply BitVec.eq_of_getLsbD_eq
  intro i hi
  interval_cases i <;>
    simp only [encBR, fb, BitVec.getLsbD_extractLsb', BitVec.getLsbD_append] <;>
    simp [-BitVec.getLsbD_eq_getElem]

theorem encREL_mask (o : BitVec 4) (k : BitVec 12) : encREL o k &&& 0xf000 = o ++ 0#12 := by
  apply BitVec.eq_of_getLsbD_eq
  intro i hi
  interval_cases i <;>
    simp only [encREL, BitVec.getLsbD_and, BitVec.getLsbD_append] <;>
    simp [-BitVec.getLsbD_eq_getElem]

@[simp] theorem fk12_encREL (o : BitVec 4) (k : BitVec 12) : fk12 (encREL o k) = k := by
  apply BitVec.eq_of_getLsbD_eq
  intro i hi
  interval_cases i <;>
    simp only [encREL, fk12, BitVec.getLsbD_extractLsb', BitVec.getLsbD_append] <;>
    simp [-BitVec.getLsbD_eq_getElem]

theorem encABS_mask (o : BitVec 7) (l : BitVec 3) (k : BitVec 22) : encABS o l k &&& 0xfe0e = o ++ 0#5 ++ l ++ 0#1 := by
  apply BitVec.eq_of_getLsbD_eq
  intro i hi
  interval_cases i <;>
    simp only [encABS, BitVec.getLsbD_and, BitVec.getLsbD_append] <;>
    simp [-BitVec.getLsbD_eq_getElem]

@[simp] theorem fk22_encABS (o : BitVec 7) (l : BitVec 3) (k : BitVec 22) : fk22 (encABS o l k) (k.extractLsb' 0 16) = k := by
  apply BitVec.eq_of_getLsbD_eq
  intro i hi
  interval_cases i <;>
    simp only [encABS, fk22, BitVec.getLsbD_extractLsb', BitVec.getLsbD_append] <;>
    simp [-BitVec.getLsbD_eq_getElem]

theorem encQ_mask (st y : BitVec 1) (d : Reg) (q : BitVec 6) : encQ st y d q &&& 0xd208 = 0b100000#6 ++ st ++ 0#5 ++ y ++ 0#3 := by
  apply BitVec.eq_of_getLsbD_eq
  intro i hi
  interval_cases i <;>
    simp only [encQ, BitVec.getLsbD_and, BitVec.getLsbD_append] <;>
    simp [-BitVec.getLsbD_eq_getElem]

@[simp] theorem fD_encQ (st y : BitVec 1) (d : Reg) (q : BitVec 6) : fD (encQ st y d q) = d := by
  apply BitVec.eq_of_getLsbD_eq
  intro i hi
  interval_cases i <;>
    simp only [encQ, fD, BitVec.getLsbD_extractLsb', BitVec.getLsbD_append] <;>
    simp [-BitVec.getLsbD_eq_getElem]

@[simp] theorem fq_encQ (st y : BitVec 1) (d : Reg) (q : BitVec 6) : fq (encQ st y d q) = q := by
  apply BitVec.eq_of_getLsbD_eq
  intro i hi
  interval_cases i <;>
    simp only [encQ, fq, BitVec.getLsbD_extractLsb', BitVec.getLsbD_append] <;>
    simp [-BitVec.getLsbD_eq_getElem]

theorem encS_mask (o : BitVec 9) (n : BitVec 3) : encS o n &&& 0xff8f = o ++ 0#3 ++ 0b1000#4 := by
  apply BitVec.eq_of_getLsbD_eq
  intro i hi
  interval_cases i <;>
    simp only [encS, BitVec.getLsbD_and, BitVec.getLsbD_append] <;>
    simp [-BitVec.getLsbD_eq_getElem]

@[simp] theorem fs_encS (o : BitVec 9) (n : BitVec 3) : fs (encS o n) = n := by
  apply BitVec.eq_of_getLsbD_eq
  intro i hi
  interval_cases i <;>
    simp only [encS, fs, BitVec.getLsbD_extractLsb', BitVec.getLsbD_append] <;>
    simp [-BitVec.getLsbD_eq_getElem]

theorem encK4_mask (o : BitVec 8) (l K : BitVec 4) : encK4 o l K &&& 0xff0f = o ++ 0#4 ++ l := by
  apply BitVec.eq_of_getLsbD_eq
  intro i hi
  interval_cases i <;>
    simp only [encK4, BitVec.getLsbD_and, BitVec.getLsbD_append] <;>
    simp [-BitVec.getLsbD_eq_getElem]

@[simp] theorem fK4_encK4 (o : BitVec 8) (l K : BitVec 4) : fK4 (encK4 o l K) = K := by
  apply BitVec.eq_of_getLsbD_eq
  intro i hi
  interval_cases i <;>
    simp only [encK4, fK4, BitVec.getLsbD_extractLsb', BitVec.getLsbD_append] <;>
    simp [-BitVec.getLsbD_eq_getElem]

/-- A word that matches an LD or ST row of Y or Z has displacement 0 (30_encoding.md R154). -/
theorem fq_eq_zero {w : Word} {b : Word} (h : w &&& 0xfe0f = b) (hb : b &&& 0x2c07 = 0) :
    fq w = 0 := by
  have key : w &&& 0x2c07 = 0 := by
    rw [← hb, ← h, BitVec.and_assoc]; rfl
  have bit := fun j => congrArg (fun v : Word => v.getLsbD j) key
  apply BitVec.eq_of_getLsbD_eq
  intro i hi
  simp only [BitVec.getLsbD_and] at bit
  interval_cases i <;>
    simp only [fq, BitVec.getLsbD_append, BitVec.getLsbD_extractLsb'] <;>
    simp [-BitVec.getLsbD_eq_getElem]
  · simpa [-BitVec.getLsbD_eq_getElem] using bit 0
  · simpa [-BitVec.getLsbD_eq_getElem] using bit 1
  · simpa [-BitVec.getLsbD_eq_getElem] using bit 2
  · simpa [-BitVec.getLsbD_eq_getElem] using bit 10
  · simpa [-BitVec.getLsbD_eq_getElem] using bit 11
  · simpa [-BitVec.getLsbD_eq_getElem] using bit 13

/-! ### The register ranges -/

theorem hiReg_eq {d : Reg} (h : hiReg d = true) : (1#1 ++ d.extractLsb' 0 4 : Reg) = d := by
  revert h; revert d; decide

theorem midReg_eq {d : Reg} (h : midReg d = true) : (0b10#2 ++ d.extractLsb' 0 3 : Reg) = d := by
  revert h; revert d; decide

theorem evenReg_eq {d : Reg} (h : evenReg d = true) : (d.extractLsb' 1 4 ++ 0#1 : Reg) = d := by
  revert h; revert d; decide

theorem wordReg_eq {d : Reg} (h : wordReg d = true) :
    (0b11#2 ++ d.extractLsb' 1 2 ++ 0#1 : Reg) = d := by
  revert h; revert d; decide

/-! ### Two-word forms (30_encoding.md R158) -/

/-- Only words whose top 7 bits are those of LDS, STS, or JMP and CALL start two-word forms. -/
theorem twoWord_eq (w : Word) : twoWord w =
    ((w.extractLsb' 9 7 == 0b1001000#7 || w.extractLsb' 9 7 == 0b1001001#7) &&
        w.extractLsb' 0 4 == 0b0000#4 ||
      w.extractLsb' 9 7 == 0b1001010#7 && w.extractLsb' 2 2 == 0b11#2) := by
  have split4 : (w &&& 0xfe0f : Word) = w.extractLsb' 9 7 ++ 0#5 ++ w.extractLsb' 0 4 := by
    apply BitVec.eq_of_getLsbD_eq
    intro i hi
    interval_cases i <;>
      simp only [BitVec.getLsbD_and, BitVec.getLsbD_append, BitVec.getLsbD_extractLsb'] <;>
      simp [-BitVec.getLsbD_eq_getElem]
  have split3 : (w &&& 0xfe0e : Word) =
      w.extractLsb' 9 7 ++ 0#5 ++ w.extractLsb' 2 2 ++ w.extractLsb' 1 1 ++ 0#1 := by
    apply BitVec.eq_of_getLsbD_eq
    intro i hi
    interval_cases i <;>
      simp only [BitVec.getLsbD_and, BitVec.getLsbD_append, BitVec.getLsbD_extractLsb'] <;>
      simp [-BitVec.getLsbD_eq_getElem]
  have all : ∀ (t : BitVec 7) (l : BitVec 4),
      ((t ++ 0#5 ++ l : Word) == 0x9000 || (t ++ 0#5 ++ l : Word) == 0x9200) =
        ((t == 0b1001000#7 || t == 0b1001001#7) && l == 0b0000#4) := by decide
  have all' : ∀ (t : BitVec 7) (h : BitVec 2) (m : BitVec 1),
      ((t ++ 0#5 ++ h ++ m ++ 0#1 : Word) == 0x940c ||
        (t ++ 0#5 ++ h ++ m ++ 0#1 : Word) == 0x940e) = (t == 0b1001010#7 && h == 0b11#2) := by
    decide
  unfold twoWord
  rw [split4, split3, Bool.or_assoc, all, all']

/-- A word with other top bits starts no two-word form. -/
theorem twoWord_of_top {w : Word} (h : ∀ t ∈ [0b1001000#7, 0b1001001#7, 0b1001010#7],
    w.extractLsb' 9 7 ≠ t) : twoWord w = false := by
  rw [twoWord_eq]
  simp only [List.mem_cons, List.not_mem_nil, or_false, forall_eq_or_imp, forall_eq] at h
  simp [h.1, h.2.1, h.2.2]

end Sys2Proof
end

