-- ==== Sys2Proof/Laws/Invariant.lean ====
section
/-! SUPPORT. Each shared operation keeps the invariant of the machine. -/

namespace Sys2Proof.Machine

variable {s t : State}

/-- The invariant reads only the build, the data space, the event chain and the pending set. -/
theorem Inv.of (hi : Inv s) (hb : SameBuild s t) (hd : t.data.wf) (hd' : t.data.below s.cfg.dataSize)
    (he : eventsSorted t.events) (hp : pendingSorted t.pending) : Inv t where
  cfg := by rw [hb.cfg]; exact hi.cfg
  data := hd
  dataBelow := by rw [hb.cfg]; exact hd'
  prog := by rw [hb.prog]; exact hi.prog
  progBelow := by rw [hb.prog, hb.cfg]; exact hi.progBelow
  readHooks := by rw [hb.readHooks, hb.cfg]; exact hi.readHooks
  writeHooks := by rw [hb.writeHooks, hb.cfg]; exact hi.writeHooks
  events := he
  pending := hp

/-- Every data space holds the registers and the core-owned bytes. -/
theorem Inv.dataSize (hi : Inv s) : 0x60 ≤ s.cfg.dataSize := by
  have := hi.cfg.2.2.1; simp only [Config.dataSize]; omega

theorem Inv.setByte (hi : Inv s) {a : Nat} (ha : a < s.cfg.dataSize) (v : Byte) :
    Inv (s.setByte a v) :=
  hi.of ⟨rfl, rfl, rfl, rfl, rfl, rfl⟩ (Memory.wf_write hi.data a v)
    (Memory.below_write hi.dataBelow ha v) hi.events hi.pending

theorem Inv.setReg (hi : Inv s) (d : Reg) (v : Byte) : Inv (s.setReg d v) :=
  hi.setByte (by have := reg_lt d; have := hi.dataSize; omega) v

theorem Inv.setPair (hi : Inv s) {a : Nat} (ha : a + 1 < s.cfg.dataSize) (v : Word) :
    Inv (s.setPair a v) := (hi.setByte (by omega) _).setByte (by exact ha) _

theorem Inv.setSreg (hi : Inv s) (v : Byte) : Inv (s.setSreg v) :=
  hi.setByte (by have := hi.dataSize; simp only [sregAddr]; omega) v

theorem Inv.setSp (hi : Inv s) (v : Int) : Inv (s.setSp v) :=
  hi.setPair (by have := hi.dataSize; simp only [spAddr]; omega) _

/-- `pc`, `cycles` and the model's own fields are free of the invariant. -/
theorem Inv.finishAt (hi : Inv s) (p : Int) (n : Nat) : Inv (s.finishAt p n) :=
  hi.of ⟨rfl, rfl, rfl, rfl, rfl, rfl⟩ hi.data hi.dataBelow hi.events hi.pending

theorem Inv.finish (hi : Inv s) (n : Nat) : Inv (s.finish n) := hi.finishAt _ n

theorem Inv.noteCall (hi : Inv s) (c : EnvCall) : Inv (s.noteCall c) :=
  hi.of ⟨rfl, rfl, rfl, rfl, rfl, rfl⟩ hi.data hi.dataBelow hi.events hi.pending

theorem Inv.start (hi : Inv s) : Inv s.start where
  __ := hi

theorem Inv.useReply (hi : Inv s) : Inv s.useReply :=
  hi.of ⟨rfl, rfl, rfl, rfl, rfl, rfl⟩ hi.data hi.dataBelow hi.events hi.pending

theorem Inv.withEvents (hi : Inv s) {es : List ClockEvent} (he : eventsSorted es) :
    Inv { s with events := es } :=
  hi.of ⟨rfl, rfl, rfl, rfl, rfl, rfl⟩ hi.data hi.dataBelow he hi.pending

theorem Inv.withPending (hi : Inv s) {ps : List Descriptor} (hp : pendingSorted ps) :
    Inv { s with pending := ps } :=
  hi.of ⟨rfl, rfl, rfl, rfl, rfl, rfl⟩ hi.data hi.dataBelow hi.events hp

/-! ### The stack and dispatch -/

theorem Inv.rawWrite (hi : Inv s) {a : Int} {v : Byte} (h : rawWrite a v s = .ok t) : Inv t := by
  obtain ⟨ha, rfl⟩ := rawWrite_eq_ok.mp h
  exact hi.setByte (by omega) v

theorem Inv.push1 (hi : Inv s) {v : Byte} (h : push1 v s = .ok t) : Inv t := by
  obtain ⟨ha, rfl⟩ := push1_eq_ok.mp h
  exact (hi.setByte ha v).setSp _

theorem Inv.pop1 (hi : Inv s) {p : Byte × State} (h : pop1 s = .ok p) : Inv p.2 := by
  obtain ⟨_, rfl⟩ := pop1_eq_ok.mp h
  exact hi.setSp _

theorem Inv.pushPC (hi : Inv s) {v : Nat} (h : pushPC v s = .ok t) : Inv t := by
  obtain ⟨ha, rfl⟩ := pushPC_eq_ok.mp h
  refine Inv.setSp ?_ _
  simp only [pushBytes]
  split
  · exact ((hi.setByte (by omega) _).setByte (by simp only [setByte_cfg]; omega) _).setByte
      (by simp only [setByte_cfg]; omega) _
  · exact (hi.setByte (by omega) _).setByte (by simp only [setByte_cfg]; omega) _

theorem Inv.dispatch (hi : Inv s) {a : Nat} (h : dispatch a s = .ok t) : Inv t := by
  obtain ⟨s1, h1, rfl⟩ := dispatch_eq_ok.mp h
  have := (hi.pushPC h1).setSreg (s1.sreg &&& 0x7F)
  exact this.of ⟨rfl, rfl, rfl, rfl, rfl, rfl⟩ this.data this.dataBelow this.events this.pending

/-! ### The scheduler and the interrupt controller -/

theorem Inv.addClockEvent (hi : Inv s) {now id : Nat} {n : Int}
    {p : Nat × State} (h : addClockEvent now id n s = .ok p) : Inv p.2 := by
  obtain ⟨_, rfl⟩ := addClockEvent_eq_ok.mp h
  exact hi.withEvents (eventsSorted_insertEvent _ _ hi.events)

theorem Inv.clearClockEvent (hi : Inv s) {id : Nat} {p : Bool × State}
    (h : clearClockEvent id s = .ok p) : Inv p.2 := by
  obtain ⟨_, rfl⟩ := clearClockEvent_eq_ok.mp h
  exact hi.withEvents (eventsSorted_removeEvent _ hi.events)

theorem Inv.updateClockEvent (hi : Inv s) {now id : Nat} {n : Int} {p : Bool × State}
    (h : updateClockEvent now id n s = .ok p) : Inv p.2 := by
  obtain ⟨_, rfl⟩ := updateClockEvent_eq_ok.mp h
  have h1 := eventsSorted_removeEvent id hi.events
  refine hi.withEvents ?_
  split
  · exact eventsSorted_insertEvent _ _ h1
  · exact h1

theorem Inv.queueInterrupt (hi : Inv s) {q : Descriptor} (h : queueInterrupt q s = .ok t) :
    Inv t := by
  obtain ⟨_, rfl⟩ := queueInterrupt_eq_ok.mp h
  exact hi.withPending (pendingSorted_insertPending q hi.pending)

theorem Inv.clearInterrupt (hi : Inv s) {q : Descriptor} {b : Bool}
    (h : clearInterrupt q b s = .ok t) : Inv t := by
  obtain ⟨hr, _, rfl⟩ := clearInterrupt_eq_ok.mp h
  have hp := pendingSorted_filter (fun x => x.vectorAddress != q.vectorAddress) hi.pending
  cases b
  · exact hi.withPending hp
  · exact (hi.setByte (hr rfl) _).withPending hp

theorem Inv.setInterruptFlag (hi : Inv s) {q : Descriptor} (h : setInterruptFlag q s = .ok t) :
    Inv t := by
  obtain ⟨hr, _, h⟩ := setInterruptFlag_eq_ok.mp h
  have h1 := hi.setByte hr (raisedFlag q (s.byte q.flagRegister))
  dsimp only at h
  split at h
  · rw [h.2]; exact h1.withPending (pendingSorted_insertPending q hi.pending)
  · rw [h]; exact h1

theorem Inv.updateInterruptEnable (hi : Inv s) {q : Descriptor} {v : Byte}
    (h : updateInterruptEnable q v s = .ok t) : Inv t := by
  have h := updateInterruptEnable_eq_ok.mp h
  split at h
  · obtain ⟨_, h⟩ := h
    split at h
    · rw [h.2]; exact hi.withPending (pendingSorted_insertPending q hi.pending)
    · rw [h]; exact hi
  · rw [h.2]
    exact hi.withPending (pendingSorted_filter _ hi.pending)

theorem Inv.clearInterruptByFlag (hi : Inv s) {q : Descriptor} {v : Byte}
    (h : clearInterruptByFlag q v s = .ok t) : Inv t := by
  have h := clearInterruptByFlag_eq_ok.mp h
  split at h
  · obtain ⟨hr, _, rfl⟩ := h
    exact (hi.setByte hr _).withPending (pendingSorted_filter _ hi.pending)
  · rw [h]; exact hi

theorem Inv.dispatchPending (hi : Inv s) (h : dispatchPending s = .ok t) : Inv t := by
  obtain ⟨_, h⟩ := dispatchPending_eq_ok.mp h
  split at h
  · obtain ⟨s1, h1, h2⟩ := h
    have h3 := hi.dispatch h1
    split at h2
    · exact h3.clearInterrupt h2
    · rw [h2]; exact h3
  · rw [h]; exact hi

/-! ### The environment and the bus -/

theorem Inv.envOp (hi : Inv s) {now : Nat} {o : EnvOp} (h : envOp now o s = .ok t) : Inv t := by
  cases o with
  | addClockEvent id n => obtain ⟨p, hp, rfl⟩ := map_eq_ok.mp h; exact hi.addClockEvent hp
  | clearClockEvent id => obtain ⟨p, hp, rfl⟩ := map_eq_ok.mp h; exact hi.clearClockEvent hp
  | updateClockEvent id n => obtain ⟨p, hp, rfl⟩ := map_eq_ok.mp h; exact hi.updateClockEvent hp
  | setInterruptFlag q => exact hi.setInterruptFlag (contract_eq_ok.mp h).2
  | updateInterruptEnable q v => exact hi.updateInterruptEnable (contract_eq_ok.mp h).2
  | queueInterrupt q => exact hi.queueInterrupt (contract_eq_ok.mp h).2
  | clearInterrupt q b => exact hi.clearInterrupt (contract_eq_ok.mp h).2
  | clearInterruptByFlag q v => exact hi.clearInterruptByFlag (contract_eq_ok.mp h).2
  | rawWrite a v => exact hi.rawWrite (contract_eq_ok.mp h).2

theorem Inv.runScript (hi : Inv s) {now : Nat} {sc : EnvScript}
    (h : runScript now sc s = .ok t) : Inv t :=
  runScript_induct (fun s t => Inv s → Inv t) (fun _ h => h) (fun h h' hi => h' (h hi))
    (fun h hi => hi.envOp h) (fun h hi => hi.rawWrite (contract_eq_ok.mp h).2)
    (fun _ _ hi => hi.noteCall _) now sc h hi

theorem Inv.envCall (hi : Inv s) {c : EnvCall} {slack : Byte → Nat} {p : EnvReply × State}
    (h : envCall c slack s = .ok p) : Inv p.2 :=
  (hi.useReply.noteCall c).runScript (envCall_eq_ok.mp h).2

theorem Inv.envCallback (hi : Inv s) {id : Nat} (h : envCallback id s = .ok t) : Inv t := by
  obtain ⟨p, hp, rfl⟩ := map_eq_ok.mp h
  exact hi.envCall hp

theorem Inv.envWatchdogReset (hi : Inv s) (h : envWatchdogReset s = .ok t) : Inv t := by
  unfold Machine.envWatchdogReset at h
  split at h
  · obtain ⟨p, hp, rfl⟩ := map_eq_ok.mp h
    exact hi.envCall hp
  · cases h; exact hi.noteCall _

theorem Inv.busRead (hi : Inv s) {slack : Byte → Nat} {a : Nat} {p : Byte × State}
    (h : busRead slack a s = .ok p) : Inv p.2 := by
  obtain ⟨_, h⟩ := busRead_eq_ok.mp h
  split at h
  · exact hi.envCall h.2
  · rw [h]; exact hi

theorem Inv.busWrite (hi : Inv s) {slack a : Nat} {v mask : Byte}
    (h : busWrite slack a v mask s = .ok t) : Inv t := by
  obtain ⟨ha, h⟩ := busWrite_eq_ok.mp h
  split at h
  · obtain ⟨s1, h1, rfl⟩ := h
    have h2 := hi.envCall h1
    split
    · exact h2
    · exact h2.setByte (by rw [(envCall_keeps h1).1.build.cfg]; exact ha) v
  · rw [h]; exact hi.setByte ha v

end Sys2Proof.Machine
end

