-- ==== Sys2Proof/Laws/Operands.lean ====
section
/-! SUPPORT. What the operand forms do: the state they answer with when no hook is at the address, the
fault when the address is out of range or the operands clash, and what they keep in every case
(43_transfer.md, 30_encoding.md R159, R167). -/

namespace Sys2Proof.Machine

variable {s t : State}

/-! ### Pointers -/

@[simp] theorem base_lt (p : Ptr) : p.base + 1 < 32 := by
  cases p <;> decide

theorem ptr_lt (s : State) (p : Ptr) : (s.ptr p).toNat < 65536 := (s.ptr p).isLt

theorem clash_iff {p : Ptr} {d : Reg} :
    clash p d = true ↔ d.toNat = p.base ∨ d.toNat = p.base + 1 := by simp [clash]

theorem unlessClash_eq_ok {p : Ptr} {d : Reg} {r : Except Fault State} :
    unlessClash p d r = .ok t ↔ clash p d = false ∧ r = .ok t := by
  unfold unlessClash; cases clash p d <;> simp

theorem unlessClash_of_not {p : Ptr} {d : Reg} {r : Except Fault State} (h : clash p d = false) :
    unlessClash p d r = r := by simp [unlessClash, h]

theorem unlessClash_of {p : Ptr} {d : Reg} {r : Except Fault State} (h : clash p d = true) :
    unlessClash p d r = .error .undefinedCombination := by simp [unlessClash, h]

@[simp] theorem setPair_readHooked (a b : Nat) (v : Word) :
    (s.setPair a v).readHooked b = s.readHooked b := rfl
@[simp] theorem setPair_writeHooked (a b : Nat) (v : Word) :
    (s.setPair a v).writeHooked b = s.writeHooked b := rfl

/-- A data register that is no byte of the pointer keeps its value when the pointer is updated. -/
theorem reg_setPair_base {p : Ptr} {d : Reg} (v : Word) (h : clash p d = false) :
    (s.setPair p.base v).reg d = s.reg d := by
  have h' : ¬(d.toNat = p.base ∨ d.toNat = p.base + 1) := by simp [← clash_iff, h]
  simp only [not_or] at h'
  rw [reg_def, reg_def, byte_setPair, if_neg h'.1, if_neg h'.2]

/-! ### Loads -/

theorem loadFrom_eq_ok {n a : Nat} {d : Reg} :
    loadFrom n a d s = .ok t ↔ ∃ p, busRead (fun _ => n) a s = .ok p ∧ t = p.2.setReg d p.1 := by
  simp only [loadFrom, bind_eq_ok, pure, Except.pure, Except.ok.injEq]
  exact ⟨fun ⟨p, h, e⟩ => ⟨p, h, e.symm⟩, fun ⟨p, h, e⟩ => ⟨p, h, e.symm⟩⟩

theorem loadFrom_plain {n a : Nat} (d : Reg) (ha : a < s.cfg.dataSize)
    (hh : s.readHooked a = false) : loadFrom n a d s = .ok (s.setReg d (s.byte a)) :=
  loadFrom_eq_ok.mpr ⟨_, busRead_plain ha hh, rfl⟩

theorem loadFrom_out {n a : Nat} (d : Reg) (ha : s.cfg.dataSize ≤ a) :
    loadFrom n a d s = .error (.dataOutOfRange a) := by
  simp only [loadFrom, busRead_out ha]; rfl

theorem loadPlain_plain {p : Ptr} (d : Reg) (ha : (s.ptr p).toNat < s.cfg.dataSize)
    (hh : s.readHooked (s.ptr p).toNat = false) :
    loadPlain p d s = .ok ((s.setReg d (s.byte (s.ptr p).toNat)).finish 1) := by
  simp only [loadPlain, loadFrom_plain d ha hh]; rfl

theorem loadPostInc_plain {p : Ptr} {d : Reg} (hc : clash p d = false)
    (ha : (s.ptr p).toNat < s.cfg.dataSize) (hh : s.readHooked (s.ptr p).toNat = false) :
    loadPostInc p d s =
      .ok (((s.setReg d (s.byte (s.ptr p).toNat)).setPair p.base (s.ptr p + 1)).finish 1) := by
  simp only [loadPostInc, unlessClash_of_not hc, loadFrom_plain d ha hh]; rfl

theorem loadPreDec_plain {p : Ptr} {d : Reg} (hc : clash p d = false)
    (ha : (s.ptr p - 1).toNat < s.cfg.dataSize) (hh : s.readHooked (s.ptr p - 1).toNat = false) :
    loadPreDec p d s =
      (let s0 := s.setPair p.base (s.ptr p - 1)
       .ok ((s0.setReg d (s0.byte (s.ptr p - 1).toNat)).finish 2)) := by
  have ha' : (s.ptr p - 1).toNat < (s.setPair p.base (s.ptr p - 1)).cfg.dataSize := ha
  simp only [loadPreDec, unlessClash_of_not hc, loadFrom_plain d ha' hh]; rfl

theorem loadDisp_plain {p : Ptr} (d : Reg) {q : BitVec 6}
    (ha : (s.ptr p).toNat + q.toNat < s.cfg.dataSize)
    (hh : s.readHooked ((s.ptr p).toNat + q.toNat) = false) :
    loadDisp p d q s = .ok ((s.setReg d (s.byte ((s.ptr p).toNat + q.toNat))).finish 1) := by
  simp only [loadDisp, loadFrom_plain d ha hh]; rfl

theorem loadPlain_out {p : Ptr} (d : Reg) (ha : s.cfg.dataSize ≤ (s.ptr p).toNat) :
    loadPlain p d s = .error (.dataOutOfRange (s.ptr p).toNat) := by
  simp only [loadPlain, loadFrom_out d ha]; rfl

theorem loadPostInc_out {p : Ptr} {d : Reg} (hc : clash p d = false)
    (ha : s.cfg.dataSize ≤ (s.ptr p).toNat) :
    loadPostInc p d s = .error (.dataOutOfRange (s.ptr p).toNat) := by
  simp only [loadPostInc, unlessClash_of_not hc, loadFrom_out d ha]; rfl

theorem loadPreDec_out {p : Ptr} {d : Reg} (hc : clash p d = false)
    (ha : s.cfg.dataSize ≤ (s.ptr p - 1).toNat) :
    loadPreDec p d s = .error (.dataOutOfRange (s.ptr p - 1).toNat) := by
  have ha' : (s.setPair p.base (s.ptr p - 1)).cfg.dataSize ≤ (s.ptr p - 1).toNat := ha
  simp only [loadPreDec, unlessClash_of_not hc, loadFrom_out d ha']; rfl

theorem loadDisp_out {p : Ptr} (d : Reg) {q : BitVec 6}
    (ha : s.cfg.dataSize ≤ (s.ptr p).toNat + q.toNat) :
    loadDisp p d q s = .error (.dataOutOfRange ((s.ptr p).toNat + q.toNat : Nat)) := by
  simp only [loadDisp, loadFrom_out d ha]; rfl

/-! ### Stores -/

theorem storePlain_plain {p : Ptr} (r : Reg) (ha : (s.ptr p).toNat < s.cfg.dataSize)
    (hh : s.writeHooked (s.ptr p).toNat = false) :
    storePlain p r s = .ok ((s.setByte (s.ptr p).toNat (s.reg r)).finish 1) := by
  simp only [storePlain, busWrite_plain ha hh]; rfl

theorem storePostInc_plain {p : Ptr} {r : Reg} (hc : clash p r = false)
    (ha : (s.ptr p).toNat < s.cfg.dataSize) (hh : s.writeHooked (s.ptr p).toNat = false) :
    storePostInc p r s =
      .ok (((s.setByte (s.ptr p).toNat (s.reg r)).setPair p.base (s.ptr p + 1)).finish 1) := by
  simp only [storePostInc, unlessClash_of_not hc, busWrite_plain ha hh]; rfl

theorem storePreDec_plain {p : Ptr} {r : Reg} (hc : clash p r = false)
    (ha : (s.ptr p - 1).toNat < s.cfg.dataSize) (hh : s.writeHooked (s.ptr p - 1).toNat = false) :
    storePreDec p r s =
      .ok (((s.setPair p.base (s.ptr p - 1)).setByte (s.ptr p - 1).toNat (s.reg r)).finish 1) := by
  have ha' : (s.ptr p - 1).toNat < (s.setPair p.base (s.ptr p - 1)).cfg.dataSize := ha
  simp only [storePreDec, unlessClash_of_not hc, busWrite_plain ha' hh, reg_setPair_base _ hc]; rfl

theorem storeDisp_plain {p : Ptr} {q : BitVec 6} (r : Reg)
    (ha : (s.ptr p).toNat + q.toNat < s.cfg.dataSize)
    (hh : s.writeHooked ((s.ptr p).toNat + q.toNat) = false) :
    storeDisp p q r s =
      .ok ((s.setByte ((s.ptr p).toNat + q.toNat) (s.reg r)).finish 1) := by
  simp only [storeDisp, busWrite_plain ha hh]; rfl

theorem storePlain_out {p : Ptr} (r : Reg) (ha : s.cfg.dataSize ≤ (s.ptr p).toNat) :
    storePlain p r s = .error (.dataOutOfRange (s.ptr p).toNat) := by
  simp only [storePlain, busWrite_out ha]; rfl

theorem storePostInc_out {p : Ptr} {r : Reg} (hc : clash p r = false)
    (ha : s.cfg.dataSize ≤ (s.ptr p).toNat) :
    storePostInc p r s = .error (.dataOutOfRange (s.ptr p).toNat) := by
  simp only [storePostInc, unlessClash_of_not hc, busWrite_out ha]; rfl

theorem storePreDec_out {p : Ptr} {r : Reg} (hc : clash p r = false)
    (ha : s.cfg.dataSize ≤ (s.ptr p - 1).toNat) :
    storePreDec p r s = .error (.dataOutOfRange (s.ptr p - 1).toNat) := by
  have ha' : (s.setPair p.base (s.ptr p - 1)).cfg.dataSize ≤ (s.ptr p - 1).toNat := ha
  simp only [storePreDec, unlessClash_of_not hc, busWrite_out ha']; rfl

theorem storeDisp_out {p : Ptr} {q : BitVec 6} (r : Reg)
    (ha : s.cfg.dataSize ≤ (s.ptr p).toNat + q.toNat) :
    storeDisp p q r s = .error (.dataOutOfRange ((s.ptr p).toNat + q.toNat : Nat)) := by
  simp only [storeDisp, busWrite_out ha]; rfl

/-! ### Read-modify-write, program memory, calls and skips -/

theorem exchangeZ_plain (f : Byte → Byte → Byte) (d : Reg)
    (ha : (s.ptr .z).toNat < s.cfg.dataSize) (hr : s.readHooked (s.ptr .z).toNat = false)
    (hw : s.writeHooked (s.ptr .z).toNat = false) :
    exchangeZ f d s =
      (let v := s.byte (s.ptr .z).toNat
       .ok (((s.setByte (s.ptr .z).toNat (f v (s.reg d))).setReg d v).finish 1)) := by
  simp only [exchangeZ, busRead_plain ha hr, bind_ok, busWrite_plain ha hw]; rfl

theorem exchangeZ_out (f : Byte → Byte → Byte) (d : Reg)
    (ha : s.cfg.dataSize ≤ (s.ptr .z).toNat) :
    exchangeZ f d s = .error (.dataOutOfRange (s.ptr .z).toNat) := by
  simp only [exchangeZ, busRead_out ha]; rfl

/-- Byte `b` of the byte view of program memory (20_memory.md R107). -/
def State.flashByte (s : State) (b : Nat) : Byte :=
  if b % 2 = 0 then (s.prog.read (b / 2)).extractLsb' 0 8 else (s.prog.read (b / 2)).extractLsb' 8 8

theorem loadProg_in {b : Nat} (d : Reg) (h : b / 2 < s.cfg.progWords) :
    loadProg b d s = .ok ((s.setReg d (s.flashByte b)).finish 2) := by
  simp only [loadProg, progByte_in h]; rfl

theorem loadProg_out {b : Nat} (d : Reg) (h : s.cfg.progWords ≤ b / 2) :
    loadProg b d s = .error (.progOutOfRange (b / 2)) := by
  simp only [loadProg, progByte_out h]; rfl

theorem callTo_eq_ok {ret n : Nat} {target : Int} :
    callTo ret target n s = .ok t ↔
      (s.cfg.pcBytes ≤ s.sp.toNat + 1 ∧ s.sp.toNat < s.cfg.dataSize) ∧
      t = ((pushBytes ret s).setSp ((s.sp.toNat : Int) - s.cfg.pcBytes)).finishAt (target - 1) n := by
  simp only [callTo, bind_eq_ok, pushPC_eq_ok, pure, Except.pure, Except.ok.injEq]
  constructor
  · rintro ⟨_, ⟨h, rfl⟩, rfl⟩; exact ⟨h, rfl⟩
  · rintro ⟨h, rfl⟩; exact ⟨_, ⟨h, rfl⟩, rfl⟩

/-- The words a skip taken at `pc` skips (30_encoding.md R159). -/
def State.nextWords (s : State) : Nat := if twoWord (s.prog.read (s.pc + 1)) then 2 else 1

theorem skipWords_in (h : s.pc + 1 < s.cfg.progWords) : skipWords s = .ok s.nextWords := by
  simp only [skipWords, progWord_in h]; rfl

theorem skipWords_out (h : s.cfg.progWords ≤ s.pc + 1) :
    skipWords s = .error (.progOutOfRange (s.pc + 1)) := by
  simp only [skipWords, progWord_out h]; rfl

theorem skipIf_true_in (h : s.pc + 1 < s.cfg.progWords) :
    skipIf true s = .ok (s.finishAt (s.pc + s.nextWords : Int) s.nextWords) := by
  simp only [skipIf, if_true, skipWords_in h]; rfl

theorem skipIf_true_out (h : s.cfg.progWords ≤ s.pc + 1) :
    skipIf true s = .error (.progOutOfRange (s.pc + 1)) := by
  simp only [skipIf, if_true, skipWords_out h]; rfl

theorem skipIf_false : skipIf false s = .ok (s.finish 0) := rfl

/-! ### What a body keeps, and a finished instruction -/

/-- The body of an instruction keeps the build and the cycle counter, and the invariant. -/
structure Body (s t : State) : Prop where
  build : SameBuild s t
  cycles : t.cycles = s.cycles
  inv : Inv s → Inv t

/-- A finished instruction keeps the build and the invariant, leaves `pc` inside program memory
(10_state.md R57), and takes time. -/
structure Finished (s t : State) : Prop where
  build : SameBuild s t
  pc : 0 < s.cfg.progWords → t.pc < s.cfg.progWords
  cycles : s.cycles < t.cycles
  inv : Inv s → Inv t

theorem Body.refl (s : State) : Body s s := ⟨.refl s, rfl, id⟩

theorem Body.trans {u : State} (h : Body s t) (h' : Body t u) : Body s u :=
  ⟨h.build.trans h'.build, h'.cycles.trans h.cycles, fun hi => h'.inv (h.inv hi)⟩

theorem Body.setReg (s : State) (d : Reg) (v : Byte) : Body s (s.setReg d v) :=
  ⟨⟨rfl, rfl, rfl, rfl, rfl, rfl⟩, rfl, fun hi => hi.setReg d v⟩

theorem Body.setPair (s : State) {a : Nat} (ha : a + 1 < 0x60) (v : Word) :
    Body s (s.setPair a v) :=
  ⟨⟨rfl, rfl, rfl, rfl, rfl, rfl⟩, rfl, fun hi => hi.setPair (by have := hi.dataSize; omega) v⟩

theorem Body.setSreg (s : State) (v : Byte) : Body s (s.setSreg v) :=
  ⟨⟨rfl, rfl, rfl, rfl, rfl, rfl⟩, rfl, fun hi => hi.setSreg v⟩

theorem Body.setSp (s : State) (v : Int) : Body s (s.setSp v) :=
  ⟨⟨rfl, rfl, rfl, rfl, rfl, rfl⟩, rfl, fun hi => hi.setSp v⟩

/-- The trailing step finishes an instruction (30_encoding.md R156). -/
theorem Body.finishAt (h : Body s t) (p : Int) (n : Nat) : Finished s (t.finishAt p n) where
  build := h.build.trans ⟨rfl, rfl, rfl, rfl, rfl, rfl⟩
  pc := fun hL => by
    rw [← h.build.cfg] at hL ⊢
    exact finishAt_pc_lt t p n hL
  cycles := by rw [finishAt_cycles, h.cycles]; omega
  inv := fun hi => (h.inv hi).finishAt p n

theorem Body.finish (h : Body s t) (n : Nat) : Finished s (t.finish n) := h.finishAt _ n

theorem busRead_body {slack : Byte → Nat} {a : Nat} {p : Byte × State}
    (h : busRead slack a s = .ok p) : Body s p.2 :=
  ⟨(busRead_keeps h).build, (busRead_keeps h).cycles, fun hi => hi.busRead h⟩

theorem busWrite_body {slack a : Nat} {v mask : Byte} (h : busWrite slack a v mask s = .ok t) :
    Body s t :=
  ⟨(busWrite_build h).1, (busWrite_build h).2.2, fun hi => hi.busWrite h⟩

theorem loadFrom_body {n a : Nat} {d : Reg} (h : loadFrom n a d s = .ok t) : Body s t := by
  obtain ⟨p, hp, rfl⟩ := loadFrom_eq_ok.mp h
  exact (busRead_body hp).trans (.setReg _ d _)

theorem pushPC_body {v : Nat} (h : pushPC v s = .ok t) : Body s t := by
  refine ⟨?_, ?_, fun hi => hi.pushPC h⟩ <;> obtain ⟨_, rfl⟩ := pushPC_eq_ok.mp h
  · simp only [pushBytes]; split <;> exact ⟨rfl, rfl, rfl, rfl, rfl, rfl⟩
  · simp only [pushBytes]; split <;> rfl

theorem push1_body {v : Byte} (h : push1 v s = .ok t) : Body s t := by
  refine ⟨?_, ?_, fun hi => hi.push1 h⟩ <;> obtain ⟨_, rfl⟩ := push1_eq_ok.mp h
  · exact ⟨rfl, rfl, rfl, rfl, rfl, rfl⟩
  · rfl

theorem pop1_body {p : Byte × State} (h : pop1 s = .ok p) : Body s p.2 := by
  obtain ⟨_, rfl⟩ := pop1_eq_ok.mp h; exact .setSp s _

theorem envWatchdogReset_body (h : envWatchdogReset s = .ok t) : Body s t :=
  ⟨(envWatchdogReset_keeps h).build, (envWatchdogReset_keeps h).cycles,
    fun hi => hi.envWatchdogReset h⟩

/-! ### Each operand form finishes its instruction -/

theorem loadPlain_finished {p : Ptr} {d : Reg} (h : loadPlain p d s = .ok t) : Finished s t := by
  obtain ⟨s1, h1, h2⟩ := bind_eq_ok.mp h
  cases h2; exact (loadFrom_body h1).finish 1

theorem loadPostInc_finished {p : Ptr} {d : Reg} (h : loadPostInc p d s = .ok t) :
    Finished s t := by
  obtain ⟨s1, h1, h2⟩ := bind_eq_ok.mp (unlessClash_eq_ok.mp h).2
  cases h2
  exact ((loadFrom_body h1).trans (.setPair _ (by have := base_lt p; omega) _)).finish 1

theorem loadPreDec_finished {p : Ptr} {d : Reg} (h : loadPreDec p d s = .ok t) :
    Finished s t := by
  obtain ⟨s1, h1, h2⟩ := bind_eq_ok.mp (unlessClash_eq_ok.mp h).2
  cases h2
  exact ((Body.setPair s (by have := base_lt p; omega) _).trans (loadFrom_body h1)).finish 2

theorem loadDisp_finished {p : Ptr} {d : Reg} {q : BitVec 6} (h : loadDisp p d q s = .ok t) :
    Finished s t := by
  obtain ⟨s1, h1, h2⟩ := bind_eq_ok.mp h
  cases h2; exact (loadFrom_body h1).finish 1

theorem storePlain_finished {p : Ptr} {r : Reg} (h : storePlain p r s = .ok t) :
    Finished s t := by
  obtain ⟨s1, h1, h2⟩ := bind_eq_ok.mp h
  cases h2; exact (busWrite_body h1).finish 1

theorem storePostInc_finished {p : Ptr} {r : Reg} (h : storePostInc p r s = .ok t) :
    Finished s t := by
  obtain ⟨s1, h1, h2⟩ := bind_eq_ok.mp (unlessClash_eq_ok.mp h).2
  cases h2
  exact ((busWrite_body h1).trans (.setPair _ (by have := base_lt p; omega) _)).finish 1

theorem storePreDec_finished {p : Ptr} {r : Reg} (h : storePreDec p r s = .ok t) :
    Finished s t := by
  obtain ⟨s1, h1, h2⟩ := bind_eq_ok.mp (unlessClash_eq_ok.mp h).2
  cases h2
  exact ((Body.setPair s (by have := base_lt p; omega) _).trans (busWrite_body h1)).finish 1

theorem storeDisp_finished {p : Ptr} {r : Reg} {q : BitVec 6} (h : storeDisp p q r s = .ok t) :
    Finished s t := by
  obtain ⟨s1, h1, h2⟩ := bind_eq_ok.mp h
  cases h2; exact (busWrite_body h1).finish 1

theorem exchangeZ_finished {f : Byte → Byte → Byte} {d : Reg} (h : exchangeZ f d s = .ok t) :
    Finished s t := by
  obtain ⟨p, h1, h2⟩ := bind_eq_ok.mp h
  obtain ⟨s2, h3, h4⟩ := bind_eq_ok.mp h2
  cases h4
  exact (((busRead_body h1).trans (busWrite_body h3)).trans (.setReg _ d _)).finish 1

theorem loadProg_finished {b : Nat} {d : Reg} (h : loadProg b d s = .ok t) : Finished s t := by
  obtain ⟨v, _, h2⟩ := bind_eq_ok.mp h
  cases h2; exact (Body.setReg s d v).finish 2

theorem callTo_finished {ret n : Nat} {target : Int} (h : callTo ret target n s = .ok t) :
    Finished s t := by
  obtain ⟨s1, h1, h2⟩ := bind_eq_ok.mp h
  cases h2; exact (pushPC_body h1).finishAt _ n

theorem skipIf_finished {b : Bool} {u : State} (hb : Body u s) (h : skipIf b s = .ok t) :
    Finished u t := by
  cases b
  · cases h; exact hb.finish 0
  · obtain ⟨n, _, h2⟩ := bind_eq_ok.mp h
    cases h2; exact hb.finishAt _ _

theorem returnFromSubroutine_finished (h : returnFromSubroutine s = .ok t) : Finished s t := by
  obtain ⟨_, rfl⟩ := returnFromSubroutine_eq_ok.mp h
  exact (Body.setSp s _).finishAt _ _

theorem returnFromInterrupt_finished (h : returnFromInterrupt s = .ok t) : Finished s t := by
  obtain ⟨_, rfl⟩ := returnFromInterrupt_eq_ok.mp h
  exact ((Body.setSp s _).trans (.setSreg _ _)).finishAt _ _

theorem branchIf_finished (b : Bool) (k : BitVec 7) : Finished s (branchIf b k s) := by
  cases b
  · exact (Body.refl s).finish 0
  · exact (Body.refl s).finishAt _ 1

end Sys2Proof.Machine
end

