-- ==== Sys2Proof/Laws/PerInstr.lean ====
section
/-! SUPPORT. A statement about every instruction as syntax, one lemma for each constructor: an
instruction is one word, or two when its first word starts a two-word form (30_encoding.md R150,
R158). -/

namespace Sys2Proof.Laws

open Sys2Proof

/-- The encoding has the length its first word announces to a skip. -/
def EncodedLength.Statement (i : Instr) : Prop :=
  (∃ w, encode i = [w] ∧ twoWord w = false) ∨ (∃ w k, encode i = [w, k] ∧ twoWord w = true)

/-! ### The top seven bits of each layout -/

theorem top_encRR (o : BitVec 6) (d r : Reg) : (encRR o d r).extractLsb' 9 7 = o ++ r.extractLsb' 4 1 := by
  apply BitVec.eq_of_getLsbD_eq
  intro i hi
  interval_cases i <;>
    simp only [encRR, BitVec.getLsbD_extractLsb', BitVec.getLsbD_append] <;>
    simp [-BitVec.getLsbD_eq_getElem]

theorem top_encRK (o : BitVec 4) (d : Reg) (K : Byte) : (encRK o d K).extractLsb' 9 7 = o ++ K.extractLsb' 5 3 := by
  apply BitVec.eq_of_getLsbD_eq
  intro i hi
  interval_cases i <;>
    simp only [encRK, BitVec.getLsbD_extractLsb', BitVec.getLsbD_append] <;>
    simp [-BitVec.getLsbD_eq_getElem]

theorem top_encR1 (o : BitVec 7) (l : BitVec 4) (d : Reg) : (encR1 o l d).extractLsb' 9 7 = o := by
  apply BitVec.eq_of_getLsbD_eq
  intro i hi
  interval_cases i <;>
    simp only [encR1, BitVec.getLsbD_extractLsb', BitVec.getLsbD_append] <;>
    simp [-BitVec.getLsbD_eq_getElem]

theorem top_encR4 (o : BitVec 8) (d r : Reg) : (encR4 o d r).extractLsb' 9 7 = o.extractLsb' 1 7 := by
  apply BitVec.eq_of_getLsbD_eq
  intro i hi
  interval_cases i <;>
    simp only [encR4, BitVec.getLsbD_extractLsb', BitVec.getLsbD_append] <;>
    simp [-BitVec.getLsbD_eq_getElem]

theorem top_encR3 (o : BitVec 8) (m l : BitVec 1) (d r : Reg) : (encR3 o m l d r).extractLsb' 9 7 = o.extractLsb' 1 7 := by
  apply BitVec.eq_of_getLsbD_eq
  intro i hi
  interval_cases i <;>
    simp only [encR3, BitVec.getLsbD_extractLsb', BitVec.getLsbD_append] <;>
    simp [-BitVec.getLsbD_eq_getElem]

theorem top_encW (o : BitVec 8) (d r : Reg) : (encW o d r).extractLsb' 9 7 = o.extractLsb' 1 7 := by
  apply BitVec.eq_of_getLsbD_eq
  intro i hi
  interval_cases i <;>
    simp only [encW, BitVec.getLsbD_extractLsb', BitVec.getLsbD_append] <;>
    simp [-BitVec.getLsbD_eq_getElem]

theorem top_encIW (o : BitVec 8) (d : Reg) (K : BitVec 6) : (encIW o d K).extractLsb' 9 7 = o.extractLsb' 1 7 := by
  apply BitVec.eq_of_getLsbD_eq
  intro i hi
  interval_cases i <;>
    simp only [encIW, BitVec.getLsbD_extractLsb', BitVec.getLsbD_append] <;>
    simp [-BitVec.getLsbD_eq_getElem]

theorem top_encIO (o : BitVec 5) (d : Reg) (A : BitVec 6) : (encIO o d A).extractLsb' 9 7 = o ++ A.extractLsb' 4 2 := by
  apply BitVec.eq_of_getLsbD_eq
  intro i hi
  interval_cases i <;>
    simp only [encIO, BitVec.getLsbD_extractLsb', BitVec.getLsbD_append] <;>
    simp [-BitVec.getLsbD_eq_getElem]

theorem top_encIOB (o : BitVec 8) (A : BitVec 5) (b : BitVec 3) : (encIOB o A b).extractLsb' 9 7 = o.extractLsb' 1 7 := by
  apply BitVec.eq_of_getLsbD_eq
  intro i hi
  interval_cases i <;>
    simp only [encIOB, BitVec.getLsbD_extractLsb', BitVec.getLsbD_append] <;>
    simp [-BitVec.getLsbD_eq_getElem]

theorem top_encRB (o : BitVec 7) (d : Reg) (b : BitVec 3) : (encRB o d b).extractLsb' 9 7 = o := by
  apply BitVec.eq_of_getLsbD_eq
  intro i hi
  interval_cases i <;>
    simp only [encRB, BitVec.getLsbD_extractLsb', BitVec.getLsbD_append] <;>
    simp [-BitVec.getLsbD_eq_getElem]

theorem top_encBR (o : BitVec 6) (k : BitVec 7) (n : BitVec 3) : (encBR o k n).extractLsb' 9 7 = o ++ k.extractLsb' 6 1 := by
  apply BitVec.eq_of_getLsbD_eq
  intro i hi
  interval_cases i <;>
    simp only [encBR, BitVec.getLsbD_extractLsb', BitVec.getLsbD_append] <;>
    simp [-BitVec.getLsbD_eq_getElem]

theorem top_encREL (o : BitVec 4) (k : BitVec 12) : (encREL o k).extractLsb' 9 7 = o ++ k.extractLsb' 9 3 := by
  apply BitVec.eq_of_getLsbD_eq
  intro i hi
  interval_cases i <;>
    simp only [encREL, BitVec.getLsbD_extractLsb', BitVec.getLsbD_append] <;>
    simp [-BitVec.getLsbD_eq_getElem]

theorem top_encABS (o : BitVec 7) (l : BitVec 3) (k : BitVec 22) : (encABS o l k).extractLsb' 9 7 = o := by
  apply BitVec.eq_of_getLsbD_eq
  intro i hi
  interval_cases i <;>
    simp only [encABS, BitVec.getLsbD_extractLsb', BitVec.getLsbD_append] <;>
    simp [-BitVec.getLsbD_eq_getElem]

theorem top_encQ (st y : BitVec 1) (d : Reg) (q : BitVec 6) : (encQ st y d q).extractLsb' 9 7 = 0b10#2 ++ q.extractLsb' 5 1 ++ 0#1 ++ q.extractLsb' 3 2 ++ st := by
  apply BitVec.eq_of_getLsbD_eq
  intro i hi
  interval_cases i <;>
    simp only [encQ, BitVec.getLsbD_extractLsb', BitVec.getLsbD_append] <;>
    simp [-BitVec.getLsbD_eq_getElem]

theorem top_encS (o : BitVec 9) (n : BitVec 3) : (encS o n).extractLsb' 9 7 = o.extractLsb' 2 7 := by
  apply BitVec.eq_of_getLsbD_eq
  intro i hi
  interval_cases i <;>
    simp only [encS, BitVec.getLsbD_extractLsb', BitVec.getLsbD_append] <;>
    simp [-BitVec.getLsbD_eq_getElem]

theorem top_encK4 (o : BitVec 8) (l K : BitVec 4) : (encK4 o l K).extractLsb' 9 7 = o.extractLsb' 1 7 := by
  apply BitVec.eq_of_getLsbD_eq
  intro i hi
  interval_cases i <;>
    simp only [encK4, BitVec.getLsbD_extractLsb', BitVec.getLsbD_append] <;>
    simp [-BitVec.getLsbD_eq_getElem]

theorem low_encR1 (o : BitVec 7) (l : BitVec 4) (d : Reg) : (encR1 o l d).extractLsb' 0 4 = l := by
  apply BitVec.eq_of_getLsbD_eq
  intro i hi
  interval_cases i <;>
    simp only [encR1, BitVec.getLsbD_extractLsb', BitVec.getLsbD_append] <;>
    simp [-BitVec.getLsbD_eq_getElem]

/-- Bits 3 and 2 of a one-register word. -/
theorem mid_encR1 (o : BitVec 7) (l : BitVec 4) (d : Reg) :
    (encR1 o l d).extractLsb' 2 2 = l.extractLsb' 2 2 := by
  apply BitVec.eq_of_getLsbD_eq
  intro i hi
  interval_cases i <;>
    simp only [encR1, BitVec.getLsbD_extractLsb', BitVec.getLsbD_append] <;>
    simp [-BitVec.getLsbD_eq_getElem]

theorem low_encABS (o : BitVec 7) (l : BitVec 3) (k : BitVec 22) : (encABS o l k).extractLsb' 2 2 = l.extractLsb' 1 2 := by
  apply BitVec.eq_of_getLsbD_eq
  intro i hi
  interval_cases i <;>
    simp only [encABS, BitVec.getLsbD_extractLsb', BitVec.getLsbD_append] <;>
    simp [-BitVec.getLsbD_eq_getElem]

theorem low_encS (o : BitVec 9) (n : BitVec 3) : (encS o n).extractLsb' 2 2 = 0b10#2 := by
  apply BitVec.eq_of_getLsbD_eq
  intro i hi
  interval_cases i <;>
    simp only [encS, BitVec.getLsbD_extractLsb', BitVec.getLsbD_append] <;>
    simp [-BitVec.getLsbD_eq_getElem]

theorem low_encK4 (o : BitVec 8) (l K : BitVec 4) : (encK4 o l K).extractLsb' 2 2 = l.extractLsb' 2 2 := by
  apply BitVec.eq_of_getLsbD_eq
  intro i hi
  interval_cases i <;>
    simp only [encK4, BitVec.getLsbD_extractLsb', BitVec.getLsbD_append] <;>
    simp [-BitVec.getLsbD_eq_getElem]

theorem short_encRR {o : BitVec 6} {d r : Reg}
    (h : ∀ x : BitVec 1, ∀ t ∈ [0b1001000#7, 0b1001001#7, 0b1001010#7], (o ++ x : BitVec 7) ≠ t) :
    twoWord (encRR o d r) = false := twoWord_of_top (by rw [top_encRR]; exact h _)

theorem short_encRK {o : BitVec 4} {d : Reg} {K : Byte}
    (h : ∀ x : BitVec 3, ∀ t ∈ [0b1001000#7, 0b1001001#7, 0b1001010#7], (o ++ x : BitVec 7) ≠ t) :
    twoWord (encRK o d K) = false := twoWord_of_top (by rw [top_encRK]; exact h _)

theorem short_encIO {o : BitVec 5} {d : Reg} {A : BitVec 6}
    (h : ∀ x : BitVec 2, ∀ t ∈ [0b1001000#7, 0b1001001#7, 0b1001010#7], (o ++ x : BitVec 7) ≠ t) :
    twoWord (encIO o d A) = false := twoWord_of_top (by rw [top_encIO]; exact h _)

theorem short_encBR {o : BitVec 6} {k : BitVec 7} {n : BitVec 3}
    (h : ∀ x : BitVec 1, ∀ t ∈ [0b1001000#7, 0b1001001#7, 0b1001010#7], (o ++ x : BitVec 7) ≠ t) :
    twoWord (encBR o k n) = false := twoWord_of_top (by rw [top_encBR]; exact h _)

theorem short_encREL {o : BitVec 4} {k : BitVec 12}
    (h : ∀ x : BitVec 3, ∀ t ∈ [0b1001000#7, 0b1001001#7, 0b1001010#7], (o ++ x : BitVec 7) ≠ t) :
    twoWord (encREL o k) = false := twoWord_of_top (by rw [top_encREL]; exact h _)

theorem short_encQ {st y : BitVec 1} {d : Reg} {q : BitVec 6} : twoWord (encQ st y d q) = false := by
  apply twoWord_of_top
  rw [top_encQ]
  generalize BitVec.extractLsb' 5 1 q = a
  generalize BitVec.extractLsb' 3 2 q = b
  revert a b st
  decide

/-- Whether a one-register word starts a two-word form depends on its fixed bits alone. -/
theorem twoWord_encR1 (o : BitVec 7) (l : BitVec 4) (d : Reg) : twoWord (encR1 o l d) =
    ((o == 0b1001000#7 || o == 0b1001001#7) && l == 0b0000#4 ||
      o == 0b1001010#7 && l.extractLsb' 2 2 == 0b11#2) := by
  rw [twoWord_eq, top_encR1, low_encR1, mid_encR1]

theorem oneWord {i : Instr} {w : Word} (he : encode i = [w]) (h : twoWord w = false) :
    EncodedLength.Statement i := .inl ⟨w, he, h⟩

theorem twoWords {i : Instr} {w k : Word} (he : encode i = [w, k])
    (h : twoWord w = true) : EncodedLength.Statement i := .inr ⟨w, k, he, h⟩

/-! ### One lemma for each constructor -/

theorem EncodedLength.adc (d : Reg) (r : Reg) :
    EncodedLength.Statement (.adc d r) :=
  oneWord rfl (short_encRR (by decide))

theorem EncodedLength.add (d : Reg) (r : Reg) :
    EncodedLength.Statement (.add d r) :=
  oneWord rfl (short_encRR (by decide))

theorem EncodedLength.adiw (d : Reg) (K : BitVec 6) :
    EncodedLength.Statement (.adiw d K) :=
  oneWord rfl (twoWord_of_top (by rw [top_encIW]; decide))

theorem EncodedLength.and (d : Reg) (r : Reg) :
    EncodedLength.Statement (.and d r) :=
  oneWord rfl (short_encRR (by decide))

theorem EncodedLength.andi (d : Reg) (K : Byte) :
    EncodedLength.Statement (.andi d K) :=
  oneWord rfl (short_encRK (by decide))

theorem EncodedLength.asr (d : Reg) :
    EncodedLength.Statement (.asr d) :=
  oneWord rfl (by rw [twoWord_encR1]; decide)

theorem EncodedLength.bclr (n : BitVec 3) :
    EncodedLength.Statement (.bclr n) :=
  oneWord rfl (by rw [twoWord_eq, top_encS, low_encS]; simp)

theorem EncodedLength.bld (d : Reg) (b : BitVec 3) :
    EncodedLength.Statement (.bld d b) :=
  oneWord rfl (twoWord_of_top (by rw [top_encRB]; decide))

theorem EncodedLength.brbc (n : BitVec 3) (k : BitVec 7) :
    EncodedLength.Statement (.brbc n k) :=
  oneWord rfl (short_encBR (by decide))

theorem EncodedLength.brbs (n : BitVec 3) (k : BitVec 7) :
    EncodedLength.Statement (.brbs n k) :=
  oneWord rfl (short_encBR (by decide))

theorem EncodedLength.brk :
    EncodedLength.Statement (.brk) :=
  oneWord rfl (by decide)

theorem EncodedLength.bset (n : BitVec 3) :
    EncodedLength.Statement (.bset n) :=
  oneWord rfl (by rw [twoWord_eq, top_encS, low_encS]; simp)

theorem EncodedLength.bst (d : Reg) (b : BitVec 3) :
    EncodedLength.Statement (.bst d b) :=
  oneWord rfl (twoWord_of_top (by rw [top_encRB]; decide))

theorem EncodedLength.call (k : BitVec 22) :
    EncodedLength.Statement (.call k) :=
  twoWords rfl (by rw [twoWord_eq, top_encABS, low_encABS]; simp)

theorem EncodedLength.cbi (A : BitVec 5) (b : BitVec 3) :
    EncodedLength.Statement (.cbi A b) :=
  oneWord rfl (twoWord_of_top (by rw [top_encIOB]; decide))

theorem EncodedLength.com (d : Reg) :
    EncodedLength.Statement (.com d) :=
  oneWord rfl (by rw [twoWord_encR1]; decide)

theorem EncodedLength.cp (d : Reg) (r : Reg) :
    EncodedLength.Statement (.cp d r) :=
  oneWord rfl (short_encRR (by decide))

theorem EncodedLength.cpc (d : Reg) (r : Reg) :
    EncodedLength.Statement (.cpc d r) :=
  oneWord rfl (short_encRR (by decide))

theorem EncodedLength.cpi (d : Reg) (K : Byte) :
    EncodedLength.Statement (.cpi d K) :=
  oneWord rfl (short_encRK (by decide))

theorem EncodedLength.cpse (d : Reg) (r : Reg) :
    EncodedLength.Statement (.cpse d r) :=
  oneWord rfl (short_encRR (by decide))

theorem EncodedLength.dec (d : Reg) :
    EncodedLength.Statement (.dec d) :=
  oneWord rfl (by rw [twoWord_encR1]; decide)

theorem EncodedLength.des (K : BitVec 4) :
    EncodedLength.Statement (.des K) :=
  oneWord rfl (by rw [twoWord_eq, top_encK4, low_encK4]; simp)

theorem EncodedLength.eicall :
    EncodedLength.Statement (.eicall) :=
  oneWord rfl (by decide)

theorem EncodedLength.eijmp :
    EncodedLength.Statement (.eijmp) :=
  oneWord rfl (by decide)

theorem EncodedLength.elpm :
    EncodedLength.Statement (.elpm) :=
  oneWord rfl (by decide)

theorem EncodedLength.elpmZ (d : Reg) :
    EncodedLength.Statement (.elpmZ d) :=
  oneWord rfl (by rw [twoWord_encR1]; decide)

theorem EncodedLength.elpmZP (d : Reg) :
    EncodedLength.Statement (.elpmZP d) :=
  oneWord rfl (by rw [twoWord_encR1]; decide)

theorem EncodedLength.eor (d : Reg) (r : Reg) :
    EncodedLength.Statement (.eor d r) :=
  oneWord rfl (short_encRR (by decide))

theorem EncodedLength.fmul (d : Reg) (r : Reg) :
    EncodedLength.Statement (.fmul d r) :=
  oneWord rfl (twoWord_of_top (by rw [top_encR3]; decide))

theorem EncodedLength.fmuls (d : Reg) (r : Reg) :
    EncodedLength.Statement (.fmuls d r) :=
  oneWord rfl (twoWord_of_top (by rw [top_encR3]; decide))

theorem EncodedLength.fmulsu (d : Reg) (r : Reg) :
    EncodedLength.Statement (.fmulsu d r) :=
  oneWord rfl (twoWord_of_top (by rw [top_encR3]; decide))

theorem EncodedLength.icall :
    EncodedLength.Statement (.icall) :=
  oneWord rfl (by decide)

theorem EncodedLength.ijmp :
    EncodedLength.Statement (.ijmp) :=
  oneWord rfl (by decide)

theorem EncodedLength.inIo (d : Reg) (A : BitVec 6) :
    EncodedLength.Statement (.inIo d A) :=
  oneWord rfl (short_encIO (by decide))

theorem EncodedLength.inc (d : Reg) :
    EncodedLength.Statement (.inc d) :=
  oneWord rfl (by rw [twoWord_encR1]; decide)

theorem EncodedLength.jmp (k : BitVec 22) :
    EncodedLength.Statement (.jmp k) :=
  twoWords rfl (by rw [twoWord_eq, top_encABS, low_encABS]; simp)

theorem EncodedLength.lac (d : Reg) :
    EncodedLength.Statement (.lac d) :=
  oneWord rfl (by rw [twoWord_encR1]; decide)

theorem EncodedLength.las (d : Reg) :
    EncodedLength.Statement (.las d) :=
  oneWord rfl (by rw [twoWord_encR1]; decide)

theorem EncodedLength.lat (d : Reg) :
    EncodedLength.Statement (.lat d) :=
  oneWord rfl (by rw [twoWord_encR1]; decide)

theorem EncodedLength.ldi (d : Reg) (K : Byte) :
    EncodedLength.Statement (.ldi d K) :=
  oneWord rfl (short_encRK (by decide))

theorem EncodedLength.lds (d : Reg) (k : Word) :
    EncodedLength.Statement (.lds d k) :=
  twoWords rfl (by rw [twoWord_encR1]; decide)

theorem EncodedLength.ldX (d : Reg) :
    EncodedLength.Statement (.ldX d) :=
  oneWord rfl (by rw [twoWord_encR1]; decide)

theorem EncodedLength.ldXP (d : Reg) :
    EncodedLength.Statement (.ldXP d) :=
  oneWord rfl (by rw [twoWord_encR1]; decide)

theorem EncodedLength.ldMX (d : Reg) :
    EncodedLength.Statement (.ldMX d) :=
  oneWord rfl (by rw [twoWord_encR1]; decide)

theorem EncodedLength.ldY (d : Reg) :
    EncodedLength.Statement (.ldY d) :=
  oneWord rfl (by rw [twoWord_encR1]; decide)

theorem EncodedLength.ldYP (d : Reg) :
    EncodedLength.Statement (.ldYP d) :=
  oneWord rfl (by rw [twoWord_encR1]; decide)

theorem EncodedLength.ldMY (d : Reg) :
    EncodedLength.Statement (.ldMY d) :=
  oneWord rfl (by rw [twoWord_encR1]; decide)

theorem EncodedLength.lddY (d : Reg) (q : BitVec 6) :
    EncodedLength.Statement (.lddY d q) :=
  oneWord rfl short_encQ

theorem EncodedLength.ldZ (d : Reg) :
    EncodedLength.Statement (.ldZ d) :=
  oneWord rfl (by rw [twoWord_encR1]; decide)

theorem EncodedLength.ldZP (d : Reg) :
    EncodedLength.Statement (.ldZP d) :=
  oneWord rfl (by rw [twoWord_encR1]; decide)

theorem EncodedLength.ldMZ (d : Reg) :
    EncodedLength.Statement (.ldMZ d) :=
  oneWord rfl (by rw [twoWord_encR1]; decide)

theorem EncodedLength.lddZ (d : Reg) (q : BitVec 6) :
    EncodedLength.Statement (.lddZ d q) :=
  oneWord rfl short_encQ

theorem EncodedLength.lpm :
    EncodedLength.Statement (.lpm) :=
  oneWord rfl (by decide)

theorem EncodedLength.lpmZ (d : Reg) :
    EncodedLength.Statement (.lpmZ d) :=
  oneWord rfl (by rw [twoWord_encR1]; decide)

theorem EncodedLength.lpmZP (d : Reg) :
    EncodedLength.Statement (.lpmZP d) :=
  oneWord rfl (by rw [twoWord_encR1]; decide)

theorem EncodedLength.lsr (d : Reg) :
    EncodedLength.Statement (.lsr d) :=
  oneWord rfl (by rw [twoWord_encR1]; decide)

theorem EncodedLength.mov (d : Reg) (r : Reg) :
    EncodedLength.Statement (.mov d r) :=
  oneWord rfl (short_encRR (by decide))

theorem EncodedLength.movw (d : Reg) (r : Reg) :
    EncodedLength.Statement (.movw d r) :=
  oneWord rfl (twoWord_of_top (by rw [top_encW]; decide))

theorem EncodedLength.mul (d : Reg) (r : Reg) :
    EncodedLength.Statement (.mul d r) :=
  oneWord rfl (short_encRR (by decide))

theorem EncodedLength.muls (d : Reg) (r : Reg) :
    EncodedLength.Statement (.muls d r) :=
  oneWord rfl (twoWord_of_top (by rw [top_encR4]; decide))

theorem EncodedLength.mulsu (d : Reg) (r : Reg) :
    EncodedLength.Statement (.mulsu d r) :=
  oneWord rfl (twoWord_of_top (by rw [top_encR3]; decide))

theorem EncodedLength.neg (d : Reg) :
    EncodedLength.Statement (.neg d) :=
  oneWord rfl (by rw [twoWord_encR1]; decide)

theorem EncodedLength.nop :
    EncodedLength.Statement (.nop) :=
  oneWord rfl (by decide)

theorem EncodedLength.or (d : Reg) (r : Reg) :
    EncodedLength.Statement (.or d r) :=
  oneWord rfl (short_encRR (by decide))

theorem EncodedLength.ori (d : Reg) (K : Byte) :
    EncodedLength.Statement (.ori d K) :=
  oneWord rfl (short_encRK (by decide))

theorem EncodedLength.outIo (A : BitVec 6) (r : Reg) :
    EncodedLength.Statement (.outIo A r) :=
  oneWord rfl (short_encIO (by decide))

theorem EncodedLength.pop (d : Reg) :
    EncodedLength.Statement (.pop d) :=
  oneWord rfl (by rw [twoWord_encR1]; decide)

theorem EncodedLength.push (r : Reg) :
    EncodedLength.Statement (.push r) :=
  oneWord rfl (by rw [twoWord_encR1]; decide)

theorem EncodedLength.rcall (k : BitVec 12) :
    EncodedLength.Statement (.rcall k) :=
  oneWord rfl (short_encREL (by decide))

theorem EncodedLength.ret :
    EncodedLength.Statement (.ret) :=
  oneWord rfl (by decide)

theorem EncodedLength.reti :
    EncodedLength.Statement (.reti) :=
  oneWord rfl (by decide)

theorem EncodedLength.rjmp (k : BitVec 12) :
    EncodedLength.Statement (.rjmp k) :=
  oneWord rfl (short_encREL (by decide))

theorem EncodedLength.ror (d : Reg) :
    EncodedLength.Statement (.ror d) :=
  oneWord rfl (by rw [twoWord_encR1]; decide)

theorem EncodedLength.sbc (d : Reg) (r : Reg) :
    EncodedLength.Statement (.sbc d r) :=
  oneWord rfl (short_encRR (by decide))

theorem EncodedLength.sbci (d : Reg) (K : Byte) :
    EncodedLength.Statement (.sbci d K) :=
  oneWord rfl (short_encRK (by decide))

theorem EncodedLength.sbi (A : BitVec 5) (b : BitVec 3) :
    EncodedLength.Statement (.sbi A b) :=
  oneWord rfl (twoWord_of_top (by rw [top_encIOB]; decide))

theorem EncodedLength.sbic (A : BitVec 5) (b : BitVec 3) :
    EncodedLength.Statement (.sbic A b) :=
  oneWord rfl (twoWord_of_top (by rw [top_encIOB]; decide))

theorem EncodedLength.sbis (A : BitVec 5) (b : BitVec 3) :
    EncodedLength.Statement (.sbis A b) :=
  oneWord rfl (twoWord_of_top (by rw [top_encIOB]; decide))

theorem EncodedLength.sbiw (d : Reg) (K : BitVec 6) :
    EncodedLength.Statement (.sbiw d K) :=
  oneWord rfl (twoWord_of_top (by rw [top_encIW]; decide))

theorem EncodedLength.sbrc (r : Reg) (b : BitVec 3) :
    EncodedLength.Statement (.sbrc r b) :=
  oneWord rfl (twoWord_of_top (by rw [top_encRB]; decide))

theorem EncodedLength.sbrs (r : Reg) (b : BitVec 3) :
    EncodedLength.Statement (.sbrs r b) :=
  oneWord rfl (twoWord_of_top (by rw [top_encRB]; decide))

theorem EncodedLength.sleep :
    EncodedLength.Statement (.sleep) :=
  oneWord rfl (by decide)

theorem EncodedLength.spm :
    EncodedLength.Statement (.spm) :=
  oneWord rfl (by decide)

theorem EncodedLength.spmZP :
    EncodedLength.Statement (.spmZP) :=
  oneWord rfl (by decide)

theorem EncodedLength.sts (k : Word) (r : Reg) :
    EncodedLength.Statement (.sts k r) :=
  twoWords rfl (by rw [twoWord_encR1]; decide)

theorem EncodedLength.stX (r : Reg) :
    EncodedLength.Statement (.stX r) :=
  oneWord rfl (by rw [twoWord_encR1]; decide)

theorem EncodedLength.stXP (r : Reg) :
    EncodedLength.Statement (.stXP r) :=
  oneWord rfl (by rw [twoWord_encR1]; decide)

theorem EncodedLength.stMX (r : Reg) :
    EncodedLength.Statement (.stMX r) :=
  oneWord rfl (by rw [twoWord_encR1]; decide)

theorem EncodedLength.stY (r : Reg) :
    EncodedLength.Statement (.stY r) :=
  oneWord rfl (by rw [twoWord_encR1]; decide)

theorem EncodedLength.stYP (r : Reg) :
    EncodedLength.Statement (.stYP r) :=
  oneWord rfl (by rw [twoWord_encR1]; decide)

theorem EncodedLength.stMY (r : Reg) :
    EncodedLength.Statement (.stMY r) :=
  oneWord rfl (by rw [twoWord_encR1]; decide)

theorem EncodedLength.stdY (q : BitVec 6) (r : Reg) :
    EncodedLength.Statement (.stdY q r) :=
  oneWord rfl short_encQ

theorem EncodedLength.stZ (r : Reg) :
    EncodedLength.Statement (.stZ r) :=
  oneWord rfl (by rw [twoWord_encR1]; decide)

theorem EncodedLength.stZP (r : Reg) :
    EncodedLength.Statement (.stZP r) :=
  oneWord rfl (by rw [twoWord_encR1]; decide)

theorem EncodedLength.stMZ (r : Reg) :
    EncodedLength.Statement (.stMZ r) :=
  oneWord rfl (by rw [twoWord_encR1]; decide)

theorem EncodedLength.stdZ (q : BitVec 6) (r : Reg) :
    EncodedLength.Statement (.stdZ q r) :=
  oneWord rfl short_encQ

theorem EncodedLength.sub (d : Reg) (r : Reg) :
    EncodedLength.Statement (.sub d r) :=
  oneWord rfl (short_encRR (by decide))

theorem EncodedLength.subi (d : Reg) (K : Byte) :
    EncodedLength.Statement (.subi d K) :=
  oneWord rfl (short_encRK (by decide))

theorem EncodedLength.swap (d : Reg) :
    EncodedLength.Statement (.swap d) :=
  oneWord rfl (by rw [twoWord_encR1]; decide)

theorem EncodedLength.wdr :
    EncodedLength.Statement (.wdr) :=
  oneWord rfl (by decide)

theorem EncodedLength.xch (d : Reg) :
    EncodedLength.Statement (.xch d) :=
  oneWord rfl (by rw [twoWord_encR1]; decide)

end Sys2Proof.Laws
end

