-- ==== Sys2Proof/Laws/Safety.lean ====
section
/-! SUPPORT. What the driver's accesses, a run and its end, and the premises of a launch give. -/

namespace Sys2Proof.Machine

/-! ### Driver accesses -/

theorem silently_eq_ok {r : Except Fault State} {p : DriverAnswer × State} :
    silently r = .ok p ↔ p.1 = .nothing ∧ r = .ok p.2 := by
  simp only [silently, map_eq_ok, Prod.ext_iff]
  exact ⟨fun ⟨_, h, h1, h2⟩ => ⟨h1.symm, h2 ▸ h⟩, fun ⟨h1, h⟩ => ⟨_, h, h1.symm, rfl⟩⟩

theorem answering_eq_ok {α : Type} {f : α → DriverAnswer} {r : Except Fault (α × State)}
    {p : DriverAnswer × State} :
    answering f r = .ok p ↔ ∃ a, p.1 = f a ∧ r = .ok (a, p.2) := by
  simp only [answering, map_eq_ok, Prod.ext_iff]
  exact ⟨fun ⟨q, h, h1, h2⟩ => ⟨q.1, h1.symm, h2 ▸ h⟩, fun ⟨a, h1, h⟩ => ⟨_, h, h1.symm, rfl⟩⟩

/-- Registering hooks after the first step breaks the driver's contract (60_exceptions.md R531). -/
theorem register_after_start {s : State} (h : s.started = true) (a : Nat) :
    driverAct (.registerReadHook a) s = .error .envContract ∧
      driverAct (.registerWriteHook a) s = .error .envContract ∧
      driverAct .attachWatchdog s = .error .envContract := by
  simp [driverAct, h, contract, silently, Except.map]

/-! ### Runs and their end (60_exceptions.md R532) -/

variable {R : State → State → Prop} {s t u : State}

/-- A run ends at a self-loop. -/
theorem EndsAt.atSelfLoop (h : EndsAt R s t) : AtSelfLoop t := by
  induction h with
  | here h => exact h
  | move _ _ _ ih => exact ih

/-- The end of a run is a state of the run. -/
theorem EndsAt.run (h : EndsAt R s t) : Run R s t := by
  induction h with
  | here _ => exact .refl
  | move _ hm _ ih => exact .head hm ih

/-- A step gives one state. -/
theorem Stepped.unique (h : Stepped s t) (h' : Stepped s u) : t = u := by
  rw [Stepped, h] at h'; cases h'; rfl

/-- A run the driver does not touch has one end. -/
theorem EndsAt.unique (h : EndsAt Stepped s t) (h' : EndsAt Stepped s u) : t = u := by
  induction h with
  | here h => cases h' with
    | here => rfl
    | move hn => exact absurd h hn
  | move hn hm _ ih => cases h' with
    | here h => exact absurd h hn
    | move _ hm' hr => exact ih ((hm.unique hm') ▸ hr)

/-- The self-loop runs on: with no event and no interrupt pending a step adds 2 cycles and stays. -/
theorem step_selfLoop (h : AtSelfLoop s) (he : s.events = []) (hp : s.pending = []) :
    step s = .next { s with cycles := s.cycles + 2, started := true } := by
  have hd : decode 0xCFFF 0 = .ok (.rjmp (BitVec.ofInt 12 (-1))) := by decide
  have hf : fetch s = .ok (0xCFFF, 0) := by
    simp only [fetch, progWord_in h.1, h.2, bind_ok]; rfl
  have hpc : ((s.pc : Int) + (BitVec.ofInt 12 (-1)).toInt + 1) % (s.cfg.progWords : Int) = s.pc := by
    rw [show (BitVec.ofInt 12 (-1)).toInt = -1 by decide, show (s.pc : Int) + -1 + 1 = s.pc by omega]
    exact Int.emod_eq_of_lt (by omega) (by have := h.1; omega)
  have he' : engineStep s = .next { s with cycles := s.cycles + 2 } := by
    simp only [engineStep, hf, execWords, hd, exec, execRjmp, State.finishAt, hpc, Int.toNat_natCast]
  have hs : fireEvent (State.start { s with cycles := s.cycles + 2 }) =
      .ok (State.start { s with cycles := s.cycles + 2 }) := by
    simp [fireEvent, he]
  have hq : dispatchPending (State.start { s with cycles := s.cycles + 2 }) =
      .ok (State.start { s with cycles := s.cycles + 2 }) :=
    dispatchPending_eq_ok.mpr ⟨by simp [hp], by simp only [start_pending, hp]; split <;> simp_all⟩
  show thenTick (engineStep s) = _
  simp only [he', thenTick, tick, hs, bind_ok, hq]; rfl

/-! ### The premises of a launch (70_reset_and_hazards.md R604) -/

/-- A clean entry is a state a run reaches. -/
theorem CleanEntry.reachable (h : CleanEntry s) : Reachable s := by
  obtain ⟨s0, h0, hr⟩ := h
  have h1 : Reachable s0 := by
    rcases h0 with h0 | ⟨u, ⟨v, hv, hu⟩, rfl⟩
    · exact ⟨s0, h0, .refl⟩
    · exact ⟨v, hv, hu.tail (.inr ⟨.reset, .nothing, rfl⟩)⟩
  induction hr with
  | refl => exact h1
  | tail _ hd ih => obtain ⟨v, hv, hu⟩ := ih; exact ⟨v, hv, hu.tail (.inr hd)⟩

/-- What an operation of the environment queues is a descriptor it hands over. -/
theorem envOp_pending {now : Nat} {o : EnvOp} (h : envOp now o s = .ok t) {q : Descriptor}
    (hq : q ∈ t.pending) : q ∈ s.pending ∨ q ∈ opDescriptors o := by
  have drop : ∀ {q' : Descriptor}, q ∈ withoutVector q'.vectorAddress s.pending → q ∈ s.pending :=
    fun h => (List.mem_filter.mp h).1
  have add : ∀ {q' : Descriptor}, q ∈ insertPending q' s.pending → q ∈ s.pending ∨ q ∈ [q'] :=
    fun h => (mem_insertPending h).symm.imp id (by simp)
  cases o with
  | addClockEvent id n =>
    obtain ⟨p, hp, rfl⟩ := map_eq_ok.mp h
    obtain ⟨_, rfl⟩ := addClockEvent_eq_ok.mp hp; exact .inl hq
  | clearClockEvent id =>
    obtain ⟨p, hp, rfl⟩ := map_eq_ok.mp h
    obtain ⟨_, rfl⟩ := clearClockEvent_eq_ok.mp hp; exact .inl hq
  | updateClockEvent id n =>
    obtain ⟨p, hp, rfl⟩ := map_eq_ok.mp h
    obtain ⟨_, rfl⟩ := updateClockEvent_eq_ok.mp hp; exact .inl hq
  | setInterruptFlag q' =>
    obtain ⟨_, _, h⟩ := setInterruptFlag_eq_ok.mp (contract_eq_ok.mp h).2
    dsimp only at h
    split at h
    · rw [h.2] at hq; exact add hq
    · rw [h] at hq; exact .inl hq
  | updateInterruptEnable q' v =>
    have h := updateInterruptEnable_eq_ok.mp (contract_eq_ok.mp h).2
    split at h
    · obtain ⟨_, h⟩ := h
      split at h
      · rw [h.2] at hq; exact add hq
      · rw [h] at hq; exact .inl hq
    · rw [h.2] at hq; exact .inl (drop hq)
  | queueInterrupt q' =>
    obtain ⟨_, rfl⟩ := queueInterrupt_eq_ok.mp (contract_eq_ok.mp h).2; exact add hq
  | clearInterrupt q' b =>
    obtain ⟨_, _, rfl⟩ := clearInterrupt_eq_ok.mp (contract_eq_ok.mp h).2; exact .inl (drop hq)
  | clearInterruptByFlag q' v =>
    have h := clearInterruptByFlag_eq_ok.mp (contract_eq_ok.mp h).2
    split at h
    · rw [h.2.2] at hq; exact .inl (drop hq)
    · rw [h] at hq; exact .inl hq
  | rawWrite a v =>
    obtain ⟨_, rfl⟩ := rawWrite_nat_eq_ok.mp (contract_eq_ok.mp h).2; exact .inl hq

/-- The same of all the environment does in a call. -/
theorem runScript_pending {now : Nat} {sc : EnvScript} (h : runScript now sc s = .ok t)
    {q : Descriptor} (hq : q ∈ t.pending) : q ∈ s.pending ∨ q ∈ scriptDescriptors sc := by
  induction sc generalizing s t with
  | done => cases h; exact .inl hq
  | op o rest ih =>
    obtain ⟨s1, h1, h2⟩ := bind_eq_ok.mp h
    simp only [scriptDescriptors, List.mem_append]
    exact (ih h2 hq).elim (fun hq => (envOp_pending h1 hq).imp_right .inl) (.inr ∘ .inr)
  | busRead a nested rest ihn ihr =>
    simp only [runScript] at h
    simp only [scriptDescriptors, List.mem_append]
    split at h
    · split at h
      · obtain ⟨s1, h1, h2⟩ := bind_eq_ok.mp h
        exact (ihr h2 hq).elim (fun hq => (ihn h1 hq).imp_right .inl) (.inr ∘ .inr)
      · exact (ihr h hq).imp_right .inr
    · cases h
  | busWrite a v mask handled nested rest ihn ihr =>
    have store : ∀ {s t : State}, envStore a v s = .ok t → t.pending = s.pending := fun h => by
      obtain ⟨_, rfl⟩ := rawWrite_nat_eq_ok.mp (contract_eq_ok.mp h).2; rfl
    simp only [runScript] at h
    simp only [scriptDescriptors, List.mem_append]
    split at h
    · split at h
      · obtain ⟨s1, h1, h2⟩ := bind_eq_ok.mp h
        have go : q ∈ s1.pending →
            q ∈ s.pending ∨ q ∈ scriptDescriptors nested ∨ q ∈ scriptDescriptors rest :=
          fun hq => (ihn h1 hq).imp_right .inl
        split at h2
        · exact (ihr h2 hq).elim go (.inr ∘ .inr)
        · obtain ⟨s2, h3, h4⟩ := bind_eq_ok.mp h2
          exact (ihr h4 hq).elim (fun hq => go (store h3 ▸ hq)) (.inr ∘ .inr)
      · obtain ⟨s1, h1, h2⟩ := bind_eq_ok.mp h
        exact (ihr h2 hq).imp (fun hq => store h1 ▸ hq) .inr
    · cases h

/-- The second half of `tick()` goes to a pending vector or leaves `pc`. -/
theorem dispatchPending_pc (h : dispatchPending s = .ok t) :
    t.pc = s.pc ∨ ∃ q ∈ s.pending, t.pc = q.vectorAddress := by
  obtain ⟨_, h⟩ := dispatchPending_eq_ok.mp h
  split at h
  · rename_i q rest _ hq
    obtain ⟨s1, h1, h2⟩ := h
    refine .inr ⟨q, by simp [hq], ?_⟩
    obtain ⟨_, _, rfl⟩ := dispatch_eq_ok.mp h1
    split at h2
    · obtain ⟨_, _, rfl⟩ := clearInterrupt_eq_ok.mp h2; rfl
    · rw [h2]
  · exact .inl (by rw [h])

end Sys2Proof.Machine
end

