-- ==== Sys2Proof/Tests/Slice0.lean ====
section
/-! SUPPORT. The model's own tests: ill-formed terms, decoding bit by bit, one step of each instruction
on the examples of the spec, the faults, the interrupt controller, the scheduler and reset, and a
witness for the hypotheses of every statement that has some. Every expected value is from spec/ or
worked out by hand from a rule named there. -/

namespace Sys2Proof.Tests

open Sys2Proof Sys2Proof.Machine Sys2Proof.Claims

/-! ### Helpers -/

/-- Does the decoder read `i` from the words. -/
def reads (w w2 : Word) (i : Instr) : Bool :=
  match decode w w2 with
  | .ok j => j == i
  | .error _ => false

/-- Does the decoder reject the word. -/
def rejects (w : Word) : Bool :=
  match decode w 0 with
  | .ok _ => false
  | .error e => e == .reserved w

/-- The next state of an outcome, if it has one. -/
def nextOf (o : Host.Outcome State Fault Refusal) : Option State :=
  match o with
  | .next t => some t
  | _ => none

/-- The fault of an outcome, if it is one. -/
def faultOf (o : Host.Outcome State Fault Refusal) : Option Fault :=
  match o with
  | .fault f => some f
  | _ => none

/-- The value of a result, if it has one. -/
def valueOf {α : Type} (r : Except Fault α) : Option α :=
  match r with
  | .ok x => some x
  | .error _ => none

/-- The state after reset with some data bytes set. -/
def st (bs : List (Nat × Byte)) : State := bs.foldl (fun s b => s.setByte b.1 b.2) State.reset

/-- The same with another program counter. -/
def at_ (pc : Nat) (s : State) : State := { s with pc := pc }

/-- The same in PC22 mode, L = 0x20000. -/
def big (s : State) : State := { s with cfg := { s.cfg with progWords := 0x20000 } }

/-- The same with one program word set. -/
def prog_ (i : Nat) (w : Word) (s : State) : State := { s with prog := s.prog.write i w }

/-- One step with the words `w` and `w2` where the step fetches. -/
def stepOn (w w2 : Nat) (s : State) : Host.Outcome State Fault Refusal :=
  step (s.withFetchWord 32 (w2 * 65536 + w))

/-- The state after that step. -/
def run (w w2 : Nat) (s : State) : Option State := nextOf (stepOn w w2 s)

/-- `pc`, `cycles` and some bytes of a state. -/
def seen (o : Option State) (as : List Nat) : Option (List Nat) :=
  o.map fun t => t.pc :: t.cycles :: as.map (fun a => (t.byte a).toNat)

/-- An answer of the environment that does nothing else. -/
def answer (value : Nat) (handled : Bool) : EnvReply := ⟨value, handled, 0, .done⟩

/-- q4, q6i and q10 of 95_test_vectors.md section 2.12. -/
def q4 : Descriptor := ⟨4, 0x40, 0x01, 0x30, 0x01, .edge, false⟩
@[inherit_doc q4] def q6i : Descriptor := ⟨6, 0x42, 0x02, 0x32, 0x04, .edge, true⟩
@[inherit_doc q4] def q10 : Descriptor := ⟨10, 0x41, 0x01, 0x31, 0x01, .edge, false⟩

/-! ### Ill-formed terms, one for each check -/

theorem test_wf_hiReg : ¬WellFormed (.ldi 15 0) ∧ ¬WellFormed (.andi 0 1) ∧
    ¬WellFormed (.muls 16 15) ∧ WellFormed (.ldi 16 0) := by decide
theorem test_wf_midReg : ¬WellFormed (.fmul 15 16) ∧ ¬WellFormed (.mulsu 16 24) ∧
    WellFormed (.fmulsu 16 23) := by decide
theorem test_wf_evenReg : ¬WellFormed (.movw 1 0) ∧ ¬WellFormed (.movw 0 31) ∧
    WellFormed (.movw 30 0) := by decide
theorem test_wf_wordReg : ¬WellFormed (.adiw 22 0) ∧ ¬WellFormed (.sbiw 25 0) ∧
    WellFormed (.adiw 30 63) := by decide
theorem test_wf_nonzeroDisp : ¬WellFormed (.lddY 0 0) ∧ ¬WellFormed (.stdZ 0 31) ∧
    WellFormed (.lddZ 0 63) := by decide

/-! ### Decoding -/

/-- F_RR, from each row's `encoding` (30_encoding.md R151). -/
theorem test_decode_F_RR :
    reads 0b0001_1101_0101_1010 0 (.adc 21 10) ∧
    reads 0b0000_1101_0101_1010 0 (.add 21 10) ∧
    reads 0b0010_0001_0101_1010 0 (.and 21 10) ∧
    reads 0b0001_0101_0101_1010 0 (.cp 21 10) ∧
    reads 0b0000_0101_0101_1010 0 (.cpc 21 10) ∧
    reads 0b0001_0001_0101_1010 0 (.cpse 21 10) ∧
    reads 0b0010_0101_0101_1010 0 (.eor 21 10) ∧
    reads 0b0010_1101_0101_1010 0 (.mov 21 10) ∧
    reads 0b1001_1101_0101_1010 0 (.mul 21 10) ∧
    reads 0b0010_1001_0101_1010 0 (.or 21 10) ∧
    reads 0b0000_1001_0101_1010 0 (.sbc 21 10) ∧
    reads 0b0001_1001_0101_1010 0 (.sub 21 10) := by decide

/-- F_IW, from each row's `encoding` (30_encoding.md R151). -/
theorem test_decode_F_IW :
    reads 0b1001_0110_1001_0110 0 (.adiw 26 0b100110) ∧
    reads 0b1001_0111_1001_0110 0 (.sbiw 26 0b100110) := by decide

/-- F_RK, from each row's `encoding` (30_encoding.md R151). -/
theorem test_decode_F_RK :
    reads 0b0111_1010_0101_0110 0 (.andi 21 166) ∧
    reads 0b0011_1010_0101_0110 0 (.cpi 21 166) ∧
    reads 0b1110_1010_0101_0110 0 (.ldi 21 166) ∧
    reads 0b0110_1010_0101_0110 0 (.ori 21 166) ∧
    reads 0b0100_1010_0101_0110 0 (.sbci 21 166) ∧
    reads 0b0101_1010_0101_0110 0 (.subi 21 166) := by decide

/-- F_R1, from each row's `encoding` (30_encoding.md R151). -/
theorem test_decode_F_R1 :
    reads 0b1001_0101_0101_0101 0 (.asr 21) ∧
    reads 0b1001_0101_0101_0000 0 (.com 21) ∧
    reads 0b1001_0101_0101_1010 0 (.dec 21) ∧
    reads 0b1001_0001_0101_0110 0 (.elpmZ 21) ∧
    reads 0b1001_0001_0101_0111 0 (.elpmZP 21) ∧
    reads 0b1001_0101_0101_0011 0 (.inc 21) ∧
    reads 0b1001_0011_0101_0110 0 (.lac 21) ∧
    reads 0b1001_0011_0101_0101 0 (.las 21) ∧
    reads 0b1001_0011_0101_0111 0 (.lat 21) ∧
    reads 0b1001_0001_0101_1100 0 (.ldX 21) ∧
    reads 0b1001_0001_0101_1101 0 (.ldXP 21) ∧
    reads 0b1001_0001_0101_1110 0 (.ldMX 21) ∧
    reads 0b1000_0001_0101_1000 0 (.ldY 21) ∧
    reads 0b1001_0001_0101_1001 0 (.ldYP 21) ∧
    reads 0b1001_0001_0101_1010 0 (.ldMY 21) ∧
    reads 0b1000_0001_0101_0000 0 (.ldZ 21) ∧
    reads 0b1001_0001_0101_0001 0 (.ldZP 21) ∧
    reads 0b1001_0001_0101_0010 0 (.ldMZ 21) ∧
    reads 0b1001_0001_0101_0100 0 (.lpmZ 21) ∧
    reads 0b1001_0001_0101_0101 0 (.lpmZP 21) ∧
    reads 0b1001_0101_0101_0110 0 (.lsr 21) ∧
    reads 0b1001_0101_0101_0001 0 (.neg 21) ∧
    reads 0b1001_0001_0101_1111 0 (.pop 21) ∧
    reads 0b1001_0011_0101_1111 0 (.push 21) ∧
    reads 0b1001_0101_0101_0111 0 (.ror 21) ∧
    reads 0b1001_0011_0101_1100 0 (.stX 21) ∧
    reads 0b1001_0011_0101_1101 0 (.stXP 21) ∧
    reads 0b1001_0011_0101_1110 0 (.stMX 21) ∧
    reads 0b1000_0011_0101_1000 0 (.stY 21) ∧
    reads 0b1001_0011_0101_1001 0 (.stYP 21) ∧
    reads 0b1001_0011_0101_1010 0 (.stMY 21) ∧
    reads 0b1000_0011_0101_0000 0 (.stZ 21) ∧
    reads 0b1001_0011_0101_0001 0 (.stZP 21) ∧
    reads 0b1001_0011_0101_0010 0 (.stMZ 21) ∧
    reads 0b1001_0101_0101_0010 0 (.swap 21) ∧
    reads 0b1001_0011_0101_0100 0 (.xch 21) := by decide

/-- F_S, from each row's `encoding` (30_encoding.md R151). -/
theorem test_decode_F_S :
    reads 0b1001_0100_1101_1000 0 (.bclr 5) ∧
    reads 0b1001_0100_0101_1000 0 (.bset 5) := by decide

/-- F_RB, from each row's `encoding` (30_encoding.md R151). -/
theorem test_decode_F_RB :
    reads 0b1111_1001_0101_0110 0 (.bld 21 6) ∧
    reads 0b1111_1011_0101_0110 0 (.bst 21 6) ∧
    reads 0b1111_1101_0101_0110 0 (.sbrc 21 6) ∧
    reads 0b1111_1111_0101_0110 0 (.sbrs 21 6) := by decide

/-- F_BR, from each row's `encoding` (30_encoding.md R151). -/
theorem test_decode_F_BR :
    reads 0b1111_0110_1100_1110 0 (.brbc 6 0b1011001) ∧
    reads 0b1111_0010_1100_1110 0 (.brbs 6 0b1011001) := by decide

/-- F_0, from each row's `encoding` (30_encoding.md R151). -/
theorem test_decode_F_0 :
    reads 0b1001_0101_1001_1000 0 .brk ∧
    reads 0b1001_0101_0001_1001 0 .eicall ∧
    reads 0b1001_0100_0001_1001 0 .eijmp ∧
    reads 0b1001_0101_1101_1000 0 .elpm ∧
    reads 0b1001_0101_0000_1001 0 .icall ∧
    reads 0b1001_0100_0000_1001 0 .ijmp ∧
    reads 0b1001_0101_1100_1000 0 .lpm ∧
    reads 0b0000_0000_0000_0000 0 .nop ∧
    reads 0b1001_0101_0000_1000 0 .ret ∧
    reads 0b1001_0101_0001_1000 0 .reti ∧
    reads 0b1001_0101_1000_1000 0 .sleep ∧
    reads 0b1001_0101_1110_1000 0 .spm ∧
    reads 0b1001_0101_1111_1000 0 .spmZP ∧
    reads 0b1001_0101_1010_1000 0 .wdr := by decide

/-- F_ABS, from each row's `encoding` (30_encoding.md R151). -/
theorem test_decode_F_ABS :
    reads 0b1001_0101_0110_1111 0b1000_1001_1010_1001 (.call 0b1011011000100110101001) ∧
    reads 0b1001_0101_0110_1101 0b1000_1001_1010_1001 (.jmp 0b1011011000100110101001) := by decide

/-- F_IOB, from each row's `encoding` (30_encoding.md R151). -/
theorem test_decode_F_IOB :
    reads 0b1001_1000_1011_0110 0 (.cbi 0b10110 6) ∧
    reads 0b1001_1010_1011_0110 0 (.sbi 0b10110 6) ∧
    reads 0b1001_1001_1011_0110 0 (.sbic 0b10110 6) ∧
    reads 0b1001_1011_1011_0110 0 (.sbis 0b10110 6) := by decide

/-- F_K4, from each row's `encoding` (30_encoding.md R151). -/
theorem test_decode_F_K4 :
    reads 0b1001_0100_1001_1011 0 (.des 9) := by decide

/-- F_R3, from each row's `encoding` (30_encoding.md R151). -/
theorem test_decode_F_R3 :
    reads 0b0000_0011_0101_1010 0 (.fmul 21 18) ∧
    reads 0b0000_0011_1101_0010 0 (.fmuls 21 18) ∧
    reads 0b0000_0011_1101_1010 0 (.fmulsu 21 18) ∧
    reads 0b0000_0011_0101_0010 0 (.mulsu 21 18) := by decide

/-- F_IO, from each row's `encoding` (30_encoding.md R151). -/
theorem test_decode_F_IO :
    reads 0b1011_0101_0101_0110 0 (.inIo 21 0b100110) ∧
    reads 0b1011_1101_0101_0110 0 (.outIo 0b100110 21) := by decide

/-- F_LDS, from each row's `encoding` (30_encoding.md R151). -/
theorem test_decode_F_LDS :
    reads 0b1001_0001_0101_0000 0b1000_1001_1010_1011 (.lds 21 0x89AB) ∧
    reads 0b1001_0011_0101_0000 0b1000_1001_1010_1011 (.sts 0x89AB 21) := by decide

/-- F_Q, from each row's `encoding` (30_encoding.md R151). -/
theorem test_decode_F_Q :
    reads 0b1010_0101_0101_1101 0 (.lddY 21 0b101101) ∧
    reads 0b1010_0101_0101_0101 0 (.lddZ 21 0b101101) ∧
    reads 0b1010_0111_0101_1101 0 (.stdY 0b101101 21) ∧
    reads 0b1010_0111_0101_0101 0 (.stdZ 0b101101 21) := by decide

/-- F_W, from each row's `encoding` (30_encoding.md R151). -/
theorem test_decode_F_W :
    reads 0b0000_0001_0101_1010 0 (.movw 10 20) := by decide

/-- F_R4, from each row's `encoding` (30_encoding.md R151). -/
theorem test_decode_F_R4 :
    reads 0b0000_0010_0101_1010 0 (.muls 21 26) := by decide

/-- F_REL, from each row's `encoding` (30_encoding.md R151). -/
theorem test_decode_F_REL :
    reads 0b1101_1001_1010_0110 0 (.rcall 0x9A6) ∧
    reads 0b1100_1001_1010_0110 0 (.rjmp 0x9A6) := by decide
/-- 95_test_vectors.md sections 1.1 and 2.10. -/
theorem test_decode_vectors :
    reads 0x1FFF 0 (.adc 31 31) ∧ reads 0x1E00 0 (.adc 0 16) ∧ reads 0x0C45 0 (.add 4 5) ∧
    reads 0x8008 0 (.ldY 0) ∧ reads 0x8009 0 (.lddY 0 1) ∧ reads 0xA000 0 (.lddZ 0 32) ∧
    reads 0x9001 0 (.ldZP 0) ∧ reads 0x0100 0 (.movw 0 0) ∧ reads 0x0300 0 (.mulsu 16 16) ∧
    reads 0xFF07 0 (.sbrs 16 7) ∧ reads 0x95FF 0x0001 (.call 0x3F0001) := by decide

/-- Words of each class of 30_encoding.md R166. -/
theorem test_decode_reserved :
    (rejects 0x0001 ∧ rejects 0x00FF ∧ rejects 0x9003 ∧ rejects 0x93FB) ∧
    (rejects 0x9404 ∧ rejects 0x95F4 ∧ rejects 0x9429 ∧ rejects 0x9529) ∧
    (rejects 0x950B ∧ rejects 0x95FB ∧ rejects 0x9528 ∧ rejects 0x95B8) ∧
    (rejects 0xFF08 ∧ rejects 0xFFFF) :=
  ⟨by decide, by decide, by decide, by decide⟩

/-- The two-word test (30_encoding.md R158). -/
theorem test_two_word :
    [0x9000, 0x91F0, 0x9200, 0x940C, 0x940D, 0x940E, 0x95FF].all twoWord = true ∧
    [0x9001, 0x9204, 0x940B, 0x8008, 0x0000, 0xFFFF].any twoWord = false :=
  ⟨by decide, by decide⟩

/-- What the host asks: bits above `nbits` are 0, the second word lies above the first. -/
theorem test_decodeTableWord :
    decodeTableWord 16 0x0C12 = some (.add 1 2) ∧
    decodeTableWord 32 0x005C940E = some (.call 0x5C) ∧
    decodeTableWord 16 0x940E = some (.call 0) ∧ decodeTableWord 16 1 = none := by decide

/-! ## One step of each instruction -/

/-! ### Arithmetic, logic and multiplies -/

/-- 40_alu.md R211, the example. -/
theorem test_add :
    seen (run 0x0C12 0 (st [(1, 0x7F), (2, 0x01)])) [1, 0x5F] = some [1, 1, 0x80, 0x2C] := by decide

/-- 95_test_vectors.md section 2.1. -/
theorem test_add_carry :
    seen (run 0x0C12 0 (st [(1, 0x80), (2, 0x80)])) [1, 0x5F] = some [1, 1, 0, 0x1B] := by decide

/-- 95_test_vectors.md section 1.4, the scenario of the source. -/
theorem test_adc :
    seen (run 0x1C45 0 (st [(4, 10), (5, 20), (0x5F, 0x01)])) [4, 5, 0x5F] = some [1, 1, 31, 20, 0] := by decide

/-- 95_test_vectors.md section 2.1, ROL. -/
theorem test_adc_rol :
    seen (run 0x1C44 0 (st [(4, 0x80)])) [4, 0x5F] = some [1, 1, 0, 0x1B] := by decide

/-- 40_alu.md R213, the example. -/
theorem test_adiw :
    seen (run 0x9601 0 (st [(24, 0xFF), (25, 0xFF)])) [24, 25, 0x5F] = some [1, 2, 0, 0, 0x03] := by decide

/-- 95_test_vectors.md section 2.1. -/
theorem test_adiw_z :
    seen (run 0x96FF 0 (st [(30, 0xF0), (31, 0xFF)])) [30, 31, 0x5F] = some [1, 2, 0x2F, 0, 0x01] := by decide

/-- 40_alu.md R214, the example. -/
theorem test_sub :
    seen (run 0x1B01 0 (st [(16, 0x10), (17, 0x01)])) [16, 0x5F] = some [1, 1, 0x0F, 0x20] := by decide

/-- 95_test_vectors.md section 2.1. -/
theorem test_sub_overflow :
    seen (run 0x1812 0 (st [(1, 0x80), (2, 0x01)])) [1, 0x5F] = some [1, 1, 0x7F, 0x38] := by decide

/-- 40_alu.md R215, the example. -/
theorem test_subi :
    seen (run 0x5200 0 (st [(16, 0x10)])) [16, 0x5F] = some [1, 1, 0xF0, 0x15] := by decide

/-- 40_alu.md R216, the example: Z stays 0. -/
theorem test_sbc : seen (run 0x0B01 0 State.reset) [16, 0x5F] = some [1, 1, 0, 0] := by decide

/-- 95_test_vectors.md section 2.1: Z kept. -/
theorem test_sbc_chain :
    seen (run 0x0B01 0 (st [(0x5F, 0x02)])) [16, 0x5F] = some [1, 1, 0, 0x02] := by decide

/-- 40_alu.md R217, the example. -/
theorem test_sbci :
    seen (run 0x4010 0 (st [(0x5F, 0x03)])) [17, 0x5F] = some [1, 1, 0xFF, 0x35] := by decide

/-- 40_alu.md R218, the example. -/
theorem test_sbiw :
    seen (run 0x9701 0 State.reset) [24, 25, 0x5F] = some [1, 2, 0xFF, 0xFF, 0x15] := by decide

/-- 95_test_vectors.md section 2.1. -/
theorem test_sbiw_overflow :
    seen (run 0x9711 0 (st [(27, 0x80)])) [26, 27, 0x5F] = some [1, 2, 0xFF, 0x7F, 0x18] := by decide

/-- 40_alu.md R220, the example. -/
theorem test_and :
    seen (run 0x2034 0 (st [(3, 0xF0), (4, 0x0F), (0x5F, 0x1F)])) [3, 0x5F] = some [1, 1, 0, 0x03] := by decide

/-- 40_alu.md R221, the example. -/
theorem test_andi :
    seen (run 0x7840 0 (st [(20, 0xFF)])) [20, 0x5F] = some [1, 1, 0x80, 0x14] := by decide

/-- 40_alu.md R222, the example. -/
theorem test_or :
    seen (run 0x2834 0 (st [(3, 0x80), (4, 0x01)])) [3, 0x5F] = some [1, 1, 0x81, 0x14] := by decide

/-- 40_alu.md R222, the example. -/
theorem test_ori : seen (run 0x6000 0 State.reset) [16, 0x5F] = some [1, 1, 0, 0x02] := by decide

/-- 40_alu.md R223, the example. -/
theorem test_eor :
    seen (run 0x2455 0 (st [(5, 0x55)])) [5, 0x5F] = some [1, 1, 0, 0x02] := by decide

/-- 40_alu.md R224, the example. -/
theorem test_com :
    seen (run 0x9460 0 (st [(6, 0xFF)])) [6, 0x5F] = some [1, 1, 0, 0x03] := by decide

/-- 40_alu.md R225, the example. -/
theorem test_neg :
    seen (run 0x9471 0 (st [(7, 0x80)])) [7, 0x5F] = some [1, 1, 0x80, 0x0D] := by decide

/-- 40_alu.md R225, the example. -/
theorem test_neg_one :
    seen (run 0x9471 0 (st [(7, 0x01)])) [7, 0x5F] = some [1, 1, 0xFF, 0x35] := by decide

/-- 40_alu.md R226, the example. -/
theorem test_inc :
    seen (run 0x9483 0 (st [(8, 0x7F)])) [8, 0x5F] = some [1, 1, 0x80, 0x0C] := by decide

/-- 95_test_vectors.md section 2.1: C not touched. -/
theorem test_inc_wraps :
    seen (run 0x9443 0 (st [(4, 0xFF)])) [4, 0x5F] = some [1, 1, 0, 0x02] := by decide

/-- 40_alu.md R227, the example. -/
theorem test_dec :
    seen (run 0x949A 0 (st [(9, 0x80)])) [9, 0x5F] = some [1, 1, 0x7F, 0x18] := by decide

/-- 40_alu.md R230, the example. -/
theorem test_mul :
    seen (run 0x9C23 0 (st [(2, 0xFF), (3, 0xFF)])) [0, 1, 0x5F] = some [1, 2, 0x01, 0xFE, 0x01] := by decide

/-- 40_alu.md R231, the example. -/
theorem test_muls :
    seen (run 0x0201 0 (st [(16, 0xFF), (17, 0xFF)])) [0, 1, 0x5F] = some [1, 2, 1, 0, 0] := by decide

/-- 40_alu.md R232, the example. -/
theorem test_mulsu :
    seen (run 0x0301 0 (st [(16, 0xFF), (17, 0xFF)])) [0, 1, 0x5F] = some [1, 2, 0x01, 0xFF, 0x01] := by decide

/-- 95_test_vectors.md section 2.4. -/
theorem test_fmul :
    seen (run 0x0309 0 (st [(16, 0xC0), (17, 0xC0)])) [0, 1, 0x5F] = some [1, 2, 0, 0x20, 0x01] := by decide

/-- 40_alu.md R234, the example. -/
theorem test_fmuls :
    seen (run 0x0381 0 (st [(16, 0x80), (17, 0x80)])) [0, 1, 0x5F] = some [1, 2, 0, 0x80, 0] := by decide

/-- 40_alu.md R235, the example. -/
theorem test_fmulsu :
    seen (run 0x0389 0 (st [(16, 0x80), (17, 0xFF)])) [0, 1, 0x5F] = some [1, 2, 0, 0x01, 0x01] := by decide

/-! ### Jumps, calls, returns, compares, skips and branches -/

/-- 41_branch.md R300, the example: it jumps to itself. -/
theorem test_rjmp : seen (run 0xCFFF 0 (at_ 5 State.reset)) [] = some [5, 2] := by decide

/-- 95_test_vectors.md section 2.5: mod L. -/
theorem test_rjmp_wraps : seen (run 0xCFFE 0 State.reset) [] = some [0xFF, 2] := by decide

/-- 41_branch.md R301, the example. -/
theorem test_ijmp : seen (run 0x9409 0 (st [(30, 0x40)])) [] = some [0x40, 2] := by decide

/-- 41_branch.md R302, the example. -/
theorem test_eijmp :
    seen (run 0x9419 0 (big (st [(30, 0x40), (0x5C, 1)]))) [] = some [0x10040, 2] := by decide

/-- 95_test_vectors.md section 2.5: EIND dropped mod L. -/
theorem test_eijmp_small :
    seen (run 0x9419 0 (st [(30, 0x40), (0x5C, 1)])) [] = some [0x40, 2] := by decide

/-- 41_branch.md R303, the example. -/
theorem test_jmp : seen (run 0x940C 0x80 State.reset) [] = some [0x80, 3] := by decide

/-- 41_branch.md R304, the example. -/
theorem test_rcall :
    seen (run 0xD020 0 (at_ 0x10 (st [(0x5D, 0xFF), (0x5E, 0x10)]))) [0x10FF, 0x10FE, 0x5D, 0x5E] = some [0x31, 3, 0x11, 0, 0xFD, 0x10] := by decide

/-- 41_branch.md R305, the example. -/
theorem test_icall :
    seen (run 0x9509 0 (at_ 0x10 (st [(0x5D, 0xFF), (0x5E, 0x10), (30, 0x80)]))) [0x10FF, 0x10FE, 0x5D, 0x5E] = some [0x80, 3, 0x11, 0, 0xFD, 0x10] := by decide

/-- 41_branch.md R306, the example. -/
theorem test_eicall :
    seen (run 0x9519 0 (at_ 0x10 (big (st [(0x5D, 0xFF), (0x5E, 0x10), (30, 0x80), (0x5C, 1)])))) [0x10FF, 0x10FE, 0x10FD, 0x5D] = some [0x10080, 4, 0x11, 0, 0, 0xFC] := by decide

/-- 95_test_vectors.md section 1.5, PC16 mode. -/
theorem test_call :
    seen (run 0x940E 0x5C (st [(0x5D, 150), (0x5E, 0)])) [150, 149, 0x5D, 0x5E] = some [0x5C, 4, 2, 0, 148, 0] := by decide

/-- 95_test_vectors.md section 1.5, PC22 mode. -/
theorem test_call_pc22 :
    seen (run 0x940E 0x5C (big (st [(0x5D, 150), (0x5E, 0)]))) [150, 149, 148, 0x5D] = some [0x5C, 5, 2, 0, 0, 147] := by decide

/-- 41_branch.md R308, the example. -/
theorem test_ret :
    seen (run 0x9508 0 (st [(0x5D, 0xFD), (0x5E, 0x10), (0x10FF, 0x11)])) [0x5D, 0x5E, 0x5F] = some [0x11, 4, 0xFF, 0x10, 0] := by decide

/-- 95_test_vectors.md section 2.5. -/
theorem test_ret_pc22 :
    seen (run 0x9508 0 (big (st [(0x5D, 0xFC), (0x5E, 0x10), (0x10FD, 1)]))) [0x5D, 0x5E] = some [0x10000, 5, 0xFF, 0x10] := by decide

/-- 41_branch.md R309, the example. -/
theorem test_reti :
    seen (run 0x9518 0 (st [(0x5D, 0xFD), (0x5E, 0x10), (0x10FF, 0x11)])) [0x5D, 0x5E, 0x5F] = some [0x11, 4, 0xFF, 0x10, 0x80] := by decide

/-- 41_branch.md R310, the example: JMP is skipped. -/
theorem test_cpse_two_words :
    seen (run 0x1012 0x940C (st [(1, 5), (2, 5)])) [] = some [3, 3] := by decide

/-- 41_branch.md R310, the example. -/
theorem test_cpse_fails : seen (run 0x1012 0 (st [(1, 5), (2, 6)])) [] = some [1, 1] := by decide

/-- 41_branch.md R311, the example. -/
theorem test_cp :
    seen (run 0x1701 0 (st [(16, 5), (17, 5)])) [16, 0x5F] = some [1, 1, 5, 0x02] := by decide

/-- 41_branch.md R312, the example. -/
theorem test_cpc :
    seen (run 0x0701 0 (st [(0x5F, 0x03)])) [16, 0x5F] = some [1, 1, 0, 0x35] := by decide

/-- 95_test_vectors.md section 2.2: Z stays 0. -/
theorem test_cpc_chain : seen (run 0x0412 0 State.reset) [0x5F] = some [1, 1, 0] := by decide

/-- 41_branch.md R313, the example. -/
theorem test_cpi :
    seen (run 0x3401 0 (st [(16, 0x40)])) [16, 0x5F] = some [1, 1, 0x40, 0x35] := by decide

/-- 41_branch.md R314, the example. -/
theorem test_sbrc : seen (run 0xFC33 0 (st [(3, 0xF7)])) [] = some [2, 2] := by decide

/-- 95_test_vectors.md section 2.6. -/
theorem test_sbrc_fails : seen (run 0xFC33 0 (st [(3, 0x08)])) [] = some [1, 1] := by decide

/-- 41_branch.md R315, the example: LDS is skipped. -/
theorem test_sbrs : seen (run 0xFE37 0x9000 (st [(3, 0x80)])) [] = some [3, 3] := by decide

/-- 41_branch.md R316, the example. -/
theorem test_sbic : seen (run 0x9928 0 State.reset) [] = some [2, 2] := by decide

/-- 41_branch.md R317, the example. -/
theorem test_sbis : seen (run 0x9BF8 0 (st [(0x3F, 1)])) [] = some [2, 2] := by decide

/-- 41_branch.md R330, the example. -/
theorem test_brbs :
    seen (run 0xF3E9 0 (at_ 0x10 (st [(0x5F, 0x02)]))) [] = some [0x0E, 2] := by decide

/-- 41_branch.md R330, the example. -/
theorem test_brbs_not_taken :
    seen (run 0xF3E9 0 (at_ 0x10 State.reset)) [] = some [0x11, 1] := by decide

/-- 41_branch.md R331, the example. -/
theorem test_brbc : seen (run 0xF5F9 0 (at_ 0x10 State.reset)) [] = some [0x50, 2] := by decide

/-! ### Bits and shifts -/

/-- 42_bit.md R360, the example. -/
theorem test_sbi :
    seen (run 0x9A2B 0 (st [(0x25, 0x01)])) [0x25, 0x5F] = some [1, 2, 0x09, 0] := by decide

/-- 42_bit.md R361, the example. -/
theorem test_cbi : seen (run 0x9828 0 (st [(0x25, 0xFF)])) [0x25] = some [1, 2, 0xFE] := by decide

/-- 42_bit.md R362, the example. -/
theorem test_lsr :
    seen (run 0x9446 0 (st [(4, 0x01)])) [4, 0x5F] = some [1, 1, 0, 0x1B] := by decide

/-- 42_bit.md R363, the example. -/
theorem test_ror :
    seen (run 0x9447 0 (st [(4, 0x01), (0x5F, 0x01)])) [4, 0x5F] = some [1, 1, 0x80, 0x15] := by decide

/-- 42_bit.md R364, the example. -/
theorem test_asr :
    seen (run 0x9445 0 (st [(4, 0x81)])) [4, 0x5F] = some [1, 1, 0xC0, 0x15] := by decide

/-- 42_bit.md R365, the example. -/
theorem test_swap :
    seen (run 0x9442 0 (st [(4, 0x12)])) [4, 0x5F] = some [1, 1, 0x21, 0] := by decide

/-- 42_bit.md R366, the example. -/
theorem test_bset : seen (run 0x9478 0 State.reset) [0x5F] = some [1, 1, 0x80] := by decide

/-- 42_bit.md R367, the example. -/
theorem test_bclr :
    seen (run 0x9498 0 (st [(0x5F, 0xFF)])) [0x5F] = some [1, 1, 0xFD] := by decide

/-- 42_bit.md R368, the example. -/
theorem test_bst :
    seen (run 0xFA43 0 (st [(4, 0x08)])) [4, 0x5F] = some [1, 1, 0x08, 0x40] := by decide

/-- 42_bit.md R369, the example. -/
theorem test_bld :
    seen (run 0xF847 0 (st [(0x5F, 0x40)])) [4, 0x5F] = some [1, 1, 0x80, 0x40] := by decide

/-- 95_test_vectors.md section 2.7. -/
theorem test_bld_clears :
    seen (run 0xF840 0 (st [(4, 0xFF)])) [4, 0x5F] = some [1, 1, 0xFE, 0] := by decide

/-! ### Data transfer -/

/-- 43_transfer.md R400, the example. -/
theorem test_mov : seen (run 0x2C21 0 (st [(1, 0x42)])) [2] = some [1, 1, 0x42] := by decide

/-- 43_transfer.md R401, the example. -/
theorem test_movw :
    seen (run 0x0121 0 (st [(2, 0x34), (3, 0x12)])) [4, 5] = some [1, 1, 0x34, 0x12] := by decide

/-- 43_transfer.md R402, the example. -/
theorem test_ldi : seen (run 0xEAFB 0 State.reset) [31] = some [1, 1, 0xAB] := by decide

/-- 43_transfer.md R403, the example. -/
theorem test_ld_x :
    seen (run 0x900C 0 (st [(27, 2), (0x200, 0x5A)])) [0] = some [1, 2, 0x5A] := by decide

/-- 95_test_vectors.md section 2.8. -/
theorem test_ld_x_own_pointer :
    seen (run 0x91AC 0 (st [(27, 2), (0x200, 0x77)])) [26, 27] = some [1, 2, 0x77, 2] := by decide

/-- 43_transfer.md R404, the example. -/
theorem test_ld_xp :
    seen (run 0x900D 0 (st [(27, 2), (0x200, 0x5A)])) [0, 26, 27] = some [1, 2, 0x5A, 1, 2] := by decide

/-- 43_transfer.md R405, the example. -/
theorem test_ld_mx :
    seen (run 0x900E 0 (st [(27, 2), (0x1FF, 0x5A)])) [0, 26, 27] = some [1, 3, 0x5A, 0xFF, 1] := by decide

/-- 43_transfer.md R406, the example. -/
theorem test_ld_y :
    seen (run 0x8018 0 (st [(29, 2), (0x200, 0x5A)])) [1] = some [1, 2, 0x5A] := by decide

/-- 43_transfer.md R407, the example of Z+ read on Y. -/
theorem test_ld_yp :
    seen (run 0x9019 0 (st [(28, 0xFF), (29, 2), (0x2FF, 0x5A)])) [1, 28, 29] = some [1, 2, 0x5A, 0, 3] := by decide

/-- 43_transfer.md R408, the example of -Z read on Y. -/
theorem test_ld_my :
    seen (run 0x901A 0 (st [(29, 2), (0x1FF, 0x5A)])) [1, 28, 29] = some [1, 3, 0x5A, 0xFF, 1] := by decide

/-- 43_transfer.md R406, the example of Y read on Z. -/
theorem test_ld_z :
    seen (run 0x8010 0 (st [(31, 2), (0x200, 0x5A)])) [1] = some [1, 2, 0x5A] := by decide

/-- 43_transfer.md R407, the example. -/
theorem test_ld_zp :
    seen (run 0x9011 0 (st [(30, 0xFF), (31, 2), (0x2FF, 0x5A)])) [1, 30, 31] = some [1, 2, 0x5A, 0, 3] := by decide

/-- 43_transfer.md R408, the example. -/
theorem test_ld_mz :
    seen (run 0x9012 0 (st [(31, 2), (0x1FF, 0x5A)])) [1, 30, 31] = some [1, 3, 0x5A, 0xFF, 1] := by decide

/-- 43_transfer.md R409, the example. -/
theorem test_ldd_y :
    seen (run 0xAD8F 0 (st [(29, 2), (0x23F, 0x77)])) [24] = some [1, 2, 0x77] := by decide

/-- 43_transfer.md R409, with the word of 95_test_vectors.md section 2.10: Z+32. -/
theorem test_ldd_z :
    seen (run 0xA000 0 (st [(31, 2), (0x220, 0x77)])) [0] = some [1, 2, 0x77] := by decide

/-- 43_transfer.md R413, the example. -/
theorem test_lds :
    seen (run 0x9050 0x100 (st [(0x100, 0x99)])) [5] = some [2, 2, 0x99] := by decide

/-- 43_transfer.md R415, the example. -/
theorem test_st_x :
    seen (run 0x927C 0 (st [(27, 3), (7, 0x66)])) [0x300] = some [1, 2, 0x66] := by decide

/-- 43_transfer.md R416, the example. -/
theorem test_st_xp :
    seen (run 0x927D 0 (st [(26, 0xFF), (27, 3), (7, 0x66)])) [0x3FF, 26, 27] = some [1, 2, 0x66, 0, 4] := by decide

/-- 43_transfer.md R417, the example. -/
theorem test_st_mx :
    seen (run 0x927E 0 (st [(27, 3), (7, 0x66)])) [0x2FF, 26, 27] = some [1, 2, 0x66, 0xFF, 2] := by decide

/-- 43_transfer.md R418, the example of Z read on Y. -/
theorem test_st_y :
    seen (run 0x8278 0 (st [(29, 3), (7, 0x66)])) [0x300] = some [1, 2, 0x66] := by decide

/-- 43_transfer.md R419, the example. -/
theorem test_st_yp :
    seen (run 0x9279 0 (st [(29, 3), (7, 0x66)])) [0x300, 28, 29] = some [1, 2, 0x66, 1, 3] := by decide

/-- 43_transfer.md R420, the example. -/
theorem test_st_my :
    seen (run 0x927A 0 (st [(29, 3), (7, 0x66)])) [0x2FF, 28, 29] = some [1, 2, 0x66, 0xFF, 2] := by decide

/-- 43_transfer.md R421, the example of Z read on Y. -/
theorem test_std_y :
    seen (run 0x8279 0 (st [(29, 3), (7, 0x66)])) [0x301] = some [1, 2, 0x66] := by decide

/-- 43_transfer.md R418, the example. -/
theorem test_st_z :
    seen (run 0x8270 0 (st [(31, 3), (7, 0x66)])) [0x300] = some [1, 2, 0x66] := by decide

/-- 43_transfer.md R419, the example of Y read on Z. -/
theorem test_st_zp :
    seen (run 0x9271 0 (st [(31, 3), (7, 0x66)])) [0x300, 30, 31] = some [1, 2, 0x66, 1, 3] := by decide

/-- 43_transfer.md R420, the example of Y read on Z. -/
theorem test_st_mz :
    seen (run 0x9272 0 (st [(31, 3), (7, 0x66)])) [0x2FF, 30, 31] = some [1, 2, 0x66, 0xFF, 2] := by decide

/-- 43_transfer.md R421, the example. -/
theorem test_std_z :
    seen (run 0x8271 0 (st [(31, 3), (7, 0x66)])) [0x301] = some [1, 2, 0x66] := by decide

/-- 43_transfer.md R426, the example. -/
theorem test_sts :
    seen (run 0x9270 0x400 (st [(7, 0x66)])) [0x400] = some [2, 2, 0x66] := by decide

/-- 43_transfer.md R427, the example. -/
theorem test_lpm :
    seen (run 0x95C8 0 (prog_ 0x10 0xBEEF (st [(30, 0x21)]))) [0] = some [1, 3, 0xBE] := by decide

/-- 43_transfer.md R428, the example. -/
theorem test_lpm_z :
    seen (run 0x9044 0 (prog_ 0x10 0xBEEF (st [(30, 0x20)]))) [4] = some [1, 3, 0xEF] := by decide

/-- 43_transfer.md R429, the example. -/
theorem test_lpm_zp :
    seen (run 0x9045 0 (prog_ 0x10 0xBEEF (st [(30, 0x21)]))) [4, 30] = some [1, 3, 0xBE, 0x22] := by decide

/-- 43_transfer.md R430, the example. -/
theorem test_elpm :
    seen (run 0x95D8 0 (prog_ 0x8000 0xBEEF (big (st [(30, 1), (0x5B, 1)])))) [0] = some [1, 3, 0xBE] := by decide

/-- 43_transfer.md R431, the example. -/
theorem test_elpm_z :
    seen (run 0x9046 0 (prog_ 0x10 0xBEEF (st [(30, 0x20)]))) [4] = some [1, 3, 0xEF] := by decide

/-- 43_transfer.md R432, the example: RAMPZ takes the carry. -/
theorem test_elpm_zp :
    seen (run 0x9047 0 (prog_ 0x7FFF 0xBEEF (big (st [(30, 0xFF), (31, 0xFF)])))) [4, 30, 31, 0x5B] = some [1, 3, 0xBE, 0, 0, 1] := by decide

/-- 43_transfer.md R434, the example. -/
theorem test_in : seen (run 0xB70F 0 (st [(0x5F, 0x83)])) [16] = some [1, 1, 0x83] := by decide

/-- 43_transfer.md R435, the example. -/
theorem test_out : seen (run 0xBF0E 0 (st [(16, 0x12)])) [0x5E] = some [1, 1, 0x12] := by decide

/-- 43_transfer.md R436, the example. -/
theorem test_push :
    seen (run 0x923F 0 (st [(0x5D, 0xFF), (0x5E, 0x10), (3, 0xAA)])) [0x10FF, 0x5D, 0x5E] = some [1, 2, 0xAA, 0xFE, 0x10] := by decide

/-- 95_test_vectors.md section 2.8. -/
theorem test_push_at_zero :
    seen (run 0x923F 0 (st [(0x5D, 0), (0x5E, 0), (3, 0xAA)])) [0, 0x5D, 0x5E] = some [1, 2, 0xAA, 0xFF, 0xFF] := by decide

/-- 43_transfer.md R437, the example. -/
theorem test_pop :
    seen (run 0x903F 0 (st [(0x5D, 0xFE), (0x5E, 0x10), (0x10FF, 0xAA)])) [3, 0x5D, 0x5E] = some [1, 2, 0xAA, 0xFF, 0x10] := by decide

/-- 43_transfer.md R440, the example. -/
theorem test_las :
    seen (run 0x9245 0 (st [(31, 3), (0x300, 0x11), (4, 0x22)])) [0x300, 4] = some [1, 2, 0x33, 0x11] := by decide

/-- 43_transfer.md R441, the example. -/
theorem test_lac :
    seen (run 0x9246 0 (st [(31, 3), (0x300, 0x33), (4, 0x22)])) [0x300, 4] = some [1, 2, 0x11, 0x33] := by decide

/-- 43_transfer.md R442, the example. -/
theorem test_lat :
    seen (run 0x9247 0 (st [(31, 3), (0x300, 0x33), (4, 0x22)])) [0x300, 4] = some [1, 2, 0x11, 0x33] := by decide

/-- 43_transfer.md R443, the example. -/
theorem test_xch :
    seen (run 0x9244 0 (st [(31, 3), (0x300, 0x11), (4, 0x22)])) [0x300, 4] = some [1, 2, 0x22, 0x11] := by decide

/-! ### No-operations (95_test_vectors.md section 2.9) -/

/-- NOP, SLEEP, BREAK, DES 0, SPM, SPM Z+ and three reserved words: pc 1, cycles 1, no byte changed. -/
theorem test_no_operations :
    ∀ w ∈ [0x0000, 0x9588, 0x9598, 0x940B, 0x95E8, 0x95F8, 0x0001, 0xFF08, 0xFFFF],
      (run w 0 State.reset).map (fun t => (t.pc, t.cycles, t.data, t.calls)) =
        some (1, 1, State.reset.data, []) := by decide

/-- WDR: one notification (44_mcu_control.md R473). -/
theorem test_wdr : (run 0x95A8 0 State.reset).map (fun t => (t.pc, t.cycles, t.data, t.calls)) =
    some (1, 1, State.reset.data, [.watchdogReset]) := by decide

/-! ### Faults (95_test_vectors.md section 2.11) -/

theorem test_undefined_combinations :
    ∀ w ∈ [0x91AD, 0x93AD, 0x93E1, 0x91E5],
      faultOf (stepOn w 0 State.reset) = some .undefinedCombination := by decide

theorem test_data_faults :
    faultOf (stepOn 0x900E 0 State.reset) = some (.dataOutOfRange 0xFFFF) ∧
    faultOf (stepOn 0xAD8F 0 (st [(28, 0xFF), (29, 0x20)])) = some (.dataOutOfRange 0x213E) ∧
    faultOf (stepOn 0x903F 0 State.reset) = some (.dataOutOfRange 0x2100) ∧
    faultOf (stepOn 0x923F 0 (st [(0x5D, 0xFF), (0x5E, 0xFF)])) =
      some (.dataOutOfRange 0xFFFF) := by decide

theorem test_program_faults :
    faultOf (stepOn 0x9044 0 (st [(31, 2)])) = some (.progOutOfRange 0x100) ∧
    faultOf (stepOn 0x940C 0 (at_ 0xFF State.reset)) = some (.progOutOfRange 0x100) ∧
    faultOf (stepOn 0x9BF8 0 (at_ 0xFF (st [(0x3F, 1)]))) = some (.progOutOfRange 0x100) ∧
    faultOf (stepOn 0x1012 0 (at_ 0xFF State.reset)) = some (.progOutOfRange 0x100) := by decide

/-- 60_exceptions.md R501 and 20_memory.md R104: an environment that writes a register it does not own,
and a chain out of order. -/
theorem test_environment_faults :
    faultOf (stepOn 0x9050 0x100 { State.reset with
      readHooks := [0x100], replies := [⟨0, false, 0, .op (.rawWrite 0x5F 1) .done⟩] }) =
        some .envContract ∧
    faultOf (step { State.reset with events := [⟨9, 1⟩, ⟨3, 2⟩] }) =
      some .schedulerInvariant := by decide

/-- 20_memory.md R104: a bus write, or an interrupt operation, of the environment at SREG goes on when it
leaves the byte as it stands, and breaks the contract when it changes it. -/
theorem test_environment_keeps_sreg :
    [(0 : Byte), 1].map (fun v => faultOf (stepOn 0x9050 0x100 { State.reset with
      readHooks := [0x100],
      replies := [⟨0, false, 0, .busWrite 0x5F v 0xFF false .done .done⟩] })) =
        [none, some .envContract] ∧
    [(0x80 : Byte), 0].map (fun f => faultOf (stepOn 0x9050 0x100 { st [(0x5F, f)] with
      readHooks := [0x100],
      replies := [⟨0, false, 0, .op (.setInterruptFlag ⟨4, 0x60, 1, 0x5F, 0x80, .edge, false⟩)
        .done⟩] })) = [none, some .envContract] := by decide

/-! ### Hooks (95_test_vectors.md sections 2.7 and 2.8) -/

/-- SBI with a write hook that handles the write: the byte stays, and the call is seen. -/
theorem test_sbi_hooked :
    (run 0x9A2B 0 { st [(0x25, 0x01)] with
      writeHooks := [0x25], replies := [answer 0 true] }).map
        (fun t => (t.cycles, t.byte 0x25, t.calls)) =
      some (2, 0x01, [.writeHook 0x09 0x01 0x25 0x08]) := by decide

/-- LDS with a read hook that answers 0x1AB. -/
theorem test_lds_hooked :
    (run 0x9050 0x100 { st [(0x100, 0x11)] with
      readHooks := [0x100], replies := [answer 0x1AB false] }).map
        (fun t => (t.cycles, t.byte 5, t.byte 0x100, t.calls)) =
      some (2, 0xAB, 0x11, [.readHook 0x100]) := by decide

/-- STS with a write hook that handles the write and one that does not. -/
theorem test_sts_hooked :
    [true, false].map (fun b => (run 0x9270 0x400 { st [(7, 0x66), (0x400, 0x01)] with
      writeHooks := [0x400], replies := [answer 0 b] }).map (fun t => t.byte 0x400)) =
      [some 0x01, some 0x66] := by decide

/-! ### The interrupt controller (95_test_vectors.md section 2.12) -/

/-- The data bytes and the pending vectors after an operation. -/
def irq (r : Except Fault State) (as : List Nat) : Option (List Nat × List Nat) :=
  (valueOf r).map fun t =>
    (as.map (fun a => (t.byte a).toNat), t.pending.map Descriptor.vectorAddress)

/-- I1 to I3. -/
theorem test_setInterruptFlag :
    irq (setInterruptFlag q4 (st [(0x40, 1)])) [0x30] = some ([1], [4]) ∧
    irq (setInterruptFlag q4 State.reset) [0x30] = some ([1], []) ∧
    irq (setInterruptFlag q6i (st [(0x32, 0xFF), (0x42, 0x02)])) [0x32] = some ([0xFB], [6]) := by
  decide

/-- I4 to I7. -/
theorem test_updateInterruptEnable :
    irq (updateInterruptEnable q4 1 (st [(0x30, 1)])) [0x40] = some ([0], [4]) ∧
    irq (updateInterruptEnable q4 1 State.reset) [0x40] = some ([0], []) ∧
    irq (updateInterruptEnable q4 0 { st [(0x30, 1)] with pending := [q4] }) [0x30] =
      some ([1], []) ∧
    irq (updateInterruptEnable q6i 2 State.reset) [0x32] = some ([0], [6]) := by decide

/-- I8 to I11. -/
theorem test_clearInterrupt :
    irq (clearInterrupt q6i true { st [(0x32, 0xFF)] with pending := [q6i] }) [0x32] =
      some ([0xFB], []) ∧
    irq (clearInterruptByFlag q4 1 { st [(0x30, 3)] with pending := [q4, q10] }) [0x30] =
      some ([2], [10]) ∧
    irq (clearInterruptByFlag q4 2 { st [(0x30, 3)] with pending := [q4, q10] }) [0x30] =
      some ([3], [4, 10]) ∧
    irq (clearInterrupt q10 true { State.reset with pending := [q4, q10] }) [] =
      some ([], [4]) := by decide

/-- I12: the new descriptor takes the old one's place. -/
theorem test_queueInterrupt_replaces :
    (valueOf (queueInterrupt { q4 with kind := .level } { State.reset with pending := [q4] })).map
      State.pending = some [{ q4 with kind := .level }] := by decide

/-- Section 1.7: with 4 and 10 pending, the step of a NOP ends with the dispatch of 4. -/
theorem test_dispatch_least :
    (run 0 0 { st [(0x5F, 0x80), (0x30, 1), (0x31, 1)] with pending := [q4, q10] }).map
      (fun t => ([t.pc, t.cycles, t.sp.toNat, t.sreg.toNat],
        [0x20FF, 0x20FE, 0x30, 0x31].map t.byte, t.pending)) =
      some ([4, 3, 0x20FD, 0], [1, 0, 0, 1], [q10]) := by decide

/-- T1: with I clear nothing is dispatched. -/
theorem test_dispatch_disabled :
    (valueOf (tick { State.reset with pending := [q4] })).map
      (fun t => (t.pc, t.cycles, t.pending)) = some (0, 0, [q4]) := by decide

/-- T3: dispatch in PC22 mode. -/
theorem test_dispatch_pc22 :
    seen (valueOf (tick (at_ 0x12345 (big { st [(0x5F, 0x80)] with
      pending := [{ q4 with vectorAddress := 2 }] }))))
      [0x20FF, 0x20FE, 0x20FD, 0x5D, 0x5E, 0x5F] =
        some [2, 2, 0x45, 0x23, 0x01, 0xFC, 0x20, 0] := by decide

/-- T4, first tick: a level-sensitive vector stays pending and its flag byte is untouched. -/
theorem test_dispatch_level :
    irq (tick { st [(0x5F, 0x80), (0x32, 2)] with
      pending := [⟨6, 0x42, 1, 0x32, 2, .level, false⟩] }) [0x32] = some ([2], [6]) := by decide

/-- T5: the event's callback raises vector 8, and the same tick dispatches it. -/
theorem test_event_then_dispatch :
    (run 0 0 { st [(0x5F, 0x80), (0x40, 1)] with
      events := [⟨1, 7⟩], replies := [⟨0, false, 0,
        .op (.setInterruptFlag { q4 with vectorAddress := 8 }) .done⟩] }).map
      (fun t => (t.pc, t.cycles, t.sp.toNat, t.events, t.calls)) =
      some (8, 3, 0x20FD, [], [.callback 7]) := by decide

/-! ### The scheduler (95_test_vectors.md section 2.13) -/

/-- E1: at least one cycle ahead. -/
theorem test_event_at_least_one :
    ∀ n ∈ [(0 : Int), -5], (valueOf (addClockEvent 0 1 n State.reset)).map
      (fun p => (p.1, p.2.events)) = some (1, [⟨1, 1⟩]) := by decide

/-- E2: the order of a tie. -/
theorem test_event_tie :
    [TieOrder.fifo, .lifo].map (fun o => (valueOf (addClockEvent 0 2 5
      { State.reset with events := [⟨5, 1⟩], cfg := { Config.standard with tieOrder := o } })).map
        (fun p => p.2.events)) = [some [⟨5, 1⟩, ⟨5, 2⟩], some [⟨5, 2⟩, ⟨5, 1⟩]] := by decide

/-- E4 and E5: the first entry with the id goes; an update answers whether there was one. -/
theorem test_event_clear_update :
    (valueOf (clearClockEvent 1 { State.reset with events := [⟨5, 1⟩, ⟨8, 1⟩] })).map
      (fun p => (p.1, p.2.events)) = some (true, [⟨8, 1⟩]) ∧
    (valueOf (updateClockEvent 0 1 3 { State.reset with events := [⟨5, 1⟩] })).map
      (fun p => (p.1, p.2.events)) = some (true, [⟨3, 1⟩]) := by decide

/-- E6: an update of an absent event, with UPDATE_ADDS_IF_ABSENT true and false. -/
theorem test_event_update_absent :
    [true, false].map (fun b => (valueOf (updateClockEvent 0 2 3
      { State.reset with cfg := { Config.standard with updateAddsIfAbsent := b } })).map
        (fun p => (p.1, p.2.events))) = [some (false, [⟨3, 2⟩]), some (false, [])] := by decide

/-- Section 1.9: an event fires at its due cycle, not before. -/
theorem test_event_due :
    [3, 4].map (fun n => (valueOf (tick { State.reset with
      cycles := n, events := [⟨4, 1⟩], replies := [answer 0 false] })).map
        (fun t => (t.events, t.calls))) =
      [some ([⟨4, 1⟩], []), some ([], [.callback 1])] := by decide

/-- E7: a callback that schedules its own event again leaves exactly one entry. -/
theorem test_event_reschedules :
    (run 0 0 { State.reset with events := [⟨1, 5⟩], replies := [⟨0, false, 0,
      .op (.addClockEvent 5 2) .done⟩] }).map (fun t => t.events) = some [⟨3, 5⟩] := by decide

/-! ### Construction and reset (95_test_vectors.md section 2.14) -/

/-- Z1 and Z2. -/
theorem test_construct :
    State.reset.sp = 0x20FF ∧ State.reset.pc = 0 ∧ State.reset.cycles = 0 ∧ State.reset.sreg = 0 ∧
    (State.construct { Config.standard with sramBytes := 2048 } []).sp = 0x08FF := by decide

/-- Z3. -/
theorem test_reset :
    (valueOf (driverAct .reset { at_ 0x40 (st [(5, 7), (0x5F, 0x80), (0x300, 1)]) with
      cycles := 1234, pending := [q4], events := [⟨9, 1⟩], readHooks := [0x100] })).map
      (fun p => ((p.2.data, p.2.pc, p.2.cycles), (p.2.pending, p.2.events), p.2.readHooks)) =
      some (([(0x5D, 0xFF), (0x5E, 0x20)], 0, 1234), ([], []), [0x100]) := by decide

/-! ### The driver, the end of a run and a launch (60_exceptions.md R531, R532,
70_reset_and_hazards.md R604) -/

/-- What the driver gets back: the value read, the byte, the id added, whether an event was there. -/
theorem test_driver_answers :
    [DriverAction.readPc, .readCycles, .readData 5, .addClockEvent 7 2, .clearClockEvent 7,
      .updateClockEvent 1 3, .writePc 9].map (fun a => (valueOf (driverAct a
        { at_ 0x40 (st [(5, 0xAB)]) with cycles := 12, events := [⟨20, 1⟩] })).map Prod.fst) =
      [some (.number 0x40), some (.number 12), some (.byte 0xAB), some (.event 7),
        some (.found false), some (.found true), some .nothing] := by decide

/-- Hooks are registered before the first step, at 32 or above; after it, even across a `reset()`, that
breaks the contract; so does turning the cycle counter back. -/
theorem test_driver_contract :
    (valueOf (driverAct (.registerReadHook 32) State.reset)).map (fun p => p.2.readHooks) =
      some [32] ∧
    driverAct (.registerReadHook 31) State.reset = .error .envContract ∧
    (run 0 0 State.reset).map (fun t => (t.started, t.doReset.started)) = some (true, true) ∧
    driverAct (.registerWriteHook 32) State.reset.start.doReset = .error .envContract ∧
    driverAct (.writeCycles 4) { State.reset with cycles := 5 } = .error .envContract :=
  ⟨rfl, rfl, rfl, rfl, rfl⟩

/-- NOP and then the self-loop: the run ends after one cycle, at the loop. -/
theorem test_end_of_run :
    ∃ t, EndsAt Stepped (prog_ 1 0xCFFF State.reset) t ∧ t.pc = 1 ∧ t.cycles = 1 :=
  ⟨_, .move (by unfold AtSelfLoop; decide) (show step _ = .next _ from rfl)
    (.here (by unfold AtSelfLoop; decide)), rfl, rfl⟩

/-- A launch: the self-loop at word 0, no hook, nothing pending. -/
theorem test_launch : Launch Stepped (State.construct Config.standard [(0, 0xCFFF)]) := by
  have run : ∀ t, Run Stepped (State.construct Config.standard [(0, 0xCFFF)]) t →
      AtSelfLoop t ∧ t.events = [] ∧ t.pending = [] ∧ t.draws = 0 := by
    intro t h
    induction h with
    | refl => exact ⟨by unfold AtSelfLoop; decide, rfl, rfl, rfl⟩
    | tail _ hs ih =>
      obtain ⟨h, he, hp, hd⟩ := ih
      rw [Stepped, step_selfLoop h he hp] at hs
      cases hs
      exact ⟨h, he, hp, hd⟩
  refine ⟨by decide, ⟨_, .inl ⟨_, _, by decide, by decide, by decide, rfl⟩, .refl⟩,
    ⟨by simp [hooksInRange, State.construct], by simp [hooksInRange, State.construct],
      fun t h => ?_⟩, ⟨by simp [VectorsBelow, State.construct], fun k t h hk => ?_⟩⟩
  · obtain ⟨h, he, hp, _⟩ := run t h
    rw [step_selfLoop h he hp]
    simp
  · rw [(run t h).2.2.2] at hk
    exact absurd hk (Nat.not_lt_zero _)

/-! ### Witnesses: states and operands that meet the hypotheses of each statement -/

theorem witness_DecodeOfEncode :
    WellFormed (.adiw 30 63) ∧ WellFormed (.jmp 0x3FFFFF) ∧ WellFormed (.nop) := by decide

theorem witness_EncodeOfDecode :
    decode 0x940E 0x005C = .ok (.call 0x5C) ∧ decode 0x0C12 7 = .ok (.add 1 2) ∧
      decode 0xFFFF 0 = .error (.reserved 0xFFFF) := ⟨rfl, rfl, rfl⟩

/-- A CALL in the last two words of program memory, and a NOP in the last one. -/
theorem witness_StepRunsTheInstruction :
    (WellFormed (.call 0x5C) ∧
      StandsAtPc (.call 0x5C) (at_ 0xFE (prog_ 0xFE 0x940E (prog_ 0xFF 0x5C State.reset)))) ∧
    (WellFormed .nop ∧ StandsAtPc .nop (at_ 0xFF State.reset)) := by
  refine ⟨⟨by decide, 0x940E, [0x5C], by decide, by decide, by decide, ?_⟩,
    ⟨by decide, 0, [], by decide, by decide, by decide, ?_⟩⟩
  · intro k hk
    cases hk
    decide
  · intro k hk
    cases hk

/-- No well-formed instruction starts with the word 0xFFFF. -/
theorem encode_ne_all_ones (i : Instr) (ws : List Word) : encode i ≠ 0xFFFF :: ws := by
  intro h
  have h : (encode i).headD 0 = 0xFFFF := by rw [h]; rfl
  have key : ∀ {w m b : Word}, w &&& m = b → w = 0xFFFF → b = m := by
    intro w m b hw he
    rw [he] at hw
    exact hw.symm.trans BitVec.allOnes_and
  cases i <;> simp only [encode, List.headD_cons] at h <;> first
    | exact absurd h (by decide)
    | with_reducible exact absurd (key (encRR_mask _ _ _) h) (by decide)
    | with_reducible exact absurd (key (encRK_mask _ _ _) h) (by decide)
    | with_reducible exact absurd (key (encR1_mask _ _ _) h) (by decide)
    | with_reducible exact absurd (key (encR4_mask _ _ _) h) (by decide)
    | with_reducible exact absurd (key (encR3_mask _ _ _ _ _) h) (by decide)
    | with_reducible exact absurd (key (encW_mask _ _ _) h) (by decide)
    | with_reducible exact absurd (key (encIW_mask _ _ _) h) (by decide)
    | with_reducible exact absurd (key (encIO_mask _ _ _) h) (by decide)
    | with_reducible exact absurd (key (encIOB_mask _ _ _) h) (by decide)
    | with_reducible exact absurd (key (encRB_mask _ _ _) h) (by decide)
    | with_reducible exact absurd (key (encBR_mask _ _ _) h) (by decide)
    | with_reducible exact absurd (key (encREL_mask _ _) h) (by decide)
    | with_reducible exact absurd (key (encABS_mask _ _ _) h) (by decide)
    | with_reducible exact absurd (key (encQ_mask _ _ _ _) h) (by decide)
    | with_reducible exact absurd (key (encS_mask _ _) h) (by decide)
    | with_reducible exact absurd (key (encK4_mask _ _ _) h) (by decide)

theorem witness_ReservedWordIsNop :
    (at_ 0xFF State.reset).pc < (at_ 0xFF State.reset).cfg.progWords ∧
    ∀ i ws, WellFormed i → encode i ≠ (prog_ 0xFF 0xFFFF State.reset).prog.read 0xFF :: ws :=
  ⟨by decide, fun i ws _ => encode_ne_all_ones i ws⟩

/-- The state after reset with hooks at 32, 0x31, 0x100 and the last address, and one answer. -/
def hooked (value : Nat) (handled : Bool) : State :=
  { State.reset with readHooks := [32, 0x31, 0x100, 0x20FF], writeHooks := [32, 0x31, 0x100, 0x20FF],
                     replies := [answer value handled, answer 0 handled], watchdog := true }

/-- The last word and byte inside, the first outside, a one-word form in the last word, a two-word form in
the last two and in the last one, and the skips that skip there. -/
theorem witness_ProgramMemoryReads :
    0xFF < State.reset.cfg.progWords ∧ State.reset.cfg.progWords ≤ 0x100 ∧
    0x1FF / 2 < State.reset.cfg.progWords ∧ State.reset.cfg.progWords ≤ 0x200 / 2 ∧
    State.reset.cfg.progWords ≤ (at_ 0x100 State.reset).pc ∧
    State.reset.cfg.progWords ≤ (at_ 0xFF State.reset).pc + 1 ∧
    twoWord ((at_ 0xFF (prog_ 0xFF 0x940C State.reset)).prog.read 0xFF) = true ∧
    ((at_ 0xFF State.reset).pc < State.reset.cfg.progWords ∧
      twoWord ((at_ 0xFF State.reset).prog.read 0xFF) = false) ∧
    (twoWord ((at_ 0xFE (prog_ 0xFE 0x940C State.reset)).prog.read 0xFE) = true ∧
      (at_ 0xFE State.reset).pc + 1 < State.reset.cfg.progWords) ∧
    State.reset.reg 1 = State.reset.reg 2 ∧
    (∀ A ∈ [(0 : BitVec 5), 31], A.toNat + 0x20 < State.reset.cfg.dataSize ∧
      SilentRead State.reset (A.toNat + 0x20)) ∧ SilentRead (hooked 1 true) (0x11 + 0x20) := by
  simp only [SilentRead, Silent]
  decide

theorem witness_StepsTakeTime :
    0 < State.reset.cfg.progWords ∧ (∃ t, exec .nop State.reset = .next t) ∧
      ∃ t, step State.reset = .next t := ⟨by decide, ⟨_, rfl⟩, ⟨_, rfl⟩⟩

/-- A state with registers set, hooks, two vectors pending, two events and a program. -/
def busy : State :=
  { prog_ 0 0x9478 (st [(5, 7), (0x20FF, 1)]) with
    readHooks := [32, 0x20FF], writeHooks := [0x25], pending := [q4, q10],
    events := [⟨5, 1⟩, ⟨5, 2⟩] }

theorem witness_StepKeepsInvariant : Inv busy ∧ ∃ t, step busy = .next t :=
  ⟨⟨by decide, by decide, by decide, by decide, by decide,
    by simp [hooksInRange, busy, prog_, st, State.reset, State.construct, State.setByte,
      Config.standard, Config.dataSize],
    by simp [hooksInRange, busy, prog_, st, State.reset, State.construct, State.setByte,
      Config.standard, Config.dataSize], by decide, by decide⟩, ⟨_, rfl⟩⟩

theorem witness_ConstructionMeetsInvariant :
    Config.standard.Wf ∧ Memory.wf [(0, 0xCFFF#16), (0xFF, 1#16)] ∧
      Memory.below [(0, 0xCFFF#16), (0xFF, 1#16)] Config.standard.progWords := by decide

/-- A driver access that answers, before and after the first step, and a state reached by construction, a
driver access and a step. -/
theorem witness_ReachableStatesMeetInvariant :
    (Inv busy ∧ ∃ t, driverAct (.queueInterrupt q6i) busy = .ok (.nothing, t)) ∧
    (Inv busy.start ∧ busy.start.started = true ∧
      ∃ t, driverAct (.addClockEvent 7 1) busy.start = .ok (.event 7, t)) ∧
    ∃ t, Reachable t ∧ t.pc = 6 ∧ t.cycles = 1 :=
  ⟨⟨witness_StepKeepsInvariant.1, _, rfl⟩, ⟨witness_StepKeepsInvariant.1.start, rfl, _, rfl⟩,
    ⟨_, ⟨_, ⟨Config.standard, [], by decide, ⟨.nil, by simp⟩, by simp, rfl⟩,
      .tail (.tail .refl (.inr ⟨.writePc 5, .nothing, rfl⟩))
        (.inl (show step _ = .next _ from rfl))⟩, rfl, rfl⟩⟩

/-- One address of each kind the frame speaks of. -/
theorem witness_InstructionFrame :
    (∃ t, exec (.push 3) State.reset = .next t) ∧
    (31 ∉ writeSet (.push 3) State.reset ∧ 31 < 32) ∧
    (0x5F ∉ writeSet (.push 3) State.reset ∧ coreOwned 0x5F = true) ∧
    (0x2100 ∉ writeSet (.push 3) State.reset ∧ State.reset.cfg.dataSize ≤ 0x2100) ∧
    (0x20FE ∉ writeSet (.push 3) State.reset ∧ NoHooks State.reset) :=
  ⟨⟨_, rfl⟩, by decide, by decide, by decide, by decide, ⟨rfl, rfl, rfl⟩⟩

theorem witness_InstructionsRaiseNoInterrupt :
    NoHooks State.reset ∧ (∃ t, exec .wdr State.reset = .next t) ∧
      ∃ t, exec .nop State.reset = .next t := ⟨⟨rfl, rfl, rfl⟩, ⟨_, rfl⟩, ⟨_, rfl⟩⟩

/-- I changes in each of the four ways. -/
theorem witness_InterruptEnableChanges :
    (nextOf (exec (.bset 7) State.reset)).map (fun t => t.flag .I) = some true ∧
    (nextOf (exec (.bclr 7) (st [(0x5F, 0x80)]))).map (fun t => t.flag .I) = some false ∧
    (nextOf (exec .reti (State.reset.setSp 0x10FD))).map (fun t => t.flag .I) = some true ∧
    (nextOf (exec (.outIo 0x3F 16) (st [(16, 0x80)]))).map (fun t => t.flag .I) = some true := by
  decide

/-- Both ends of the data space, and the first address outside each. -/
theorem witness_RawAccess :
    (∀ a ∈ [(0 : Int), 0x20FF], 0 ≤ a ∧ a < State.reset.cfg.dataSize) ∧
    ∀ a ∈ [(-1 : Int), 0x2100], ¬(0 ≤ a ∧ a < State.reset.cfg.dataSize) := by decide

theorem witness_BusReads :
    (hooked 0 true).cfg.dataSize ≤ 0x2100 ∧
    (31 < (hooked 0 true).cfg.dataSize ∧ 31 < 32) ∧
    (0x20FE < (hooked 0 true).cfg.dataSize ∧ 0x20FE ∉ (hooked 0 true).readHooks) ∧
    (∀ a ∈ [32, 0x20FF],
      a < (hooked 0 true).cfg.dataSize ∧ 32 ≤ a ∧ a ∈ (hooked 0 true).readHooks) ∧
    Silent (hooked 0 true) ∧ (valueOf (busRead (fun _ => 1) 32 (hooked 0x1AB true))).isSome := by
  simp only [Silent]
  decide

theorem witness_BusWrites :
    (hooked 0 true).cfg.dataSize ≤ 0x2100 ∧
    (∀ a ∈ [0, 31, 0x20FE],
      a < (hooked 0 true).cfg.dataSize ∧ a ∉ (hooked 0 true).writeHooks) ∧
    (∀ a ∈ [32, 0x20FF], a < (hooked 0 true).cfg.dataSize ∧ a ∈ (hooked 0 true).writeHooks) ∧
    Silent (hooked 0 true) ∧ (hooked 0 false).nextReply.handled = false ∧
    (valueOf (busWrite 1 32 5 0xFF (hooked 0 false))).isSome := by
  simp only [Silent]
  decide

/-- The state after reset with another stack pointer. -/
def spAt (p : Int) : State := State.reset.setSp p

theorem witness_PushThenPop :
    ∀ p ∈ [(2 : Int), 0x20FF], 0xFFFF < 256 ^ (spAt p).cfg.pcBytes ∧
      (spAt p).cfg.pcBytes ≤ (spAt p).sp.toNat ∧ (spAt p).sp.toNat < (spAt p).cfg.dataSize ∧
      ∀ j < (spAt p).cfg.pcBytes,
        (spAt p).sp.toNat - j ≠ 0x5D ∧ (spAt p).sp.toNat - j ≠ 0x5E := by decide

theorem witness_DispatchEntry :
    RoomToPush (spAt 1) ∧ RoomToPush (spAt 0x20FF) ∧
    (spAt 0x2100).cfg.dataSize ≤ (spAt 0x2100).sp.toNat ∧
    ((spAt 0).sp.toNat < (spAt 0).cfg.dataSize ∧
      (spAt 0).sp.toNat + 1 < (spAt 0).cfg.pcBytes) := by
  simp only [RoomToPush]
  decide

/-- I clear with a vector pending; I set with none; I set with an edge-sensitive and with a
level-sensitive one, the flag register the last data byte; an event that is not due. -/
def pendingOf (k : IrqKind) : State :=
  { st [(0x5F, 0x80)] with
    pending := [{ q4 with kind := k, flagRegister := 0x20FF }, q10], events := [⟨1, 1⟩] }

theorem witness_TickTakesLeastVector :
    (∀ s ∈ [{ State.reset with pending := [q4] }, st [(0x5F, 0x80)]],
      eventsSorted s.events ∧ pendingSorted s.pending ∧ NoneDue s ∧
        (s.flag .I = false ∨ s.nextInterrupt = none)) ∧
    ∀ k ∈ [IrqKind.edge, .level], eventsSorted (pendingOf k).events ∧
      pendingSorted (pendingOf k).pending ∧ NoneDue (pendingOf k) ∧ (pendingOf k).flag .I = true ∧
      (pendingOf k).pending = { q4 with kind := k, flagRegister := 0x20FF } :: [q10] ∧
      RoomToPush (pendingOf k) ∧ 0x20FF < (pendingOf k).cfg.dataSize := by
  simp only [RoomToPush, NoneDue]
  decide

theorem witness_TickFiresOneEvent :
    let s := { State.reset with
      events := [⟨5, 1⟩, ⟨5, 2⟩], cycles := 5, replies := [answer 0 false], pending := [q4] }
    eventsSorted s.events ∧ s.events = ⟨5, 1⟩ :: [⟨5, 2⟩] ∧ 5 ≤ s.cycles ∧ Silent s ∧
      pendingSorted s.pending ∧ s.flag .I = false ∧ (valueOf (fireEvent s)).isSome := by
  simp only [Silent]
  decide

/-- SEI and CLI in the last word of program memory, with two vectors pending. -/
theorem witness_InterruptEnableHasNoDelay :
    let s (w : Word) := { at_ 0xFF (prog_ 0xFF w (st [(0x5F, 0x80)])) with pending := [q4, q10] }
    ((s 0).pc < (s 0).cfg.progWords ∧ (s 0).events = [] ∧ pendingSorted (s 0).pending ∧
      (s 0).pending = q4 :: [q10]) ∧
    ((s 0x9478).prog.read (s 0x9478).pc = 0x9478 ∧ RoomToPush (s 0x9478) ∧
      q4.flagRegister < (s 0x9478).cfg.dataSize) ∧
    (s 0x94F8).prog.read (s 0x94F8).pc = 0x94F8 := by
  simp only [RoomToPush]
  decide

/-- q4 with its registers at the two ends of what a descriptor may name. -/
def qEnds : Descriptor := { q4 with flagRegister := 0x20FF, enableRegister := 32 }

theorem witness_SetInterruptFlagRule :
    pendingSorted [q4, q10] ∧ qEnds.flagRegister < State.reset.cfg.dataSize ∧
      qEnds.enableRegister < State.reset.cfg.dataSize ∧
      ((valueOf (setInterruptFlag qEnds State.reset)).map (fun t => t.byte 32 &&& 1)) = some 0 ∧
      ((valueOf (setInterruptFlag qEnds (st [(32, 1)]))).map (fun t => t.byte 32 &&& 1)) =
        some 1 := by decide

theorem witness_UpdateInterruptEnableRule :
    pendingSorted [q4, q10] ∧ qEnds.flagRegister < State.reset.cfg.dataSize ∧
    ((1 : Byte) &&& q4.enableMask ≠ 0 ∧
      ((st [(0x30, 1)]).byte q4.flagRegister &&& q4.flagMask = 0 ↔ q4.inverseFlag = true)) ∧
    ((2 : Byte) &&& q6i.enableMask ≠ 0 ∧
      (State.reset.byte q6i.flagRegister &&& q6i.flagMask = 0 ↔ q6i.inverseFlag = true)) ∧
    ((1 : Byte) &&& q4.enableMask ≠ 0 ∧
      ¬(State.reset.byte q4.flagRegister &&& q4.flagMask = 0 ↔ q4.inverseFlag = true)) ∧
    (0xFE : Byte) &&& q4.enableMask = 0 := by decide

theorem witness_QueueInterruptRule : pendingSorted ([] : List Descriptor) ∧
    pendingSorted [q4, q10] ∧ q6i.vectorAddress ≠ q4.vectorAddress := by decide

theorem witness_ClearInterruptRule :
    pendingSorted [q4, q10] ∧ qEnds.flagRegister < State.reset.cfg.dataSize ∧
      (valueOf (clearInterrupt q4 true { State.reset with pending := [q4] })).map
        State.nextInterrupt = some none ∧
      (valueOf (clearInterrupt q4 true { State.reset with pending := [q4, q10] })).map
        State.nextInterrupt = some (some 10) := by decide

theorem witness_ClearInterruptByFlagRule :
    (0xFE : Byte) &&& q4.flagMask = 0 ∧ (0x01 : Byte) &&& q4.flagMask ≠ 0 := by decide

/-- Chains with a tie, in both orders. -/
theorem witness_AddClockEventRule :
    eventsSorted busy.events ∧ busy.cfg.tieOrder = .fifo ∧
      eventsSorted ([] : List ClockEvent) ∧
      { Config.standard with tieOrder := .lifo }.tieOrder = .lifo := by decide

theorem witness_ClearAndUpdateClockEventRule :
    eventsSorted busy.events ∧
    (valueOf (clearClockEvent 2 busy)).map Prod.fst = some true ∧
    (valueOf (clearClockEvent 3 busy)).map Prod.fst = some false ∧
    busy.cfg.updateAddsIfAbsent = true ∧
    { Config.standard with updateAddsIfAbsent := false }.updateAddsIfAbsent = false := by decide

/-- The smallest and the largest data space, and the smallest and the largest program memory. -/
theorem witness_ConstructionValues :
    Config.standard.Wf ∧
    { Config.standard with regSpace := 0x60, sramBytes := 0, progWords := 1 }.Wf ∧
    { Config.standard with regSpace := 0x60, sramBytes := 0xFFA0, progWords := 2 ^ 22 }.Wf := by
  decide

theorem witness_ResetProcedure : busy.cfg.Wf := by decide

theorem witness_IoBits :
    (∀ A ∈ [(0 : BitVec 5), 31], A.toNat + 0x20 < State.reset.cfg.dataSize ∧
      SilentRead State.reset (A.toNat + 0x20) ∧
      SilentWrite (afterRead State.reset (A.toNat + 0x20)) (A.toNat + 0x20)) ∧
    ∀ b ∈ [true, false], 0x11 + 0x20 < (hooked 0x1AB b).cfg.dataSize ∧
      SilentRead (hooked 0x1AB b) (0x11 + 0x20) ∧
      SilentWrite (afterRead (hooked 0x1AB b) (0x11 + 0x20)) (0x11 + 0x20) ∧
      (stores (afterRead (hooked 0x1AB b) (0x11 + 0x20)) (0x11 + 0x20) ↔ b = false) := by
  simp only [SilentRead, SilentWrite, Silent, stores]
  decide

theorem witness_RegisterMoves : WellFormed (.movw 30 0) ∧ WellFormed (.movw 0 30) := by decide

/-- X, Y and Z at a hooked address, a displacement and an I/O address that reach one. -/
def hookedAt (handled : Bool) : State :=
  (((hooked 0x1AB handled).setPair 26 0x100).setPair 28 0xF0).setPair 30 0x20FF

/-- X, Y, Z and a displaced Y and Z at the last data byte. -/
def edge : State :=
  st [(26, 0xFF), (27, 0x20), (28, 0xC0), (29, 0x20), (30, 0xC0), (31, 0x20)]

theorem witness_PlainLoads :
    ∀ a ∈ [(edge.pair 26).toNat, (edge.pair 28).toNat, (edge.pair 30).toNat,
      (edge.pair 28).toNat + 63, (edge.pair 30).toNat + 63, 0, 0x20FF],
      (a < edge.cfg.dataSize ∧ SilentRead edge a) ∧ SilentRead (hookedAt true) a := by
  simp only [SilentRead, Silent]
  decide

theorem witness_PlainStores :
    ∀ a ∈ [(edge.pair 26).toNat, (edge.pair 28).toNat, (edge.pair 30).toNat,
      (edge.pair 28).toNat + 63, (edge.pair 30).toNat + 63, 0, 0x20FF],
      (a < edge.cfg.dataSize ∧ SilentWrite edge a ∧ stores edge a) ∧
        SilentWrite (hookedAt true) a ∧ ((hookedAt true).writeHooked a = true →
          ¬stores (hookedAt true) a ∧ stores (hookedAt false) a) := by
  simp only [SilentWrite, Silent, stores]
  decide

/-- The pointers at the last data byte and one past it, and the data register beside them. -/
def ends (v : Byte) : State :=
  st [(26, v), (27, v), (28, v), (29, v), (30, v), (31, v)]

theorem witness_PointerUpdateLoads :
    ∀ p ∈ [26, 28, 30], (25 ≠ p ∧ 25 ≠ p + 1) ∧
      (∀ v ∈ [(0x1F : Byte), 0], ((ends v).pair p).toNat < (ends v).cfg.dataSize ∧
        SilentRead (ends v) ((ends v).pair p).toNat) ∧
      ((((ends 0x1F).pair p).toNat + 65535) % 65536 < (ends 0x1F).cfg.dataSize ∧
        SilentRead (ends 0x1F) ((((ends 0x1F).pair p).toNat + 65535) % 65536)) ∧
      SilentRead (hookedAt true) ((hookedAt true).pair p).toNat := by
  simp only [SilentRead, Silent]
  decide

theorem witness_PointerUpdateStores :
    ∀ p ∈ [26, 28, 30], (25 ≠ p ∧ 25 ≠ p + 1) ∧
      (∀ v ∈ [(0x1F : Byte), 0], ((ends v).pair p).toNat < (ends v).cfg.dataSize ∧
        SilentWrite (ends v) ((ends v).pair p).toNat ∧ stores (ends v) ((ends v).pair p).toNat) ∧
      ((((ends 0x1F).pair p).toNat + 65535) % 65536 < (ends 0x1F).cfg.dataSize ∧
        SilentWrite (ends 0x1F) ((((ends 0x1F).pair p).toNat + 65535) % 65536)) ∧
      SilentWrite (hookedAt true) ((hookedAt true).pair p).toNat := by
  simp only [SilentWrite, Silent, stores]
  decide

/-- Z at the last byte of program memory; RAMPZ:Z too, in PC22 mode. -/
theorem witness_ProgramMemoryLoads :
    (29 : Reg).toNat < 30 ∧
    ((st [(30, 0xFF), (31, 1)]).pair 30).toNat / 2 < State.reset.cfg.progWords ∧
    let s := big (st [(30, 0xFF), (31, 0xFF), (0x5B, 3)])
    ((s.byte 0x5B).toNat * 65536 + (s.pair 30).toNat) / 2 < s.cfg.progWords := by decide

theorem witness_InOut :
    (∀ A ∈ [(0 : BitVec 6), 63], A.toNat + 0x20 < State.reset.cfg.dataSize ∧
      SilentRead State.reset (A.toNat + 0x20) ∧ SilentWrite State.reset (A.toNat + 0x20)) ∧
    SilentRead (hooked 5 true) (0x11 + 0x20) ∧ SilentWrite (hooked 5 true) (0x11 + 0x20) ∧
    stores (hooked 5 false) (0x11 + 0x20) ∧ ¬stores (hooked 5 true) (0x11 + 0x20) := by
  simp only [SilentRead, SilentWrite, Silent, stores]
  decide

theorem witness_PushPop :
    (∀ p ∈ [(0 : Int), 0x20FF], (spAt p).sp.toNat < (spAt p).cfg.dataSize) ∧
    ∀ p ∈ [(0 : Int), 0x20FE], (spAt p).sp.toNat + 1 < (spAt p).cfg.dataSize := by decide

theorem witness_ReadModifyWrite :
    ∀ s ∈ [st [(30, 0xFF), (31, 0x20)], st [(30, 4)], hookedAt true, hookedAt false],
      (s.pair 30).toNat < s.cfg.dataSize ∧ SilentRead s (s.pair 30).toNat ∧
        SilentWrite (afterRead s (s.pair 30).toNat) (s.pair 30).toNat := by
  simp only [SilentRead, SilentWrite, Silent]
  decide

theorem witness_Jumps : 0 < State.reset.cfg.progWords := by decide

theorem witness_Calls :
    ∀ s ∈ [spAt 1, spAt 0x20FF, big (spAt 2)], 0 < s.cfg.progWords ∧ RoomToPush s := by
  simp only [RoomToPush]
  decide

theorem witness_Returns :
    ∀ s ∈ [spAt 0x20FD, spAt 0, big (spAt 0x20FC)], 0 < s.cfg.progWords ∧ RoomToPop s := by
  simp only [RoomToPop]
  decide

theorem witness_CallReturnRoundTrip :
    ∀ s ∈ [spAt 0x20FF, big (at_ 0x1FFFF (spAt 0x70))],
      0 < s.cfg.progWords ∧ s.pc < s.cfg.progWords ∧ s.cfg.progWords ≤ 2 ^ 22 ∧
      s.cfg.pcBytes ≤ s.sp.toNat ∧ s.sp.toNat < s.cfg.dataSize ∧
      (∀ j < s.cfg.pcBytes, s.sp.toNat - j < 0x5D ∨ 0x5F < s.sp.toNat - j) ∧
      (s.pc + 2 < 65536 ∨ s.cfg.pc22 = true) := by decide

/-- The condition true with a word to look at and at the end of program memory, and false. -/
theorem witness_Skips :
    decide (State.reset.reg 1 = State.reset.reg 2) = true ∧
    decide ((st [(1, 5)]).reg 1 = (st [(1, 5)]).reg 2) = false ∧
    (at_ 0xFE State.reset).pc + 1 < State.reset.cfg.progWords ∧
    State.reset.cfg.progWords ≤ (at_ 0xFF State.reset).pc + 1 ∧
    (∀ A ∈ [(0 : BitVec 5), 31], A.toNat + 0x20 < State.reset.cfg.dataSize ∧
      SilentRead State.reset (A.toNat + 0x20)) ∧ SilentRead (hooked 1 true) (0x11 + 0x20) := by
  simp only [SilentRead, Silent]
  decide

theorem witness_Branches :
    0 < State.reset.cfg.progWords ∧ State.reset.sreg.getLsbD 7 = false ∧
      (st [(0x5F, 0x80)]).sreg.getLsbD 7 = true := by decide

theorem witness_NoOperations :
    State.reset.watchdog = false ∧ ((hooked 0 true).watchdog = true ∧ Silent (hooked 0 true)) := by
  simp only [Silent]
  decide

theorem witness_UndefinedCombinations :
    (26 : Reg).toNat = 26 ∧ (27 : Reg).toNat = 26 + 1 ∧ (28 : Reg).toNat = 28 ∧
    (29 : Reg).toNat = 28 + 1 ∧ (30 : Reg).toNat = 30 ∧ (31 : Reg).toNat = 30 + 1 := by decide

/-- Every kind of address, at the first one outside: the pointers at 0x2100 and, for a pre-decrement, at
0x2101; the stack pointer past each end; Z and RAMPZ:Z one past program memory. -/
theorem witness_OutOfRangeAccesses :
    (let s := ((State.reset.setPair 26 0x2100).setPair 28 0x2100).setPair 30 0x2100
     (∀ p ∈ [26, 28, 30], s.cfg.dataSize ≤ (s.pair p).toNat ∧ 25 ≠ p ∧ 25 ≠ p + 1)) ∧
    (let s := ((State.reset.setPair 26 0x2101).setPair 28 0x2101).setPair 30 0x2101
     (∀ p ∈ [26, 28, 30], s.cfg.dataSize ≤ ((s.pair p).toNat + 65535) % 65536)) ∧
    State.reset.cfg.dataSize ≤ (spAt 0x20FF).sp.toNat + 1 ∧
    State.reset.cfg.dataSize ≤ (spAt 0x2100).sp.toNat ∧
    (∀ s ∈ [spAt 0x2100, spAt 0, big (spAt 1)], ¬RoomToPush s) ∧
    (∀ s ∈ [spAt 0x20FE, big (spAt 0x20FD)], ¬RoomToPop s) ∧
    (29 : Reg).toNat < 30 ∧
    State.reset.cfg.progWords ≤ ((State.reset.setPair 30 0x200).pair 30).toNat / 2 ∧
    let s := big (st [(0x5B, 4)])
    s.cfg.progWords ≤ ((s.byte 0x5B).toNat * 65536 + (s.pair 30).toNat) / 2 := by
  simp only [RoomToPush, RoomToPop]
  decide

end Sys2Proof.Tests
end

section
/-! PROOFS. Raw access to the data space (20_memory.md R102): the two bytes of a word and of an
integer mod 65536, and what a raw write leaves alone. -/

namespace Sys2Proof.Machine

open Sys2Proof.Claims

/-! ### The two bytes of a word -/

theorem lowByte_eq_ofNat (v : Word) : v.extractLsb' 0 8 = BitVec.ofNat 8 v.toNat := rfl

theorem highByte_eq_ofNat (v : Word) : v.extractLsb' 8 8 = BitVec.ofNat 8 (v.toNat / 256) := by
  rw [BitVec.extractLsb', Nat.shiftRight_eq_div_pow]

/-- A word's value by its bytes, the high one first. -/
theorem toNat_append_bytes (h l : Byte) : (h ++ l : Word).toNat = h.toNat * 256 + l.toNat := by
  rw [BitVec.toNat_append, ← Nat.shiftLeft_add_eq_or_of_lt l.isLt, Nat.shiftLeft_eq]

/-- The low byte of an integer taken mod 65536 (10_state.md R56). -/
theorem lowByte_ofInt (w : Int) : (BitVec.ofInt 16 w).extractLsb' 0 8 = BitVec.ofInt 8 w := by
  apply BitVec.eq_of_toNat_eq
  rw [lowByte_eq_ofNat, BitVec.toNat_ofNat, BitVec.toNat_ofInt, BitVec.toNat_ofInt]
  omega

/-- The high byte of an integer taken mod 65536 (10_state.md R56). -/
theorem highByte_ofInt (w : Int) :
    (BitVec.ofInt 16 w).extractLsb' 8 8 = BitVec.ofInt 8 (w / 256) := by
  apply BitVec.eq_of_toNat_eq
  rw [highByte_eq_ofNat, BitVec.toNat_ofNat, BitVec.toNat_ofInt, BitVec.toNat_ofInt]
  omega

/-! ### Pairs and SP as numbers, and the bytes written to them -/

section

variable (s : State)

theorem toNat_pair (p : Nat) :
    (s.pair p).toNat = (s.byte (p + 1)).toNat * 256 + (s.byte p).toNat := toNat_append_bytes ..

theorem byte_setPair_ofNat (p x : Nat) (w : Word) :
    (s.setPair p w).byte x =
      if x = p then BitVec.ofNat 8 w.toNat else if x = p + 1 then BitVec.ofNat 8 (w.toNat / 256)
      else s.byte x := by
  rw [byte_setPair, lowByte_eq_ofNat, highByte_eq_ofNat]

theorem byte_setSp_ofInt (x : Nat) (w : Int) :
    (s.setSp w).byte x =
      if x = 0x5D then BitVec.ofInt 8 w else if x = 0x5E then BitVec.ofInt 8 (w / 256)
      else s.byte x := by
  rw [byte_setSp, lowByte_ofInt, highByte_ofInt]

/-! ### Raw writes -/

/-- Exchanging the data space touches nothing else; each raw write is such an exchange. -/
theorem onlyData_withData (m : Memory 8) : OnlyData s { s with data := m } :=
  ⟨⟨⟨rfl, rfl, rfl, rfl, rfl, rfl⟩, rfl, rfl, rfl, rfl, rfl⟩, rfl, rfl⟩

theorem onlyData_setByte (a : Nat) (v : Byte) : OnlyData s (s.setByte a v) :=
  onlyData_withData s _

theorem onlyData_setPair (p : Nat) (w : Word) : OnlyData s (s.setPair p w) :=
  onlyData_withData s _

/-- A raw write inside the data space changes the addressed byte alone. -/
theorem rawWrite_stores {a : Int} (v : Byte) (h : 0 ≤ a ∧ a < s.cfg.dataSize) :
    ∃ t, rawWrite a v s = .ok t ∧ OnlyData s t ∧
      ∀ x : Nat, t.byte x = if (x : Int) = a then v else s.byte x := by
  refine ⟨_, rawWrite_eq_ok.mpr ⟨h, rfl⟩, onlyData_setByte s _ v, fun x => ?_⟩
  have hx : a.toNat = x ↔ (x : Int) = a := by omega
  simp only [byte_setByte, hx]

end

/-- Settles O16: the range check decides between a raw write's store and its fault, and every other
write here is one or two stores, read back byte by byte. -/
theorem rawAccess : Obligations.RawAccess := by
  intro s a v
  refine ⟨rfl, ?write, fun d => ⟨rfl, onlyData_setByte s _ v, ?reg⟩,
    fun p w => ⟨toNat_pair s p, onlyData_setPair s p w, ?pair⟩,
    fun w => ⟨toNat_pair s spAddr, onlyData_setPair s spAddr _, ?sp⟩,
    rfl, onlyData_setByte s _ v, ?sreg⟩
  case write =>
    split
    case isTrue h => exact rawWrite_stores s v h
    case isFalse h => exact rawWrite_out v h
  case reg => intro x; simp only [byte_setReg, eq_comm]
  case pair => exact fun x => byte_setPair_ofNat s p x w
  case sp => exact fun x => byte_setSp_ofInt s x w
  case sreg => exact fun x => byte_setSreg s x v

end Sys2Proof.Machine
end

section
/-! PROOFS. The worked encodings (30_encoding.md R172): each word's row in the opcode table, and the
fields the row reads from the word. Places in the table count from 0. -/

namespace Sys2Proof

/-- Settles O4: each word matches the row of its instruction, no row before that one matches it, and
the fields the row reads have R172's values. The earlier rows are shut out by their fixed bits, but
for the LD row of Y before LDD's: it does not match 0xAD8F because q there is not 0 (R154). -/
theorem workedEncodings : Obligations.WorkedEncodings := by
  refine ⟨fun _ => ?adc, ?call, fun _ => ?brbc, fun _ => ?rjmp, fun _ => ?lddY, fun _ => ?adiw,
    fun _ => ?inIo, fun _ => ?sbi, fun _ => ?fmulsu, ?jmp⟩
  case adc => exact decode_of_place 0 rfl (by decide) rfl
  case call => exact decode_of_place 13 rfl (by decide) rfl
  case brbc => exact decode_of_place 8 rfl (by decide) rfl
  case rjmp => exact decode_of_place 71 rfl (by decide) rfl
  case lddY => exact decode_of_place_not 47 rfl (by decide) rfl
  case adiw => exact decode_of_place 2 rfl (by decide) rfl
  case inIo => exact decode_of_place 33 rfl (by decide) rfl
  case sbi => exact decode_of_place 75 rfl (by decide) rfl
  case fmulsu => exact decode_of_place 30 rfl (by decide) rfl
  case jmp => exact decode_of_place 35 rfl (by decide) rfl

end Sys2Proof
end

section
/-! PROOFS. The interrupt controller's operations (60_exceptions.md R507 to R511): the pending set as
a map whose least key is `nextInterrupt`, and what each operation leaves alone. -/

namespace Sys2Proof.Machine

/-! ### The pending set as a map -/

/-- Queueing replaces the descriptor at the vector address and keeps every other (R509). -/
theorem mem_insertPending_iff {q p : Descriptor} {ps : List Descriptor} (h : pendingSorted ps) :
    p ∈ insertPending q ps ↔ p = q ∨ (p ∈ ps ∧ p.vectorAddress ≠ q.vectorAddress) := by
  induction ps with
  | nil => simp [insertPending]
  | cons x ps ih =>
    obtain ⟨hx, hps⟩ := List.pairwise_cons.mp h
    have keep (hlt : q.vectorAddress ≤ x.vectorAddress) (hp : p ∈ ps) :
        p.vectorAddress ≠ q.vectorAddress := by have := hx p hp; omega
    simp only [insertPending]
    split
    case isTrue hlt =>
      have hne : p = x → p.vectorAddress ≠ q.vectorAddress := by rintro rfl; omega
      simp only [List.mem_cons, ih hps]; tauto
    case isFalse hge =>
      split
      case isTrue heq =>
        have hout : p = x → p.vectorAddress = q.vectorAddress := by rintro rfl; exact heq
        have := keep (by omega)
        simp only [List.mem_cons]; tauto
      case isFalse hgt =>
        have hne : p = x → p.vectorAddress ≠ q.vectorAddress := by rintro rfl; exact hgt
        have := keep (by omega)
        simp only [List.mem_cons]; tauto

theorem mem_withoutVector {a : Nat} {p : Descriptor} {ps : List Descriptor} :
    p ∈ withoutVector a ps ↔ p ∈ ps ∧ p.vectorAddress ≠ a := by
  simp [withoutVector]

variable {s t : State} {q : Descriptor}

theorem nextInterrupt_eq_none_iff : s.nextInterrupt = none ↔ s.pending = [] := by
  simp [State.nextInterrupt]

/-- `nextInterrupt` is the least key of `pending` (10_state.md R62). -/
theorem nextInterrupt_least {a : Nat} (h : pendingSorted s.pending)
    (ha : s.nextInterrupt = some a) :
    (∃ p ∈ s.pending, p.vectorAddress = a) ∧ ∀ p ∈ s.pending, a ≤ p.vectorAddress := by
  unfold State.nextInterrupt at ha
  cases hps : s.pending with
  | nil => simp [hps] at ha
  | cons x rest =>
    obtain rfl : x.vectorAddress = a := by simpa [hps] using ha
    rw [hps] at h
    have hx := (List.pairwise_cons.mp h).1
    refine ⟨⟨x, by simp, rfl⟩, fun p hp => ?_⟩
    rcases List.mem_cons.mp hp with rfl | hp
    · exact le_rfl
    · exact (hx p hp).le

/-- Settles O26: `insertPending` is the map's update, and a sorted list's first key is its least. -/
theorem queueInterruptRule : Obligations.QueueInterruptRule := by
  intro s q hs
  have hsorted := pendingSorted_insertPending q hs
  have hmem (p : Descriptor) := mem_insertPending_iff (q := q) (p := p) hs
  refine ⟨_, queueInterrupt_eq_ok.mpr ⟨hs, rfl⟩, rfl, hsorted, hmem, ?_⟩
  have hne : insertPending q s.pending ≠ [] := List.ne_nil_of_mem ((hmem q).mpr (.inl rfl))
  exact (Option.ne_none_iff_exists'.mp (mt nextInterrupt_eq_none_iff.mp hne)).imp
    fun a ha => ⟨ha, nextInterrupt_least hsorted ha⟩

/-! ### Flag bits -/

/-- The complement of a mask, as the rules write it. -/
theorem not_eq_ff_sub (m : Byte) : ~~~m = 0xFF - m := (BitVec.allOnes_sub_eq_not m).symm

/-- A flag is active when "its masked bits are 0" agrees with its polarity (R506). -/
theorem flagActive_iff :
    flagActive q s = true ↔ (s.byte q.flagRegister &&& q.flagMask = 0 ↔ q.inverseFlag = true) := by
  unfold flagActive
  cases q.inverseFlag <;> simp

/-- The state with a descriptor's flag made active (R507). -/
def flagRaised (q : Descriptor) (s : State) : State :=
  s.setByte q.flagRegister (raisedFlag q (s.byte q.flagRegister))

theorem byte_flagRaised (x : Nat) :
    (flagRaised q s).byte x =
      if x ≠ q.flagRegister then s.byte x
      else if q.inverseFlag then s.byte x &&& (0xFF - q.flagMask) else s.byte x ||| q.flagMask := by
  unfold flagRaised
  split
  case isTrue hx => exact byte_setByte_ne s _ (Ne.symm hx)
  case isFalse hx =>
    obtain rfl := not_not.mp hx
    rw [byte_setByte_same, raisedFlag, not_eq_ff_sub]

/-- The state with a descriptor's flag bits 0, whatever its polarity (R510). -/
def flagCleared (q : Descriptor) (s : State) : State :=
  s.setByte q.flagRegister (clearedFlag q (s.byte q.flagRegister))

theorem byte_flagCleared (x : Nat) :
    (flagCleared q s).byte x =
      if x = q.flagRegister then s.byte x &&& (0xFF - q.flagMask) else s.byte x := by
  unfold flagCleared
  split
  case isTrue hx => subst hx; rw [byte_setByte_same, clearedFlag, not_eq_ff_sub]
  case isFalse hx => exact byte_setByte_ne s _ (Ne.symm hx)

/-! ### Setting a flag, changing an enable bit -/

/-- With its registers in range, setting a flag writes the flag byte and queues the vector if the
enable bit, read after that write, is set (R507). -/
theorem setInterruptFlag_in (hs : pendingSorted s.pending) (hf : q.flagRegister < s.cfg.dataSize)
    (he : q.enableRegister < s.cfg.dataSize) :
    setInterruptFlag q s = .ok { flagRaised q s with
      pending :=
        if (flagRaised q s).byte q.enableRegister &&& q.enableMask = 0 then s.pending
        else insertPending q s.pending } := by
  unfold flagRaised
  refine setInterruptFlag_eq_ok.mpr ⟨hf, he, ?_⟩
  simp only [bne_iff_ne, ne_eq, ite_not]
  split
  case isTrue => rfl
  case isFalse => exact ⟨hs, rfl⟩

/-- Settles O24: the state answered is the raw write's, and the enable bit read from it decides its
pending set. -/
theorem setInterruptFlagRule : Obligations.SetInterruptFlagRule := by
  intro s q hs hf he
  refine ⟨_, setInterruptFlag_in hs hf he, ⟨rfl, rfl, rfl, rfl, rfl, rfl⟩, rfl, rfl, rfl, rfl,
    byte_flagRaised, fun hdis => if_pos hdis, fun hen => queueInterrupt_eq_ok.mpr ⟨hs, ?_⟩⟩
  exact congrArg (fun ps => { s with pending := ps }) (if_neg hen)

/-- Settles O25: the enable bit in the new value and, when it is set, the flag decide the case. -/
theorem updateInterruptEnableRule : Obligations.UpdateInterruptEnableRule := by
  intro s q v hs hf
  refine ⟨fun ⟨hv, hact⟩ => ?queued, fun ⟨hv, hidle⟩ => ?kept, fun hv =>
    ⟨{ s with pending := withoutVector q.vectorAddress s.pending }, ?removed, rfl,
      fun p => mem_withoutVector⟩⟩
  case queued =>
    rw [queueInterrupt_eq_ok.mpr ⟨hs, rfl⟩, updateInterruptEnable_eq_ok,
      if_pos (bne_iff_ne.mpr hv), if_pos (flagActive_iff.mpr hact)]
    exact ⟨hf, hs, rfl⟩
  case kept =>
    rw [updateInterruptEnable_eq_ok, if_pos (bne_iff_ne.mpr hv),
      if_neg (mt flagActive_iff.mp hidle)]
    exact ⟨hf, rfl⟩
  case removed =>
    rw [updateInterruptEnable_eq_ok, if_neg (by simp [hv])]
    exact ⟨hs, rfl⟩

/-! ### Clearing -/

/-- In range, clearing removes the vector, and clears the flag bits when asked (R510). -/
theorem clearInterrupt_in (b : Bool) (hs : pendingSorted s.pending)
    (hf : q.flagRegister < s.cfg.dataSize) :
    clearInterrupt q b s = .ok { s with
      data := if b then (flagCleared q s).data else s.data
      pending := withoutVector q.vectorAddress s.pending } := by
  refine clearInterrupt_eq_ok.mpr ⟨fun _ => hf, hs, ?_⟩
  cases b <;> rfl

/-- Settles O27: only the data space and the pending set differ, and what is left of a sorted
pending set is sorted. -/
theorem clearInterruptRule : Obligations.ClearInterruptRule := by
  intro s q b hs hf
  refine ⟨_, clearInterrupt_in b hs hf, ⟨rfl, rfl, rfl, rfl, rfl, rfl⟩, rfl, rfl, rfl, rfl,
    fun x => ?bytes, fun p => mem_withoutVector, nextInterrupt_eq_none_iff,
    fun a => nextInterrupt_least (pendingSorted_filter _ hs)⟩
  case bytes =>
    cases b with
    | false => exact (if_neg (by simp)).symm
    | true => exact (byte_flagCleared x).trans (by simp only [and_true])

/-! ### Clearing by a flag bit: the flag bits are cleared twice -/

theorem Memory.erase_insert {w a : Nat} {m : Memory w} (v : BitVec w) (h : ∀ c ∈ m, c.1 ≠ a) :
    (m.insert a v).erase a = m := by
  induction m with
  | nil => simp [Memory.insert, Memory.erase]
  | cons c m ih =>
    obtain ⟨hc, hm⟩ := List.forall_mem_cons.mp h
    simp only [Memory.insert]
    split
    · simpa [Memory.erase, hc] using ih hm
    · simpa [Memory.erase] using h

/-- Of two writes to one address the second alone counts. -/
theorem Memory.write_write {w : Nat} (m : Memory w) (a : Nat) (v v' : BitVec w) :
    (m.write a v).write a v' = m.write a v' := by
  have herase : (m.write a v).erase a = m.erase a := by
    unfold Memory.write
    split
    · simp [Memory.erase]
    · exact Memory.erase_insert v Memory.not_mem_erase
  simp only [Memory.write] at herase ⊢
  rw [herase]

/-- Flag bits that are 0 stay 0. -/
theorem flagCleared_flagCleared : flagCleared q (flagCleared q s) = flagCleared q s := by
  have hbits (f : Byte) : clearedFlag q (clearedFlag q f) = clearedFlag q f := by
    simp only [clearedFlag, BitVec.and_assoc, BitVec.and_self]
  unfold flagCleared
  rw [byte_setByte_same, hbits, State.setByte, State.setByte, Memory.write_write]

/-- Clearing the flag bits a second time succeeds and changes nothing. -/
theorem clearFlagBits_again (h : clearFlagBits q s = .ok t) : clearFlagBits q t = .ok t := by
  obtain ⟨hf, rfl⟩ := clearFlagBits_eq_ok.mp h
  exact clearFlagBits_eq_ok.mpr ⟨hf, flagCleared_flagCleared.symm⟩

/-- Clearing with the flag bits is clearing the flag bits, then the vector (R510). -/
theorem clearInterrupt_true :
    clearInterrupt q true s = clearFlagBits q s >>= clearInterrupt q false := rfl

/-- Settles O28: `clearInterrupt` clears the flag bits again after `clearInterruptByFlag` has, which
neither faults nor changes anything. -/
theorem clearInterruptByFlagRule : Obligations.ClearInterruptByFlagRule := by
  intro s q v
  refine ⟨fun hv => ?none, fun hv => ?some⟩
  case none => rw [clearInterruptByFlag, if_neg (by simp [hv])]; rfl
  case some =>
    rw [clearInterruptByFlag, if_pos (bne_iff_ne.mpr hv), clearInterrupt_true]
    cases h : clearFlagBits q s with
    | error f => rfl
    | ok s1 => rw [bind_ok, bind_ok, clearInterrupt_true, clearFlagBits_again h, bind_ok]

end Sys2Proof.Machine
end

section
/-! PROOFS. The scheduler's operations on the event chain (60_exceptions.md R522, R523). -/

namespace Sys2Proof.Machine

theorem removeEvent_of_absent {id : Nat} {es : List ClockEvent} (h : ∀ e ∈ es, e.id ≠ id) :
    removeEvent id es = es := by
  induction es with
  | nil => rfl
  | cons x es ih =>
    obtain ⟨hx, hes⟩ := List.forall_mem_cons.mp h
    rw [removeEvent, if_neg hx, ih hes]

/-- Where an entry has the id, the first one is taken out from between the others (R522). -/
theorem removeEvent_split {id : Nat} {es : List ClockEvent} (h : ∃ e ∈ es, e.id = id) :
    ∃ before e after, es = before ++ e :: after ∧ e.id = id ∧ (∀ x ∈ before, x.id ≠ id) ∧
      removeEvent id es = before ++ after := by
  induction es with
  | nil => simp at h
  | cons x es ih =>
    by_cases hx : x.id = id
    · exact ⟨[], x, es, rfl, hx, by simp, by simp [removeEvent, hx]⟩
    · obtain ⟨before, e, after, rfl, he, hbefore, hrem⟩ := ih (by simpa [hx] using h)
      exact ⟨x :: before, e, after, rfl, he, List.forall_mem_cons.mpr ⟨hx, hbefore⟩,
        by rw [removeEvent, if_neg hx, hrem]; rfl⟩

/-- Settles O30: the chain without the first entry of the id is the chain itself when there is none,
and updating adds to it exactly when one was found or the parameter says so. -/
theorem clearAndUpdateClockEventRule : Obligations.ClearAndUpdateClockEventRule := by
  intro s now id n hs
  have hfound : s.events.any (fun e => e.id == id) = true ↔ ∃ e ∈ s.events, e.id = id := by simp
  have habsent : s.events.any (fun e => e.id == id) = false ↔ ∀ e ∈ s.events, e.id ≠ id := by simp
  refine ⟨_, _, _, clearClockEvent_eq_ok.mpr ⟨hs, rfl⟩, rfl, habsent, fun h => ?same,
    fun h => removeEvent_split (hfound.mp h), updateClockEvent_eq_ok.mpr ⟨hs, rfl⟩,
    fun h => ?added, fun h hparam => ?left⟩
  case same => rw [removeEvent_of_absent (habsent.mp h)]
  case added =>
    rw [if_pos (Bool.or_eq_true_iff.mpr h)]
    exact addClockEvent_eq_ok.mpr ⟨eventsSorted_removeEvent id hs, rfl⟩
  case left =>
    rw [if_neg (by simp [h, hparam]), removeEvent_of_absent (habsent.mp h)]

end Sys2Proof.Machine
end

section
/-! PROOFS. Encoding and decoding (30_encoding.md R150 to R158, R166): for each layout, a word is
put together from its fields and gives them back; for each row of the opcode table, what that says
of the instruction the row stands for. -/

namespace Sys2Proof

/-! ### A word from its fixed bits and its fields, one lemma for each layout -/

/-- A field that a row fixes has in every word that matches the row the value the row gives. -/
theorem fixed_field {w m b : Word} (h : w &&& m = b) (start len : Nat)
    (hm : m.extractLsb' start len = BitVec.allOnes len := by decide) :
    w.extractLsb' start len = b.extractLsb' start len := by
  rw [← h, BitVec.extractLsb'_and, hm, BitVec.and_allOnes]

theorem encRR_fields {w : Word} {o : BitVec 6}
    (h : w.extractLsb' 10 6 = o) : encRR o (fD w) (fR w) = w := by
  subst h
  apply BitVec.eq_of_getLsbD_eq
  intro i hi
  interval_cases i <;>
    simp only [encRR, fD, fR, BitVec.getLsbD_extractLsb', BitVec.getLsbD_append] <;>
    simp [-BitVec.getLsbD_eq_getElem]

theorem encRK_fields {w : Word} {o : BitVec 4}
    (h : w.extractLsb' 12 4 = o) : encRK o (fDhi w) (fK8 w) = w := by
  subst h
  apply BitVec.eq_of_getLsbD_eq
  intro i hi
  interval_cases i <;>
    simp only [encRK, fDhi, fK8, BitVec.getLsbD_extractLsb', BitVec.getLsbD_append] <;>
    simp [-BitVec.getLsbD_eq_getElem]

theorem encR1_fields {w : Word} {o : BitVec 7} {l : BitVec 4}
    (ho : w.extractLsb' 9 7 = o) (hl : w.extractLsb' 0 4 = l) : encR1 o l (fD w) = w := by
  subst ho hl
  apply BitVec.eq_of_getLsbD_eq
  intro i hi
  interval_cases i <;>
    simp only [encR1, fD, BitVec.getLsbD_extractLsb', BitVec.getLsbD_append] <;>
    simp [-BitVec.getLsbD_eq_getElem]

theorem encR4_fields {w : Word} {o : BitVec 8}
    (h : w.extractLsb' 8 8 = o) : encR4 o (fDhi w) (fRhi w) = w := by
  subst h
  apply BitVec.eq_of_getLsbD_eq
  intro i hi
  interval_cases i <;>
    simp only [encR4, fDhi, fRhi, BitVec.getLsbD_extractLsb', BitVec.getLsbD_append] <;>
    simp [-BitVec.getLsbD_eq_getElem]

theorem encR3_fields {w : Word} {o : BitVec 8} {m l : BitVec 1}
    (ho : w.extractLsb' 8 8 = o) (hm : w.extractLsb' 7 1 = m) (hl : w.extractLsb' 3 1 = l) :
    encR3 o m l (fD3 w) (fR3 w) = w := by
  subst ho hm hl
  apply BitVec.eq_of_getLsbD_eq
  intro i hi
  interval_cases i <;>
    simp only [encR3, fD3, fR3, BitVec.getLsbD_extractLsb', BitVec.getLsbD_append] <;>
    simp [-BitVec.getLsbD_eq_getElem]

theorem encW_fields {w : Word} {o : BitVec 8}
    (h : w.extractLsb' 8 8 = o) : encW o (fDeven w) (fReven w) = w := by
  subst h
  apply BitVec.eq_of_getLsbD_eq
  intro i hi
  interval_cases i <;>
    simp only [encW, fDeven, fReven, BitVec.getLsbD_extractLsb', BitVec.getLsbD_append] <;>
    simp [-BitVec.getLsbD_eq_getElem]

theorem encIW_fields {w : Word} {o : BitVec 8}
    (h : w.extractLsb' 8 8 = o) : encIW o (fDiw w) (fK6 w) = w := by
  subst h
  apply BitVec.eq_of_getLsbD_eq
  intro i hi
  interval_cases i <;>
    simp only [encIW, fDiw, fK6, BitVec.getLsbD_extractLsb', BitVec.getLsbD_append] <;>
    simp [-BitVec.getLsbD_eq_getElem]

theorem encIO_fields {w : Word} {o : BitVec 5}
    (h : w.extractLsb' 11 5 = o) : encIO o (fD w) (fA6 w) = w := by
  subst h
  apply BitVec.eq_of_getLsbD_eq
  intro i hi
  interval_cases i <;>
    simp only [encIO, fD, fA6, BitVec.getLsbD_extractLsb', BitVec.getLsbD_append] <;>
    simp [-BitVec.getLsbD_eq_getElem]

theorem encIOB_fields {w : Word} {o : BitVec 8}
    (h : w.extractLsb' 8 8 = o) : encIOB o (fA5 w) (fb w) = w := by
  subst h
  apply BitVec.eq_of_getLsbD_eq
  intro i hi
  interval_cases i <;>
    simp only [encIOB, fA5, fb, BitVec.getLsbD_extractLsb', BitVec.getLsbD_append] <;>
    simp [-BitVec.getLsbD_eq_getElem]

theorem encBR_fields {w : Word} {o : BitVec 6}
    (h : w.extractLsb' 10 6 = o) : encBR o (fk7 w) (fb w) = w := by
  subst h
  apply BitVec.eq_of_getLsbD_eq
  intro i hi
  interval_cases i <;>
    simp only [encBR, fk7, fb, BitVec.getLsbD_extractLsb', BitVec.getLsbD_append] <;>
    simp [-BitVec.getLsbD_eq_getElem]

theorem encREL_fields {w : Word} {o : BitVec 4}
    (h : w.extractLsb' 12 4 = o) : encREL o (fk12 w) = w := by
  subst h
  apply BitVec.eq_of_getLsbD_eq
  intro i hi
  interval_cases i <;>
    simp only [encREL, fk12, BitVec.getLsbD_extractLsb', BitVec.getLsbD_append] <;>
    simp [-BitVec.getLsbD_eq_getElem]

theorem encABS_fields {w w2 : Word} {o : BitVec 7} {l : BitVec 3}
    (ho : w.extractLsb' 9 7 = o) (hl : w.extractLsb' 1 3 = l) : encABS o l (fk22 w w2) = w := by
  subst ho hl
  apply BitVec.eq_of_getLsbD_eq
  intro i hi
  interval_cases i <;>
    simp only [encABS, fk22, BitVec.getLsbD_extractLsb', BitVec.getLsbD_append] <;>
    simp [-BitVec.getLsbD_eq_getElem]

theorem encK4_fields {w : Word} {o : BitVec 8} {l : BitVec 4}
    (ho : w.extractLsb' 8 8 = o) (hl : w.extractLsb' 0 4 = l) : encK4 o l (fK4 w) = w := by
  subst ho hl
  apply BitVec.eq_of_getLsbD_eq
  intro i hi
  interval_cases i <;>
    simp only [encK4, fK4, BitVec.getLsbD_extractLsb', BitVec.getLsbD_append] <;>
    simp [-BitVec.getLsbD_eq_getElem]

theorem encRB_fields {w : Word} {o : BitVec 7} (ho : w.extractLsb' 9 7 = o)
    (hl : w.extractLsb' 3 1 = 0#1) : encRB o (fD w) (fb w) = w := by
  have key : w.extractLsb' 9 7 ++ fD w ++ w.extractLsb' 3 1 ++ fb w = w := by
    apply BitVec.eq_of_getLsbD_eq
    intro i hi
    interval_cases i <;>
      simp only [fD, fb, BitVec.getLsbD_extractLsb', BitVec.getLsbD_append] <;>
      simp [-BitVec.getLsbD_eq_getElem]
  rwa [ho, hl] at key

theorem encS_fields {w : Word} {o : BitVec 9} (ho : w.extractLsb' 7 9 = o)
    (hl : w.extractLsb' 0 4 = 0b1000#4) : encS o (fs w) = w := by
  have key : w.extractLsb' 7 9 ++ fs w ++ w.extractLsb' 0 4 = w := by
    apply BitVec.eq_of_getLsbD_eq
    intro i hi
    interval_cases i <;>
      simp only [fs, BitVec.getLsbD_extractLsb', BitVec.getLsbD_append] <;>
      simp [-BitVec.getLsbD_eq_getElem]
  rwa [ho, hl] at key

theorem encQ_fields {w : Word} {st y : BitVec 1} (htop : w.extractLsb' 14 2 = 0b10#2)
    (hzero : w.extractLsb' 12 1 = 0#1) (hst : w.extractLsb' 9 1 = st)
    (hy : w.extractLsb' 3 1 = y) : encQ st y (fD w) (fq w) = w := by
  have key : w.extractLsb' 14 2 ++ (fq w).extractLsb' 5 1 ++ w.extractLsb' 12 1 ++
      (fq w).extractLsb' 3 2 ++ w.extractLsb' 9 1 ++ fD w ++ w.extractLsb' 3 1 ++
      (fq w).extractLsb' 0 3 = w := by
    apply BitVec.eq_of_getLsbD_eq
    intro i hi
    interval_cases i <;>
      simp only [fD, fq, BitVec.getLsbD_extractLsb', BitVec.getLsbD_append] <;>
      simp [-BitVec.getLsbD_eq_getElem]
  rwa [htop, hzero, hst, hy] at key

/-- An LDD or STD word with displacement 0 is the LD or ST word (30_encoding.md R154, D30). -/
theorem encQ_zero (st y : BitVec 1) (d : Reg) :
    encQ st y d 0 = encR1 (0b100000#6 ++ st) (y ++ 0#3) d := by
  apply BitVec.eq_of_getLsbD_eq
  intro i hi
  interval_cases i <;>
    simp only [encQ, encR1, BitVec.getLsbD_extractLsb', BitVec.getLsbD_append] <;>
    simp [-BitVec.getLsbD_eq_getElem]

/-- The second word of JMP and CALL holds the low 16 bits of the target. -/
theorem fk22_low (w w2 : Word) : (fk22 w w2).extractLsb' 0 16 = w2 := by
  apply BitVec.eq_of_getLsbD_eq
  intro i hi
  interval_cases i <;>
    simp only [fk22, BitVec.getLsbD_extractLsb', BitVec.getLsbD_append] <;>
    simp [-BitVec.getLsbD_eq_getElem]

/-! ### The registers a field can name -/

theorem hiReg_append (x : BitVec 4) : hiReg (1#1 ++ x) = true := by
  revert x; decide

theorem midReg_append (x : BitVec 3) : midReg (0b10#2 ++ x) = true := by
  revert x; decide

theorem evenReg_append (x : BitVec 4) : evenReg (x ++ 0#1) = true := by
  revert x; decide

theorem wordReg_append (x : BitVec 2) : wordReg (0b11#2 ++ x ++ 0#1) = true := by
  revert x; decide

/-! ### Decoding what was encoded, one lemma for each layout

`k` is the row's place in the table, counted from 0, `b` its `match` and `mk` its instruction. -/

/-- Decoding the words of `i` gives `i` back, whatever stands after a one-word form. -/
def DecodesBack (i : Instr) : Prop :=
  (∃ w, encode i = [w] ∧ ∀ w2, decode w w2 = .ok i) ∨
    ∃ w w2, encode i = [w, w2] ∧ decode w w2 = .ok i

/-- Row `k` of the opcode table is `r`, and every row before it fixes a bit differently. -/
def RowAt (k : Nat) (r : Row) : Prop :=
  opcodeTable[k]? = some r ∧ (opcodeTable.take k).all (fun x => x.apart r) = true

theorem RowAt.decode {k : Nat} {r : Row} {w : Word} (hr : RowAt k r) (hm : w &&& r.mask = r.bits)
    (w2 : Word) : decode w w2 = .ok (r.instr w w2) :=
  decode_of_place k hr.1 hr.2 (beq_iff_eq.mpr hm)

theorem RowAt.decodesBack {k : Nat} {r : Row} {i : Instr} {w : Word} (hr : RowAt k r)
    (he : encode i = [w]) (hm : w &&& r.mask = r.bits) (hi : ∀ w2, r.instr w w2 = i) :
    DecodesBack i :=
  .inl ⟨w, he, fun w2 => (hr.decode hm w2).trans (congrArg _ (hi w2))⟩

theorem RowAt.decodesBack_two {k : Nat} {r : Row} {i : Instr} {w w2 : Word} (hr : RowAt k r)
    (he : encode i = [w, w2]) (hm : w &&& r.mask = r.bits) (hi : r.instr w w2 = i) :
    DecodesBack i :=
  .inr ⟨w, w2, he, (hr.decode hm w2).trans (congrArg _ hi)⟩

theorem decodesBack_0 (k : Nat) (b : Word) (i : Instr)
    (hr : RowAt k ⟨0xffff, b, fun _ _ => i⟩ := by exact ⟨rfl, by decide⟩)
    (he : encode i = [b] := by rfl) : DecodesBack i :=
  hr.decodesBack he BitVec.and_allOnes fun _ => rfl

theorem decodesBack_RR (k : Nat) (b : Word) (mk : Reg → Reg → Instr) {d r : Reg}
    (hr : RowAt k ⟨0xfc00, b, fun w _ => mk (fD w) (fR w)⟩ := by exact ⟨rfl, by decide⟩)
    (he : encode (mk d r) = [encRR (b.extractLsb' 10 6) d r] := by rfl)
    (hb : b.extractLsb' 10 6 ++ 0#10 = b := by rfl) : DecodesBack (mk d r) :=
  hr.decodesBack he ((encRR_mask ..).trans hb) fun _ => by simp

theorem decodesBack_RK (k : Nat) (b : Word) (mk : Reg → Byte → Instr) {d : Reg} {K : Byte}
    (h : hiReg d = true)
    (hr : RowAt k ⟨0xf000, b, fun w _ => mk (fDhi w) (fK8 w)⟩ := by exact ⟨rfl, by decide⟩)
    (he : encode (mk d K) = [encRK (b.extractLsb' 12 4) d K] := by rfl)
    (hb : b.extractLsb' 12 4 ++ 0#12 = b := by rfl) : DecodesBack (mk d K) :=
  hr.decodesBack he ((encRK_mask ..).trans hb) fun _ => by simp [hiReg_eq h]

theorem decodesBack_R1 (k : Nat) (b : Word) (mk : Reg → Instr) {d : Reg}
    (hr : RowAt k ⟨0xfe0f, b, fun w _ => mk (fD w)⟩ := by exact ⟨rfl, by decide⟩)
    (he : encode (mk d) = [encR1 (b.extractLsb' 9 7) (b.extractLsb' 0 4) d] := by rfl)
    (hb : b.extractLsb' 9 7 ++ 0#5 ++ b.extractLsb' 0 4 = b := by rfl) : DecodesBack (mk d) :=
  hr.decodesBack he ((encR1_mask ..).trans hb) fun _ => by simp

theorem decodesBack_R1_two (k : Nat) (b : Word) (mk : Reg → Word → Instr) {d : Reg} {w2 : Word}
    (hr : RowAt k ⟨0xfe0f, b, fun w w2 => mk (fD w) w2⟩ := by exact ⟨rfl, by decide⟩)
    (he : encode (mk d w2) = [encR1 (b.extractLsb' 9 7) (b.extractLsb' 0 4) d, w2] := by rfl)
    (hb : b.extractLsb' 9 7 ++ 0#5 ++ b.extractLsb' 0 4 = b := by rfl) : DecodesBack (mk d w2) :=
  hr.decodesBack_two he ((encR1_mask ..).trans hb) (by simp)

theorem decodesBack_R4 (k : Nat) (b : Word) (mk : Reg → Reg → Instr) {d r : Reg}
    (h : (hiReg d && hiReg r) = true)
    (hr : RowAt k ⟨0xff00, b, fun w _ => mk (fDhi w) (fRhi w)⟩ := by exact ⟨rfl, by decide⟩)
    (he : encode (mk d r) = [encR4 (b.extractLsb' 8 8) d r] := by rfl)
    (hb : b.extractLsb' 8 8 ++ 0#8 = b := by rfl) : DecodesBack (mk d r) := by
  obtain ⟨hd, hr'⟩ := Bool.and_eq_true_iff.mp h
  exact hr.decodesBack he ((encR4_mask ..).trans hb) fun _ => by simp [hiReg_eq hd, hiReg_eq hr']

theorem decodesBack_R3 (k : Nat) (b : Word) (mk : Reg → Reg → Instr) {d r : Reg}
    (h : (midReg d && midReg r) = true)
    (hr : RowAt k ⟨0xff88, b, fun w _ => mk (fD3 w) (fR3 w)⟩ := by exact ⟨rfl, by decide⟩)
    (he : encode (mk d r) =
      [encR3 (b.extractLsb' 8 8) (b.extractLsb' 7 1) (b.extractLsb' 3 1) d r] := by rfl)
    (hb : b.extractLsb' 8 8 ++ b.extractLsb' 7 1 ++ 0#3 ++ b.extractLsb' 3 1 ++ 0#3 = b := by rfl) :
    DecodesBack (mk d r) := by
  obtain ⟨hd, hr'⟩ := Bool.and_eq_true_iff.mp h
  exact hr.decodesBack he ((encR3_mask ..).trans hb) fun _ => by simp [midReg_eq hd, midReg_eq hr']

theorem decodesBack_W (k : Nat) (b : Word) (mk : Reg → Reg → Instr) {d r : Reg}
    (h : (evenReg d && evenReg r) = true)
    (hr : RowAt k ⟨0xff00, b, fun w _ => mk (fDeven w) (fReven w)⟩ := by exact ⟨rfl, by decide⟩)
    (he : encode (mk d r) = [encW (b.extractLsb' 8 8) d r] := by rfl)
    (hb : b.extractLsb' 8 8 ++ 0#8 = b := by rfl) : DecodesBack (mk d r) := by
  obtain ⟨hd, hr'⟩ := Bool.and_eq_true_iff.mp h
  exact hr.decodesBack he ((encW_mask ..).trans hb) fun _ => by simp [evenReg_eq hd, evenReg_eq hr']

theorem decodesBack_IW (k : Nat) (b : Word) (mk : Reg → BitVec 6 → Instr) {d : Reg} {K : BitVec 6}
    (h : wordReg d = true)
    (hr : RowAt k ⟨0xff00, b, fun w _ => mk (fDiw w) (fK6 w)⟩ := by exact ⟨rfl, by decide⟩)
    (he : encode (mk d K) = [encIW (b.extractLsb' 8 8) d K] := by rfl)
    (hb : b.extractLsb' 8 8 ++ 0#8 = b := by rfl) : DecodesBack (mk d K) :=
  hr.decodesBack he ((encIW_mask ..).trans hb) fun _ => by
    simp only [fDiw_encIW, wordReg_eq h, fK6_encIW]

theorem decodesBack_IO (k : Nat) (b : Word) (mk : Reg → BitVec 6 → Instr) {d : Reg} {A : BitVec 6}
    (hr : RowAt k ⟨0xf800, b, fun w _ => mk (fD w) (fA6 w)⟩ := by exact ⟨rfl, by decide⟩)
    (he : encode (mk d A) = [encIO (b.extractLsb' 11 5) d A] := by rfl)
    (hb : b.extractLsb' 11 5 ++ 0#11 = b := by rfl) : DecodesBack (mk d A) :=
  hr.decodesBack he ((encIO_mask ..).trans hb) fun _ => by simp

theorem decodesBack_IOB (k : Nat) (b : Word) (mk : BitVec 5 → BitVec 3 → Instr) {A : BitVec 5}
    {n : BitVec 3}
    (hr : RowAt k ⟨0xff00, b, fun w _ => mk (fA5 w) (fb w)⟩ := by exact ⟨rfl, by decide⟩)
    (he : encode (mk A n) = [encIOB (b.extractLsb' 8 8) A n] := by rfl)
    (hb : b.extractLsb' 8 8 ++ 0#8 = b := by rfl) : DecodesBack (mk A n) :=
  hr.decodesBack he ((encIOB_mask ..).trans hb) fun _ => by simp

theorem decodesBack_RB (k : Nat) (b : Word) (mk : Reg → BitVec 3 → Instr) {d : Reg} {n : BitVec 3}
    (hr : RowAt k ⟨0xfe08, b, fun w _ => mk (fD w) (fb w)⟩ := by exact ⟨rfl, by decide⟩)
    (he : encode (mk d n) = [encRB (b.extractLsb' 9 7) d n] := by rfl)
    (hb : b.extractLsb' 9 7 ++ 0#9 = b := by rfl) : DecodesBack (mk d n) :=
  hr.decodesBack he ((encRB_mask ..).trans hb) fun _ => by simp

theorem decodesBack_BR (k : Nat) (b : Word) (mk : BitVec 3 → BitVec 7 → Instr) {n : BitVec 3}
    {j : BitVec 7}
    (hr : RowAt k ⟨0xfc00, b, fun w _ => mk (fb w) (fk7 w)⟩ := by exact ⟨rfl, by decide⟩)
    (he : encode (mk n j) = [encBR (b.extractLsb' 10 6) j n] := by rfl)
    (hb : b.extractLsb' 10 6 ++ 0#10 = b := by rfl) : DecodesBack (mk n j) :=
  hr.decodesBack he ((encBR_mask ..).trans hb) fun _ => by simp

theorem decodesBack_REL (k : Nat) (b : Word) (mk : BitVec 12 → Instr) {j : BitVec 12}
    (hr : RowAt k ⟨0xf000, b, fun w _ => mk (fk12 w)⟩ := by exact ⟨rfl, by decide⟩)
    (he : encode (mk j) = [encREL (b.extractLsb' 12 4) j] := by rfl)
    (hb : b.extractLsb' 12 4 ++ 0#12 = b := by rfl) : DecodesBack (mk j) :=
  hr.decodesBack he ((encREL_mask ..).trans hb) fun _ => by simp

theorem decodesBack_ABS (k : Nat) (b : Word) (mk : BitVec 22 → Instr) {j : BitVec 22}
    (hr : RowAt k ⟨0xfe0e, b, fun w w2 => mk (fk22 w w2)⟩ := by exact ⟨rfl, by decide⟩)
    (he : encode (mk j) =
      [encABS (b.extractLsb' 9 7) (b.extractLsb' 1 3) j, j.extractLsb' 0 16] := by rfl)
    (hb : b.extractLsb' 9 7 ++ 0#5 ++ b.extractLsb' 1 3 ++ 0#1 = b := by rfl) :
    DecodesBack (mk j) :=
  hr.decodesBack_two he ((encABS_mask ..).trans hb) (by simp)

theorem decodesBack_S (k : Nat) (b : Word) (mk : BitVec 3 → Instr) {n : BitVec 3}
    (hr : RowAt k ⟨0xff8f, b, fun w _ => mk (fs w)⟩ := by exact ⟨rfl, by decide⟩)
    (he : encode (mk n) = [encS (b.extractLsb' 7 9) n] := by rfl)
    (hb : b.extractLsb' 7 9 ++ 0#3 ++ 0b1000#4 = b := by rfl) : DecodesBack (mk n) :=
  hr.decodesBack he ((encS_mask ..).trans hb) fun _ => by simp

theorem decodesBack_K4 (k : Nat) (b : Word) (mk : BitVec 4 → Instr) {K : BitVec 4}
    (hr : RowAt k ⟨0xff0f, b, fun w _ => mk (fK4 w)⟩ := by exact ⟨rfl, by decide⟩)
    (he : encode (mk K) = [encK4 (b.extractLsb' 8 8) (b.extractLsb' 0 4) K] := by rfl)
    (hb : b.extractLsb' 8 8 ++ 0#4 ++ b.extractLsb' 0 4 = b := by rfl) : DecodesBack (mk K) :=
  hr.decodesBack he ((encK4_mask ..).trans hb) fun _ => by simp

/-- A row before an LDD or STD row either fixes a bit differently or is an LD or ST row, whose words
have displacement 0. -/
theorem decodesBack_Q (k : Nat) (b : Word) (mk : Reg → BitVec 6 → Instr) {d : Reg} {q : BitVec 6}
    (h : nonzeroDisp q = true)
    (hk : opcodeTable[k]? = some ⟨0xd208, b, fun w _ => mk (fD w) (fq w)⟩ := by rfl)
    (ha : (opcodeTable.take k).all (fun x => x.apart ⟨0xd208, b, fun w _ => mk (fD w) (fq w)⟩ ||
      (x.mask == 0xfe0f && x.bits &&& 0x2c07 == 0)) = true := by decide)
    (he : encode (mk d q) = [encQ (b.extractLsb' 9 1) (b.extractLsb' 3 1) d q] := by rfl)
    (hb : 0b100000#6 ++ b.extractLsb' 9 1 ++ 0#5 ++ b.extractLsb' 3 1 ++ 0#3 = b := by rfl) :
    DecodesBack (mk d q) := by
  have hq : q ≠ 0 := of_decide_eq_true h
  have hm := (encQ_mask (b.extractLsb' 9 1) (b.extractLsb' 3 1) d q).trans hb
  refine .inl ⟨_, he, fun w2 => ?_⟩
  rw [decode_of_place_not k hk (fun x hx => ?_) (beq_iff_eq.mpr hm)]
  · simp
  · refine (Bool.or_eq_true_iff.mp (List.all_eq_true.mp ha x hx)).imp_right fun hx => ?_
    simp only [Bool.and_eq_true, beq_iff_eq] at hx
    refine Bool.eq_false_iff.mpr fun hmx => hq ?_
    have hw := beq_iff_eq.mp hmx
    rw [hx.1] at hw
    rw [← fq_encQ (b.extractLsb' 9 1) (b.extractLsb' 3 1) d q]
    exact fq_eq_zero hw hx.2

/-- Every well-formed instruction's words match its row of the table and no row before it. -/
theorem decodesBack (i : Instr) (h : WellFormed i) : DecodesBack i := by
  cases i with
  | adc d r => exact decodesBack_RR 0 0x1c00 .adc
  | add d r => exact decodesBack_RR 1 0x0c00 .add
  | adiw d K => exact decodesBack_IW 2 0x9600 .adiw h
  | and d r => exact decodesBack_RR 3 0x2000 .and
  | andi d K => exact decodesBack_RK 4 0x7000 .andi h
  | asr d => exact decodesBack_R1 5 0x9405 .asr
  | bclr n => exact decodesBack_S 6 0x9488 .bclr
  | bld d b => exact decodesBack_RB 7 0xf800 .bld
  | brbc n k => exact decodesBack_BR 8 0xf400 .brbc
  | brbs n k => exact decodesBack_BR 9 0xf000 .brbs
  | brk => exact decodesBack_0 10 0x9598 .brk
  | bset n => exact decodesBack_S 11 0x9408 .bset
  | bst d b => exact decodesBack_RB 12 0xfa00 .bst
  | call k => exact decodesBack_ABS 13 0x940e .call
  | cbi A b => exact decodesBack_IOB 14 0x9800 .cbi
  | com d => exact decodesBack_R1 15 0x9400 .com
  | cp d r => exact decodesBack_RR 16 0x1400 .cp
  | cpc d r => exact decodesBack_RR 17 0x0400 .cpc
  | cpi d K => exact decodesBack_RK 18 0x3000 .cpi h
  | cpse d r => exact decodesBack_RR 19 0x1000 .cpse
  | dec d => exact decodesBack_R1 20 0x940a .dec
  | des K => exact decodesBack_K4 21 0x940b .des
  | eicall => exact decodesBack_0 22 0x9519 .eicall
  | eijmp => exact decodesBack_0 23 0x9419 .eijmp
  | elpm => exact decodesBack_0 24 0x95d8 .elpm
  | elpmZ d => exact decodesBack_R1 25 0x9006 .elpmZ
  | elpmZP d => exact decodesBack_R1 26 0x9007 .elpmZP
  | eor d r => exact decodesBack_RR 27 0x2400 .eor
  | fmul d r => exact decodesBack_R3 28 0x0308 .fmul h
  | fmuls d r => exact decodesBack_R3 29 0x0380 .fmuls h
  | fmulsu d r => exact decodesBack_R3 30 0x0388 .fmulsu h
  | icall => exact decodesBack_0 31 0x9509 .icall
  | ijmp => exact decodesBack_0 32 0x9409 .ijmp
  | inIo d A => exact decodesBack_IO 33 0xb000 .inIo
  | inc d => exact decodesBack_R1 34 0x9403 .inc
  | jmp k => exact decodesBack_ABS 35 0x940c .jmp
  | lac d => exact decodesBack_R1 36 0x9206 .lac
  | las d => exact decodesBack_R1 37 0x9205 .las
  | lat d => exact decodesBack_R1 38 0x9207 .lat
  | ldi d K => exact decodesBack_RK 39 0xe000 .ldi h
  | lds d k => exact decodesBack_R1_two 40 0x9000 .lds
  | ldX d => exact decodesBack_R1 41 0x900c .ldX
  | ldXP d => exact decodesBack_R1 42 0x900d .ldXP
  | ldMX d => exact decodesBack_R1 43 0x900e .ldMX
  | ldY d => exact decodesBack_R1 44 0x8008 .ldY
  | ldYP d => exact decodesBack_R1 45 0x9009 .ldYP
  | ldMY d => exact decodesBack_R1 46 0x900a .ldMY
  | lddY d q => exact decodesBack_Q 47 0x8008 .lddY h
  | ldZ d => exact decodesBack_R1 48 0x8000 .ldZ
  | ldZP d => exact decodesBack_R1 49 0x9001 .ldZP
  | ldMZ d => exact decodesBack_R1 50 0x9002 .ldMZ
  | lddZ d q => exact decodesBack_Q 51 0x8000 .lddZ h
  | lpm => exact decodesBack_0 52 0x95c8 .lpm
  | lpmZ d => exact decodesBack_R1 53 0x9004 .lpmZ
  | lpmZP d => exact decodesBack_R1 54 0x9005 .lpmZP
  | lsr d => exact decodesBack_R1 55 0x9406 .lsr
  | mov d r => exact decodesBack_RR 56 0x2c00 .mov
  | movw d r => exact decodesBack_W 57 0x0100 .movw h
  | mul d r => exact decodesBack_RR 58 0x9c00 .mul
  | muls d r => exact decodesBack_R4 59 0x0200 .muls h
  | mulsu d r => exact decodesBack_R3 60 0x0300 .mulsu h
  | neg d => exact decodesBack_R1 61 0x9401 .neg
  | nop => exact decodesBack_0 62 0x0000 .nop
  | or d r => exact decodesBack_RR 63 0x2800 .or
  | ori d K => exact decodesBack_RK 64 0x6000 .ori h
  | outIo A r => exact decodesBack_IO 65 0xb800 (fun d A => .outIo A d)
  | pop d => exact decodesBack_R1 66 0x900f .pop
  | push r => exact decodesBack_R1 67 0x920f .push
  | rcall k => exact decodesBack_REL 68 0xd000 .rcall
  | ret => exact decodesBack_0 69 0x9508 .ret
  | reti => exact decodesBack_0 70 0x9518 .reti
  | rjmp k => exact decodesBack_REL 71 0xc000 .rjmp
  | ror d => exact decodesBack_R1 72 0x9407 .ror
  | sbc d r => exact decodesBack_RR 73 0x0800 .sbc
  | sbci d K => exact decodesBack_RK 74 0x4000 .sbci h
  | sbi A b => exact decodesBack_IOB 75 0x9a00 .sbi
  | sbic A b => exact decodesBack_IOB 76 0x9900 .sbic
  | sbis A b => exact decodesBack_IOB 77 0x9b00 .sbis
  | sbiw d K => exact decodesBack_IW 78 0x9700 .sbiw h
  | sbrc r b => exact decodesBack_RB 79 0xfc00 .sbrc
  | sbrs r b => exact decodesBack_RB 80 0xfe00 .sbrs
  | sleep => exact decodesBack_0 81 0x9588 .sleep
  | spm => exact decodesBack_0 82 0x95e8 .spm
  | spmZP => exact decodesBack_0 83 0x95f8 .spmZP
  | sts k r => exact decodesBack_R1_two 84 0x9200 (fun d k => .sts k d)
  | stX r => exact decodesBack_R1 85 0x920c .stX
  | stXP r => exact decodesBack_R1 86 0x920d .stXP
  | stMX r => exact decodesBack_R1 87 0x920e .stMX
  | stY r => exact decodesBack_R1 88 0x8208 .stY
  | stYP r => exact decodesBack_R1 89 0x9209 .stYP
  | stMY r => exact decodesBack_R1 90 0x920a .stMY
  | stdY q r => exact decodesBack_Q 91 0x8208 (fun d q => .stdY q d) h
  | stZ r => exact decodesBack_R1 92 0x8200 .stZ
  | stZP r => exact decodesBack_R1 93 0x9201 .stZP
  | stMZ r => exact decodesBack_R1 94 0x9202 .stMZ
  | stdZ q r => exact decodesBack_Q 95 0x8200 (fun d q => .stdZ q d) h
  | sub d r => exact decodesBack_RR 96 0x1800 .sub
  | subi d K => exact decodesBack_RK 97 0x5000 .subi h
  | swap d => exact decodesBack_R1 98 0x9402 .swap
  | wdr => exact decodesBack_0 99 0x95a8 .wdr
  | xch d => exact decodesBack_R1 100 0x9204 .xch

/-- Settles O1: the row of each instruction, with its place in the table. -/
theorem decodeOfEncode : Obligations.DecodeOfEncode := decodesBack

/-! ### The rows of the two-word forms (30_encoding.md R158) -/

/-- The rows of LDS, STS, JMP and CALL. -/
def twoWordRows : List Row :=
  [⟨0xfe0f, 0x9000, fun w w2 => .lds (fD w) w2⟩, ⟨0xfe0f, 0x9200, fun w w2 => .sts w2 (fD w)⟩,
    ⟨0xfe0e, 0x940c, fun w w2 => .jmp (fk22 w w2)⟩, ⟨0xfe0e, 0x940e, fun w w2 => .call (fk22 w w2)⟩]

theorem twoWord_eq_any (w : Word) : twoWord w = twoWordRows.any (fun r => r.matches w) := by
  simp only [twoWord, twoWordRows, List.any_cons, List.any_nil, Row.matches, Bool.or_false,
    Bool.or_assoc]

/-- A row whose words start no two-word form: it fixes a bit differently from each row that does. -/
def Row.short (r : Row) : Bool := twoWordRows.all (fun x => x.apart r)

theorem twoWord_of_short {r : Row} {w : Word} (hs : r.short = true) (hm : r.matches w = true) :
    twoWord w = false := by
  rw [twoWord_eq_any, List.any_eq_false]
  intro x hx
  simp [Row.not_matches_of_apart (List.all_eq_true.mp hs x hx) hm]

/-- A word that starts a two-word form decodes to LDS, STS, JMP or CALL. -/
theorem decode_of_twoWord {w : Word} (h : twoWord w = true) (w2 : Word) :
    ∃ r ∈ twoWordRows, r.matches w = true ∧ decode w w2 = .ok (r.instr w w2) := by
  rw [twoWord_eq_any] at h
  obtain ⟨r, hr, hm⟩ := List.any_eq_true.mp h
  refine ⟨r, hr, hm, ?_⟩
  simp only [twoWordRows, List.mem_cons, List.not_mem_nil, or_false] at hr
  rcases hr with rfl | rfl | rfl | rfl
  · exact decode_of_place 40 rfl (by decide) hm
  · exact decode_of_place 84 rfl (by decide) hm
  · exact decode_of_place 35 rfl (by decide) hm
  · exact decode_of_place 13 rfl (by decide) hm

/-! ### Encoding what was decoded, one lemma for each layout -/

/-- A word that the decoder gives to a row is the first word of the row's instruction, which is
well formed. -/
def Row.Sound (r : Row) : Prop :=
  ∀ w w2 : Word, r.matches w = true → decode w w2 = .ok (r.instr w w2) →
    WellFormed (r.instr w w2) ∧ encode (r.instr w w2) = if twoWord w then [w, w2] else [w]

theorem Row.sound_of_short {m b : Word} {f : Word → Word → Instr}
    (hs : Row.short ⟨m, b, f⟩ = true)
    (h : ∀ w w2 : Word, w &&& m = b → decode w w2 = .ok (f w w2) →
      WellFormed (f w w2) ∧ encode (f w w2) = [w]) : Row.Sound ⟨m, b, f⟩ := by
  intro w w2 hm hd
  rw [twoWord_of_short hs hm]
  exact h w w2 (beq_iff_eq.mp hm) hd

theorem Row.sound_of_two {m b : Word} {f : Word → Word → Instr}
    (hs : ⟨m, b, f⟩ ∈ twoWordRows)
    (h : ∀ w w2 : Word, w &&& m = b →
      WellFormed (f w w2) ∧ encode (f w w2) = [w, w2]) : Row.Sound ⟨m, b, f⟩ := by
  intro w w2 hm _
  rw [twoWord_eq_any, List.any_eq_true.mpr ⟨_, hs, hm⟩]
  exact h w w2 (beq_iff_eq.mp hm)

theorem sound_0 {b : Word} (i : Instr) (hw : WellFormed i := by rfl)
    (he : encode i = [b] := by rfl)
    (hs : Row.short ⟨0xffff, b, fun _ _ => i⟩ = true := by decide) :
    Row.Sound ⟨0xffff, b, fun _ _ => i⟩ :=
  Row.sound_of_short hs fun _ _ hm _ =>
    ⟨hw, he.trans (congrArg (fun x => [x]) (hm.symm.trans BitVec.and_allOnes))⟩

theorem sound_RR {b : Word} (mk : Reg → Reg → Instr)
    (hw : ∀ d r, WellFormed (mk d r) := by intros; rfl)
    (he : ∀ d r, encode (mk d r) = [encRR (b.extractLsb' 10 6) d r] := by intros; rfl)
    (hs : Row.short ⟨0xfc00, b, fun w _ => mk (fD w) (fR w)⟩ = true := by decide) :
    Row.Sound ⟨0xfc00, b, fun w _ => mk (fD w) (fR w)⟩ :=
  Row.sound_of_short hs fun w _ hm _ =>
    ⟨hw _ _, (he _ _).trans (by rw [encRR_fields (fixed_field hm 10 6)])⟩

theorem sound_RK {b : Word} (mk : Reg → Byte → Instr)
    (hw : ∀ d K, hiReg d = true → WellFormed (mk d K) := by intro _ _ h; exact h)
    (he : ∀ d K, encode (mk d K) = [encRK (b.extractLsb' 12 4) d K] := by intros; rfl)
    (hs : Row.short ⟨0xf000, b, fun w _ => mk (fDhi w) (fK8 w)⟩ = true := by decide) :
    Row.Sound ⟨0xf000, b, fun w _ => mk (fDhi w) (fK8 w)⟩ :=
  Row.sound_of_short hs fun w _ hm _ =>
    ⟨hw _ _ (hiReg_append _), (he _ _).trans (by rw [encRK_fields (fixed_field hm 12 4)])⟩

theorem sound_R1 {b : Word} (mk : Reg → Instr) (hw : ∀ d, WellFormed (mk d) := by intros; rfl)
    (he : ∀ d, encode (mk d) = [encR1 (b.extractLsb' 9 7) (b.extractLsb' 0 4) d] := by intros; rfl)
    (hs : Row.short ⟨0xfe0f, b, fun w _ => mk (fD w)⟩ = true := by decide) :
    Row.Sound ⟨0xfe0f, b, fun w _ => mk (fD w)⟩ :=
  Row.sound_of_short hs fun w _ hm _ =>
    ⟨hw _, (he _).trans (by rw [encR1_fields (fixed_field hm 9 7) (fixed_field hm 0 4)])⟩

theorem sound_R1_two {b : Word} (mk : Reg → Word → Instr)
    (hs : ⟨0xfe0f, b, fun w w2 => mk (fD w) w2⟩ ∈ twoWordRows)
    (hw : ∀ d k, WellFormed (mk d k) := by intros; rfl)
    (he : ∀ d k, encode (mk d k) = [encR1 (b.extractLsb' 9 7) (b.extractLsb' 0 4) d, k] := by
      intros; rfl) :
    Row.Sound ⟨0xfe0f, b, fun w w2 => mk (fD w) w2⟩ :=
  Row.sound_of_two hs fun w _ hm =>
    ⟨hw _ _, (he _ _).trans
      (by rw [encR1_fields (fixed_field hm 9 7) (fixed_field hm 0 4)])⟩

theorem sound_R4 {b : Word} (mk : Reg → Reg → Instr)
    (hw : ∀ d r, (hiReg d && hiReg r) = true → WellFormed (mk d r) := by intro _ _ h; exact h)
    (he : ∀ d r, encode (mk d r) = [encR4 (b.extractLsb' 8 8) d r] := by intros; rfl)
    (hs : Row.short ⟨0xff00, b, fun w _ => mk (fDhi w) (fRhi w)⟩ = true := by decide) :
    Row.Sound ⟨0xff00, b, fun w _ => mk (fDhi w) (fRhi w)⟩ :=
  Row.sound_of_short hs fun w _ hm _ =>
    ⟨hw _ _ (Bool.and_eq_true_iff.mpr ⟨hiReg_append _, hiReg_append _⟩),
      (he _ _).trans (by rw [encR4_fields (fixed_field hm 8 8)])⟩

theorem sound_R3 {b : Word} (mk : Reg → Reg → Instr)
    (hw : ∀ d r, (midReg d && midReg r) = true → WellFormed (mk d r) := by intro _ _ h; exact h)
    (he : ∀ d r, encode (mk d r) =
      [encR3 (b.extractLsb' 8 8) (b.extractLsb' 7 1) (b.extractLsb' 3 1) d r] := by intros; rfl)
    (hs : Row.short ⟨0xff88, b, fun w _ => mk (fD3 w) (fR3 w)⟩ = true := by decide) :
    Row.Sound ⟨0xff88, b, fun w _ => mk (fD3 w) (fR3 w)⟩ :=
  Row.sound_of_short hs fun w _ hm _ =>
    ⟨hw _ _ (Bool.and_eq_true_iff.mpr ⟨midReg_append _, midReg_append _⟩),
      (he _ _).trans (by rw [encR3_fields (fixed_field hm 8 8) (fixed_field hm 7 1)
        (fixed_field hm 3 1)])⟩

theorem sound_W {b : Word} (mk : Reg → Reg → Instr)
    (hw : ∀ d r, (evenReg d && evenReg r) = true → WellFormed (mk d r) := by intro _ _ h; exact h)
    (he : ∀ d r, encode (mk d r) = [encW (b.extractLsb' 8 8) d r] := by intros; rfl)
    (hs : Row.short ⟨0xff00, b, fun w _ => mk (fDeven w) (fReven w)⟩ = true := by decide) :
    Row.Sound ⟨0xff00, b, fun w _ => mk (fDeven w) (fReven w)⟩ :=
  Row.sound_of_short hs fun w _ hm _ =>
    ⟨hw _ _ (Bool.and_eq_true_iff.mpr ⟨evenReg_append _, evenReg_append _⟩),
      (he _ _).trans (by rw [encW_fields (fixed_field hm 8 8)])⟩

theorem sound_IW {b : Word} (mk : Reg → BitVec 6 → Instr)
    (hw : ∀ d K, wordReg d = true → WellFormed (mk d K) := by intro _ _ h; exact h)
    (he : ∀ d K, encode (mk d K) = [encIW (b.extractLsb' 8 8) d K] := by intros; rfl)
    (hs : Row.short ⟨0xff00, b, fun w _ => mk (fDiw w) (fK6 w)⟩ = true := by decide) :
    Row.Sound ⟨0xff00, b, fun w _ => mk (fDiw w) (fK6 w)⟩ :=
  Row.sound_of_short hs fun w _ hm _ =>
    ⟨hw _ _ (wordReg_append _), (he _ _).trans (by rw [encIW_fields (fixed_field hm 8 8)])⟩

theorem sound_IO {b : Word} (mk : Reg → BitVec 6 → Instr)
    (hw : ∀ d A, WellFormed (mk d A) := by intros; rfl)
    (he : ∀ d A, encode (mk d A) = [encIO (b.extractLsb' 11 5) d A] := by intros; rfl)
    (hs : Row.short ⟨0xf800, b, fun w _ => mk (fD w) (fA6 w)⟩ = true := by decide) :
    Row.Sound ⟨0xf800, b, fun w _ => mk (fD w) (fA6 w)⟩ :=
  Row.sound_of_short hs fun w _ hm _ =>
    ⟨hw _ _, (he _ _).trans (by rw [encIO_fields (fixed_field hm 11 5)])⟩

theorem sound_IOB {b : Word} (mk : BitVec 5 → BitVec 3 → Instr)
    (hw : ∀ A n, WellFormed (mk A n) := by intros; rfl)
    (he : ∀ A n, encode (mk A n) = [encIOB (b.extractLsb' 8 8) A n] := by intros; rfl)
    (hs : Row.short ⟨0xff00, b, fun w _ => mk (fA5 w) (fb w)⟩ = true := by decide) :
    Row.Sound ⟨0xff00, b, fun w _ => mk (fA5 w) (fb w)⟩ :=
  Row.sound_of_short hs fun w _ hm _ =>
    ⟨hw _ _, (he _ _).trans (by rw [encIOB_fields (fixed_field hm 8 8)])⟩

theorem sound_RB {b : Word} (mk : Reg → BitVec 3 → Instr)
    (hw : ∀ d n, WellFormed (mk d n) := by intros; rfl)
    (he : ∀ d n, encode (mk d n) = [encRB (b.extractLsb' 9 7) d n] := by intros; rfl)
    (hl : b.extractLsb' 3 1 = 0#1 := by rfl)
    (hs : Row.short ⟨0xfe08, b, fun w _ => mk (fD w) (fb w)⟩ = true := by decide) :
    Row.Sound ⟨0xfe08, b, fun w _ => mk (fD w) (fb w)⟩ :=
  Row.sound_of_short hs fun w _ hm _ =>
    ⟨hw _ _, (he _ _).trans (by
      rw [encRB_fields (fixed_field hm 9 7) ((fixed_field hm 3 1).trans hl)])⟩

theorem sound_BR {b : Word} (mk : BitVec 3 → BitVec 7 → Instr)
    (hw : ∀ n j, WellFormed (mk n j) := by intros; rfl)
    (he : ∀ n j, encode (mk n j) = [encBR (b.extractLsb' 10 6) j n] := by intros; rfl)
    (hs : Row.short ⟨0xfc00, b, fun w _ => mk (fb w) (fk7 w)⟩ = true := by decide) :
    Row.Sound ⟨0xfc00, b, fun w _ => mk (fb w) (fk7 w)⟩ :=
  Row.sound_of_short hs fun w _ hm _ =>
    ⟨hw _ _, (he _ _).trans (by rw [encBR_fields (fixed_field hm 10 6)])⟩

theorem sound_REL {b : Word} (mk : BitVec 12 → Instr)
    (hw : ∀ j, WellFormed (mk j) := by intros; rfl)
    (he : ∀ j, encode (mk j) = [encREL (b.extractLsb' 12 4) j] := by intros; rfl)
    (hs : Row.short ⟨0xf000, b, fun w _ => mk (fk12 w)⟩ = true := by decide) :
    Row.Sound ⟨0xf000, b, fun w _ => mk (fk12 w)⟩ :=
  Row.sound_of_short hs fun w _ hm _ =>
    ⟨hw _, (he _).trans (by rw [encREL_fields (fixed_field hm 12 4)])⟩

theorem sound_ABS {b : Word} (mk : BitVec 22 → Instr)
    (hs : ⟨0xfe0e, b, fun w w2 => mk (fk22 w w2)⟩ ∈ twoWordRows)
    (hw : ∀ j, WellFormed (mk j) := by intros; rfl)
    (he : ∀ j, encode (mk j) =
      [encABS (b.extractLsb' 9 7) (b.extractLsb' 1 3) j, j.extractLsb' 0 16] := by intros; rfl) :
    Row.Sound ⟨0xfe0e, b, fun w w2 => mk (fk22 w w2)⟩ :=
  Row.sound_of_two hs fun w _ hm =>
    ⟨hw _, (he _).trans (by
      rw [encABS_fields (fixed_field hm 9 7) (fixed_field hm 1 3), fk22_low])⟩

theorem sound_S {b : Word} (mk : BitVec 3 → Instr) (hw : ∀ n, WellFormed (mk n) := by intros; rfl)
    (he : ∀ n, encode (mk n) = [encS (b.extractLsb' 7 9) n] := by intros; rfl)
    (hl : b.extractLsb' 0 4 = 0b1000#4 := by rfl)
    (hs : Row.short ⟨0xff8f, b, fun w _ => mk (fs w)⟩ = true := by decide) :
    Row.Sound ⟨0xff8f, b, fun w _ => mk (fs w)⟩ :=
  Row.sound_of_short hs fun w _ hm _ =>
    ⟨hw _, (he _).trans (by
      rw [encS_fields (fixed_field hm 7 9) ((fixed_field hm 0 4).trans hl)])⟩

theorem sound_K4 {b : Word} (mk : BitVec 4 → Instr) (hw : ∀ K, WellFormed (mk K) := by intros; rfl)
    (he : ∀ K, encode (mk K) = [encK4 (b.extractLsb' 8 8) (b.extractLsb' 0 4) K] := by intros; rfl)
    (hs : Row.short ⟨0xff0f, b, fun w _ => mk (fK4 w)⟩ = true := by decide) :
    Row.Sound ⟨0xff0f, b, fun w _ => mk (fK4 w)⟩ :=
  Row.sound_of_short hs fun w _ hm _ =>
    ⟨hw _, (he _).trans (by
      rw [encK4_fields (fixed_field hm 8 8) (fixed_field hm 0 4)])⟩

/-- A word of an LDD or STD row with displacement 0 decodes to the LD or ST row, `k` its place and
`plain` its instruction, which stands before it. -/
theorem sound_Q {b : Word} (k : Nat) (mk : Reg → BitVec 6 → Instr) (plain : Reg → Instr)
    (hk : RowAt k ⟨0xfe0f, b, fun w _ => plain (fD w)⟩ := by exact ⟨rfl, by decide⟩)
    (hne : ∀ d q, plain d ≠ mk d q := by exact nofun)
    (hw : ∀ d q, nonzeroDisp q = true → WellFormed (mk d q) := by intro _ _ h; exact h)
    (he : ∀ d q, encode (mk d q) = [encQ (b.extractLsb' 9 1) (b.extractLsb' 3 1) d q] := by
      intros; rfl)
    (hb : 0b100000#6 ++ b.extractLsb' 9 1 ++ 0#5 ++ (b.extractLsb' 3 1 ++ 0#3) = b := by rfl)
    (htop : b.extractLsb' 14 2 = 0b10#2 := by rfl) (hzero : b.extractLsb' 12 1 = 0#1 := by rfl)
    (hs : Row.short ⟨0xd208, b, fun w _ => mk (fD w) (fq w)⟩ = true := by decide) :
    Row.Sound ⟨0xd208, b, fun w _ => mk (fD w) (fq w)⟩ := by
  refine Row.sound_of_short hs fun w w2 hm hd => ?_
  have hword := encQ_fields ((fixed_field hm 14 2).trans htop)
    ((fixed_field hm 12 1).trans hzero) (fixed_field hm 9 1) (fixed_field hm 3 1)
  refine ⟨hw _ _ (decide_eq_true fun hq => hne (fD w) (fq w) ?_), (he _ _).trans (by rw [hword])⟩
  rw [hq, encQ_zero] at hword
  have hplain : w &&& 0xfe0f = b := by
    rw [← hword]
    exact (encR1_mask ..).trans hb
  exact Except.ok.inj ((hk.decode hplain w2).symm.trans hd)

/-! ### Every row -/

theorem rows1_sound : ∀ r ∈ rows1, r.Sound := by
  simp only [rows1, List.forall_mem_cons]
  exact ⟨sound_RR .adc, sound_RR .add, sound_IW .adiw, sound_RR .and, sound_RK .andi, sound_R1 .asr,
    sound_S .bclr, sound_RB .bld, sound_BR .brbc, sound_BR .brbs, sound_0 .brk, sound_S .bset,
    sound_RB .bst, List.forall_mem_nil _⟩

theorem rows2_sound : ∀ r ∈ rows2, r.Sound := by
  simp only [rows2, List.forall_mem_cons]
  exact ⟨sound_ABS .call (by simp [twoWordRows]), sound_IOB .cbi, sound_R1 .com, sound_RR .cp,
    sound_RR .cpc, sound_RK .cpi, sound_RR .cpse, sound_R1 .dec, sound_K4 .des, sound_0 .eicall,
    sound_0 .eijmp, sound_0 .elpm, sound_R1 .elpmZ, List.forall_mem_nil _⟩

theorem rows3_sound : ∀ r ∈ rows3, r.Sound := by
  simp only [rows3, List.forall_mem_cons]
  exact ⟨sound_R1 .elpmZP, sound_RR .eor, sound_R3 .fmul, sound_R3 .fmuls, sound_R3 .fmulsu,
    sound_0 .icall, sound_0 .ijmp, sound_IO .inIo, sound_R1 .inc,
    sound_ABS .jmp (by simp [twoWordRows]), sound_R1 .lac, sound_R1 .las, sound_R1 .lat,
    List.forall_mem_nil _⟩

theorem rows4_sound : ∀ r ∈ rows4, r.Sound := by
  simp only [rows4, List.forall_mem_cons]
  exact ⟨sound_RK .ldi, sound_R1_two .lds (by simp [twoWordRows]), sound_R1 .ldX, sound_R1 .ldXP,
    sound_R1 .ldMX, sound_R1 .ldY, sound_R1 .ldYP, sound_R1 .ldMY, sound_Q 44 .lddY .ldY,
    sound_R1 .ldZ, sound_R1 .ldZP, sound_R1 .ldMZ, sound_Q 48 .lddZ .ldZ, List.forall_mem_nil _⟩

theorem rows5_sound : ∀ r ∈ rows5, r.Sound := by
  simp only [rows5, List.forall_mem_cons]
  exact ⟨sound_0 .lpm, sound_R1 .lpmZ, sound_R1 .lpmZP, sound_R1 .lsr, sound_RR .mov, sound_W .movw,
    sound_RR .mul, sound_R4 .muls, sound_R3 .mulsu, sound_R1 .neg, sound_0 .nop, sound_RR .or,
    sound_RK .ori, List.forall_mem_nil _⟩

theorem rows6_sound : ∀ r ∈ rows6, r.Sound := by
  simp only [rows6, List.forall_mem_cons]
  exact ⟨sound_IO (fun d A => .outIo A d), sound_R1 .pop, sound_R1 .push, sound_REL .rcall,
    sound_0 .ret, sound_0 .reti, sound_REL .rjmp, sound_R1 .ror, sound_RR .sbc, sound_RK .sbci,
    sound_IOB .sbi, sound_IOB .sbic, sound_IOB .sbis, List.forall_mem_nil _⟩

theorem rows7_sound : ∀ r ∈ rows7, r.Sound := by
  simp only [rows7, List.forall_mem_cons]
  exact ⟨sound_IW .sbiw, sound_RB .sbrc, sound_RB .sbrs, sound_0 .sleep, sound_0 .spm,
    sound_0 .spmZP, sound_R1_two (fun d k => .sts k d) (by simp [twoWordRows]), sound_R1 .stX,
    sound_R1 .stXP, sound_R1 .stMX, sound_R1 .stY, sound_R1 .stYP, sound_R1 .stMY,
    List.forall_mem_nil _⟩

theorem rows8_sound : ∀ r ∈ rows8, r.Sound := by
  simp only [rows8, List.forall_mem_cons]
  exact ⟨sound_Q 88 (fun d q => .stdY q d) .stY, sound_R1 .stZ, sound_R1 .stZP, sound_R1 .stMZ,
    sound_Q 92 (fun d q => .stdZ q d) .stZ, sound_RR .sub, sound_RK .subi, sound_R1 .swap,
    sound_0 .wdr, sound_R1 .xch, List.forall_mem_nil _⟩

theorem opcodeTable_sound : ∀ r ∈ opcodeTable, r.Sound := by
  simp only [opcodeTable, List.forall_mem_append]
  exact ⟨⟨⟨⟨⟨⟨⟨rows1_sound, rows2_sound⟩, rows3_sound⟩, rows4_sound⟩, rows5_sound⟩, rows6_sound⟩,
    rows7_sound⟩, rows8_sound⟩

theorem encode_of_decode {w w2 : Word} {i : Instr} (h : decode w w2 = .ok i) :
    WellFormed i ∧ encode i = if twoWord w then [w, w2] else [w] := by
  obtain ⟨r, hr, rfl⟩ := decode_eq_ok.mp h
  exact opcodeTable_sound r (List.mem_of_find?_eq_some hr) w w2
    (List.find?_some (p := fun r : Row => r.matches w) hr) h

/-- Whether a word is accepted does not depend on the word after it. -/
theorem decode_error {w w2 : Word} {e : DecodeError} (h : decode w w2 = .error e) :
    e = .reserved w ∧ ∀ w3 i, decode w w3 ≠ .ok i := by
  unfold decode at h ⊢
  cases hf : opcodeTable.find? (fun r => r.matches w) with
  | some r => rw [hf] at h; cases h
  | none => rw [hf] at h; cases h; exact ⟨rfl, nofun⟩

/-- Settles O2: an accepted word is put together again by its row, and the words of a well-formed
instruction are accepted. -/
theorem encodeOfDecode : Obligations.EncodeOfDecode := by
  intro w w2
  refine ⟨fun i h => encode_of_decode h, fun e h => ?_⟩
  obtain ⟨he, hrej⟩ := decode_error h
  refine ⟨he, fun i ws hw henc => ?_⟩
  rcases decodesBack i hw with ⟨x, hx, hd⟩ | ⟨x, x2, hx, hd⟩
  · obtain ⟨rfl, -⟩ := List.cons.inj (hx.symm.trans henc)
    exact hrej 0 i (hd 0)
  · obtain ⟨rfl, -⟩ := List.cons.inj (hx.symm.trans henc)
    exact hrej x2 i hd

theorem twoWord_of_decode {w w2 a b : Word} {i : Instr} (h : decode w w2 = .ok i)
    (hi : encode i = [a, b]) : twoWord w = true := by
  have henc := hi.symm.trans (encode_of_decode h).2
  cases htw : twoWord w with
  | true => rfl
  | false => rw [htw] at henc; cases henc

/-- Settles O3: the four masks are those of the four rows, and only their instructions have two
words. -/
theorem twoWordForms : Obligations.TwoWordForms := by
  intro w w2
  constructor
  · intro h
    obtain ⟨r, hr, -, hd⟩ := decode_of_twoWord h w2
    simp only [twoWordRows, List.mem_cons, List.not_mem_nil, or_false] at hr
    rcases hr with rfl | rfl | rfl | rfl
    · exact .inl ⟨_, _, hd⟩
    · exact .inr (.inl ⟨_, _, hd⟩)
    · exact .inr (.inr (.inl ⟨_, hd⟩))
    · exact .inr (.inr (.inr ⟨_, hd⟩))
  · rintro (⟨d, k, h⟩ | ⟨k, r, h⟩ | ⟨k, h⟩ | ⟨k, h⟩) <;> exact twoWord_of_decode h rfl

end Sys2Proof
end

section
/-! PROOFS. What every instruction and every step keeps (30_encoding.md R156, 60_exceptions.md R514,
R530): the build, the invariant, and that time passes. -/

namespace Sys2Proof.Machine

open Sys2Proof.Claims

variable {s t u : State}

/-! ### Every instruction finishes -/

theorem writeResult_finished (d : Reg) (res sreg : Byte) : Finished s (writeResult d res sreg s) :=
  ((Body.setReg s d res).trans (.setSreg _ sreg)).finish 0

theorem writeWord_finished (d : Reg) (res : Word) (sreg : Byte) :
    Finished s (writeWord d res sreg s) :=
  ((Body.setPair s (by have := reg_lt d; omega) res).trans (.setSreg _ sreg)).finish 1

theorem writeProduct_finished (p res : Word) : Finished s (writeProduct p res s) :=
  ((Body.setPair s (by omega) res).trans (.setSreg _ _)).finish 1

theorem writeFlags_finished (sreg : Byte) : Finished s (writeFlags sreg s) :=
  (Body.setSreg s sreg).finish 0

theorem setReg_finished (d : Reg) (v : Byte) (n : Nat) : Finished s ((s.setReg d v).finish n) :=
  (Body.setReg s d v).finish n

theorem jump_finished (p : Int) (n : Nat) : Finished s (s.finishAt p n) :=
  (Body.refl s).finishAt p n

theorem nothing_finished : Finished s (s.finish 0) := (Body.refl s).finish 0

/-- An arm of `exec` that always answers. -/
theorem Finished.of_next {a : State} (ha : Finished s a)
    (h : (.next a : Host.Outcome State Fault Refusal) = .next t) : Finished s t := by
  cases h; exact ha

theorem modifyIo_finished {A : BitVec 5} {mask : Byte} {f : Byte → Byte}
    (h : modifyIo A mask f s = .ok t) : Finished s t := by
  obtain ⟨p, hread, h⟩ := bind_eq_ok.mp h
  obtain ⟨s2, hwrite, h⟩ := bind_eq_ok.mp h
  cases h; exact ((busRead_body hread).trans (busWrite_body hwrite)).finish 1

theorem Body.setRampz (s : State) (v : Byte) : Body s (s.setByte rampzAddr v) :=
  ⟨⟨rfl, rfl, rfl, rfl, rfl, rfl⟩, rfl,
    fun hi => hi.setByte (by have := hi.dataSize; simp only [rampzAddr]; omega) v⟩

/-- A completed instruction keeps the build and the invariant, leaves `pc` inside program memory and
takes time. -/
theorem exec_finished {i : Instr} (h : exec i s = .next t) : Finished s t := by
  cases i with
  | adc | add | and | andi | asr | com | dec | eor | inc | lsr | neg | or | ori | ror | sbc | sbci
  | sub | subi => exact (writeResult_finished ..).of_next h
  | adiw | sbiw => exact (writeWord_finished ..).of_next h
  | fmul | fmuls | fmulsu | mul | muls | mulsu => exact (writeProduct_finished ..).of_next h
  | bclr | bset | bst | cp | cpc | cpi => exact (writeFlags_finished ..).of_next h
  | bld | ldi | mov | swap => exact (setReg_finished ..).of_next h
  | movw d r => exact ((Body.setPair s (by have := reg_lt d; omega) _).finish 0).of_next h
  | brk | des | nop | sleep | spm | spmZP => exact nothing_finished.of_next h
  | eijmp | ijmp | jmp | rjmp => exact (jump_finished ..).of_next h
  | brbc | brbs => exact (branchIf_finished ..).of_next h
  | call | eicall | icall | rcall => exact callTo_finished (toOutcome_eq_next.mp h)
  | ret => exact returnFromSubroutine_finished (toOutcome_eq_next.mp h)
  | reti => exact returnFromInterrupt_finished (toOutcome_eq_next.mp h)
  | cpse | sbrc | sbrs => exact skipIf_finished (.refl s) (toOutcome_eq_next.mp h)
  | sbic | sbis =>
    obtain ⟨p, hread, h⟩ := bind_eq_ok.mp (toOutcome_eq_next.mp h)
    exact skipIf_finished (busRead_body hread) h
  | cbi | sbi => exact modifyIo_finished (toOutcome_eq_next.mp h)
  | ldX | ldY | ldZ => exact loadPlain_finished (toOutcome_eq_next.mp h)
  | ldXP | ldYP | ldZP => exact loadPostInc_finished (toOutcome_eq_next.mp h)
  | ldMX | ldMY | ldMZ => exact loadPreDec_finished (toOutcome_eq_next.mp h)
  | lddY | lddZ => exact loadDisp_finished (toOutcome_eq_next.mp h)
  | lds =>
    obtain ⟨s1, hload, h⟩ := bind_eq_ok.mp (toOutcome_eq_next.mp h)
    cases h; exact (loadFrom_body hload).finishAt _ 1
  | stX | stY | stZ => exact storePlain_finished (toOutcome_eq_next.mp h)
  | stXP | stYP | stZP => exact storePostInc_finished (toOutcome_eq_next.mp h)
  | stMX | stMY | stMZ => exact storePreDec_finished (toOutcome_eq_next.mp h)
  | stdY | stdZ => exact storeDisp_finished (toOutcome_eq_next.mp h)
  | sts =>
    obtain ⟨s1, hstore, h⟩ := bind_eq_ok.mp (toOutcome_eq_next.mp h)
    cases h; exact (busWrite_body hstore).finishAt _ 1
  | elpm | elpmZ | lpm | lpmZ => exact loadProg_finished (toOutcome_eq_next.mp h)
  | lpmZP d =>
    obtain ⟨v, -, h⟩ := bind_eq_ok.mp (unlessClash_eq_ok.mp (toOutcome_eq_next.mp h)).2
    cases h; exact ((Body.setReg s d v).trans (.setPair _ (by decide) _)).finish 2
  | elpmZP d =>
    obtain ⟨v, -, h⟩ := bind_eq_ok.mp (unlessClash_eq_ok.mp (toOutcome_eq_next.mp h)).2
    cases h
    exact (((Body.setReg s d v).trans (.setPair _ (by decide) _)).trans (.setRampz _ _)).finish 2
  | inIo =>
    obtain ⟨s1, hload, h⟩ := bind_eq_ok.mp (toOutcome_eq_next.mp h)
    cases h; exact (loadFrom_body hload).finish 0
  | outIo =>
    obtain ⟨s1, hstore, h⟩ := bind_eq_ok.mp (toOutcome_eq_next.mp h)
    cases h; exact (busWrite_body hstore).finish 0
  | push =>
    obtain ⟨s1, hpush, h⟩ := bind_eq_ok.mp (toOutcome_eq_next.mp h)
    cases h; exact (push1_body hpush).finish 1
  | pop d =>
    obtain ⟨p, hpop, h⟩ := bind_eq_ok.mp (toOutcome_eq_next.mp h)
    cases h; exact ((pop1_body hpop).trans (.setReg _ d _)).finish 1
  | lac | las | lat | xch => exact exchangeZ_finished (toOutcome_eq_next.mp h)
  | wdr =>
    obtain ⟨s1, hcall, h⟩ := bind_eq_ok.mp (toOutcome_eq_next.mp h)
    cases h; exact (envWatchdogReset_body hcall).finish 0

/-- A reserved word runs as a 1-cycle no-op (30_encoding.md R166). -/
theorem execWords_finished {w w2 : Word} (h : execWords w w2 s = .next t) : Finished s t := by
  unfold execWords at h
  split at h
  case h_1 => exact exec_finished h
  case h_2 => exact nothing_finished.of_next h

theorem engineStep_finished (h : engineStep s = .next t) : Finished s t := by
  unfold engineStep at h
  split at h
  case h_1 => exact execWords_finished h
  case h_2 => cases h

/-! ### No arm refuses -/

theorem exec_ne_refused (i : Instr) (r : Refusal) : exec i s ≠ .refused r := by
  cases i with
  | adc | add | and | andi | asr | com | dec | eor | inc | lsr | neg | or | ori | ror | sbc | sbci
  | sub | subi | adiw | sbiw | fmul | fmuls | fmulsu | mul | muls | mulsu | bclr | bset | bst | cp
  | cpc | cpi | bld | ldi | mov | swap | movw | brk | des | nop | sleep | spm | spmZP | eijmp | ijmp
  | jmp | rjmp | brbc | brbs => exact nofun
  | _ => exact toOutcome_ne_refused

theorem engineStep_ne_refused (r : Refusal) : engineStep s ≠ .refused r := by
  unfold engineStep execWords
  split
  · split
    · exact exec_ne_refused _ r
    · exact nofun
  · exact nofun

/-- Settles O9: every arm of `exec` answers or ends in a fault, and so does `tick()`. -/
theorem nothingIsRefused : Obligations.NothingIsRefused := by
  intro s r
  refine ⟨fun i => exec_ne_refused i r, ?_⟩
  show thenTick (engineStep s) ≠ _
  cases h : engineStep s with
  | next u => exact toOutcome_ne_refused
  | fault f => exact nofun
  | refused r => exact absurd h (engineStep_ne_refused r)

/-! ### `tick()` -/

/-- The first half of `tick()` calls back for the head event when that is due. -/
theorem fireEvent_eq_ok : fireEvent s = .ok t ↔ eventsSorted s.events ∧
    (NoneDue s ∧ t = s ∨ ∃ e rest, s.events = e :: rest ∧ e.due ≤ s.cycles ∧
      envCallback e.id { s with events := rest } = .ok t) := by
  unfold fireEvent NoneDue
  split
  case isFalse hs => simp [hs]
  case isTrue hs =>
    cases he : s.events with
    | nil => simp [eq_comm]
    | cons e rest =>
      rw [he] at hs
      by_cases hdue : e.due ≤ s.cycles
      · simp [hs, hdue, Nat.not_lt.mpr hdue]
      · simp [hs, hdue, Nat.lt_of_not_le hdue, eq_comm]

/-- Taking the head event out of the chain leaves the environment's part alone. -/
theorem EnvKeeps.withEvents (s : State) (es : List ClockEvent) :
    EnvKeeps s { s with events := es } :=
  .of_data ⟨rfl, rfl, rfl, rfl, rfl, rfl⟩ rfl rfl rfl

theorem fireEvent_keeps (h : fireEvent s = .ok t) : EnvKeeps s t := by
  obtain ⟨-, ⟨-, rfl⟩ | ⟨e, rest, -, -, hcall⟩⟩ := fireEvent_eq_ok.mp h
  · exact .refl _
  · exact (EnvKeeps.withEvents s rest).trans (envCallback_keeps hcall)

theorem Inv.fireEvent (hi : Inv s) (h : fireEvent s = .ok t) : Inv t := by
  obtain ⟨hs, ⟨-, rfl⟩ | ⟨e, rest, he, -, hcall⟩⟩ := fireEvent_eq_ok.mp h
  · exact hi
  · rw [he] at hs
    exact (hi.withEvents (List.pairwise_cons.mp hs).2).envCallback hcall

theorem dispatch_build {a : Nat} (h : dispatch a s = .ok t) :
    SameBuild s t ∧ t.cycles = s.cycles + s.cfg.irqCycles := by
  obtain ⟨s1, hpush, rfl⟩ := dispatch_eq_ok.mp h
  have hb := pushPC_body hpush
  exact ⟨hb.build.trans ⟨rfl, rfl, rfl, rfl, rfl, rfl⟩, congrArg (· + s.cfg.irqCycles) hb.cycles⟩

theorem clearInterrupt_build {q : Descriptor} {b : Bool} (h : clearInterrupt q b s = .ok t) :
    SameBuild s t ∧ t.cycles = s.cycles := by
  obtain ⟨-, -, rfl⟩ := clearInterrupt_eq_ok.mp h
  cases b <;> exact ⟨⟨rfl, rfl, rfl, rfl, rfl, rfl⟩, rfl⟩

theorem dispatchPending_build (h : dispatchPending s = .ok t) :
    SameBuild s t ∧ s.cycles ≤ t.cycles := by
  obtain ⟨-, h⟩ := dispatchPending_eq_ok.mp h
  split at h
  · obtain ⟨s1, hdisp, h⟩ := h
    obtain ⟨hbuild, hcycles⟩ := dispatch_build hdisp
    split at h
    · obtain ⟨hbuild', hcycles'⟩ := clearInterrupt_build h
      exact ⟨hbuild.trans hbuild', by omega⟩
    · rw [h]; exact ⟨hbuild, by omega⟩
  · rw [h]; exact ⟨.refl s, le_rfl⟩

theorem tick_eq_ok : tick s = .ok t ↔ ∃ s1, fireEvent s = .ok s1 ∧ dispatchPending s1 = .ok t :=
  bind_eq_ok

theorem tick_build (h : tick s = .ok t) : SameBuild s t ∧ s.cycles ≤ t.cycles := by
  obtain ⟨s1, hfire, hdisp⟩ := tick_eq_ok.mp h
  have hkeep := fireEvent_keeps hfire
  obtain ⟨hbuild, hcycles⟩ := dispatchPending_build hdisp
  exact ⟨hkeep.build.trans hbuild, hkeep.cycles ▸ hcycles⟩

theorem Inv.tick (hi : Inv s) (h : tick s = .ok t) : Inv t := by
  obtain ⟨s1, hfire, hdisp⟩ := tick_eq_ok.mp h
  exact (hi.fireEvent hfire).dispatchPending hdisp

/-! ### Every step -/

/-- A step is an engine step, the note that a step has been taken, and a `tick()` (R530). -/
theorem step_eq_next : step s = .next t ↔ ∃ u, engineStep s = .next u ∧ tick u.start = .ok t := by
  show thenTick (engineStep s) = _ ↔ _
  cases engineStep s <;> simp [thenTick, toOutcome_eq_next]

/-- Settles O10: the engine step keeps the invariant by `exec_finished`, and `tick()` does. -/
theorem stepKeepsInvariant : Obligations.StepKeepsInvariant := by
  intro s t hi h
  obtain ⟨u, hstep, htick⟩ := step_eq_next.mp h
  exact ((engineStep_finished hstep).inv hi).start.tick htick

/-- Settles O8: the trailing step of the instruction takes the cycle; `tick()` gives none back. -/
theorem stepsTakeTime : Obligations.StepsTakeTime := by
  intro s t hL
  refine ⟨fun i h => ?instr, fun h => ?step⟩
  case instr =>
    have hf := exec_finished h
    exact ⟨hf.build, hf.pc hL, hf.cycles⟩
  case step =>
    obtain ⟨u, hstep, htick⟩ := step_eq_next.mp h
    have hf := engineStep_finished hstep
    obtain ⟨hbuild, hcycles⟩ := tick_build htick
    have hstart : SameBuild s.start u.start :=
      ⟨hf.build.cfg, hf.build.prog, hf.build.readHooks, hf.build.writeHooks, hf.build.watchdog, rfl⟩
    exact ⟨hstart.trans hbuild, lt_of_lt_of_le hf.cycles hcycles⟩

/-! ### The word at `pc` -/

theorem fetch_oneWord (hpc : s.pc < s.cfg.progWords) (h : twoWord (s.prog.read s.pc) = false) :
    fetch s = .ok (s.prog.read s.pc, 0) := by
  rw [fetch, progWord_in hpc, bind_ok, if_neg (by simp [h])]; rfl

theorem fetch_twoWord (hpc : s.pc + 1 < s.cfg.progWords)
    (h : twoWord (s.prog.read s.pc) = true) :
    fetch s = .ok (s.prog.read s.pc, s.prog.read (s.pc + 1)) := by
  rw [fetch, progWord_in (by omega), bind_ok, if_pos h, progWord_in hpc]; rfl

theorem engineStep_of_fetch {w w2 : Word} {i : Instr} (hf : fetch s = .ok (w, w2))
    (hd : decode w w2 = .ok i) : engineStep s = exec i s := by
  simp only [engineStep, hf, execWords, hd]

/-- The engine step executes the instruction whose words stand at `pc` (30_encoding.md R156). -/
theorem engineStep_of_standsAtPc {i : Instr} (hi : WellFormed i) (h : StandsAtPc i s) :
    engineStep s = exec i s := by
  obtain ⟨w, ws, he, hw, hroom, hnext⟩ := h
  rcases decodesBack i hi with ⟨x, hx, hd⟩ | ⟨x, x2, hx, hd⟩
  · obtain ⟨rfl, rfl⟩ := List.cons.inj (hx.symm.trans he)
    have hone : twoWord x = false := by
      have henc := hx.symm.trans (encode_of_decode (hd 0)).2
      cases htw : twoWord x with
      | false => rfl
      | true => rw [htw] at henc; cases henc
    rw [← hw] at hone
    exact engineStep_of_fetch (fetch_oneWord hroom hone) (hw ▸ hd 0)
  · obtain ⟨rfl, rfl⟩ := List.cons.inj (hx.symm.trans he)
    have htwo : twoWord (s.prog.read s.pc) = true := hw ▸ twoWord_of_decode hd hx
    refine engineStep_of_fetch (fetch_twoWord hroom htwo) ?_
    rw [hw, hnext x2 rfl, hd]

/-- Settles O5: the engine step is the instruction's. -/
theorem stepRunsTheInstruction : Obligations.StepRunsTheInstruction := by
  intro i s hi h
  show thenTick (engineStep s) = _
  rw [engineStep_of_standsAtPc hi h]
  cases exec i s <;> rfl

/-- The engine runs on over a word that is the first word of no well-formed instruction. -/
theorem engineStep_reserved (hpc : s.pc < s.cfg.progWords)
    (h : ∀ i ws, WellFormed i → encode i ≠ s.prog.read s.pc :: ws) :
    engineStep s = .next (s.finish 0) := by
  have hrej : ∀ w2 i, decode (s.prog.read s.pc) w2 ≠ .ok i := by
    intro w2 i hd
    obtain ⟨hwf, henc⟩ := encode_of_decode hd
    split at henc <;> exact h i _ hwf henc
  have hone : twoWord (s.prog.read s.pc) = false := by
    refine Bool.eq_false_iff.mpr fun htw => ?_
    obtain ⟨r, -, -, hd⟩ := decode_of_twoWord htw 0
    exact hrej 0 _ hd
  rw [engineStep, fetch_oneWord hpc hone]
  show execWords _ 0 s = _
  unfold execWords
  split
  case h_1 i hd => exact absurd hd (hrej 0 i)
  case h_2 => rfl

/-- An instruction that only advances `pc`. -/
theorem runsOn_finish (s : State) : RunsOn 1 [] [] s (s.finish 0) where
  advances := ⟨finish_pc s 0, rfl⟩
  quiet := ⟨⟨rfl, rfl, rfl, rfl, rfl, rfl⟩, rfl, rfl, rfl, rfl, rfl⟩
  flags := fun _ _ => rfl
  bytes := fun _ _ => rfl

/-- Settles O6: a rejected word starts no two-word form and runs as the no-op. -/
theorem reservedWordIsNop : Obligations.ReservedWordIsNop := by
  intro s hpc h
  have hstep := engineStep_reserved hpc h
  refine ⟨_, hstep, runsOn_finish s, ?_⟩
  show thenTick (engineStep s) = _
  rw [hstep]; rfl

end Sys2Proof.Machine
end

section
/-! PROOFS. Construction and `reset()` (70_reset_and_hazards.md R600, R601), the driver's accesses
(60_exceptions.md R531), and the states a run reaches. -/

namespace Sys2Proof.Machine

open Sys2Proof.Claims

variable {s t : State}

/-! ### The data space after construction and after `reset()` -/

theorem read_resetData (c : Config) (a : Nat) : (resetData c).read a =
    if a = 0x5E then BitVec.ofNat 8 ((c.dataSize - 1) / 256)
    else if a = 0x5D then BitVec.ofNat 8 (c.dataSize - 1) else 0 := by
  simp only [resetData, Memory.read_write, Memory.read_nil, eq_comm (a := a)]
  rfl

theorem resetData_wf (c : Config) : (resetData c).wf :=
  Memory.wf_write (Memory.wf_write Memory.wf_nil ..) ..

theorem resetData_below {c : Config} (h : c.Wf) : (resetData c).below c.dataSize := by
  have hsize : 0x60 ≤ c.dataSize := le_trans h.2.2.1 (Nat.le_add_right ..)
  exact Memory.below_write (Memory.below_write (List.forall_mem_nil _) (by omega) _) (by omega) _

/-- SP starts at DATA_SIZE - 1 (R601). -/
theorem sp_of_resetData (h : s.cfg.Wf) (hd : s.data = resetData s.cfg) :
    s.sp.toNat = s.cfg.dataSize - 1 := by
  have hsize := h.2.2.2
  have hlow : s.byte 0x5D = BitVec.ofNat 8 (s.cfg.dataSize - 1) := by
    rw [State.byte, hd, read_resetData]; rfl
  have hhigh : s.byte 0x5E = BitVec.ofNat 8 ((s.cfg.dataSize - 1) / 256) := by
    rw [State.byte, hd, read_resetData]; rfl
  have hsp : s.sp.toNat = (s.byte 0x5E).toNat * 256 + (s.byte 0x5D).toNat := toNat_pair s spAddr
  rw [hsp, hlow, hhigh, BitVec.toNat_ofNat, BitVec.toNat_ofNat]
  omega

/-- Every other byte starts at 0 (R601). -/
theorem byte_of_resetData (hd : s.data = resetData s.cfg) {a : Nat} (hlow : a ≠ 0x5D)
    (hhigh : a ≠ 0x5E) : s.byte a = 0 := by
  rw [State.byte, hd, read_resetData, if_neg hhigh, if_neg hlow]

/-- Settles O31: the data space is `resetData`'s. -/
theorem constructionValues : Obligations.ConstructionValues :=
  fun c prog hc => ⟨rfl, rfl, rfl, rfl, sp_of_resetData (s := .construct c prog) hc rfl,
    fun _ => byte_of_resetData (s := .construct c prog) rfl, rfl, rfl, rfl, rfl⟩

/-- Settles O32: the data space is `resetData`'s, and the rest is as `doReset` leaves it. -/
theorem resetProcedure : Obligations.ResetProcedure :=
  fun s hc => ⟨rfl, rfl, sp_of_resetData (s := s.doReset) hc rfl,
    fun _ => byte_of_resetData (s := s.doReset) rfl, rfl, rfl, rfl, rfl,
    ⟨rfl, rfl, rfl, rfl, rfl, rfl⟩, rfl⟩

/-! ### The invariant at construction and after `reset()` -/

theorem Inv.construct {c : Config} {prog : Memory 16} (hc : c.Wf) (hp : prog.wf)
    (hb : prog.below c.progWords) : Inv (State.construct c prog) where
  cfg := hc
  data := resetData_wf c
  dataBelow := resetData_below hc
  prog := hp
  progBelow := hb
  readHooks := nofun
  writeHooks := nofun
  events := .nil
  pending := .nil

/-- Settles O11: `State.reset` is construction with the standard parameters and no program. -/
theorem constructionMeetsInvariant : Obligations.ConstructionMeetsInvariant :=
  ⟨fun _ _ hc hp hb => .construct hc hp hb, .construct (by decide) Memory.wf_nil nofun⟩

theorem Inv.doReset (hi : Inv s) : Inv s.doReset :=
  hi.of ⟨rfl, rfl, rfl, rfl, rfl, rfl⟩ (resetData_wf _) (resetData_below hi.cfg) .nil .nil

/-! ### The driver's accesses -/

theorem setInterruptFlag_build {q : Descriptor} (h : setInterruptFlag q s = .ok t) :
    SameBuild s t := by
  obtain ⟨-, -, h⟩ := setInterruptFlag_eq_ok.mp h
  dsimp only at h
  split at h
  · rw [h.2]; exact ⟨rfl, rfl, rfl, rfl, rfl, rfl⟩
  · rw [h]; exact ⟨rfl, rfl, rfl, rfl, rfl, rfl⟩

theorem updateInterruptEnable_build {q : Descriptor} {v : Byte}
    (h : updateInterruptEnable q v s = .ok t) : SameBuild s t := by
  have h := updateInterruptEnable_eq_ok.mp h
  split at h
  · obtain ⟨-, h⟩ := h
    split at h
    · rw [h.2]; exact ⟨rfl, rfl, rfl, rfl, rfl, rfl⟩
    · rw [h]; exact .refl s
  · rw [h.2]; exact ⟨rfl, rfl, rfl, rfl, rfl, rfl⟩

theorem clearInterruptByFlag_build {q : Descriptor} {v : Byte}
    (h : clearInterruptByFlag q v s = .ok t) : SameBuild s t := by
  have h := clearInterruptByFlag_eq_ok.mp h
  split at h
  · rw [h.2.2]; exact ⟨rfl, rfl, rfl, rfl, rfl, rfl⟩
  · rw [h]; exact .refl s

/-- What a driver access keeps: the invariant, the parameters and program memory, and after the
first step the hook tables. -/
structure DriverKeeps (s t : State) : Prop where
  inv : Inv t
  cfg : t.cfg = s.cfg
  prog : t.prog = s.prog
  build : s.started = true → SameBuild s t

theorem DriverKeeps.of_build (hi : Inv t) (hb : SameBuild s t) : DriverKeeps s t :=
  ⟨hi, hb.cfg, hb.prog, fun _ => hb⟩

theorem hooksInRange_addHook {c : Config} {a : Nat} {hs : List Nat} (ha : hookable c a = true)
    (h : hooksInRange c hs) : hooksInRange c (addHook a hs) := by
  unfold addHook
  split
  · exact h
  · exact List.forall_mem_cons.mpr ⟨by simpa [hookable] using ha, h⟩

theorem driverAct_keeps {act : DriverAction} {answer : DriverAnswer} (hi : Inv s)
    (h : driverAct act s = .ok (answer, t)) : DriverKeeps s t := by
  cases act with
  | reset =>
    cases (silently_eq_ok.mp h).2
    exact .of_build hi.doReset ⟨rfl, rfl, rfl, rfl, rfl, rfl⟩
  | readPc | readCycles => cases h; exact .of_build hi (.refl s)
  | writePc v =>
    cases (silently_eq_ok.mp h).2
    exact .of_build { hi with } ⟨rfl, rfl, rfl, rfl, rfl, rfl⟩
  | writeCycles v =>
    cases (contract_eq_ok.mp (silently_eq_ok.mp h).2).2
    exact .of_build { hi with } ⟨rfl, rfl, rfl, rfl, rfl, rfl⟩
  | readData a =>
    obtain ⟨v, -, hv⟩ := map_eq_ok.mp h
    cases hv; exact .of_build hi (.refl s)
  | writeData a v =>
    have hw := (silently_eq_ok.mp h).2
    obtain ⟨-, rfl⟩ := rawWrite_eq_ok.mp hw
    exact .of_build (hi.rawWrite hw) ⟨rfl, rfl, rfl, rfl, rfl, rfl⟩
  | addClockEvent id n =>
    obtain ⟨x, -, hx⟩ := answering_eq_ok.mp h
    have hinv := hi.addClockEvent hx
    cases (addClockEvent_eq_ok.mp hx).2
    exact .of_build hinv ⟨rfl, rfl, rfl, rfl, rfl, rfl⟩
  | clearClockEvent id =>
    obtain ⟨x, -, hx⟩ := answering_eq_ok.mp h
    have hinv := hi.clearClockEvent hx
    cases (clearClockEvent_eq_ok.mp hx).2
    exact .of_build hinv ⟨rfl, rfl, rfl, rfl, rfl, rfl⟩
  | updateClockEvent id n =>
    obtain ⟨x, -, hx⟩ := answering_eq_ok.mp h
    have hinv := hi.updateClockEvent hx
    cases (updateClockEvent_eq_ok.mp hx).2
    exact .of_build hinv ⟨rfl, rfl, rfl, rfl, rfl, rfl⟩
  | setInterruptFlag q =>
    have h := (contract_eq_ok.mp (silently_eq_ok.mp h).2).2
    exact .of_build (hi.setInterruptFlag h) (setInterruptFlag_build h)
  | updateInterruptEnable q v =>
    have h := (contract_eq_ok.mp (silently_eq_ok.mp h).2).2
    exact .of_build (hi.updateInterruptEnable h) (updateInterruptEnable_build h)
  | queueInterrupt q =>
    have h := (contract_eq_ok.mp (silently_eq_ok.mp h).2).2
    have hinv := hi.queueInterrupt h
    cases (queueInterrupt_eq_ok.mp h).2
    exact .of_build hinv ⟨rfl, rfl, rfl, rfl, rfl, rfl⟩
  | clearInterrupt q b =>
    have h := (contract_eq_ok.mp (silently_eq_ok.mp h).2).2
    exact .of_build (hi.clearInterrupt h) (clearInterrupt_build h).1
  | clearInterruptByFlag q v =>
    have h := (contract_eq_ok.mp (silently_eq_ok.mp h).2).2
    exact .of_build (hi.clearInterruptByFlag h) (clearInterruptByFlag_build h)
  | registerReadHook a =>
    obtain ⟨hc, h⟩ := contract_eq_ok.mp (silently_eq_ok.mp h).2
    obtain ⟨hfirst, hrange⟩ := Bool.and_eq_true_iff.mp hc
    cases h
    exact ⟨{ hi with readHooks := hooksInRange_addHook hrange hi.readHooks }, rfl, rfl,
      fun hs => by simp [hs] at hfirst⟩
  | registerWriteHook a =>
    obtain ⟨hc, h⟩ := contract_eq_ok.mp (silently_eq_ok.mp h).2
    obtain ⟨hfirst, hrange⟩ := Bool.and_eq_true_iff.mp hc
    cases h
    exact ⟨{ hi with writeHooks := hooksInRange_addHook hrange hi.writeHooks }, rfl, rfl,
      fun hs => by simp [hs] at hfirst⟩
  | attachWatchdog =>
    obtain ⟨hfirst, h⟩ := contract_eq_ok.mp (silently_eq_ok.mp h).2
    cases h
    exact ⟨{ hi with }, rfl, rfl, fun hs => by simp [hs] at hfirst⟩

/-! ### The states a run reaches -/

theorem Reachable.inv (h : Reachable s) : Inv s := by
  obtain ⟨s0, ⟨c, prog, hc, hp, hb, rfl⟩, hrun⟩ := h
  induction hrun with
  | refl => exact .construct hc hp hb
  | tail _ hmove ih =>
    rcases hmove with hstep | ⟨act, answer, hact⟩
    · exact stepKeepsInvariant _ _ ih hstep
    · exact (driverAct_keeps ih hact).inv

/-- Settles O12: a run starts at construction, and its moves keep the invariant. -/
theorem reachableStatesMeetInvariant : Obligations.ReachableStatesMeetInvariant := by
  refine ⟨fun act answer s t hi h => ?_, fun s h => h.inv⟩
  have hk := driverAct_keeps hi h
  exact ⟨hk.inv, hk.cfg, hk.prog, hk.build⟩

end Sys2Proof.Machine
end

section
/-! PROOFS. The instructions that work on registers and flags alone (40_alu.md, 41_branch.md section
3, 42_bit.md sections 2 and 3, 43_transfer.md section 1): how each ends, and each result and flag as
arithmetic. -/

namespace Sys2Proof.Machine

open Sys2Proof.Claims

variable {s t : State}

/-! ### How these instructions end -/

section

variable (s : State) (d : Reg)

@[simp] theorem reg_writeResult (res sreg : Byte) : (writeResult d res sreg s).reg d = res := by
  simp [writeResult]

@[simp] theorem sreg_writeResult (res sreg : Byte) : (writeResult d res sreg s).sreg = sreg := by
  simp [writeResult]

@[simp] theorem sreg_writeFlags (sreg : Byte) : (writeFlags sreg s).sreg = sreg := by
  simp [writeFlags]

@[simp] theorem sreg_writeWord (res : Word) (sreg : Byte) :
    (writeWord d res sreg s).sreg = sreg := by
  simp [writeWord]

@[simp] theorem sreg_writeProduct (p res : Word) :
    (writeProduct p res s).sreg = mulFlags p res s.sreg := by
  simp [writeProduct]

/-- A pair of registers is clear of SREG. -/
theorem pair_setSreg {a : Nat} (ha : a < 32) (v : Byte) : (s.setSreg v).pair a = s.pair a := by
  simp only [pair_def, byte_setSreg]
  rw [if_neg (by omega), if_neg (by omega)]

theorem pair_writeWord (res : Word) (sreg : Byte) :
    (writeWord d res sreg s).pair d.toNat = res :=
  (pair_setSreg _ (reg_lt d) sreg).trans (pair_setPair_same s _ res)

theorem pair_writeProduct (p res : Word) : (writeProduct p res s).pair 0 = res :=
  (pair_setSreg _ (by omega) _).trans (pair_setPair_same s _ res)

/-- An exchange of the data space, `pc` and `cycles` calls nobody. -/
theorem quiet_withData (m : Memory 8) (pc n : Nat) :
    Quiet s { s with data := m, pc := pc, cycles := n } :=
  ⟨⟨rfl, rfl, rfl, rfl, rfl, rfl⟩, rfl, rfl, rfl, rfl, rfl⟩

variable {s d}

theorem runsOn_writeResult {res sreg : Byte} {flags : List Flag}
    (hf : ∀ f, f ∉ flags → flagOf sreg f = flagOf s.sreg f) :
    RunsOn 1 flags [d.toNat, 0x5F] s (writeResult d res sreg s) where
  advances := ⟨finish_pc _ 0, rfl⟩
  quiet := quiet_withData s ..
  flags := fun f h => by rw [State.flag, sreg_writeResult]; exact hf f h
  bytes := fun a h => by
    simp only [List.mem_cons, List.not_mem_nil, or_false, not_or] at h
    simp only [writeResult, byte_finish, byte_setSreg, byte_setReg]
    rw [if_neg h.2, if_neg (Ne.symm h.1)]

theorem runsOn_writeFlags {sreg : Byte} {flags : List Flag}
    (hf : ∀ f, f ∉ flags → flagOf sreg f = flagOf s.sreg f) :
    RunsOn 1 flags [0x5F] s (writeFlags sreg s) where
  advances := ⟨finish_pc _ 0, rfl⟩
  quiet := quiet_withData s ..
  flags := fun f h => by rw [State.flag, sreg_writeFlags]; exact hf f h
  bytes := fun a h => by
    simp only [writeFlags, byte_finish, byte_setSreg]
    rw [if_neg (by simpa using h)]

theorem runsOn_writeWord {res : Word} {sreg : Byte} {flags : List Flag}
    (hf : ∀ f, f ∉ flags → flagOf sreg f = flagOf s.sreg f) :
    RunsOn 2 flags [d.toNat, d.toNat + 1, 0x5F] s (writeWord d res sreg s) where
  advances := ⟨finish_pc _ 1, rfl⟩
  quiet := quiet_withData s ..
  flags := fun f h => by rw [State.flag, sreg_writeWord]; exact hf f h
  bytes := fun a h => by
    simp only [List.mem_cons, List.not_mem_nil, or_false, not_or] at h
    simp only [writeWord, byte_finish, byte_setSreg, byte_setPair]
    rw [if_neg h.2.2, if_neg h.1, if_neg h.2.1]

theorem runsOn_setReg {v : Byte} : RunsOn 1 [] [d.toNat] s ((s.setReg d v).finish 0) where
  advances := ⟨finish_pc _ 0, rfl⟩
  quiet := quiet_withData s ..
  flags := fun f _ => by rw [flag_finish, State.flag, sreg_setReg]; rfl
  bytes := fun a h => by
    simp only [byte_finish, byte_setReg]
    rw [if_neg (Ne.symm (by simpa using h))]

end

/-- `SetFlags` leaves the flags that it does not name (40_alu.md R200). -/
theorem flagOf_setFlags_frame {fs : List (Flag × Bool)} {sreg : Byte} {f : Flag}
    (h : f ∉ fs.map Prod.fst) : flagOf (setFlags fs sreg) f = flagOf sreg f := by
  rw [flagOf_setFlags, if_neg]
  simpa using h

/-! ### Bytes and words as numbers -/

theorem beq_eq_decide_toNat {w : Nat} (x y : BitVec w) : (x == y) = decide (x.toNat = y.toNat) := by
  rw [Bool.eq_iff_iff, beq_iff_eq, decide_eq_true_eq, BitVec.toNat_inj]

theorem toInt_word (x : Word) :
    x.toInt = if 32768 ≤ x.toNat then (x.toNat : Int) - 65536 else x.toNat := by
  have := x.isLt
  rw [BitVec.toInt_eq_toNat_cond]
  split <;> split <;> omega

theorem toNat_ofInt_word (x : Int) : ((BitVec.ofInt 16 x).toNat : Int) = x % 65536 := by
  rw [BitVec.toNat_ofInt]; omega

/-! ### Addition, subtraction, comparison (40_alu.md sections 2 and 3, 41_branch.md section 3) -/

/-- The carry chain of R201 read as the sum of the operands. -/
theorem addedFlags {a b r sreg : Byte} {c : Bool} (ht : t.sreg = addFlags a b r sreg)
    (hr : r.toNat = (a.toNat + b.toNat + c.toNat) % 256) : AddedFlags a b c t := by
  have ha := a.isLt; have hb := b.isLt; have hc := c.toNat_le
  have hS : t.flag .S = (t.flag .N != t.flag .V) := by simp only [State.flag, ht, addFlags_S]
  refine ⟨?C, ?H, ?N, ?Z, ?V, hS⟩ <;>
    (rw [Bool.eq_iff_iff]
     simp only [State.flag, ht, addFlags_C, addFlags_H, addFlags_N, addFlags_Z, addFlags_V, bit7,
       bit3,
      beq_eq_decide_toNat, toInt_byte, Bool.or_eq_true, Bool.and_eq_true, Bool.not_eq_true',
      decide_eq_true_eq, decide_eq_false_iff_not])
  case C => omega
  case H => omega
  case N => omega
  case Z => rw [hr]; rfl
  case V => split <;> split <;> omega

theorem addFlags_frame {a b r sreg : Byte} (f : Flag) (h : f ∉ arithFlags) :
    flagOf (addFlags a b r sreg) f = flagOf sreg f := flagOf_setFlags_frame h

theorem added_writeResult {d : Reg} {a b r : Byte} {c : Bool}
    (hr : r.toNat = (a.toNat + b.toNat + c.toNat) % 256) :
    Added d a b c s (writeResult d r (addFlags a b r s.sreg) s) :=
  ⟨(congrArg _ (reg_writeResult ..)).trans hr, addedFlags (sreg_writeResult ..) hr,
    runsOn_writeResult addFlags_frame⟩

/-- Settles O33: the sum with the carry in, 0 for ADD. -/
theorem addition : Obligations.Addition := by
  intro s d r
  refine ⟨⟨_, rfl, added_writeResult ?_⟩, ⟨_, rfl, added_writeResult (toNat_addCarry ..)⟩⟩
  rw [BitVec.toNat_add]; rfl

/-- The borrow chain of R202 read as the difference of the operands. -/
theorem subtractedFlags {a b r sreg : Byte} {c z chain : Bool}
    (ht : t.sreg = subFlags a b r chain sreg)
    (hr : (r.toNat : Int) = ((a.toNat : Int) - b.toNat - c.toNat) % 256)
    (hz : z = if chain then flagOf sreg .Z else true) : SubtractedFlags a b c z t := by
  have ha := a.isLt; have hb := b.isLt; have hc := c.toNat_le
  have hS : t.flag .S = (t.flag .N != t.flag .V) := by simp only [State.flag, ht, subFlags_S]
  have hZ : t.flag .Z = (z && decide (((a.toNat : Int) - b.toNat - c.toNat) % 256 = 0)) := by
    have h0 : (r == 0) = decide (((a.toNat : Int) - b.toNat - c.toNat) % 256 = 0) := by
      rw [beq_eq_decide_toNat, ← hr]
      exact decide_eq_decide.mpr Int.ofNat_eq_zero.symm
    rw [State.flag, ht, subFlags_Z, h0, hz]
    cases chain <;> simp [Bool.and_comm]
  refine ⟨?C, ?H, ?N, hZ, ?V, hS⟩ <;>
    (rw [Bool.eq_iff_iff]
     simp only [State.flag, ht, subFlags_C, subFlags_H, subFlags_N, subFlags_V, bit7, bit3,
       toInt_byte,
      Bool.or_eq_true, Bool.and_eq_true, Bool.not_eq_true', decide_eq_true_eq,
      decide_eq_false_iff_not])
  case C => omega
  case H => omega
  case N => omega
  case V => split <;> split <;> omega

theorem subFlags_frame {a b r sreg : Byte} {chain : Bool} (f : Flag) (h : f ∉ arithFlags) :
    flagOf (subFlags a b r chain sreg) f = flagOf sreg f := flagOf_setFlags_frame h

theorem toNat_subByte (a b : Byte) :
    ((a - b).toNat : Int) = ((a.toNat : Int) - b.toNat - (false.toNat : Nat)) % 256 := by
  have := a.isLt; have := b.isLt
  rw [BitVec.toNat_sub]; simp only [Bool.toNat_false]; omega

theorem subtracted_writeResult {d : Reg} {a b r : Byte} {c z chain : Bool}
    (hr : (r.toNat : Int) = ((a.toNat : Int) - b.toNat - c.toNat) % 256)
    (hz : z = if chain then s.flag .Z else true) :
    Subtracted d a b c z s (writeResult d r (subFlags a b r chain s.sreg) s) :=
  ⟨(congrArg (fun x : Byte => (x.toNat : Int)) (reg_writeResult ..)).trans hr,
    subtractedFlags (sreg_writeResult ..) hr hz, runsOn_writeResult subFlags_frame⟩

/-- Settles O34: the difference with the borrow, 0 for SUB and SUBI, and Z chained with it. -/
theorem subtraction : Obligations.Subtraction := fun _ _ _ _ =>
  ⟨⟨_, rfl, subtracted_writeResult (toNat_subByte ..) rfl⟩,
    ⟨_, rfl, subtracted_writeResult (toNat_subByte ..) rfl⟩,
    ⟨_, rfl, subtracted_writeResult (toNat_subBorrow ..) rfl⟩,
    ⟨_, rfl, subtracted_writeResult (toNat_subBorrow ..) rfl⟩⟩

theorem compared_writeFlags {a b r : Byte} {c z chain : Bool}
    (hr : (r.toNat : Int) = ((a.toNat : Int) - b.toNat - c.toNat) % 256)
    (hz : z = if chain then s.flag .Z else true) :
    Compared a b c z s (writeFlags (subFlags a b r chain s.sreg) s) :=
  ⟨subtractedFlags (sreg_writeFlags ..) hr hz, runsOn_writeFlags subFlags_frame⟩

/-- Settles O35: the flags of the subtractions of O34. -/
theorem compares : Obligations.Compares := fun _ _ _ _ =>
  ⟨⟨_, rfl, compared_writeFlags (toNat_subByte ..) rfl⟩,
    ⟨_, rfl, compared_writeFlags (toNat_subBorrow ..) rfl⟩,
    ⟨_, rfl, compared_writeFlags (toNat_subByte ..) rfl⟩⟩

/-! ### Logic and one operand (40_alu.md section 4) -/

theorem beq_zero_byte (v : Byte) : (v == 0) = decide (v.toNat = 0) := beq_eq_decide_toNat v 0

theorem logicResult_writeResult (d : Reg) (v : Byte) :
    LogicResult d v s (writeResult d v (logicFlags v s.sreg) s) := by
  refine ⟨reg_writeResult .., ?V, ?N, ?S, ?Z,
    runsOn_writeResult fun f h => flagOf_setFlags_frame h⟩ <;>
    simp only [State.flag, sreg_writeResult, flagOf_logicFlags, bit7, beq_zero_byte]

/-- Settles O36: five results, one set of flags. -/
theorem logic : Obligations.Logic := fun s d r K =>
  ⟨⟨_, rfl, logicResult_writeResult d (s.reg d &&& s.reg r)⟩,
    ⟨_, rfl, logicResult_writeResult d (s.reg d &&& K)⟩,
    ⟨_, rfl, logicResult_writeResult d (s.reg d ||| s.reg r)⟩,
    ⟨_, rfl, logicResult_writeResult d (s.reg d ||| K)⟩,
    ⟨_, rfl, logicResult_writeResult d (s.reg d ^^^ s.reg r)⟩⟩

/-- S, V, N and Z of a result whose flag computation sets them by `v` and `ov`. -/
theorem signFlags_of {r sreg : Byte} {v : Nat} {ov : Bool} (ht : t.sreg = sreg) (hr : r.toNat = v)
    (hN : flagOf sreg .N = r.getLsbD 7) (hZ : flagOf sreg .Z = (r == 0)) (hV : flagOf sreg .V = ov)
    (hS : flagOf sreg .S = (r.getLsbD 7 != ov)) : SignFlags v ov t := by
  subst ht hr
  refine ⟨hN.trans (bit7 r), hZ.trans (beq_zero_byte r), hV, ?_⟩
  rw [State.flag, State.flag, hS, hN]

/-- The end of COM, NEG, INC and DEC: the result, the sign flags and the frame. -/
theorem signResult_writeResult {d : Reg} {r sreg : Byte} {v : Nat} {ov : Bool} {flags : List Flag}
    (hr : r.toNat = v) (hN : flagOf sreg .N = r.getLsbD 7) (hZ : flagOf sreg .Z = (r == 0))
    (hV : flagOf sreg .V = ov) (hS : flagOf sreg .S = (r.getLsbD 7 != ov))
    (hf : ∀ f, f ∉ flags → flagOf sreg f = flagOf s.sreg f) :
    ((writeResult d r sreg s).reg d).toNat = v ∧ SignFlags v ov (writeResult d r sreg s) ∧
      RunsOn 1 flags [d.toNat, 0x5F] s (writeResult d r sreg s) :=
  ⟨(congrArg _ (reg_writeResult ..)).trans hr, signFlags_of (sreg_writeResult ..) hr hN hZ hV hS,
    runsOn_writeResult hf⟩

theorem com_result (d : Reg) : ∃ t, exec (.com d) s = .next t ∧
    (t.reg d).toNat = 255 - (s.reg d).toNat ∧ SignFlags (255 - (s.reg d).toNat) false t ∧
      t.flag .C = true ∧ RunsOn 1 [.S, .V, .N, .Z, .C] [d.toNat, 0x5F] s t := by
  have ha := (s.reg d).isLt
  have hr : (0xFF - s.reg d).toNat = 255 - (s.reg d).toNat := by
    rw [BitVec.toNat_sub, show (0xFF : Byte).toNat = 255 from rfl]; omega
  obtain ⟨hres, hsign, hrun⟩ := signResult_writeResult (s := s) (d := d)
    (sreg := comFlags (0xFF - s.reg d) s.sreg) hr (by rw [flagOf_comFlags])
    (by rw [flagOf_comFlags])
    (by rw [flagOf_comFlags]) (by rw [flagOf_comFlags, Bool.bne_false])
    fun f h => flagOf_setFlags_frame h
  refine ⟨_, rfl, hres, hsign, ?_, hrun⟩
  rw [State.flag, sreg_writeResult, flagOf_comFlags]

theorem neg_result (d : Reg) : ∃ t, exec (.neg d) s = .next t ∧
    (t.reg d).toNat = (256 - (s.reg d).toNat) % 256 ∧
    SignFlags ((256 - (s.reg d).toNat) % 256) (decide ((s.reg d).toNat = 128)) t ∧
    t.flag .C = decide ((s.reg d).toNat ≠ 0) ∧ t.flag .H = decide ((s.reg d).toNat % 16 ≠ 0) ∧
    RunsOn 1 arithFlags [d.toNat, 0x5F] s t := by
  have ha := (s.reg d).isLt
  have hr : (0 - s.reg d).toNat = (256 - (s.reg d).toNat) % 256 := by
    rw [BitVec.toNat_sub]; simp
  have hV : (0 - s.reg d == 0x80) = decide ((s.reg d).toNat = 128) := by
    rw [beq_eq_decide_toNat, hr, show (0x80 : Byte).toNat = 128 from rfl, decide_eq_decide]; omega
  obtain ⟨hres, hsign, hrun⟩ := signResult_writeResult (s := s) (d := d) (flags := arithFlags)
    (sreg := negFlags (s.reg d) (0 - s.reg d) s.sreg) hr (by rw [flagOf_negFlags])
    (by rw [flagOf_negFlags]) ((flagOf_negFlags ..).trans hV)
    ((flagOf_negFlags ..).trans (by rw [hV]))
    fun f h => flagOf_setFlags_frame h
  refine ⟨_, rfl, hres, hsign, ?C, ?H, hrun⟩ <;>
    simp only [State.flag, sreg_writeResult, flagOf_negFlags]
  case C =>
    rw [bne, beq_zero_byte, hr, ← decide_not, decide_eq_decide]; omega
  case H =>
    rw [bit3, bit3, hr, ← Bool.decide_or, decide_eq_decide]; omega

/-- INC and DEC: V is set when the result is the edge. -/
theorem step_result {d : Reg} {r edge : Byte} {v : Nat} {ov : Bool} (hr : r.toNat = v)
    (hov : decide (v = edge.toNat) = ov) :
    ((writeResult d r (stepFlags edge r s.sreg) s).reg d).toNat = v ∧
      SignFlags v ov (writeResult d r (stepFlags edge r s.sreg) s) ∧
      RunsOn 1 [.S, .V, .N, .Z] [d.toNat, 0x5F] s
        (writeResult d r (stepFlags edge r s.sreg) s) := by
  have hV : (r == edge) = ov := by rw [beq_eq_decide_toNat, hr, hov]
  exact signResult_writeResult hr (by rw [flagOf_stepFlags]) (by rw [flagOf_stepFlags])
    ((flagOf_stepFlags ..).trans hV) ((flagOf_stepFlags ..).trans (by rw [hV]))
    fun f h => flagOf_setFlags_frame h

/-- Settles O37: each result by its value mod 256, and V by the operand that overflows. -/
theorem oneOperandArithmetic : Obligations.OneOperandArithmetic := by
  intro s d
  have ha := (s.reg d).isLt
  refine ⟨com_result d, neg_result d, ⟨_, rfl, step_result ?inc ?incV⟩,
    ⟨_, rfl, step_result ?dec ?decV⟩⟩
  case inc => rw [BitVec.toNat_add]; rfl
  case dec => rw [BitVec.toNat_sub]; simp [Nat.add_comm]
  case incV => exact decide_eq_decide.mpr (show _ = 128 ↔ _ by omega)
  case decV => exact decide_eq_decide.mpr (show _ = 127 ↔ _ by omega)

/-! ### Words (40_alu.md sections 2 and 3) -/

theorem beq_zero_word (v : Word) : (v == 0) = decide (v.toNat = 0) := beq_eq_decide_toNat v 0

theorem wordResult_writeWord {d : Reg} {res : Word} {sreg : Byte} {v : Nat} {c ov : Bool}
    (hr : res.toNat = v) (hC : flagOf sreg .C = c) (hV : flagOf sreg .V = ov)
    (hN : flagOf sreg .N = res.getLsbD 15) (hZ : flagOf sreg .Z = (res == 0))
    (hS : flagOf sreg .S = (res.getLsbD 15 != ov))
    (hf : ∀ f, f ∉ [Flag.S, .V, .N, .Z, .C] → flagOf sreg f = flagOf s.sreg f) :
    WordResult d v c ov s (writeWord d res sreg s) := by
  refine ⟨(congrArg _ (pair_writeWord ..)).trans hr, ?C, ?V, ?N, ?Z, ?S, runsOn_writeWord hf⟩ <;>
    simp only [State.flag, sreg_writeWord]
  case C => exact hC
  case V => exact hV
  case N => rw [hN, bit15, hr]
  case Z => rw [hZ, beq_zero_word, hr]
  case S => rw [hS, hN]

theorem adiw_result (d : Reg) (K : BitVec 6) : ∃ t, exec (.adiw d K) s = .next t ∧
    WordResult d (((s.pair d.toNat).toNat + K.toNat) % 65536)
      (decide (65536 ≤ (s.pair d.toNat).toNat + K.toNat))
      (decide (32767 < (s.pair d.toNat).toInt + K.toNat)) s t := by
  generalize hx : s.pair d.toNat = x
  have hxlt := x.isLt; have hK := K.isLt
  have hr : (x + K.setWidth 16).toNat = (x.toNat + K.toNat) % 65536 := by
    rw [BitVec.toNat_add, BitVec.toNat_setWidth]; omega
  have hC : (!(x + K.setWidth 16).getLsbD 15 && x.getLsbD 15) =
      decide (65536 ≤ x.toNat + K.toNat) := by
    rw [bit15, bit15, hr, Bool.eq_iff_iff]
    simp only [Bool.and_eq_true, Bool.not_eq_true', decide_eq_true_eq, decide_eq_false_iff_not]
    omega
  have hV : (!x.getLsbD 15 && (x + K.setWidth 16).getLsbD 15) =
      decide (32767 < x.toInt + K.toNat) := by
    rw [bit15, bit15, hr, Bool.eq_iff_iff, toInt_word]
    simp only [Bool.and_eq_true, Bool.not_eq_true', decide_eq_true_eq, decide_eq_false_iff_not]
    split <;> omega
  refine ⟨_, rfl, ?_⟩
  rw [hx]
  exact wordResult_writeWord hr ((flagOf_adiwFlags ..).trans hC) ((flagOf_adiwFlags ..).trans hV)
    (flagOf_adiwFlags ..) (flagOf_adiwFlags ..) ((flagOf_adiwFlags ..).trans (by rw [hV]))
    fun f h => flagOf_setFlags_frame h

theorem sbiw_result (d : Reg) (K : BitVec 6) : ∃ t, exec (.sbiw d K) s = .next t ∧
    WordResult d (((s.pair d.toNat).toNat + 65536 - K.toNat) % 65536)
      (decide ((s.pair d.toNat).toNat < K.toNat))
      (decide ((s.pair d.toNat).toInt - K.toNat < -32768)) s t := by
  generalize hx : s.pair d.toNat = x
  have hxlt := x.isLt; have hK := K.isLt
  have hr : (x - K.setWidth 16).toNat = (x.toNat + 65536 - K.toNat) % 65536 := by
    rw [BitVec.toNat_sub, BitVec.toNat_setWidth]; omega
  have hC : ((x - K.setWidth 16).getLsbD 15 && !x.getLsbD 15) = decide (x.toNat < K.toNat) := by
    rw [bit15, bit15, hr, Bool.eq_iff_iff]
    simp only [Bool.and_eq_true, Bool.not_eq_true', decide_eq_true_eq, decide_eq_false_iff_not]
    omega
  have hV : (x.getLsbD 15 && !(x - K.setWidth 16).getLsbD 15) =
      decide (x.toInt - K.toNat < -32768) := by
    rw [bit15, bit15, hr, Bool.eq_iff_iff, toInt_word]
    simp only [Bool.and_eq_true, Bool.not_eq_true', decide_eq_true_eq, decide_eq_false_iff_not]
    split <;> omega
  refine ⟨_, rfl, ?_⟩
  rw [hx]
  exact wordResult_writeWord hr ((flagOf_sbiwFlags ..).trans hC) ((flagOf_sbiwFlags ..).trans hV)
    (flagOf_sbiwFlags ..) (flagOf_sbiwFlags ..) ((flagOf_sbiwFlags ..).trans (by rw [hV]))
    fun f h => flagOf_setFlags_frame h

/-- Settles O38: the sign bits of the operand and of the result tell both overflows, since K is
below 64. -/
theorem wordArithmetic : Obligations.WordArithmetic := fun _ d K =>
  ⟨adiw_result d K, sbiw_result d K⟩

/-! ### The multiplies (40_alu.md section 5) -/

/-- The product `p` mod 65536 is `w`, and what is stored is `factor` times it. -/
theorem productResult_writeProduct {factor p : Int} {w res : Word}
    (hw : (w.toNat : Int) = p % 65536)
    (hres : (res.toNat : Int) = factor * p % 65536) :
    ProductResult factor p s (writeProduct w res s) := by
  refine ⟨(congrArg (fun x : Word => (x.toNat : Int)) (pair_writeProduct ..)).trans hres, ?C, ?Z,
    ⟨⟨finish_pc _ 1, rfl⟩, quiet_withData s .., ?flags, ?bytes⟩⟩
  case C =>
    rw [State.flag, sreg_writeProduct, flagOf_mulFlags, bit15, decide_eq_decide]; omega
  case Z =>
    rw [State.flag, sreg_writeProduct, flagOf_mulFlags]
    simp only [beq_zero_word, decide_eq_decide]; omega
  case flags =>
    intro f h
    rw [State.flag, sreg_writeProduct]
    exact flagOf_setFlags_frame h
  case bytes =>
    intro a h
    simp only [List.mem_cons, List.not_mem_nil, or_false, not_or] at h
    simp only [writeProduct, byte_finish, byte_setSreg, byte_setPair]
    rw [if_neg h.2.2, if_neg h.1, if_neg h.2.1]

theorem toNat_mulUU (a b : Byte) :
    ((mulUU a b).toNat : Int) = (a.toNat * b.toNat : Int) % 65536 := by
  rw [mulUU, BitVec.toNat_ofNat]; norm_cast

theorem toNat_doubled {w : Word} {p : Int} (h : (w.toNat : Int) = p % 65536) :
    ((doubled w).toNat : Int) = 2 * p % 65536 := by
  rw [doubled, BitVec.toNat_shiftLeft, Nat.shiftLeft_eq]; omega

theorem product_once {p : Int} {w : Word} (h : (w.toNat : Int) = p % 65536) :
    ProductResult 1 p s (writeProduct w w s) := productResult_writeProduct h (by rw [one_mul, h])

theorem product_doubled {p : Int} {w : Word} (h : (w.toNat : Int) = p % 65536) :
    ProductResult 2 p s (writeProduct w (doubled w) s) :=
  productResult_writeProduct h (toNat_doubled h)

/-- Settles O39: three products, stored once and doubled. -/
theorem multiplication : Obligations.Multiplication := fun _ _ _ =>
  ⟨⟨_, rfl, product_once (toNat_mulUU ..)⟩, ⟨_, rfl, product_once (toNat_ofInt_word _)⟩,
    ⟨_, rfl, product_once (toNat_ofInt_word _)⟩, ⟨_, rfl, product_doubled (toNat_mulUU ..)⟩,
    ⟨_, rfl, product_doubled (toNat_ofInt_word _)⟩, ⟨_, rfl, product_doubled (toNat_ofInt_word _)⟩⟩

/-! ### Shifts (42_bit.md section 2) -/

theorem shiftResult_writeResult {d : Reg} {a r : Byte} {v : Nat} (hr : r.toNat = v) :
    ShiftResult d v (decide (a.toNat % 2 = 1)) s (writeResult d r (shiftFlags a r s.sreg) s) := by
  have hC : flagOf (shiftFlags a r s.sreg) .C = decide (a.toNat % 2 = 1) := by
    rw [flagOf_shiftFlags]; exact bit0 a
  have hV : (r.getLsbD 7 != a.getLsbD 0) = (decide (128 ≤ v) != decide (a.toNat % 2 = 1)) := by
    rw [bit7, bit0, hr]
  obtain ⟨hres, hsign, hrun⟩ := signResult_writeResult (s := s) (d := d)
    (flags := [.S, .V, .N, .Z, .C]) (sreg := shiftFlags a r s.sreg) hr (by rw [flagOf_shiftFlags])
    (by rw [flagOf_shiftFlags]) ((flagOf_shiftFlags ..).trans hV)
    ((flagOf_shiftFlags ..).trans (by rw [hV])) fun f h => flagOf_setFlags_frame h
  exact ⟨hres, (congrArg (flagOf · .C) (sreg_writeResult ..)).trans hC, hsign, hrun⟩

theorem toNat_shiftRight_one (a : Byte) : (a >>> 1).toNat = a.toNat / 2 := by
  rw [BitVec.toNat_ushiftRight, Nat.shiftRight_eq_div_pow]

/-- Bit 7 put on top of a byte halved. -/
theorem toNat_topBit_or_half {x : Byte} {c : Bool} (hx : x.toNat = c.toNat * 128) (a : Byte) :
    (x ||| a >>> 1).toNat = c.toNat * 128 + a.toNat / 2 := by
  have ha := a.isLt
  rw [BitVec.toNat_or, toNat_shiftRight_one, hx]
  cases c
  · simp
  · exact (Nat.two_pow_add_eq_or_of_lt (i := 7) (by omega) 1).symm

theorem toNat_ror (c : Bool) (a : Byte) :
    ((if c then 0x80 else 0) ||| a >>> 1).toNat = c.toNat * 128 + a.toNat / 2 :=
  toNat_topBit_or_half (by cases c <;> rfl) a

/-- The sign bit kept on top of a byte halved halves its signed value, rounding down. -/
theorem toInt_asr (a : Byte) : ((a &&& 0x80) ||| a >>> 1).toInt = a.toInt / 2 := by
  have ha := a.isLt
  have htop : (a &&& (0x80 : Byte)).toNat = (a.getLsbD 7).toNat * 128 := by
    revert a; decide
  have hr := toNat_topBit_or_half htop a
  show ((a &&& (0x80 : Byte)) ||| a >>> 1).toInt = _
  rw [toInt_byte, toInt_byte, hr, bit7]
  by_cases h : 128 ≤ a.toNat <;> simp only [h, decide_true, decide_false, Bool.toNat_true,
    Bool.toNat_false, if_true, if_false] <;> split <;> omega

/-- Settles O40: each result as a number; the flags are those of R204. -/
theorem shifts : Obligations.Shifts := by
  intro s d
  refine ⟨⟨_, rfl, shiftResult_writeResult (toNat_shiftRight_one _)⟩,
    ⟨_, rfl, shiftResult_writeResult (toNat_ror ..)⟩,
    ⟨_, rfl, ?asr, shiftResult_writeResult (congrArg _ (reg_writeResult ..)).symm⟩,
    ⟨_, rfl, ?swap, runsOn_setReg⟩⟩
  case asr => rw [reg_writeResult, toInt_asr]
  case swap =>
    rw [reg_finish, reg_setReg_same, BitVec.toNat_append, ← Nat.shiftLeft_add_eq_or_of_lt
      (BitVec.isLt _), Nat.shiftLeft_eq]
    have ha := (s.reg d).isLt
    simp only [BitVec.extractLsb'_toNat, Nat.shiftRight_eq_div_pow]
    omega

/-! ### Single bits (42_bit.md section 3) -/

theorem getLsbD_bitMask (n : BitVec 3) {j : Nat} (hj : j < 8) :
    (bitMask n).getLsbD j = decide (j = n.toNat) := by
  rw [bitMask, BitVec.getLsbD_shiftLeft, BitVec.getLsbD_one, Bool.eq_iff_iff]
  simp only [hj, decide_true, Bool.true_and, Bool.and_eq_true, Bool.not_eq_true', decide_eq_true_eq,
    decide_eq_false_iff_not]
  omega

theorem getLsbD_setBit (x : Byte) (n : BitVec 3) {j : Nat} (hj : j < 8) :
    (x ||| bitMask n).getLsbD j = if j = n.toNat then true else x.getLsbD j := by
  rw [BitVec.getLsbD_or, getLsbD_bitMask n hj]
  split <;> simp [*]

theorem getLsbD_clearBit (x : Byte) (n : BitVec 3) {j : Nat} (hj : j < 8) :
    (x &&& (0xFF - bitMask n)).getLsbD j = if j = n.toNat then false else x.getLsbD j := by
  rw [← not_eq_ff_sub, BitVec.getLsbD_and, BitVec.getLsbD_not, getLsbD_bitMask n hj]
  split <;> simp [*]

/-- BLD: the bit is cleared, then set if T is. -/
theorem getLsbD_bld (x : Byte) (c : Bool) (n : BitVec 3) {j : Nat} (hj : j < 8) :
    ((x &&& (0xFF - bitMask n)) ||| if c then bitMask n else 0).getLsbD j =
      if j = n.toNat then c else x.getLsbD j := by
  rw [BitVec.getLsbD_or, getLsbD_clearBit x n hj]
  cases c
  · simp
  · rw [if_pos rfl, getLsbD_bitMask n hj]
    split <;> simp [*]

/-- Settles O41: a bit of SREG, or of Rd, is set or cleared by its mask. -/
theorem statusBits : Obligations.StatusBits := by
  intro s n d
  have hall : ∀ f, f ∉ [Flag.C, .Z, .N, .V, .S, .H, .T, .I] → False := by
    intro f h; cases f <;> simp at h
  refine ⟨⟨_, rfl, runsOn_writeFlags fun f h => (hall f h).elim, fun f => ?bset⟩,
    ⟨_, rfl, runsOn_writeFlags fun f h => (hall f h).elim, fun f => ?bclr⟩,
    ⟨_, rfl, runsOn_writeFlags fun f h => flagOf_setFlags_frame h, ?bst⟩,
    ⟨_, rfl, runsOn_setReg, fun j hj => ?bld⟩⟩
  case bset => rw [State.flag, sreg_writeFlags]; exact getLsbD_setBit s.sreg n (bit_lt f)
  case bclr => rw [State.flag, sreg_writeFlags]; exact getLsbD_clearBit s.sreg n (bit_lt f)
  case bst => rw [State.flag, sreg_writeFlags, flagOf_setFlags]; simp
  case bld => rw [reg_finish, reg_setReg_same]; exact getLsbD_bld (s.reg d) (s.flag .T) n hj

/-! ### Register moves (43_transfer.md section 1) -/

/-- A register pair's even register and the one after it. -/
theorem toNat_add_one_of_even {d : Reg} (h : evenReg d = true) : (d + 1).toNat = d.toNat + 1 := by
  revert h; revert d; decide

theorem pair_bytes (a : Nat) :
    (s.pair a).extractLsb' 0 8 = s.byte a ∧ (s.pair a).extractLsb' 8 8 = s.byte (a + 1) := by
  have hlow := (s.byte a).isLt
  rw [lowByte_eq_ofNat, highByte_eq_ofNat, toNat_pair]
  constructor <;> apply BitVec.eq_of_toNat_eq <;> rw [BitVec.toNat_ofNat] <;> omega

theorem movw_result {d r : Reg} (h : WellFormed (.movw d r)) : ∃ t, exec (.movw d r) s = .next t ∧
    RunsOn 1 [] [d.toNat, d.toNat + 1] s t ∧ t.reg d = s.reg r ∧
      t.reg (d + 1) = s.reg (r + 1) := by
  obtain ⟨hd, hr⟩ := Bool.and_eq_true_iff.mp h
  obtain ⟨hlow, hhigh⟩ := pair_bytes (s := s) r.toNat
  have hbyte (x : Nat) : ((s.setPair d.toNat (s.pair r.toNat)).finish 0).byte x =
      if x = d.toNat then s.byte r.toNat else if x = d.toNat + 1 then s.byte (r.toNat + 1)
      else s.byte x := by rw [byte_finish, byte_setPair, hlow, hhigh]
  refine ⟨_, rfl,
    ⟨⟨finish_pc _ 0, rfl⟩, quiet_withData s .., fun f _ => ?flags, fun a ha => ?bytes⟩,
    ?low, ?high⟩
  case flags =>
    have := reg_lt d
    rw [State.flag, State.flag, sreg_def, sreg_def, hbyte, if_neg (by omega), if_neg (by omega)]
  case bytes =>
    simp only [List.mem_cons, List.not_mem_nil, or_false, not_or] at ha
    rw [hbyte, if_neg ha.1, if_neg ha.2]
  case low => rw [reg_def, hbyte, if_pos rfl, reg_def]
  case high =>
    rw [reg_def, hbyte, toNat_add_one_of_even hd, if_neg (by omega), if_pos rfl, reg_def,
      toNat_add_one_of_even hr]

/-- Settles O43: one register, or two for MOVW, and no flag. -/
theorem registerMoves : Obligations.RegisterMoves := fun s d _ K =>
  ⟨⟨_, rfl, runsOn_setReg, reg_setReg_same s d _⟩, movw_result,
    ⟨_, rfl, runsOn_setReg, reg_setReg_same s d K⟩⟩

end Sys2Proof.Machine
end

section
/-! PROOFS. What no instruction changes beyond its `writeSet` (20_memory.md section 1): each shared
operation's footprint, then each instruction's. -/

namespace Sys2Proof.Machine

open Sys2Proof.Claims

variable {s t u : State} {W : List Nat}

/-! ### Footprints -/

theorem Quiet.refl (s : State) : Quiet s s := ⟨.refl s, rfl, rfl, rfl, rfl, rfl⟩

theorem Quiet.trans (h : Quiet s t) (h' : Quiet t u) : Quiet s u :=
  ⟨h.build.trans h'.build, h'.pending.trans h.pending, h'.events.trans h.events,
    h'.replies.trans h.replies, h'.draws.trans h.draws, h'.calls.trans h.calls⟩

theorem NoHooks.of_build (hn : NoHooks s) (hb : SameBuild s t) : NoHooks t :=
  ⟨hb.readHooks.trans hn.readHooks, hb.writeHooks.trans hn.writeHooks,
    hb.watchdog.trans hn.watchdog⟩

/-- From `s` to `t` only bytes of `W` changed, and what hooks may change if there are any. -/
structure Footprint (W : List Nat) (s t : State) : Prop where
  build : SameBuild s t
  bytes : ∀ a, a ∉ W → (a < 32 ∨ coreOwned a = true ∨ s.cfg.dataSize ≤ a ∨ NoHooks s) →
    t.byte a = s.byte a
  quiet : NoHooks s → Quiet s t

namespace Footprint

theorem refl (s : State) : Footprint W s s := ⟨.refl s, fun _ _ _ => rfl, fun _ => .refl s⟩

theorem trans (h : Footprint W s t) (h' : Footprint W t u) : Footprint W s u where
  build := h.build.trans h'.build
  bytes := fun a ha hp => (h'.bytes a ha (by
    rw [h.build.cfg]
    exact hp.imp_right (Or.imp_right (Or.imp_right (·.of_build h.build))))).trans (h.bytes a ha hp)
  quiet := fun hn => (h.quiet hn).trans (h'.quiet (hn.of_build h.build))

/-- A call to the environment, which nobody is there to answer when there are no hooks. -/
theorem of_envKeeps (h : EnvKeeps s t) (hn : ¬NoHooks s) : Footprint W s t where
  build := h.build
  bytes := fun a _ hp => h.bytes a
    (hp.imp_right (Or.imp_right (Or.resolve_right · hn)))
  quiet := fun h => absurd h hn

theorem setByte {a : Nat} (ha : a ∈ W) (v : Byte) : Footprint W s (s.setByte a v) where
  build := ⟨rfl, rfl, rfl, rfl, rfl, rfl⟩
  bytes := fun _ hb _ => byte_setByte_ne s v fun h => hb (h ▸ ha)
  quiet := fun _ => ⟨⟨rfl, rfl, rfl, rfl, rfl, rfl⟩, rfl, rfl, rfl, rfl, rfl⟩

theorem setReg {d : Reg} (hd : d.toNat ∈ W) (v : Byte) : Footprint W s (s.setReg d v) :=
  setByte hd v

theorem setPair {a : Nat} (ha : a ∈ W) (ha' : a + 1 ∈ W) (v : Word) :
    Footprint W s (s.setPair a v) := (setByte ha _).trans (setByte ha' _)

theorem setSp (hl : 0x5D ∈ W) (hh : 0x5E ∈ W) (v : Int) : Footprint W s (s.setSp v) :=
  setPair hl hh _

theorem setSreg (h : 0x5F ∈ W) (v : Byte) : Footprint W s (s.setSreg v) := setByte h v

theorem finishAt (p : Int) (n : Nat) : Footprint W s (s.finishAt p n) :=
  ⟨⟨rfl, rfl, rfl, rfl, rfl, rfl⟩, fun _ _ _ => rfl,
    fun _ => ⟨⟨rfl, rfl, rfl, rfl, rfl, rfl⟩, rfl, rfl, rfl, rfl, rfl⟩⟩

theorem finish (n : Nat) : Footprint W s (s.finish n) := finishAt _ n

theorem busRead {slack : Byte → Nat} {a : Nat} {p : Byte × State}
    (h : busRead slack a s = .ok p) : Footprint W s p.2 := by
  have hkeep := busRead_keeps h
  obtain ⟨-, h⟩ := busRead_eq_ok.mp h
  split at h
  case isTrue hh => exact of_envKeeps hkeep fun hn => by simp [State.readHooked, hn.readHooks] at hh
  case isFalse => rw [h]; exact refl s

theorem busWrite {slack a : Nat} {v mask : Byte} (ha : a ∈ W)
    (h : busWrite slack a v mask s = .ok t) : Footprint W s t := by
  obtain ⟨-, h⟩ := busWrite_eq_ok.mp h
  split at h
  case isTrue hh =>
    obtain ⟨s1, hcall, rfl⟩ := h
    have hfoot : Footprint W s s1 := of_envKeeps (envCall_keeps hcall).1
      fun hn => by simp [State.writeHooked, hn.writeHooks] at hh
    split
    · exact hfoot
    · exact hfoot.trans (setByte ha v)
  case isFalse => rw [h]; exact setByte ha v

/-- An arm of `exec` that always answers. -/
theorem of_next {a : State} (ha : Footprint W s a)
    (h : (.next a : Host.Outcome State Fault Refusal) = .next t) : Footprint W s t := by
  cases h; exact ha

end Footprint

/-! ### The operand forms -/

theorem writeResult_footprint {d : Reg} (hd : d.toNat ∈ W) (hf : 0x5F ∈ W) (res sreg : Byte) :
    Footprint W s (writeResult d res sreg s) :=
  ((Footprint.setReg hd res).trans (.setSreg hf sreg)).trans (.finish 0)

theorem writeWord_footprint {d : Reg} (hd : d.toNat ∈ W) (hd' : d.toNat + 1 ∈ W) (hf : 0x5F ∈ W)
    (res : Word) (sreg : Byte) : Footprint W s (writeWord d res sreg s) :=
  ((Footprint.setPair hd hd' res).trans (.setSreg hf sreg)).trans (.finish 1)

theorem writeProduct_footprint (h0 : 0 ∈ W) (h1 : 1 ∈ W) (hf : 0x5F ∈ W) (p res : Word) :
    Footprint W s (writeProduct p res s) :=
  ((Footprint.setPair h0 h1 res).trans (.setSreg hf _)).trans (.finish 1)

theorem writeFlags_footprint (hf : 0x5F ∈ W) (sreg : Byte) : Footprint W s (writeFlags sreg s) :=
  (Footprint.setSreg hf sreg).trans (.finish 0)

theorem setReg_footprint {d : Reg} (hd : d.toNat ∈ W) (v : Byte) (n : Nat) :
    Footprint W s ((s.setReg d v).finish n) := (Footprint.setReg hd v).trans (.finish n)

theorem branchIf_footprint (b : Bool) (k : BitVec 7) : Footprint W s (branchIf b k s) := by
  cases b
  · exact .finish 0
  · exact .finishAt _ 1

theorem loadFrom_footprint {n a : Nat} {d : Reg} (hd : d.toNat ∈ W)
    (h : loadFrom n a d s = .ok t) : Footprint W s t := by
  obtain ⟨p, hp, rfl⟩ := loadFrom_eq_ok.mp h
  exact (Footprint.busRead hp).trans (.setReg hd _)

theorem loadPlain_footprint {p : Ptr} {d : Reg} (hd : d.toNat ∈ W) (h : loadPlain p d s = .ok t) :
    Footprint W s t := by
  obtain ⟨s1, hload, h⟩ := bind_eq_ok.mp h
  cases h; exact (loadFrom_footprint hd hload).trans (.finish 1)

theorem loadDisp_footprint {p : Ptr} {d : Reg} {q : BitVec 6} (hd : d.toNat ∈ W)
    (h : loadDisp p d q s = .ok t) : Footprint W s t := by
  obtain ⟨s1, hload, h⟩ := bind_eq_ok.mp h
  cases h; exact (loadFrom_footprint hd hload).trans (.finish 1)

theorem loadPostInc_footprint {p : Ptr} {d : Reg} (hd : d.toNat ∈ W) (hl : p.base ∈ W)
    (hh : p.base + 1 ∈ W) (h : loadPostInc p d s = .ok t) : Footprint W s t := by
  obtain ⟨s1, hload, h⟩ := bind_eq_ok.mp (unlessClash_eq_ok.mp h).2
  cases h; exact ((loadFrom_footprint hd hload).trans (.setPair hl hh _)).trans (.finish 1)

theorem loadPreDec_footprint {p : Ptr} {d : Reg} (hd : d.toNat ∈ W) (hl : p.base ∈ W)
    (hh : p.base + 1 ∈ W) (h : loadPreDec p d s = .ok t) : Footprint W s t := by
  obtain ⟨s1, hload, h⟩ := bind_eq_ok.mp (unlessClash_eq_ok.mp h).2
  cases h; exact ((Footprint.setPair hl hh _).trans (loadFrom_footprint hd hload)).trans (.finish 2)

theorem storePlain_footprint {p : Ptr} {r : Reg} (ha : (s.ptr p).toNat ∈ W)
    (h : storePlain p r s = .ok t) : Footprint W s t := by
  obtain ⟨s1, hstore, h⟩ := bind_eq_ok.mp h
  cases h; exact (Footprint.busWrite ha hstore).trans (.finish 1)

theorem storeDisp_footprint {p : Ptr} {q : BitVec 6} {r : Reg}
    (ha : (s.ptr p).toNat + q.toNat ∈ W) (h : storeDisp p q r s = .ok t) : Footprint W s t := by
  obtain ⟨s1, hstore, h⟩ := bind_eq_ok.mp h
  cases h; exact (Footprint.busWrite ha hstore).trans (.finish 1)

theorem storePostInc_footprint {p : Ptr} {r : Reg} (ha : (s.ptr p).toNat ∈ W) (hl : p.base ∈ W)
    (hh : p.base + 1 ∈ W) (h : storePostInc p r s = .ok t) : Footprint W s t := by
  obtain ⟨s1, hstore, h⟩ := bind_eq_ok.mp (unlessClash_eq_ok.mp h).2
  cases h; exact ((Footprint.busWrite ha hstore).trans (.setPair hl hh _)).trans (.finish 1)

theorem storePreDec_footprint {p : Ptr} {r : Reg} (ha : (s.ptr p - 1).toNat ∈ W) (hl : p.base ∈ W)
    (hh : p.base + 1 ∈ W) (h : storePreDec p r s = .ok t) : Footprint W s t := by
  obtain ⟨s1, hstore, h⟩ := bind_eq_ok.mp (unlessClash_eq_ok.mp h).2
  cases h; exact ((Footprint.setPair hl hh _).trans (.busWrite ha hstore)).trans (.finish 1)

theorem exchangeZ_footprint {f : Byte → Byte → Byte} {d : Reg} (ha : (s.ptr .z).toNat ∈ W)
    (hd : d.toNat ∈ W) (h : exchangeZ f d s = .ok t) : Footprint W s t := by
  obtain ⟨p, hread, h⟩ := bind_eq_ok.mp h
  obtain ⟨s2, hwrite, h⟩ := bind_eq_ok.mp h
  cases h
  exact (((Footprint.busRead hread).trans (.busWrite ha hwrite)).trans (.setReg hd _)).trans
    (.finish 1)

theorem modifyIo_footprint {A : BitVec 5} {mask : Byte} {f : Byte → Byte}
    (ha : A.toNat + 0x20 ∈ W) (h : modifyIo A mask f s = .ok t) : Footprint W s t := by
  obtain ⟨p, hread, h⟩ := bind_eq_ok.mp h
  obtain ⟨s2, hwrite, h⟩ := bind_eq_ok.mp h
  cases h; exact ((Footprint.busRead hread).trans (.busWrite ha hwrite)).trans (.finish 1)

theorem loadProg_footprint {b : Nat} {d : Reg} (hd : d.toNat ∈ W) (h : loadProg b d s = .ok t) :
    Footprint W s t := by
  obtain ⟨v, -, h⟩ := bind_eq_ok.mp h
  cases h; exact setReg_footprint hd v 2

theorem skipIf_footprint {b : Bool} (h : skipIf b s = .ok t) : Footprint W s t := by
  cases b
  · cases h; exact .finish 0
  · obtain ⟨n, -, h⟩ := bind_eq_ok.mp h
    cases h; exact .finishAt ..

theorem pushBytes_footprint (v : Nat) : Footprint (pushedAddrs s) s (pushBytes v s) := by
  have hp : s.sp.toNat ∈ pushedAddrs s := by simp [pushedAddrs]
  have hp1 : s.sp.toNat - 1 ∈ pushedAddrs s := by simp [pushedAddrs]
  have hboth := (Footprint.setByte (s := s) hp (BitVec.ofNat 8 v)).trans
    (.setByte hp1 (BitVec.ofNat 8 (v / 256)))
  unfold pushBytes
  split
  case isTrue h => exact hboth.trans (.setByte (by simp [pushedAddrs, h]) _)
  case isFalse => exact hboth

theorem callTo_footprint {ret n : Nat} {target : Int} (h : callTo ret target n s = .ok t) :
    Footprint (pushedAddrs s) s t := by
  obtain ⟨-, rfl⟩ := callTo_eq_ok.mp h
  exact ((pushBytes_footprint ret).trans
    (.setSp (by simp [pushedAddrs]) (by simp [pushedAddrs]) _)).trans (.finishAt ..)

/-! ### Every instruction but WDR -/

@[simp] theorem base_x : Ptr.x.base = 26 := rfl
@[simp] theorem base_y : Ptr.y.base = 28 := rfl
@[simp] theorem base_z : Ptr.z.base = 30 := rfl
@[simp] theorem ptr_x (s : State) : s.ptr .x = s.pair 26 := rfl
@[simp] theorem ptr_y (s : State) : s.ptr .y = s.pair 28 := rfl
@[simp] theorem ptr_z (s : State) : s.ptr .z = s.pair 30 := rfl

/-- The instructions that write flags by their own rule, RETI among them. -/
theorem exec_footprint_of_writesFlags {i : Instr} (hi : writesFlags i = true)
    (h : exec i s = .next t) : Footprint (writeSet i s) s t := by
  cases i with
  | adc | add | and | andi | asr | com | dec | eor | inc | lsr | neg | or | ori | ror | sbc | sbci
  | sub | subi =>
    exact (writeResult_footprint (by simp [writeSet]) (by simp [writeSet]) _ _).of_next h
  | adiw | sbiw =>
    exact (writeWord_footprint (by simp [writeSet]) (by simp [writeSet]) (by simp [writeSet])
      _ _).of_next h
  | fmul | fmuls | fmulsu | mul | muls | mulsu =>
    exact (writeProduct_footprint (by simp [writeSet]) (by simp [writeSet]) (by simp [writeSet])
      _ _).of_next h
  | bclr | bset | bst | cp | cpc | cpi =>
    exact (writeFlags_footprint (by simp [writeSet]) _).of_next h
  | reti =>
    obtain ⟨-, rfl⟩ := returnFromInterrupt_eq_ok.mp (toOutcome_eq_next.mp h)
    exact ((Footprint.setSp (by simp [writeSet]) (by simp [writeSet]) _).trans
      (.setSreg (by simp [writeSet]) _)).trans (.finishAt ..)
  | _ => cases hi

theorem exec_footprint {i : Instr} (hi : i ≠ .wdr) (h : exec i s = .next t) :
    Footprint (writeSet i s) s t := by
  cases i with
  | bld | ldi | mov | swap => exact (setReg_footprint (by simp [writeSet]) _ _).of_next h
  | movw =>
    exact ((Footprint.setPair (by simp [writeSet]) (by simp [writeSet]) _).trans
      (.finish 0)).of_next h
  | brk | des | nop | sleep | spm | spmZP => exact (Footprint.finish 0).of_next h
  | eijmp | ijmp | jmp | rjmp => exact (Footprint.finishAt ..).of_next h
  | brbc | brbs => exact (branchIf_footprint ..).of_next h
  | call | eicall | icall | rcall => exact callTo_footprint (toOutcome_eq_next.mp h)
  | ret =>
    obtain ⟨-, rfl⟩ := returnFromSubroutine_eq_ok.mp (toOutcome_eq_next.mp h)
    exact (Footprint.setSp (by simp [writeSet]) (by simp [writeSet]) _).trans (.finishAt ..)
  | cpse | sbrc | sbrs => exact skipIf_footprint (toOutcome_eq_next.mp h)
  | sbic | sbis =>
    obtain ⟨p, hread, h⟩ := bind_eq_ok.mp (toOutcome_eq_next.mp h)
    exact (Footprint.busRead hread).trans (skipIf_footprint h)
  | cbi | sbi => exact modifyIo_footprint (by simp [writeSet]) (toOutcome_eq_next.mp h)
  | ldX | ldY | ldZ => exact loadPlain_footprint (by simp [writeSet]) (toOutcome_eq_next.mp h)
  | lddY | lddZ => exact loadDisp_footprint (by simp [writeSet]) (toOutcome_eq_next.mp h)
  | ldXP | ldYP | ldZP =>
    exact loadPostInc_footprint (by simp [writeSet]) (by simp [writeSet])
      (by simp [writeSet]) (toOutcome_eq_next.mp h)
  | ldMX | ldMY | ldMZ =>
    exact loadPreDec_footprint (by simp [writeSet]) (by simp [writeSet])
      (by simp [writeSet]) (toOutcome_eq_next.mp h)
  | lds =>
    obtain ⟨s1, hload, h⟩ := bind_eq_ok.mp (toOutcome_eq_next.mp h)
    cases h; exact (loadFrom_footprint (by simp [writeSet]) hload).trans (.finishAt ..)
  | stX | stY | stZ =>
    exact storePlain_footprint (by simp [writeSet]) (toOutcome_eq_next.mp h)
  | stdY | stdZ =>
    exact storeDisp_footprint (by simp [writeSet]) (toOutcome_eq_next.mp h)
  | stXP | stYP | stZP =>
    exact storePostInc_footprint (by simp [writeSet])
      (by simp [writeSet]) (by simp [writeSet]) (toOutcome_eq_next.mp h)
  | stMX | stMY | stMZ =>
    exact storePreDec_footprint (by simp [writeSet])
      (by simp [writeSet]) (by simp [writeSet]) (toOutcome_eq_next.mp h)
  | sts =>
    obtain ⟨s1, hstore, h⟩ := bind_eq_ok.mp (toOutcome_eq_next.mp h)
    cases h; exact (Footprint.busWrite (by simp [writeSet]) hstore).trans (.finishAt ..)
  | elpm | lpm =>
    exact loadProg_footprint (d := 0) (by simp [writeSet]) (toOutcome_eq_next.mp h)
  | elpmZ | lpmZ => exact loadProg_footprint (by simp [writeSet]) (toOutcome_eq_next.mp h)
  | lpmZP =>
    obtain ⟨v, -, h⟩ := bind_eq_ok.mp (unlessClash_eq_ok.mp (toOutcome_eq_next.mp h)).2
    cases h
    exact ((Footprint.setReg (by simp [writeSet]) v).trans
      (.setPair (by simp [writeSet, zAddr]) (by simp [writeSet, zAddr]) _)).trans (.finish 2)
  | elpmZP =>
    obtain ⟨v, -, h⟩ := bind_eq_ok.mp (unlessClash_eq_ok.mp (toOutcome_eq_next.mp h)).2
    cases h
    exact (((Footprint.setReg (by simp [writeSet]) v).trans
      (.setPair (by simp [writeSet, zAddr]) (by simp [writeSet, zAddr]) _)).trans
      (.setByte (by simp [writeSet, rampzAddr]) _)).trans (.finish 2)
  | inIo =>
    obtain ⟨s1, hload, h⟩ := bind_eq_ok.mp (toOutcome_eq_next.mp h)
    cases h; exact (loadFrom_footprint (by simp [writeSet]) hload).trans (.finish 0)
  | outIo =>
    obtain ⟨s1, hstore, h⟩ := bind_eq_ok.mp (toOutcome_eq_next.mp h)
    cases h; exact (Footprint.busWrite (by simp [writeSet, ioAddr]) hstore).trans (.finish 0)
  | push =>
    obtain ⟨s1, hpush, h⟩ := bind_eq_ok.mp (toOutcome_eq_next.mp h)
    obtain ⟨-, rfl⟩ := push1_eq_ok.mp hpush
    cases h
    exact ((Footprint.setByte (by simp [writeSet]) _).trans
      (.setSp (by simp [writeSet]) (by simp [writeSet]) _)).trans (.finish 1)
  | pop =>
    obtain ⟨p, hpop, h⟩ := bind_eq_ok.mp (toOutcome_eq_next.mp h)
    obtain ⟨-, rfl⟩ := pop1_eq_ok.mp hpop
    cases h
    exact ((Footprint.setSp (by simp [writeSet]) (by simp [writeSet]) _).trans
      (.setReg (by simp [writeSet]) _)).trans (.finish 1)
  | lac | las | lat | xch =>
    exact exchangeZ_footprint (by simp [writeSet]) (by simp [writeSet])
      (toOutcome_eq_next.mp h)
  | wdr => exact absurd rfl hi
  | _ => exact exec_footprint_of_writesFlags rfl h

/-! ### The frames -/

/-- WDR is one call to the environment, or the note of one. -/
theorem execWdr_eq_next :
    exec .wdr s = .next t ↔ ∃ s1, envWatchdogReset s = .ok s1 ∧ s1.finish 0 = t := by
  show toOutcome _ = _ ↔ _
  rw [toOutcome_eq_next, bind_eq_ok]
  exact exists_congr fun s1 => and_congr_right fun _ => by simp [pure, Except.pure]

theorem envWatchdogReset_of_none (h : s.watchdog = false) :
    envWatchdogReset s = .ok (s.noteCall .watchdogReset) := by
  simp [envWatchdogReset, h]

/-- Settles O13: the footprint of each instruction, and for WDR what its call keeps. -/
theorem instructionFrame : Obligations.InstructionFrame := by
  intro i s t h a ha hp
  by_cases hi : i = .wdr
  · subst hi
    obtain ⟨s1, hcall, rfl⟩ := execWdr_eq_next.mp h
    by_cases hn : NoHooks s
    · rw [envWatchdogReset_of_none hn.watchdog] at hcall
      cases hcall; rfl
    · exact (envWatchdogReset_keeps hcall).bytes a
        (hp.imp_right (Or.imp_right (Or.resolve_right · hn)))
  · exact (exec_footprint hi h).bytes a ha hp

/-- Settles O14: with nobody to call the footprint is quiet, and WDR only notes its call. -/
theorem instructionsRaiseNoInterrupt : Obligations.InstructionsRaiseNoInterrupt := by
  intro i s t hn h
  by_cases hi : i = .wdr
  · subst hi
    obtain ⟨s1, hcall, rfl⟩ := execWdr_eq_next.mp h
    rw [envWatchdogReset_of_none hn.watchdog] at hcall
    cases hcall; exact ⟨rfl, rfl, rfl, rfl, rfl⟩
  · have hq := (exec_footprint hi h).quiet hn
    exact ⟨hq.pending, hq.events, hq.replies, hq.draws, by rw [if_neg hi, hq.calls]⟩

/-! ### The interrupt enable flag -/

section
variable {fs : List (Flag × Bool)}

theorem flag_I_setFlags (h : Flag.I ∉ fs.map Prod.fst) :
    flagOf (setFlags fs s.sreg) .I = s.flag .I := flagOf_setFlags_frame h

theorem writeResult_flag_I {d : Reg} {res : Byte} (h : Flag.I ∉ fs.map Prod.fst) :
    (writeResult d res (setFlags fs s.sreg) s).flag .I = s.flag .I := by
  rw [State.flag, sreg_writeResult, flag_I_setFlags h]

theorem writeWord_flag_I {d : Reg} {res : Word} (h : Flag.I ∉ fs.map Prod.fst) :
    (writeWord d res (setFlags fs s.sreg) s).flag .I = s.flag .I := by
  rw [State.flag, sreg_writeWord, flag_I_setFlags h]

theorem writeProduct_flag_I (p res : Word) : (writeProduct p res s).flag .I = s.flag .I := by
  rw [State.flag, sreg_writeProduct]
  exact flagOf_setFlags_frame (by simp)

theorem writeFlags_flag_I (h : Flag.I ∉ fs.map Prod.fst) :
    (writeFlags (setFlags fs s.sreg) s).flag .I = s.flag .I := by
  rw [State.flag, sreg_writeFlags, flag_I_setFlags h]

end

theorem flag_of_next {a : State} (ha : a.flag .I = s.flag .I)
    (h : (.next a : Host.Outcome State Fault Refusal) = .next t) : t.flag .I = s.flag .I := by
  cases h; exact ha

/-- No flag computation touches I. -/
theorem exec_flag_I {i : Instr} (hi : writesFlags i = true) (h : exec i s = .next t)
    (hset : i ≠ .bset 7) (hclr : i ≠ .bclr 7) (hreti : i ≠ .reti) : t.flag .I = s.flag .I := by
  cases i with
  | adc | add | and | andi | asr | com | dec | eor | inc | lsr | neg | or | ori | ror | sbc | sbci
  | sub | subi => exact flag_of_next (writeResult_flag_I (by simp)) h
  | adiw | sbiw => exact flag_of_next (writeWord_flag_I (by simp)) h
  | fmul | fmuls | fmulsu | mul | muls | mulsu => exact flag_of_next (writeProduct_flag_I ..) h
  | cp | cpc | cpi | bst => exact flag_of_next (writeFlags_flag_I (by simp)) h
  | bset n =>
    have hn : 7 ≠ n.toNat := fun hn => hset (by congr 1; bv_omega)
    refine flag_of_next (a := writeFlags (s.sreg ||| bitMask n) s) ?_ h
    rw [State.flag, sreg_writeFlags]
    exact (getLsbD_setBit s.sreg n (by decide)).trans (if_neg hn)
  | bclr n =>
    have hn : 7 ≠ n.toNat := fun hn => hclr (by congr 1; bv_omega)
    refine flag_of_next (a := writeFlags (s.sreg &&& (0xFF - bitMask n)) s) ?_ h
    rw [State.flag, sreg_writeFlags]
    exact (getLsbD_clearBit s.sreg n (by decide)).trans (if_neg hn)
  | reti => exact absurd rfl hreti
  | _ => cases hi

/-- Settles O15: outside its `writeSet` an instruction leaves SREG's byte (O13), and of those that
hold the byte's address by their flags only three touch I. -/
theorem interruptEnableChanges : Obligations.InterruptEnableChanges := by
  intro i s t h hI
  by_contra hnot
  obtain ⟨hset, hclr, hreti, hstore⟩ := by simpa only [not_or] using hnot
  cases hi : writesFlags i with
  | true => exact hI (exec_flag_I hi h hset hclr hreti)
  | false =>
    have hsreg : t.sreg = s.sreg :=
      instructionFrame i s t h 0x5F (fun hmem => hstore ⟨hi, hmem⟩) (.inr (.inl rfl))
    exact hI (by rw [State.flag, hsreg, State.flag])

end Sys2Proof.Machine
end

section
/-! PROOFS. The Memory Bus (20_memory.md R100, R101): which calls it notes, and its answer and state
after a hook that does nothing but answer. -/

namespace Sys2Proof.Machine

open Sys2Proof.Claims

variable {s t u : State} {cs ds : List EnvCall}

/-! ### Calls are only added -/

/-- Of the notes of calls, none made before is lost. -/
def CallsGrow (s t : State) : Prop := ∃ later, t.calls = later ++ s.calls

theorem CallsGrow.of_eq (h : t.calls = s.calls) : CallsGrow s t := ⟨[], h⟩

theorem CallsGrow.trans (h : CallsGrow s t) (h' : CallsGrow t u) : CallsGrow s u := by
  obtain ⟨l, hl⟩ := h
  obtain ⟨l', hl'⟩ := h'
  exact ⟨l' ++ l, by rw [hl', hl, List.append_assoc]⟩

theorem setInterruptFlag_calls {q : Descriptor} (h : setInterruptFlag q s = .ok t) :
    t.calls = s.calls := by
  obtain ⟨-, -, h⟩ := setInterruptFlag_eq_ok.mp h
  dsimp only at h
  split at h
  · rw [h.2]; rfl
  · rw [h]; rfl

theorem updateInterruptEnable_calls {q : Descriptor} {v : Byte}
    (h : updateInterruptEnable q v s = .ok t) : t.calls = s.calls := by
  have h := updateInterruptEnable_eq_ok.mp h
  split at h
  · obtain ⟨-, h⟩ := h
    split at h
    · rw [h.2]
    · rw [h]
  · rw [h.2]

theorem clearInterrupt_calls {q : Descriptor} {b : Bool} (h : clearInterrupt q b s = .ok t) :
    t.calls = s.calls := by
  obtain ⟨-, -, rfl⟩ := clearInterrupt_eq_ok.mp h
  cases b <;> rfl

theorem clearInterruptByFlag_calls {q : Descriptor} {v : Byte}
    (h : clearInterruptByFlag q v s = .ok t) : t.calls = s.calls := by
  have h := clearInterruptByFlag_eq_ok.mp h
  split at h
  · rw [h.2.2]; rfl
  · rw [h]

/-- An operation of the environment is no call to it. -/
theorem envOp_calls {now : Nat} {o : EnvOp} (h : envOp now o s = .ok t) : t.calls = s.calls := by
  cases o with
  | addClockEvent =>
    obtain ⟨p, hp, rfl⟩ := map_eq_ok.mp h
    rw [(addClockEvent_eq_ok.mp hp).2]
  | clearClockEvent =>
    obtain ⟨p, hp, rfl⟩ := map_eq_ok.mp h
    rw [(clearClockEvent_eq_ok.mp hp).2]
  | updateClockEvent =>
    obtain ⟨p, hp, rfl⟩ := map_eq_ok.mp h
    rw [(updateClockEvent_eq_ok.mp hp).2]
  | setInterruptFlag => exact setInterruptFlag_calls (contract_eq_ok.mp h).2
  | updateInterruptEnable => exact updateInterruptEnable_calls (contract_eq_ok.mp h).2
  | queueInterrupt => rw [(queueInterrupt_eq_ok.mp (contract_eq_ok.mp h).2).2]
  | clearInterrupt => exact clearInterrupt_calls (contract_eq_ok.mp h).2
  | clearInterruptByFlag => exact clearInterruptByFlag_calls (contract_eq_ok.mp h).2
  | rawWrite => rw [(rawWrite_nat_eq_ok.mp (contract_eq_ok.mp h).2).2]; rfl

theorem envStore_calls {a : Nat} {v : Byte} (h : envStore a v s = .ok t) : t.calls = s.calls := by
  rw [(rawWrite_nat_eq_ok.mp (contract_eq_ok.mp h).2).2]; rfl

theorem runScript_calls {now : Nat} {sc : EnvScript} (h : runScript now sc s = .ok t) :
    CallsGrow s t :=
  runScript_induct CallsGrow (fun _ => .of_eq rfl) .trans (fun h => .of_eq (envOp_calls h))
    (fun h => .of_eq (envStore_calls h)) (fun _ c => ⟨[c], rfl⟩) now sc h

theorem envCall_calls {c : EnvCall} {slack : Byte → Nat} {p : EnvReply × State}
    (h : envCall c slack s = .ok p) : ∃ later, p.2.calls = later ++ c :: s.calls :=
  runScript_calls (envCall_eq_ok.mp h).2

/-! ### A call that is only answered -/

/-- A silent answer: the call is noted and the answer used up. -/
theorem envCall_silent {c : EnvCall} {slack : Byte → Nat} (h : Silent s) :
    envCall c slack s = .ok (s.nextReply, s.useReply.noteCall c) :=
  envCall_eq_ok.mpr ⟨rfl, by rw [show s.nextReply.script = .done from h]; rfl⟩

/-- From `s` to `t` the calls `cs` were made and only data bytes changed. -/
structure Ran (cs : List EnvCall) (s t : State) : Prop where
  called : Called cs s t
  pc : t.pc = s.pc
  cycles : t.cycles = s.cycles

theorem called_withData (h : Called cs s t) (m : Memory 8) (pc n : Nat) :
    Called cs s { t with data := m, pc := pc, cycles := n } where
  build := ⟨h.build.cfg, h.build.prog, h.build.readHooks, h.build.writeHooks, h.build.watchdog,
    h.build.started⟩
  pending := h.pending
  events := h.events
  replies := h.replies
  draws := h.draws
  calls := h.calls

theorem called_trans (h : Called cs s t) (h' : Called ds t u) : Called (ds ++ cs) s u where
  build := h.build.trans h'.build
  pending := h'.pending.trans h.pending
  events := h'.events.trans h.events
  replies := by
    rw [h'.replies, h.replies, List.drop_drop, List.length_append, Nat.add_comm]
  draws := by rw [h'.draws, h.draws, List.length_append]; omega
  calls := by rw [h'.calls, h.calls, List.append_assoc]

theorem called_nil_iff : Called [] s t ↔ Quiet s t :=
  ⟨fun h => ⟨h.build, h.pending, h.events, h.replies, h.draws, h.calls⟩,
    fun h => ⟨h.build, h.pending, h.events, h.replies, h.draws, h.calls⟩⟩

namespace Ran

theorem refl (s : State) : Ran [] s s := ⟨called_nil_iff.mpr (.refl s), rfl, rfl⟩

theorem trans (h : Ran cs s t) (h' : Ran ds t u) : Ran (ds ++ cs) s u :=
  ⟨called_trans h.called h'.called, h'.pc.trans h.pc, h'.cycles.trans h.cycles⟩

theorem withData (h : Ran cs s t) (m : Memory 8) : Ran cs s { t with data := m } :=
  ⟨called_withData h.called m t.pc t.cycles, h.pc, h.cycles⟩

theorem setReg (h : Ran cs s t) (d : Reg) (v : Byte) : Ran cs s (t.setReg d v) := h.withData _

theorem setPair (h : Ran cs s t) (a : Nat) (v : Word) : Ran cs s (t.setPair a v) := h.withData _

theorem setSp (h : Ran cs s t) (v : Int) : Ran cs s (t.setSp v) := h.withData _

theorem finish_called (h : Ran cs s t) (n : Nat) : Called cs s (t.finish n) :=
  called_withData h.called ..

theorem finishAt_called (h : Ran cs s t) (p : Int) (n : Nat) : Called cs s (t.finishAt p n) :=
  called_withData h.called ..

theorem advances_finish (h : Ran cs s t) (n : Nat) : Advances 1 (n + 1) s (t.finish n) where
  pc := by rw [finish_pc, h.pc, h.called.build.cfg]
  cycles := by rw [finish_cycles, h.cycles, Nat.add_assoc]

/-- The trailing step after a body that has moved `pc` over `k` words. -/
theorem advances_finishAt (h : Ran cs s t) (k n : Nat) :
    Advances (k + 1) (n + 1) s (t.finishAt (s.pc + k) n) where
  pc := by
    rw [finishAt_pc, h.called.build.cfg]
    exact_mod_cast Int.toNat_natCast ((s.pc + k + 1) % s.cfg.progWords)
  cycles := by rw [finishAt_cycles, h.cycles, Nat.add_assoc]

end Ran

/-! ### Bus reads -/

/-- The state after a silent bus read at `a`: its call noted and its answer used up, if a hook is
there. -/
def readDone (s : State) (a : Nat) : State :=
  { afterRead s a with calls := readCall s a ++ s.calls }

theorem readDone_of_hook {a : Nat} (h : s.readHooked a = true) :
    readDone s a = s.useReply.noteCall (.readHook a) := by
  rw [readDone, afterRead, readCall, if_pos h, if_pos h]; rfl

theorem readDone_of_none {a : Nat} (h : s.readHooked a = false) : readDone s a = s := by
  rw [readDone, afterRead, readCall, h]; rfl

theorem ran_readDone (s : State) (a : Nat) : Ran (readCall s a) s (readDone s a) := by
  cases h : s.readHooked a with
  | true =>
    rw [readDone_of_hook h, readCall, if_pos h]
    exact ⟨⟨⟨rfl, rfl, rfl, rfl, rfl, rfl⟩, rfl, rfl, by simp, rfl, rfl⟩, rfl, rfl⟩
  | false => rw [readDone_of_none h, readCall, h]; exact .refl s

theorem data_readDone (s : State) (a : Nat) : (readDone s a).data = s.data := by
  rw [readDone, afterRead]; split <;> rfl

@[simp] theorem byte_readDone (s : State) (a x : Nat) : (readDone s a).byte x = s.byte x :=
  byte_congr (data_readDone s a) x

theorem busRead_silent {slack : Byte → Nat} {a : Nat} (ha : a < s.cfg.dataSize)
    (hs : SilentRead s a) : busRead slack a s = .ok (readValue s a, readDone s a) := by
  cases h : s.readHooked a with
  | true =>
    refine busRead_eq_ok.mpr ⟨ha, ?_⟩
    rw [if_pos h, readDone_of_hook h, readValue, if_pos h]
    exact ⟨rfl, envCall_silent (hs h)⟩
  | false =>
    rw [readDone_of_none h, readValue, h]
    exact busRead_plain ha h

/-! ### Bus writes -/

/-- The state once a silent bus write at `a` has made its call, if a hook is there. -/
def writeNoted (s : State) (a : Nat) (v mask : Byte) : State :=
  if s.writeHooked a then s.useReply.noteCall (.writeHook v (s.byte a) a mask) else s

/-- The state after a silent bus write at `a`: the byte is stored unless a hook says it handled the
write. -/
def writeDone (s : State) (a : Nat) (v mask : Byte) : State :=
  if s.writeHooked a && s.nextReply.handled then writeNoted s a v mask
  else (writeNoted s a v mask).setByte a v

theorem ran_writeNoted (s : State) (a : Nat) (v mask : Byte) :
    Ran (writeCall s v (s.byte a) a mask) s (writeNoted s a v mask) := by
  rw [writeNoted, writeCall]
  split
  · exact ⟨⟨⟨rfl, rfl, rfl, rfl, rfl, rfl⟩, rfl, rfl, by simp, rfl, rfl⟩, rfl, rfl⟩
  · exact .refl s

theorem byte_writeNoted (a : Nat) (v mask : Byte) (x : Nat) :
    (writeNoted s a v mask).byte x = s.byte x := by
  rw [writeNoted]; split <;> rfl

theorem ran_writeDone (s : State) (a : Nat) (v mask : Byte) :
    Ran (writeCall s v (s.byte a) a mask) s (writeDone s a v mask) := by
  rw [writeDone]
  split
  · exact ran_writeNoted s a v mask
  · exact (ran_writeNoted s a v mask).withData _

theorem byte_writeDone_of_stores {a : Nat} {v mask : Byte} (h : stores s a) (x : Nat) :
    (writeDone s a v mask).byte x = if x = a then v else s.byte x := by
  rw [stores] at h
  rw [writeDone, h, if_neg Bool.false_ne_true, byte_setByte, byte_writeNoted]
  simp only [eq_comm]

theorem byte_writeDone_of_not_stores {a : Nat} {v mask : Byte} (h : ¬stores s a) (x : Nat) :
    (writeDone s a v mask).byte x = s.byte x := by
  rw [stores, Bool.not_eq_false] at h
  rw [writeDone, if_pos h, byte_writeNoted]

theorem byte_writeDone_ne {a x : Nat} {v mask : Byte} (h : x ≠ a) :
    (writeDone s a v mask).byte x = s.byte x := by
  by_cases hs : stores s a
  · rw [byte_writeDone_of_stores hs, if_neg h]
  · exact byte_writeDone_of_not_stores hs x

theorem busWrite_silent {slack a : Nat} {v mask : Byte} (ha : a < s.cfg.dataSize)
    (hs : SilentWrite s a) : busWrite slack a v mask s = .ok (writeDone s a v mask) := by
  refine busWrite_eq_ok.mpr ⟨ha, ?_⟩
  cases h : s.writeHooked a with
  | true => exact ⟨_, envCall_silent (hs h), by rw [writeDone, writeNoted, h]; rfl⟩
  | false => rw [writeDone, writeNoted, h]; rfl

/-! ### The statements about the bus -/

theorem readHooked_eq_true {a : Nat} : s.readHooked a = true ↔ 32 ≤ a ∧ a ∈ s.readHooks := by
  simp [State.readHooked]

theorem writeHooked_eq_true {a : Nat} : s.writeHooked a = true ↔ a ∈ s.writeHooks := by
  simp [State.writeHooked]

/-- Settles O17, by whether the address carries a read hook. -/
theorem busReads : Obligations.BusReads := by
  intro s n a
  refine ⟨busRead_out, fun ha hnot => busRead_plain ha ?_, fun ha hlow hmem => ?_⟩
  · rw [← Bool.not_eq_true, readHooked_eq_true]
    exact fun ⟨hlow, hmem⟩ => hnot.elim (by omega) (· hmem)
  · have hh := readHooked_eq_true.mpr ⟨hlow, hmem⟩
    refine ⟨fun p hp => ?_, fun hs => ?_⟩
    · have hcall := (busRead_eq_ok.mp hp).2
      rw [if_pos hh] at hcall
      obtain ⟨hval, hcall⟩ := hcall
      exact ⟨by rw [hval]; rfl, busRead_keeps hp, envCall_calls hcall⟩
    · have hran := (ran_readDone s a).called
      rw [readCall, if_pos hh] at hran
      exact ⟨_, busRead_silent ha fun _ => hs, hran, data_readDone s a⟩

/-- Settles O18, by whether the address carries a write hook. -/
theorem busWrites : Obligations.BusWrites := by
  intro s n a v mask
  refine ⟨busWrite_out, fun ha hnot => ?_, fun ha hmem => ?_⟩
  · have hh : s.writeHooked a = false := by rwa [← Bool.not_eq_true, writeHooked_eq_true]
    exact ⟨_, busWrite_plain ha hh, (onlyData_setByte s a v).quiet,
      fun x => by rw [byte_setByte]; simp only [eq_comm]⟩
  · have hh := writeHooked_eq_true.mpr hmem
    refine ⟨fun t ht => ?_, fun hs => ?_⟩
    · have hcall := (busWrite_eq_ok.mp ht).2
      rw [if_pos hh] at hcall
      obtain ⟨u, hcall, rfl⟩ := hcall
      exact ⟨u, (envCall_keeps hcall).1, envCall_calls hcall, rfl⟩
    · have hran := (ran_writeDone s a v mask).called
      rw [writeCall, if_pos hh] at hran
      refine ⟨_, busWrite_silent ha fun _ => hs, hran, fun x => ?_⟩
      cases hr : s.nextReply.handled with
      | true =>
        rw [byte_writeDone_of_not_stores (by simp [stores, hh, hr]), if_neg (by simp)]
      | false => simp [byte_writeDone_of_stores (s := s) (a := a) (by simp [stores, hr])]

end Sys2Proof.Machine
end

section
/-! PROOFS. Data transfer (43_transfer.md) and the I/O bits (42_bit.md section 1), with hooks that
only answer or none. -/

namespace Sys2Proof.Machine

open Sys2Proof.Claims

variable {s t : State} {p : Ptr} {d r : Reg} {a n : Nat}

/-! ### Loads -/

/-- `x[d]` takes the byte a bus read at `a` gives, `k` words on and `n` cycles later, and nothing
else happens. -/
structure Loaded (k n : Nat) (d : Reg) (a : Nat) (s t : State) : Prop where
  advances : Advances k n s t
  called : Called (readCall s a) s t
  bytes : ∀ x, t.byte x = if x = d.toNat then readValue s a else s.byte x

/-- The state with `x[d]` loaded, before the trailing step. -/
def loadDone (s : State) (a : Nat) (d : Reg) : State := (readDone s a).setReg d (readValue s a)

theorem ran_loadDone (s : State) (a : Nat) (d : Reg) : Ran (readCall s a) s (loadDone s a d) :=
  (ran_readDone s a).setReg d _

theorem byte_loadDone (x : Nat) :
    (loadDone s a d).byte x = if x = d.toNat then readValue s a else s.byte x := by
  rw [loadDone, byte_setReg, byte_readDone]
  simp only [eq_comm]

theorem loadFrom_silent (ha : a < s.cfg.dataSize) (hs : SilentRead s a) :
    loadFrom n a d s = .ok (loadDone s a d) :=
  loadFrom_eq_ok.mpr ⟨_, busRead_silent ha hs, rfl⟩

theorem loaded_finish (s : State) (a : Nat) (d : Reg) (n : Nat) :
    Loaded 1 (n + 1) d a s ((loadDone s a d).finish n) :=
  ⟨(ran_loadDone s a d).advances_finish n, (ran_loadDone s a d).finish_called n, byte_loadDone⟩

theorem loadPlain_loads (p : Ptr) (ha : (s.ptr p).toNat < s.cfg.dataSize)
    (hs : SilentRead s (s.ptr p).toNat) :
    ∃ t, toOutcome (loadPlain p d s) = .next t ∧ Loaded 1 2 d (s.ptr p).toNat s t :=
  ⟨_, toOutcome_eq_next.mpr (bind_eq_ok.mpr ⟨_, loadFrom_silent ha hs, rfl⟩), loaded_finish s _ d 1⟩

theorem loadDisp_loads (p : Ptr) {q : BitVec 6} (ha : (s.ptr p).toNat + q.toNat < s.cfg.dataSize)
    (hs : SilentRead s ((s.ptr p).toNat + q.toNat)) :
    ∃ t, toOutcome (loadDisp p d q s) = .next t ∧
      Loaded 1 2 d ((s.ptr p).toNat + q.toNat) s t :=
  ⟨_, toOutcome_eq_next.mpr (bind_eq_ok.mpr ⟨_, loadFrom_silent ha hs, rfl⟩), loaded_finish s _ d 1⟩

theorem execLds_loads {k : Word} (ha : k.toNat < s.cfg.dataSize) (hs : SilentRead s k.toNat) :
    ∃ t, execLds d k s = .next t ∧ Loaded 2 2 d k.toNat s t :=
  ⟨_, toOutcome_eq_next.mpr (bind_eq_ok.mpr ⟨_, loadFrom_silent ha hs, rfl⟩),
    (ran_loadDone s _ d).advances_finishAt 1 1, (ran_loadDone s _ d).finishAt_called ..,
    byte_loadDone⟩

theorem execInIo_loads {A : BitVec 6} (ha : A.toNat + 0x20 < s.cfg.dataSize)
    (hs : SilentRead s (A.toNat + 0x20)) :
    ∃ t, execInIo d A s = .next t ∧ Loaded 1 1 d (A.toNat + 0x20) s t :=
  ⟨_, toOutcome_eq_next.mpr (bind_eq_ok.mpr ⟨_, loadFrom_silent ha hs, rfl⟩), loaded_finish s _ d 0⟩

/-- Settles O44: each is a plain load, one with displacement, or LDS. -/
theorem plainLoads : Obligations.PlainLoads := by
  intro s d q k
  have unpack {i : Instr} {a k : Nat} (h : ∃ t, exec i s = .next t ∧ Loaded k 2 d a s t) :
      ∃ t, exec i s = .next t ∧ Advances k 2 s t ∧ Called (readCall s a) s t ∧
        ∀ x, t.byte x = if x = d.toNat then readValue s a else s.byte x :=
    h.imp fun _ ⟨hexec, hl⟩ => ⟨hexec, hl.advances, hl.called, hl.bytes⟩
  simp only [List.forall_mem_cons, List.not_mem_nil, false_implies, implies_true, and_true]
  exact ⟨fun ha hs => unpack (loadPlain_loads .x ha hs),
    fun ha hs => unpack (loadPlain_loads .y ha hs), fun ha hs => unpack (loadPlain_loads .z ha hs),
    fun ha hs => unpack (loadDisp_loads .y ha hs), fun ha hs => unpack (loadDisp_loads .z ha hs),
    fun ha hs => unpack (execLds_loads ha hs)⟩

/-! ### Pointers that move -/

theorem clash_eq_false (hl : d.toNat ≠ p.base) (hh : d.toNat ≠ p.base + 1) : clash p d = false := by
  simp [clash, hl, hh]

theorem ptr_inc (s : State) (p : Ptr) : s.ptr p + 1 = BitVec.ofNat 16 ((s.ptr p).toNat + 1) := by
  apply BitVec.eq_of_toNat_eq; simp

theorem toNat_ptr_dec (s : State) (p : Ptr) :
    (s.ptr p - 1).toNat = ((s.ptr p).toNat + 65535) % 65536 := by
  rw [BitVec.toNat_sub, Nat.add_comm]; rfl

/-- A pair set to a count, byte by byte. -/
theorem byte_setPair_count (b x m : Nat) :
    (s.setPair b (BitVec.ofNat 16 m)).byte x =
      if x = b then BitVec.ofNat 8 m else if x = b + 1 then BitVec.ofNat 8 (m / 256)
      else s.byte x := by
  have hlow : BitVec.ofNat 8 (m % 65536) = BitVec.ofNat 8 m := by
    apply BitVec.eq_of_toNat_eq; simp only [BitVec.toNat_ofNat]; omega
  have hhigh : BitVec.ofNat 8 (m % 65536 / 256) = BitVec.ofNat 8 (m / 256) := by
    apply BitVec.eq_of_toNat_eq; simp only [BitVec.toNat_ofNat]; omega
  rw [byte_setPair_ofNat, BitVec.toNat_ofNat, show 2 ^ 16 = 65536 from rfl, hlow, hhigh]

theorem byte_setPair_ne {b x : Nat} (v : Word) (hl : x ≠ b) (hh : x ≠ b + 1) :
    (s.setPair b v).byte x = s.byte x := by
  rw [byte_setPair_ofNat, if_neg hl, if_neg hh]

/-- A pair's bytes carry no read hook, so a read there sees the pair as it was just set. -/
theorem readValue_setPair {b : Nat} (hb : b + 1 < 32) (v : Word) :
    readValue (s.setPair b v) a = if a = b then BitVec.ofNat 8 v.toNat
      else if a = b + 1 then BitVec.ofNat 8 (v.toNat / 256) else readValue s a := by
  have hhook : (s.setPair b v).readHooked a = s.readHooked a := rfl
  have hreply : (s.setPair b v).nextReply = s.nextReply := rfl
  rw [readValue, readValue, hhook, hreply, byte_setPair_ofNat]
  have hlow : a < 32 → s.readHooked a = false := fun h => by
    simp [State.readHooked, Nat.not_le.mpr h]
  by_cases hl : a = b
  · simp only [hlow (by omega), if_pos hl, Bool.false_eq_true, if_false]
  · by_cases hh : a = b + 1
    · simp only [hlow (by omega), if_neg hl, if_pos hh, Bool.false_eq_true, if_false]
    · simp only [if_neg hl, if_neg hh]

theorem loadPostInc_loads (p : Ptr) (hl : d.toNat ≠ p.base) (hh : d.toNat ≠ p.base + 1)
    (ha : (s.ptr p).toNat < s.cfg.dataSize) (hs : SilentRead s (s.ptr p).toNat) :
    ∃ t, toOutcome (loadPostInc p d s) = .next t ∧ Advances 1 2 s t ∧
      Called (readCall s (s.ptr p).toNat) s t ∧ t.reg d = readValue s (s.ptr p).toNat ∧
      (t.pair p.base).toNat = ((s.ptr p).toNat + 1) % 65536 ∧
      DataFrame [d.toNat, p.base, p.base + 1] s t := by
  have hc := clash_eq_false hl hh
  have hran := (ran_loadDone s (s.ptr p).toNat d).setPair p.base (s.ptr p + 1)
  refine ⟨_, toOutcome_eq_next.mpr ?exec, hran.advances_finish 1, hran.finish_called 1, ?reg, ?pair,
    fun x hx => ?frame⟩
  case exec =>
    rw [loadPostInc, unlessClash_of_not hc]
    exact bind_eq_ok.mpr ⟨_, loadFrom_silent ha hs, rfl⟩
  case reg => rw [reg_finish, reg_setPair_base _ hc, reg_def, byte_loadDone, if_pos rfl]
  case pair => exact (congrArg BitVec.toNat (pair_setPair_same ..)).trans (BitVec.toNat_add ..)
  case frame =>
    simp only [List.mem_cons, List.not_mem_nil, or_false, not_or] at hx
    obtain ⟨hxd, hxl, hxh⟩ := hx
    rw [byte_finish, byte_setPair_ne _ hxl hxh, byte_loadDone, if_neg hxd]

/-- The state with the pointer moved down, as a pre-decrement form leaves it before the access. -/
def preDec (s : State) (p : Ptr) : State := s.setPair p.base (s.ptr p - 1)

theorem ran_preDec (s : State) (p : Ptr) : Ran [] s (preDec s p) := (Ran.refl s).setPair ..

theorem byte_preDec (haddr : (s.ptr p - 1).toNat = a) (x : Nat) :
    (preDec s p).byte x = if x = p.base then BitVec.ofNat 8 a
      else if x = p.base + 1 then BitVec.ofNat 8 (a / 256) else s.byte x := by
  rw [preDec, byte_setPair_ofNat, haddr]

theorem loadPreDec_loads (p : Ptr) (haddr : (s.ptr p - 1).toNat = a) (hl : d.toNat ≠ p.base)
    (hh : d.toNat ≠ p.base + 1) (ha : a < s.cfg.dataSize) (hs : SilentRead s a) :
    ∃ t, toOutcome (loadPreDec p d s) = .next t ∧ Advances 1 3 s t ∧ Called (readCall s a) s t ∧
      (t.pair p.base).toNat = a ∧ DataFrame [d.toNat, p.base, p.base + 1] s t ∧
      t.reg d = if a = p.base then BitVec.ofNat 8 a
        else if a = p.base + 1 then BitVec.ofNat 8 (a / 256) else readValue s a := by
  have hran : Ran (readCall s a) s (loadDone (preDec s p) a d) := by
    have := (ran_preDec s p).trans (ran_loadDone (preDec s p) a d)
    rwa [List.append_nil] at this
  refine ⟨(loadDone (preDec s p) a d).finish 2, toOutcome_eq_next.mpr ?exec,
    hran.advances_finish 2, hran.finish_called 2, ?pair, fun x hx => ?frame, ?reg⟩
  case exec =>
    rw [loadPreDec, unlessClash_of_not (clash_eq_false hl hh)]
    exact bind_eq_ok.mpr ⟨_, by rw [haddr]; exact loadFrom_silent ha hs, rfl⟩
  case pair =>
    have hbyte : ∀ x, x ≠ d.toNat → (loadDone (preDec s p) a d).byte x = (preDec s p).byte x :=
      fun x hx => by rw [byte_loadDone, if_neg hx]
    have hpair : (loadDone (preDec s p) a d).pair p.base = s.ptr p - 1 := by
      rw [pair_def, hbyte _ hl.symm, hbyte _ hh.symm]
      exact pair_setPair_same ..
    exact (congrArg BitVec.toNat hpair).trans haddr
  case frame =>
    simp only [List.mem_cons, List.not_mem_nil, or_false, not_or] at hx
    obtain ⟨hxd, hxl, hxh⟩ := hx
    rw [byte_finish, byte_loadDone, if_neg hxd, byte_preDec haddr, if_neg hxl, if_neg hxh]
  case reg =>
    rw [reg_finish, reg_def, byte_loadDone, if_pos rfl, preDec, readValue_setPair (base_lt p),
      haddr]

/-- Settles O45: the rule of each form, for the three pointers. -/
theorem pointerUpdateLoads : Obligations.PointerUpdateLoads := by
  intro s d
  simp only [List.forall_mem_cons, List.not_mem_nil, false_implies, implies_true, and_true]
  exact ⟨⟨loadPostInc_loads .x, loadPostInc_loads .y, loadPostInc_loads .z⟩,
    loadPreDec_loads .x (toNat_ptr_dec s .x), loadPreDec_loads .y (toNat_ptr_dec s .y),
    loadPreDec_loads .z (toNat_ptr_dec s .z)⟩

end Sys2Proof.Machine
end

section
/-! PROOFS. The stores (43_transfer.md R415 to R426), IN and OUT, SBI and CBI, and the
read-modify-writes, with hooks that only answer or none. -/

namespace Sys2Proof.Machine

open Sys2Proof.Claims

variable {s t : State} {p : Ptr} {d r : Reg} {a n : Nat} {v mask : Byte}

/-! ### Stores that move no pointer -/

/-- `v` goes over the bus to `a`, `k` words on and `n` cycles later, and nothing else happens. -/
structure Stored (k n a : Nat) (v mask : Byte) (s t : State) : Prop where
  advances : Advances k n s t
  called : Called (writeCall s v (s.byte a) a mask) s t
  stored : stores s a → t.byte a = v
  handled : ¬stores s a → t.byte a = s.byte a
  frame : DataFrame [a] s t

theorem Stored.of_bytes (ha : Advances k n s t)
    (hc : Called (writeCall s v (s.byte a) a mask) s t)
    (hb : ∀ x, t.byte x = (writeDone s a v mask).byte x) : Stored k n a v mask s t where
  advances := ha
  called := hc
  stored := fun h => by rw [hb, byte_writeDone_of_stores h, if_pos rfl]
  handled := fun h => by rw [hb, byte_writeDone_of_not_stores h]
  frame := fun x hx => by rw [hb, byte_writeDone_ne (by simpa using hx)]

theorem stored_finish (s : State) (a : Nat) (v mask : Byte) (n : Nat) :
    Stored 1 (n + 1) a v mask s ((writeDone s a v mask).finish n) :=
  .of_bytes ((ran_writeDone s a v mask).advances_finish n)
    ((ran_writeDone s a v mask).finish_called n) fun _ => rfl

theorem storePlain_stores (p : Ptr) (ha : (s.ptr p).toNat < s.cfg.dataSize)
    (hs : SilentWrite s (s.ptr p).toNat) :
    ∃ t, toOutcome (storePlain p r s) = .next t ∧ Stored 1 2 (s.ptr p).toNat (s.reg r) 0xFF s t :=
  ⟨_, toOutcome_eq_next.mpr (bind_eq_ok.mpr ⟨_, busWrite_silent ha hs, rfl⟩),
    stored_finish s _ _ _ 1⟩

theorem storeDisp_stores (p : Ptr) {q : BitVec 6}
    (ha : (s.ptr p).toNat + q.toNat < s.cfg.dataSize)
    (hs : SilentWrite s ((s.ptr p).toNat + q.toNat)) :
    ∃ t, toOutcome (storeDisp p q r s) = .next t ∧
      Stored 1 2 ((s.ptr p).toNat + q.toNat) (s.reg r) 0xFF s t :=
  ⟨_, toOutcome_eq_next.mpr (bind_eq_ok.mpr ⟨_, busWrite_silent ha hs, rfl⟩),
    stored_finish s _ _ _ 1⟩

theorem execSts_stores {k : Word} (ha : k.toNat < s.cfg.dataSize) (hs : SilentWrite s k.toNat) :
    ∃ t, execSts k r s = .next t ∧ Stored 2 2 k.toNat (s.reg r) 0xFF s t :=
  ⟨_, toOutcome_eq_next.mpr (bind_eq_ok.mpr ⟨_, busWrite_silent ha hs, rfl⟩),
    .of_bytes ((ran_writeDone s _ _ _).advances_finishAt 1 1)
      ((ran_writeDone s _ _ _).finishAt_called ..) fun _ => rfl⟩

theorem execOutIo_stores {A : BitVec 6} (ha : A.toNat + 0x20 < s.cfg.dataSize)
    (hs : SilentWrite s (A.toNat + 0x20)) :
    ∃ t, execOutIo A r s = .next t ∧ Stored 1 1 (A.toNat + 0x20) (s.reg r) 0xFF s t :=
  ⟨_, toOutcome_eq_next.mpr (bind_eq_ok.mpr ⟨_, busWrite_silent ha hs, rfl⟩),
    stored_finish s _ _ _ 0⟩

/-- Settles O46: each is a plain store, one with displacement, or STS. -/
theorem plainStores : Obligations.PlainStores := by
  intro s r q k
  have unpack {i : Instr} {a k : Nat}
      (h : ∃ t, exec i s = .next t ∧ Stored k 2 a (s.reg r) 0xFF s t) :
      ∃ t, exec i s = .next t ∧ Advances k 2 s t ∧
        Called (writeCall s (s.reg r) (s.byte a) a 0xFF) s t ∧ (stores s a → t.byte a = s.reg r) ∧
        (¬stores s a → t.byte a = s.byte a) ∧ DataFrame [a] s t :=
    h.imp fun _ ⟨hexec, hst⟩ =>
      ⟨hexec, hst.advances, hst.called, hst.stored, hst.handled, hst.frame⟩
  simp only [List.forall_mem_cons, List.not_mem_nil, false_implies, implies_true, and_true]
  exact ⟨fun ha hs => unpack (storePlain_stores .x ha hs),
    fun ha hs => unpack (storePlain_stores .y ha hs),
    fun ha hs => unpack (storePlain_stores .z ha hs),
    fun ha hs => unpack (storeDisp_stores .y ha hs),
    fun ha hs => unpack (storeDisp_stores .z ha hs),
    fun ha hs => unpack (execSts_stores ha hs)⟩

/-- Settles O49: IN is a load and OUT a store at an I/O address. -/
theorem inOut : Obligations.InOut := by
  intro s d A a ha
  refine ⟨fun hs => ?_, fun hs => ?_⟩
  · obtain ⟨t, hexec, hl⟩ := execInIo_loads (d := d) ha hs
    exact ⟨t, hexec, hl.advances, hl.called, hl.bytes⟩
  · obtain ⟨t, hexec, hst⟩ := execOutIo_stores (r := d) ha hs
    exact ⟨t, hexec, hst.advances, hst.called, hst.stored, hst.handled, hst.frame⟩

/-! ### Stores that move the pointer -/

theorem storePostInc_stores (p : Ptr) (haddr : (s.ptr p).toNat = a) (hl : r.toNat ≠ p.base)
    (hh : r.toNat ≠ p.base + 1) (ha : a < s.cfg.dataSize) (hs : SilentWrite s a) :
    ∃ t, toOutcome (storePostInc p r s) = .next t ∧ Advances 1 2 s t ∧
      Called (writeCall s (s.reg r) (s.byte a) a 0xFF) s t ∧
      (stores s a → ∀ x, t.byte x = if x = p.base then BitVec.ofNat 8 (a + 1)
        else if x = p.base + 1 then BitVec.ofNat 8 ((a + 1) / 256)
        else if x = a then s.reg r else s.byte x) ∧
      (¬stores s a → ∀ x, t.byte x = if x = p.base then BitVec.ofNat 8 (a + 1)
        else if x = p.base + 1 then BitVec.ofNat 8 ((a + 1) / 256) else s.byte x) := by
  have hran := (ran_writeDone s a (s.reg r) 0xFF).setPair p.base (s.ptr p + 1)
  refine ⟨_, toOutcome_eq_next.mpr ?exec, hran.advances_finish 1, hran.finish_called 1,
    fun hst x => ?stored, fun hst x => ?handled⟩
  case exec =>
    rw [storePostInc, unlessClash_of_not (clash_eq_false hl hh)]
    exact bind_eq_ok.mpr ⟨_, by rw [haddr]; exact busWrite_silent ha hs, rfl⟩
  case stored =>
    rw [byte_finish, ptr_inc, haddr, byte_setPair_count, byte_writeDone_of_stores hst]
  case handled =>
    rw [byte_finish, ptr_inc, haddr, byte_setPair_count, byte_writeDone_of_not_stores hst]

theorem storePreDec_stores (p : Ptr) (haddr : (s.ptr p - 1).toNat = a) (hl : r.toNat ≠ p.base)
    (hh : r.toNat ≠ p.base + 1) (ha : a < s.cfg.dataSize) (hs : SilentWrite s a) :
    ∃ t, toOutcome (storePreDec p r s) = .next t ∧ Advances 1 2 s t ∧
      Called (writeCall s (s.reg r) ((preDec s p).byte a) a 0xFF) s t ∧
      (stores s a → ∀ x, t.byte x = if x = a then s.reg r else (preDec s p).byte x) ∧
      (¬stores s a → ∀ x, t.byte x = (preDec s p).byte x) := by
  have hran : Ran (writeCall s (s.reg r) ((preDec s p).byte a) a 0xFF) s
      (writeDone (preDec s p) a (s.reg r) 0xFF) := by
    have := (ran_preDec s p).trans (ran_writeDone (preDec s p) a (s.reg r) 0xFF)
    rwa [List.append_nil] at this
  refine ⟨_, toOutcome_eq_next.mpr ?exec, hran.advances_finish 1, hran.finish_called 1,
    byte_writeDone_of_stores (s := preDec s p), byte_writeDone_of_not_stores (s := preDec s p)⟩
  case exec =>
    have hc := clash_eq_false hl hh
    rw [storePreDec, unlessClash_of_not hc]
    refine bind_eq_ok.mpr ⟨_, ?_, rfl⟩
    rw [haddr, reg_setPair_base _ hc]
    exact busWrite_silent ha hs

/-- Settles O47: the rule of each form, for the three pointers. -/
theorem pointerUpdateStores : Obligations.PointerUpdateStores := by
  intro s r
  have post (p : Ptr) := storePostInc_stores (s := s) (r := r) p rfl
  have pre (p : Ptr) := storePreDec_stores (s := s) (r := r) p (toNat_ptr_dec s p)
  simp only [byte_preDec (toNat_ptr_dec s _)] at pre
  simp only [List.forall_mem_cons, List.not_mem_nil, false_implies, implies_true, and_true]
  exact ⟨⟨post .x, post .y, post .z⟩, pre .x, pre .y, pre .z⟩

/-! ### A read and then a write at one address -/

/-- The state after a silent bus read at `a` and a silent bus write of `v` there. -/
def modifyDone (s : State) (a : Nat) (v mask : Byte) : State := writeDone (readDone s a) a v mask

theorem ran_modifyDone (s : State) (a : Nat) (v mask : Byte) :
    Ran (writeCall s v (s.byte a) a mask ++ readCall s a) s (modifyDone s a v mask) := by
  have hread := ran_readDone s a
  have hwrite := ran_writeDone (readDone s a) a v mask
  have hcall : writeCall (readDone s a) v ((readDone s a).byte a) a mask =
      writeCall s v (s.byte a) a mask := by
    rw [byte_readDone, writeCall, writeCall, State.writeHooked, State.writeHooked,
      hread.called.build.writeHooks]
  rw [hcall] at hwrite
  exact hread.trans hwrite

/-- A read that notes its call leaves a write what a read that only uses up its answer leaves. -/
theorem stores_readDone : stores (readDone s a) a ↔ stores (afterRead s a) a := Iff.rfl

theorem silentWrite_readDone : SilentWrite (readDone s a) a ↔ SilentWrite (afterRead s a) a :=
  Iff.rfl

theorem byte_modifyDone_of_stores (h : stores (afterRead s a) a) (x : Nat) :
    (modifyDone s a v mask).byte x = if x = a then v else s.byte x := by
  rw [modifyDone, byte_writeDone_of_stores (stores_readDone.mpr h), byte_readDone]

theorem byte_modifyDone_of_not_stores (h : ¬stores (afterRead s a) a) (x : Nat) :
    (modifyDone s a v mask).byte x = s.byte x := by
  rw [modifyDone, byte_writeDone_of_not_stores (mt stores_readDone.mp h), byte_readDone]

theorem byte_modifyDone_ne {x : Nat} (h : x ≠ a) : (modifyDone s a v mask).byte x = s.byte x := by
  rw [modifyDone, byte_writeDone_ne h, byte_readDone]

theorem busWrite_readDone {slack : Nat} (ha : a < s.cfg.dataSize)
    (hs : SilentWrite (afterRead s a) a) :
    busWrite slack a v mask (readDone s a) = .ok (modifyDone s a v mask) :=
  busWrite_silent (by rwa [(ran_readDone s a).called.build.cfg]) (silentWrite_readDone.mpr hs)

/-! ### I/O bits and the read-modify-writes through Z -/

theorem ofNat_bit (b : BitVec 3) : BitVec.ofNat 8 (2 ^ b.toNat) = bitMask b := by
  revert b; decide

theorem ofNat_not_bit (b : BitVec 3) : BitVec.ofNat 8 (255 - 2 ^ b.toNat) = 0xFF - bitMask b := by
  revert b; decide

theorem modifyIo_modifies {A : BitVec 5} {f : Byte → Byte} (ha : A.toNat + 0x20 < s.cfg.dataSize)
    (hr : SilentRead s (A.toNat + 0x20))
    (hw : SilentWrite (afterRead s (A.toNat + 0x20)) (A.toNat + 0x20)) :
    let a := A.toNat + 0x20; let res := f (readValue s a)
    ∃ t, toOutcome (modifyIo A mask f s) = .next t ∧ Advances 1 2 s t ∧
      Called (writeCall s res (s.byte a) a mask ++ readCall s a) s t ∧
      (stores (afterRead s a) a → t.byte a = res) ∧
      (¬stores (afterRead s a) a → t.byte a = s.byte a) ∧ DataFrame [a] s t := by
  intro a res
  have hran := ran_modifyDone s a res mask
  refine ⟨_, toOutcome_eq_next.mpr ?exec, hran.advances_finish 1, hran.finish_called 1,
    fun hst => ?stored, fun hst => ?handled, fun x hx => ?frame⟩
  case exec =>
    exact bind_eq_ok.mpr ⟨_, busRead_silent ha hr, bind_eq_ok.mpr ⟨_, busWrite_readDone ha hw, rfl⟩⟩
  case stored => rw [byte_finish, byte_modifyDone_of_stores hst, if_pos rfl]
  case handled => rw [byte_finish, byte_modifyDone_of_not_stores hst]
  case frame => rw [byte_finish, byte_modifyDone_ne (by simpa using hx)]

/-- Settles O42: SBI and CBI are one modification with two functions. -/
theorem ioBits : Obligations.IoBits := by
  intro s A b a v ha hr hw
  have hset : BitVec.ofNat 8 (v ||| 2 ^ b.toNat) = readValue s a ||| bitMask b := by
    rw [BitVec.ofNat_or, ofNat_bit]; simp [v]
  have hclear :
      BitVec.ofNat 8 (v &&& (255 - 2 ^ b.toNat)) = readValue s a &&& (0xFF - bitMask b) := by
    rw [BitVec.ofNat_and, ofNat_not_bit]; simp [v]
  simp only [List.forall_mem_cons, List.not_mem_nil, false_implies, implies_true, and_true]
  rw [hset, hclear, ofNat_bit]
  exact ⟨modifyIo_modifies ha hr hw, modifyIo_modifies ha hr hw⟩

theorem exchangeZ_exchanges {f : Byte → Byte → Byte} (haddr : (s.ptr .z).toNat = a)
    (ha : a < s.cfg.dataSize) (hr : SilentRead s a) (hw : SilentWrite (afterRead s a) a) :
    let v := readValue s a; let res := f v (s.reg d)
    ∃ t, toOutcome (exchangeZ f d s) = .next t ∧ Advances 1 2 s t ∧
      Called (writeCall s res (s.byte a) a 0xFF ++ readCall s a) s t ∧ t.reg d = v ∧
      (a ≠ d.toNat → stores (afterRead s a) a → t.byte a = res) ∧
      (a ≠ d.toNat → ¬stores (afterRead s a) a → t.byte a = s.byte a) ∧
      DataFrame [d.toNat, a] s t := by
  intro v res
  have hran := (ran_modifyDone s a res 0xFF).setReg d v
  refine ⟨_, toOutcome_eq_next.mpr ?exec, hran.advances_finish 1, hran.finish_called 1,
    by rw [reg_finish, reg_setReg_same], fun hne hst => ?stored, fun hne hst => ?handled,
    fun x hx => ?frame⟩
  case exec =>
    refine bind_eq_ok.mpr ⟨_, by rw [haddr]; exact busRead_silent ha hr,
      bind_eq_ok.mpr ⟨_, ?_, rfl⟩⟩
    rw [haddr]; exact busWrite_readDone ha hw
  case stored =>
    rw [byte_finish, byte_setReg, if_neg hne.symm, byte_modifyDone_of_stores hst, if_pos rfl]
  case handled =>
    rw [byte_finish, byte_setReg, if_neg hne.symm, byte_modifyDone_of_not_stores hst]
  case frame =>
    simp only [List.mem_cons, List.not_mem_nil, or_false, not_or] at hx
    obtain ⟨hxd, hxa⟩ := hx
    rw [byte_finish, byte_setReg, if_neg (Ne.symm hxd), byte_modifyDone_ne hxa]

/-- Settles O51: four functions of the byte read and Rd. -/
theorem readModifyWrite : Obligations.ReadModifyWrite := by
  intro s d z v ha hr hw
  simp only [List.forall_mem_cons, List.not_mem_nil, false_implies, implies_true, and_true]
  exact ⟨exchangeZ_exchanges rfl ha hr hw, exchangeZ_exchanges rfl ha hr hw,
    exchangeZ_exchanges rfl ha hr hw, exchangeZ_exchanges rfl ha hr hw⟩

end Sys2Proof.Machine
end

section
/-! PROOFS. Program-memory reads (20_memory.md section 3, 43_transfer.md R427 to R432), PUSH and
POP, the no-ops and the skips. -/

namespace Sys2Proof.Machine

open Sys2Proof.Claims

variable {s t u : State} {p : Ptr} {d r : Reg} {a n : Nat} {cs : List EnvCall} {ws : List Nat}

/-! ### Program memory -/

theorem flashByte_eq_flash (s : State) (b : Nat) : s.flashByte b = flash s b := by
  rcases Nat.mod_two_eq_zero_or_one b with h | h
  · rw [State.flashByte, flash, h, if_pos rfl, lowByte_eq_ofNat, pow_zero, Nat.div_one]
  · rw [State.flashByte, flash, h, if_neg (by decide), highByte_eq_ofNat, pow_one]

/-- A body that calls nobody and leaves SREG alone, then the trailing step. -/
theorem Ran.runsOn (h : Ran [] s u) (hw : DataFrame ws s u) (hf : 0x5F ∉ ws) (n : Nat) :
    RunsOn (n + 1) [] ws s (u.finish n) where
  advances := h.advances_finish n
  quiet := called_nil_iff.mp (h.finish_called n)
  flags := fun f _ => congrArg (flagOf · f) (hw 0x5F hf)
  bytes := hw

theorem dataFrame_setReg (s : State) (d : Reg) (v : Byte) : DataFrame [d.toNat] s (s.setReg d v) :=
  fun x hx => by rw [byte_setReg, if_neg (Ne.symm (by simpa using hx))]

theorem dataFrame_setReg_setPair {b : Nat} (v : Byte) (w : Word) :
    DataFrame [d.toNat, b, b + 1] s ((s.setReg d v).setPair b w) := fun x hx => by
  simp only [List.mem_cons, List.not_mem_nil, or_false, not_or] at hx
  obtain ⟨hxd, hxl, hxh⟩ := hx
  rw [byte_setPair_ne _ hxl hxh, byte_setReg, if_neg (Ne.symm hxd)]

theorem sreg_not_reg (d : Reg) : 0x5F ∉ [d.toNat] := by
  have := reg_lt d
  simp only [List.mem_singleton]; omega

theorem loadProg_loads {b : Nat} (h : b / 2 < s.cfg.progWords) :
    ∃ t, toOutcome (loadProg b d s) = .next t ∧ RunsOn 3 [] [d.toNat] s t ∧ t.reg d = flash s b :=
  ⟨_, congrArg toOutcome (loadProg_in d h),
    ((Ran.refl s).setReg d _).runsOn (dataFrame_setReg s d _) (sreg_not_reg d) 2,
    by rw [reg_finish, reg_setReg_same, flashByte_eq_flash]⟩

theorem progByte_flash {b : Nat} (h : b / 2 < s.cfg.progWords) : progByte b s = .ok (flash s b) :=
  (progByte_in h).trans (congrArg _ (flashByte_eq_flash s b))

theorem clash_z_of_lt (h : d.toNat < 30) : clash .z d = false :=
  clash_eq_false (by rw [base_z]; omega) (by rw [base_z]; omega)

theorem execLpmZP_loads (hd : d.toNat < 30) (h : (s.pair 30).toNat / 2 < s.cfg.progWords) :
    ∃ t, execLpmZP d s = .next t ∧ RunsOn 3 [] [d.toNat, 30, 31] s t ∧
      t.reg d = flash s (s.pair 30).toNat ∧
      (t.pair 30).toNat = ((s.pair 30).toNat + 1) % 65536 := by
  have hc := clash_z_of_lt hd
  have hran := ((Ran.refl s).setReg d (flash s (s.pair 30).toNat)).setPair 30 (s.pair 30 + 1)
  refine ⟨_, toOutcome_eq_next.mpr ?exec,
    hran.runsOn (dataFrame_setReg_setPair _ _) ?sreg 2, ?reg, ?pair⟩
  case exec =>
    rw [unlessClash_of_not hc]
    exact bind_eq_ok.mpr ⟨_, progByte_flash h, rfl⟩
  case sreg => simp only [List.mem_cons, List.not_mem_nil, or_false]; omega
  case reg => exact (reg_setPair_base (p := .z) _ hc).trans (reg_setReg_same ..)
  case pair => exact (congrArg BitVec.toNat (pair_setPair_same ..)).trans (BitVec.toNat_add ..)

/-- RAMPZ:Z set to `m`, as ELPM Z+ leaves it after `x[d]`. -/
def setRampzZ (s : State) (m : Nat) : State :=
  (s.setPair 30 (BitVec.ofNat 16 m)).setByte 0x5B (BitVec.ofNat 8 (m / 65536))

theorem toNat_setRampzZ (s : State) {m : Nat} (hm : m < 2 ^ 24) :
    ((setRampzZ s m).byte 0x5B).toNat * 65536 + ((setRampzZ s m).pair 30).toNat = m := by
  have hpair : (setRampzZ s m).pair 30 = BitVec.ofNat 16 m := by
    rw [pair_def, setRampzZ, byte_setByte_ne _ _ (by decide), byte_setByte_ne _ _ (by decide)]
    exact pair_setPair_same ..
  rw [hpair, setRampzZ, byte_setByte_same, BitVec.toNat_ofNat, BitVec.toNat_ofNat]
  omega

theorem byte_setRampzZ_ne {m x : Nat} (hl : x ≠ 30) (hh : x ≠ 31) (hr : x ≠ 0x5B) :
    (setRampzZ s m).byte x = s.byte x := by
  rw [setRampzZ, byte_setByte_ne _ _ (Ne.symm hr), byte_setPair_ne _ hl hh]

theorem execElpmZP_loads (hd : d.toNat < 30) (h : elpmAddr s / 2 < s.cfg.progWords) :
    ∃ t, execElpmZP d s = .next t ∧ RunsOn 3 [] [d.toNat, 30, 31, 0x5B] s t ∧
      t.reg d = flash s (elpmAddr s) ∧
      (t.byte 0x5B).toNat * 65536 + (t.pair 30).toNat = (elpmAddr s + 1) % 2 ^ 24 := by
  have hran : Ran [] s
      (setRampzZ (s.setReg d (flash s (elpmAddr s))) ((elpmAddr s + 1) % 2 ^ 24)) :=
    (((Ran.refl s).setReg d _).setPair ..).withData _
  refine ⟨_, toOutcome_eq_next.mpr ?exec, hran.runsOn (fun x hx => ?frame) ?sreg 2, ?reg,
    toNat_setRampzZ _ (Nat.mod_lt _ (by decide))⟩
  case exec =>
    rw [unlessClash_of_not (clash_z_of_lt hd)]
    exact bind_eq_ok.mpr ⟨_, progByte_flash h, rfl⟩
  case frame =>
    simp only [List.mem_cons, List.not_mem_nil, or_false, not_or] at hx
    obtain ⟨hxd, hxl, hxh, hxr⟩ := hx
    rw [byte_setRampzZ_ne hxl hxh hxr, byte_setReg, if_neg (Ne.symm hxd)]
  case sreg => simp only [List.mem_cons, List.not_mem_nil, or_false]; omega
  case reg =>
    rw [reg_finish, reg_def, byte_setRampzZ_ne (by omega) (by omega) (by omega)]
    exact reg_setReg_same ..

/-- Settles O48: four plain program reads, and the two that count on. -/
theorem programMemoryLoads : Obligations.ProgramMemoryLoads := by
  intro s d z e
  simp only [List.forall_mem_cons, List.not_mem_nil, false_implies, implies_true, and_true]
  exact ⟨⟨loadProg_loads (d := 0), loadProg_loads, loadProg_loads (d := 0), loadProg_loads⟩,
    execLpmZP_loads, execElpmZP_loads⟩

/-! ### PUSH and POP -/

theorem sp_setReg (s : State) (d : Reg) (v : Byte) : (s.setReg d v).sp = s.sp := by
  have := reg_lt d
  have hne : ∀ x, 32 ≤ x → (s.setReg d v).byte x = s.byte x := fun x hx => by
    rw [byte_setReg, if_neg (by omega)]
  rw [State.sp, State.sp, pair_def, pair_def, hne _ (by decide), hne _ (by decide)]

/-- Settles O50: a byte out or in, and SP moved by one. -/
theorem pushPop : Obligations.PushPop := by
  intro s d q
  refine ⟨fun hq => ?push, fun hq => ?pop⟩
  case push =>
    have hran := ((Ran.refl s).withData (s.setByte q (s.reg d)).data).setSp ((q : Int) - 1)
    refine ⟨_, toOutcome_eq_next.mpr (bind_eq_ok.mpr ⟨_, push1_eq_ok.mpr ⟨hq, rfl⟩, rfl⟩),
      hran.advances_finish 1, called_nil_iff.mp (hran.finish_called 1), ?_, fun x hl hh => ?_⟩
    · refine (congrArg BitVec.toNat (sp_setSp ..)).trans ?_
      rw [BitVec.toNat_ofInt]; have := sp_lt s; omega
    · rw [byte_finish, byte_setSp_ofInt, if_neg hl, if_neg hh, byte_setByte]
      simp only [eq_comm, q]
  case pop =>
    have hran := ((Ran.refl s).setSp ((q : Int) + 1)).setReg d (s.byte (q + 1))
    refine ⟨_, toOutcome_eq_next.mpr (bind_eq_ok.mpr ⟨_, pop1_eq_ok.mpr ⟨hq, rfl⟩, rfl⟩),
      hran.advances_finish 1, called_nil_iff.mp (hran.finish_called 1), ?_, fun x hl hh => ?_⟩
    · refine (congrArg BitVec.toNat ((sp_setReg ..).trans (sp_setSp ..))).trans ?_
      rw [BitVec.toNat_ofInt]; omega
    · rw [byte_finish, byte_setReg, byte_setSp_ofInt, if_neg hl, if_neg hh]
      simp only [eq_comm, q]

/-! ### The no-ops -/

theorem envWatchdogReset_silent (h : s.watchdog = false ∨ Silent s) :
    ∃ t, envWatchdogReset s = .ok t ∧ SameBuild s t ∧ t.pc = s.pc ∧ t.cycles = s.cycles ∧
      t.data = s.data ∧ t.pending = s.pending ∧ t.events = s.events ∧
      t.calls = .watchdogReset :: s.calls := by
  cases hw : s.watchdog with
  | true =>
    have hs := h.resolve_left (by simp [hw])
    exact ⟨s.useReply.noteCall .watchdogReset,
      by rw [envWatchdogReset, hw, if_pos rfl, envCall_silent hs]; rfl,
      ⟨rfl, rfl, rfl, rfl, rfl, rfl⟩, rfl, rfl, rfl, rfl, rfl, rfl⟩
  | false =>
    exact ⟨_, envWatchdogReset_of_none hw, ⟨rfl, rfl, rfl, rfl, rfl, rfl⟩, rfl, rfl, rfl, rfl, rfl,
      rfl⟩

/-- Settles O58: six instructions that only run on, and WDR's notification. -/
theorem noOperations : Obligations.NoOperations := by
  intro s K
  refine ⟨?_, fun h => ?_⟩
  · simp only [List.forall_mem_cons, List.not_mem_nil, false_implies, implies_true, and_true]
    exact ⟨⟨_, rfl, runsOn_finish s⟩, ⟨_, rfl, runsOn_finish s⟩, ⟨_, rfl, runsOn_finish s⟩,
      ⟨_, rfl, runsOn_finish s⟩, ⟨_, rfl, runsOn_finish s⟩, ⟨_, rfl, runsOn_finish s⟩⟩
  · obtain ⟨t, hcall, hbuild, hpc, hcycles, hdata, hpending, hevents, hcalls⟩ :=
      envWatchdogReset_silent h
    refine ⟨_, execWdr_eq_next.mpr ⟨t, hcall, rfl⟩, ⟨?_, ?_⟩, fun x _ => byte_congr hdata x,
      hbuild.trans ⟨rfl, rfl, rfl, rfl, rfl, rfl⟩, hpending, hevents, hcalls⟩
    · rw [finish_pc, hpc, hbuild.cfg]
    · rw [finish_cycles, hcycles]

/-! ### Skips -/

/-- A skip that goes on from `u`, where the calls `cs` have been made. -/
theorem skipRule_of_skipIf {i : Instr} {c : Bool} (hran : Ran cs s u)
    (hb : ∀ x, u.byte x = s.byte x) (h : exec i s = toOutcome (skipIf c u)) :
    SkipRule i c cs s := by
  have hwords : u.nextWords = if twoWord (s.prog.read (s.pc + 1)) then 2 else 1 := by
    rw [State.nextWords, hran.pc, hran.called.build.prog]
  refine ⟨fun hc => ?run, fun hc hroom => ?skip, fun hc hout => ?fault⟩
  case run =>
    subst hc
    exact ⟨_, h, hran.advances_finish 0, hran.finish_called 0, fun x _ => hb x⟩
  case skip =>
    subst hc
    have hroom' : u.pc + 1 < u.cfg.progWords := by rwa [hran.pc, hran.called.build.cfg]
    rw [skipIf_true_in hroom', hran.pc, hwords] at h
    exact ⟨_, h, hran.advances_finishAt _ _, hran.finishAt_called .., fun x _ => hb x⟩
  case fault =>
    subst hc
    rw [skipIf_true_out (by rwa [hran.pc, hran.called.build.cfg]), hran.pc] at h
    exact h

theorem exec_fault_of_skipRule {i : Instr} {c : Bool} (h : SkipRule i c cs s) (hc : c = true)
    (hout : s.cfg.progWords ≤ s.pc + 1) : exec i s = .fault (.progOutOfRange (s.pc + 1)) := by
  obtain ⟨-, -, hfault⟩ := h
  exact hfault hc hout

theorem skipRule_of_busRead {i : Instr} {c : Byte → Bool} {slack : Byte → Nat}
    (h : exec i s = toOutcome (busRead slack a s >>= fun p => skipIf (c p.1) p.2))
    (ha : a < s.cfg.dataSize) (hs : SilentRead s a) :
    SkipRule i (c (readValue s a)) (readCall s a) s :=
  skipRule_of_skipIf (ran_readDone s a) (byte_readDone s a) (by rw [h, busRead_silent ha hs]; rfl)

theorem cpse_skipRule (s : State) (d r : Reg) :
    SkipRule (.cpse d r) (decide (s.reg d = s.reg r)) [] s :=
  skipRule_of_skipIf (.refl s) (fun _ => rfl) rfl

theorem sbrc_skipRule (s : State) (r : Reg) (b : BitVec 3) :
    SkipRule (.sbrc r b) (!(s.reg r).getLsbD b.toNat) [] s :=
  skipRule_of_skipIf (.refl s) (fun _ => rfl) rfl

theorem sbrs_skipRule (s : State) (r : Reg) (b : BitVec 3) :
    SkipRule (.sbrs r b) ((s.reg r).getLsbD b.toNat) [] s :=
  skipRule_of_skipIf (.refl s) (fun _ => rfl) rfl

section
variable {A : BitVec 5} (b : BitVec 3) (ha : A.toNat + 0x20 < s.cfg.dataSize)
  (hs : SilentRead s (A.toNat + 0x20))
include ha hs

theorem sbic_skipRule : SkipRule (.sbic A b) (!(readValue s (A.toNat + 0x20)).getLsbD b.toNat)
    (readCall s (A.toNat + 0x20)) s :=
  skipRule_of_busRead (c := fun v => !v.getLsbD b.toNat) rfl ha hs

theorem sbis_skipRule : SkipRule (.sbis A b) ((readValue s (A.toNat + 0x20)).getLsbD b.toNat)
    (readCall s (A.toNat + 0x20)) s :=
  skipRule_of_busRead (c := fun v => v.getLsbD b.toNat) rfl ha hs

end

/-- Settles O56: the rule of each skip. -/
theorem skips : Obligations.Skips := fun s d r b _ =>
  ⟨cpse_skipRule s d r, sbrc_skipRule s r b, sbrs_skipRule s r b,
    fun ha hs => ⟨sbic_skipRule b ha hs, sbis_skipRule b ha hs⟩⟩

/-! ### Fetches and look-aheads -/

theorem step_of_fetch_error {f : Fault} (h : fetch s = .error f) : step s = .fault f := by
  show thenTick (engineStep s) = _
  rw [engineStep, h]; rfl

/-- Settles O7: the model's reads, the fetch word by word, and the last clause of `SkipRule`. -/
theorem programMemoryReads : Obligations.ProgramMemoryReads := by
  intro s
  refine ⟨fun _ => rfl, fun b => ?byte, fun hpc htwo => ?fetch, fun hout => ?first,
    fun hpc hout htwo => ?second, fun hout => ⟨fun d r heq => ?cpse, fun r b => ?sbr,
      fun A b ha hs => ?sbi⟩⟩
  case byte =>
    split
    case isTrue h => exact progByte_flash h
    case isFalse h => exact progByte_out (Nat.le_of_not_lt h)
  case fetch =>
    cases h : twoWord (s.prog.read s.pc) with
    | true => exact ⟨_, fetch_twoWord (htwo h) h, fun _ => rfl⟩
    | false => exact ⟨_, fetch_oneWord hpc h, nofun⟩
  case first => exact step_of_fetch_error (by rw [fetch, progWord_out hout]; rfl)
  case second =>
    refine step_of_fetch_error ?_
    rw [fetch, progWord_in hpc, bind_ok, if_pos htwo, progWord_out hout]; rfl
  case cpse => exact exec_fault_of_skipRule (cpse_skipRule s d r) (decide_eq_true heq) hout
  case sbr =>
    cases h : (s.reg r).getLsbD b.toNat with
    | true => exact exec_fault_of_skipRule (sbrs_skipRule s r b) h hout
    | false => exact exec_fault_of_skipRule (sbrc_skipRule s r b) (by rw [h]; rfl) hout
  case sbi =>
    cases h : (readValue s (A.toNat + 0x20)).getLsbD b.toNat with
    | true => exact exec_fault_of_skipRule (sbis_skipRule b ha hs) h hout
    | false => exact exec_fault_of_skipRule (sbic_skipRule b ha hs) (by rw [h]; rfl) hout

end Sys2Proof.Machine
end

section
/-! PROOFS. Where instructions stop: undefined combinations (30_encoding.md R167), and accesses
outside the data space or program memory (20_memory.md R105, R107, R108). -/

namespace Sys2Proof.Machine

open Sys2Proof.Claims

variable {s t : State} {p : Ptr} {d r : Reg} {a : Nat}

/-! ### Undefined combinations -/

theorem unlessClash_fault {x : Except Fault State} (h : d.toNat = p.base ∨ d.toNat = p.base + 1) :
    toOutcome (unlessClash p d x) = .fault .undefinedCombination :=
  congrArg toOutcome (unlessClash_of (clash_iff.mpr h))

/-- Settles O59: all fourteen forms ask `unlessClash` first. -/
theorem undefinedCombinations : Obligations.UndefinedCombinations := by
  intro s d
  have x (e : Except Fault State) := unlessClash_fault (p := .x) (d := d) (x := e)
  have y (e : Except Fault State) := unlessClash_fault (p := .y) (d := d) (x := e)
  have z (e : Except Fault State) := unlessClash_fault (p := .z) (d := d) (x := e)
  simp only [List.forall_mem_cons, List.not_mem_nil, false_implies, implies_true, and_true]
  exact ⟨x _, x _, x _, x _, y _, y _, y _, y _, z _, z _, z _, z _, z _, z _⟩

/-! ### Loads and stores -/

theorem execLds_out {k : Word} (ha : s.cfg.dataSize ≤ k.toNat) :
    execLds d k s = .fault (.dataOutOfRange k.toNat) := by
  rw [execLds, loadFrom_out d ha]; rfl

theorem execSts_out {k : Word} (ha : s.cfg.dataSize ≤ k.toNat) :
    execSts k r s = .fault (.dataOutOfRange k.toNat) := by
  rw [execSts, busWrite_out ha]; rfl

section
variable (hl : d.toNat ≠ p.base) (hh : d.toNat ≠ p.base + 1)
include hl hh

theorem loadPostInc_fault (ha : s.cfg.dataSize ≤ (s.ptr p).toNat) :
    toOutcome (loadPostInc p d s) = .fault (.dataOutOfRange (s.ptr p).toNat) :=
  congrArg toOutcome (loadPostInc_out (clash_eq_false hl hh) ha)

theorem storePostInc_fault (ha : s.cfg.dataSize ≤ (s.ptr p).toNat) :
    toOutcome (storePostInc p d s) = .fault (.dataOutOfRange (s.ptr p).toNat) :=
  congrArg toOutcome (storePostInc_out (clash_eq_false hl hh) ha)

theorem loadPreDec_fault (ha : s.cfg.dataSize ≤ ((s.ptr p).toNat + 65535) % 65536) :
    toOutcome (loadPreDec p d s) =
      .fault (.dataOutOfRange (((s.ptr p).toNat + 65535) % 65536 : Nat)) := by
  rw [← toNat_ptr_dec] at ha ⊢
  exact congrArg toOutcome (loadPreDec_out (clash_eq_false hl hh) ha)

theorem storePreDec_fault (ha : s.cfg.dataSize ≤ ((s.ptr p).toNat + 65535) % 65536) :
    toOutcome (storePreDec p d s) =
      .fault (.dataOutOfRange (((s.ptr p).toNat + 65535) % 65536 : Nat)) := by
  rw [← toNat_ptr_dec] at ha ⊢
  exact congrArg toOutcome (storePreDec_out (clash_eq_false hl hh) ha)

end

/-! ### The stack -/

theorem execPush_out (h : s.cfg.dataSize ≤ s.sp.toNat) :
    execPush r s = .fault (.dataOutOfRange s.sp.toNat) := by
  rw [execPush, push1, rawWrite_out _ (by omega)]; rfl

theorem execPop_out (h : s.cfg.dataSize ≤ s.sp.toNat + 1) :
    execPop d s = .fault (.dataOutOfRange (s.sp.toNat + 1 : Nat)) := by
  rw [execPop, pop1, rawRead_out (by omega)]; rfl

theorem rawWrite_in {a : Int} (v : Byte) (h : 0 ≤ a ∧ a < s.cfg.dataSize) :
    rawWrite a v s = .ok (s.setByte a.toNat v) := if_pos h

/-- With SP inside the data space a push runs out of it only at SP 0, or at 1 with a third byte. -/
theorem sp_of_no_room (h : ¬RoomToPush s) (hin : s.sp.toNat < s.cfg.dataSize) :
    s.sp.toNat = 0 ∨ (s.sp.toNat = 1 ∧ s.cfg.pc22 = true) := by
  rw [RoomToPush, Config.pcBytes] at h
  cases hp : s.cfg.pc22 with
  | true =>
    rw [hp, if_pos rfl] at h
    have hsp : s.sp.toNat = 0 ∨ s.sp.toNat = 1 := by omega
    exact hsp.imp_right (⟨·, rfl⟩)
  | false => rw [hp, if_neg Bool.false_ne_true] at h; omega

/-- A push that leaves the data space does so at SP, or just below address 0. -/
theorem pushPC_out {v : Nat} (h : ¬RoomToPush s) :
    pushPC v s = .error (.dataOutOfRange
      (if s.cfg.dataSize ≤ s.sp.toNat then s.sp.toNat else -1)) := by
  unfold pushPC
  dsimp only
  by_cases hsp : s.cfg.dataSize ≤ s.sp.toNat
  · rw [if_pos hsp, rawWrite_out _ (by omega)]; rfl
  · have hin : s.sp.toNat < s.cfg.dataSize := Nat.lt_of_not_le hsp
    rw [if_neg hsp]
    rcases sp_of_no_room h hin with h0 | ⟨h1, hp⟩
    · rw [rawWrite_in _ (by omega), bind_ok, rawWrite_out _ (by omega), h0]; rfl
    · rw [rawWrite_in _ (by omega), bind_ok, rawWrite_in _ ⟨by omega, by rw [setByte_cfg]; omega⟩,
        bind_ok, if_pos hp, rawWrite_out _ (by omega), h1]
      rfl

theorem rawRead_in {a : Int} (h : 0 ≤ a ∧ a < s.cfg.dataSize) :
    rawRead a s = .ok (s.byte a.toNat) := if_pos h

/-- Where the data space ends when SP + 1 is inside it and a pop runs out of it. -/
theorem dataSize_of_no_room (h : ¬RoomToPop s) (hin : s.sp.toNat + 1 < s.cfg.dataSize) :
    s.cfg.dataSize = s.sp.toNat + 2 ∨ (s.cfg.dataSize = s.sp.toNat + 3 ∧ s.cfg.pc22 = true) := by
  rw [RoomToPop, Config.pcBytes] at h
  cases hp : s.cfg.pc22 with
  | true =>
    rw [hp, if_pos rfl] at h
    have hsize : s.cfg.dataSize = s.sp.toNat + 2 ∨ s.cfg.dataSize = s.sp.toNat + 3 := by omega
    exact hsize.imp_right (⟨·, rfl⟩)
  | false => rw [hp, if_neg Bool.false_ne_true] at h; omega

/-- A pop that leaves the data space does so at the first address outside. -/
theorem popPC_out (h : ¬RoomToPop s) :
    popPC s = .error (.dataOutOfRange (max (s.sp.toNat + 1) s.cfg.dataSize : Nat)) := by
  unfold popPC
  dsimp only
  by_cases h1 : s.cfg.dataSize ≤ s.sp.toNat + 1
  · rw [max_eq_left h1, rawRead_out (by omega)]
    split <;> rfl
  · have hin : s.sp.toNat + 1 < s.cfg.dataSize := Nat.lt_of_not_le h1
    rw [max_eq_right hin.le, rawRead_in (by omega), bind_ok, bind_ok]
    rcases dataSize_of_no_room h hin with h2 | ⟨h3, hp⟩
    · rw [rawRead_out (by omega), h2]
      split <;> rfl
    · rw [if_pos hp, rawRead_in (by omega), bind_ok, rawRead_out (by omega), h3]; rfl

theorem callTo_out {ret n : Nat} {target : Int} (h : ¬RoomToPush s) :
    toOutcome (callTo ret target n s) = .fault (.dataOutOfRange
      (if s.cfg.dataSize ≤ s.sp.toNat then s.sp.toNat else -1)) := by
  rw [callTo, pushPC_out h]; rfl

/-! ### Program memory -/

theorem loadProg_fault {b : Nat} (h : s.cfg.progWords ≤ b / 2) :
    toOutcome (loadProg b d s) = .fault (.progOutOfRange (b / 2)) :=
  congrArg toOutcome (loadProg_out d h)

theorem execLpmZP_out (hd : d.toNat < 30) (h : s.cfg.progWords ≤ (s.pair 30).toNat / 2) :
    execLpmZP d s = .fault (.progOutOfRange ((s.pair 30).toNat / 2)) := by
  rw [execLpmZP, unlessClash_of_not (clash_z_of_lt hd)]
  exact congrArg (fun x => toOutcome (x >>= _)) (progByte_out h)

theorem execElpmZP_out (hd : d.toNat < 30) (h : s.cfg.progWords ≤ elpmAddr s / 2) :
    execElpmZP d s = .fault (.progOutOfRange (elpmAddr s / 2)) := by
  rw [execElpmZP, unlessClash_of_not (clash_z_of_lt hd)]
  exact congrArg (fun x => toOutcome (x >>= _)) (progByte_out h)

/-- Settles O60: the fault of each operand form. -/
theorem outOfRangeAccesses : Obligations.OutOfRangeAccesses := by
  intro s d q k k12 k22
  refine ⟨?plain, ?post, ?pre, ?calls, ?returns, ?lpm, ?lpmZP⟩
  all_goals
    simp only [List.forall_mem_cons, List.not_mem_nil, false_implies, implies_true, and_true]
  case plain =>
    have load (p : Ptr) (ha : s.cfg.dataSize ≤ (s.ptr p).toNat) :=
      congrArg toOutcome (loadPlain_out d ha)
    have store (p : Ptr) (ha : s.cfg.dataSize ≤ (s.ptr p).toNat) :=
      congrArg toOutcome (storePlain_out d ha)
    have loadQ (p : Ptr) (ha : s.cfg.dataSize ≤ (s.ptr p).toNat + q.toNat) :=
      congrArg toOutcome (loadDisp_out d ha)
    have storeQ (p : Ptr) (ha : s.cfg.dataSize ≤ (s.ptr p).toNat + q.toNat) :=
      congrArg toOutcome (storeDisp_out d ha)
    have exchange (f : Byte → Byte → Byte) (ha : s.cfg.dataSize ≤ (s.ptr .z).toNat) :=
      congrArg toOutcome (exchangeZ_out f d ha)
    exact ⟨load .x, load .y, load .z, loadQ .y, loadQ .z, execLds_out, store .x, store .y, store .z,
      storeQ .y, storeQ .z, execSts_out, exchange _, exchange _, exchange _, exchange _,
      execPush_out, execPop_out⟩
  case post =>
    exact ⟨loadPostInc_fault (p := .x), storePostInc_fault (p := .x), loadPostInc_fault (p := .y),
      storePostInc_fault (p := .y), loadPostInc_fault (p := .z), storePostInc_fault (p := .z)⟩
  case pre =>
    exact ⟨loadPreDec_fault (p := .x), storePreDec_fault (p := .x), loadPreDec_fault (p := .y),
      storePreDec_fault (p := .y), loadPreDec_fault (p := .z), storePreDec_fault (p := .z)⟩
  case calls => exact ⟨callTo_out, callTo_out, callTo_out, callTo_out⟩
  case returns =>
    exact ⟨fun h => by rw [exec, execRet, returnFromSubroutine, popPC_out h]; rfl,
      fun h => by rw [exec, execReti, returnFromInterrupt, popPC_out h]; rfl⟩
  case lpm =>
    exact ⟨loadProg_fault (d := 0), loadProg_fault, loadProg_fault (d := 0), loadProg_fault⟩
  case lpmZP => exact ⟨execLpmZP_out, execElpmZP_out⟩

end Sys2Proof.Machine
end

section
/-! PROOFS. Control transfer and the stack (41_branch.md, 20_memory.md section 4, 60_exceptions.md
section 3): jumps, branches, calls, returns, dispatch, and what a return finds after a call. -/

namespace Sys2Proof.Machine

open Sys2Proof.Claims

variable {s t u : State} {a n v : Nat} {cs : List EnvCall}

/-! ### Jumps and branches -/

theorem Ran.goesTo (h : Ran cs s u) (hL : 0 < s.cfg.progWords) (target : Int) (n : Nat) :
    GoesTo target (n + 1) s (u.finishAt (target - 1) n) where
  pc := by
    rw [finishAt_pc_int _ _ _ (by rwa [h.called.build.cfg]), h.called.build.cfg, Int.sub_add_cancel]
  cycles := by rw [finishAt_cycles, h.cycles, Nat.add_assoc]

theorem jump_goes (s : State) (hL : 0 < s.cfg.progWords) (target : Int) (n : Nat) :
    GoesTo target (n + 1) s (s.finishAt (target - 1) n) ∧ Quiet s (s.finishAt (target - 1) n) ∧
      DataFrame [] s (s.finishAt (target - 1) n) :=
  ⟨(Ran.refl s).goesTo hL target n, called_nil_iff.mp ((Ran.refl s).finishAt_called ..),
    fun _ _ => rfl⟩

/-- Settles O52: the three absolute jumps leave `target - 1`, RJMP `pc + k`. -/
theorem jumps : Obligations.Jumps := by
  intro s k k22 hL
  simp only [List.forall_mem_cons, List.not_mem_nil, false_implies, implies_true, and_true]
  have hrel := jump_goes s hL (s.pc + k.toInt + 1) 1
  rw [Int.add_sub_cancel] at hrel
  exact ⟨⟨_, rfl, hrel⟩, ⟨_, rfl, jump_goes s hL _ 1⟩, ⟨_, rfl, jump_goes s hL _ 1⟩,
    ⟨_, rfl, jump_goes s hL _ 2⟩⟩

theorem branchIf_branches (hL : 0 < s.cfg.progWords) (taken : Bool) (k : BitVec 7) :
    Quiet s (branchIf taken k s) ∧ DataFrame [] s (branchIf taken k s) ∧
      if taken = true then GoesTo ((s.pc : Int) + k.toInt + 1) 2 s (branchIf taken k s)
      else Advances 1 1 s (branchIf taken k s) := by
  cases taken with
  | true =>
    obtain ⟨hgoes, hquiet, hframe⟩ := jump_goes s hL (s.pc + k.toInt + 1) 1
    rw [Int.add_sub_cancel] at hgoes hquiet hframe
    exact ⟨hquiet, hframe, hgoes⟩
  | false =>
    have hrun := runsOn_finish s
    exact ⟨hrun.quiet, hrun.bytes, hrun.advances⟩

/-- Settles O57: both are `branchIf`, on the bit or on its complement. -/
theorem branches : Obligations.Branches := by
  intro s n k hL
  simp only [List.forall_mem_cons, List.not_mem_nil, false_implies, implies_true, and_true]
  refine ⟨⟨_, rfl, branchIf_branches hL (s.sreg.getLsbD n.toNat) k⟩, _, rfl, ?_⟩
  have h := branchIf_branches hL (!s.sreg.getLsbD n.toNat) k
  simpa only [Bool.not_eq_true'] using h

/-! ### Pushing a return address -/

/-- The state `PushPC` leaves when there is room. -/
def pushed (v : Nat) (s : State) : State :=
  (pushBytes v s).setSp ((s.sp.toNat : Int) - s.cfg.pcBytes)

theorem pushPC_in (h : RoomToPush s) : pushPC v s = .ok (pushed v s) := pushPC_eq_ok.mpr ⟨h, rfl⟩

theorem ran_pushed (v : Nat) (s : State) : Ran [] s (pushed v s) := by
  rw [pushed, pushBytes]
  split
  · exact ((((Ran.refl s).withData _).withData _).withData _).setSp _
  · exact (((Ran.refl s).withData _).withData _).setSp _

theorem pcBytes_of_pc22 {c : Config} (h : c.pc22 = true) : c.pcBytes = 3 := by
  rw [Config.pcBytes, if_pos h]

theorem pcBytes_of_pc16 {c : Config} (h : c.pc22 = false) : c.pcBytes = 2 := by
  rw [Config.pcBytes, h]; rfl

theorem byte_pushBytes_pc16 (hp : s.cfg.pc22 = false) (h : 1 ≤ s.sp.toNat) (x : Nat) :
    (pushBytes v s).byte x = if (x : Int) = s.sp.toNat then BitVec.ofNat 8 v
      else if (x : Int) = s.sp.toNat - 1 then BitVec.ofNat 8 (v / 256) else s.byte x := by
  simp only [pushBytes, hp, Bool.false_eq_true, if_false, byte_setByte]
  grind

theorem byte_pushBytes_pc22 (hp : s.cfg.pc22 = true) (h : 2 ≤ s.sp.toNat) (x : Nat) :
    (pushBytes v s).byte x = if (x : Int) = s.sp.toNat then BitVec.ofNat 8 v
      else if (x : Int) = s.sp.toNat - 1 then BitVec.ofNat 8 (v / 256)
      else if (x : Int) = s.sp.toNat - 2 then BitVec.ofNat 8 (v / 65536) else s.byte x := by
  simp only [pushBytes, hp, if_true, byte_setByte]
  grind

/-- The bytes `PushPC` leaves, wherever the stack lies. -/
theorem byte_pushed (h : RoomToPush s) (x : Nat) : (pushed v s).byte x = afterPush s v x := by
  obtain ⟨hroom, -⟩ := h
  rw [pushed, byte_setSp_ofInt, afterPush]
  cases hp : s.cfg.pc22 with
  | true =>
    rw [pcBytes_of_pc22 hp] at hroom
    simp only [byte_pushBytes_pc22 hp (by omega : 2 ≤ s.sp.toNat), and_true]
  | false =>
    rw [pcBytes_of_pc16 hp] at hroom
    simp only [byte_pushBytes_pc16 hp (by omega : 1 ≤ s.sp.toNat), Bool.false_eq_true, and_false,
      if_false]

/-! ### Calls -/

theorem callTo_goes (hL : 0 < s.cfg.progWords) (h : RoomToPush s) (ret : Nat) (target : Int)
    (n : Nat) :
    ∃ t, toOutcome (callTo ret target n s) = .next t ∧ GoesTo target (n + 1) s t ∧ Quiet s t ∧
      ∀ x, t.byte x = afterPush s ret x :=
  ⟨_, toOutcome_eq_next.mpr (bind_eq_ok.mpr ⟨_, pushPC_in h, rfl⟩), (ran_pushed ret s).goesTo hL ..,
    called_nil_iff.mp ((ran_pushed ret s).finishAt_called ..), byte_pushed h⟩

theorem nearCycles_eq (c : Config) : nearCycles c + 1 = 3 + (if c.pc22 then 1 else 0) := by
  rw [nearCycles]; split <;> rfl

theorem farCycles_eq (c : Config) : farCycles c + 1 = 4 + (if c.pc22 then 1 else 0) := by
  rw [farCycles]; split <;> rfl

/-- Settles O53: all four are `callTo`. -/
theorem calls : Obligations.Calls := by
  intro s k k22 hL h m
  simp only [List.forall_mem_cons, List.not_mem_nil, false_implies, implies_true, and_true]
  have near (ret : Nat) (target : Int) := callTo_goes hL h ret target (nearCycles s.cfg)
  have far (ret : Nat) (target : Int) := callTo_goes hL h ret target (farCycles s.cfg)
  rw [nearCycles_eq] at near
  rw [farCycles_eq] at far
  exact ⟨near _ _, near _ _, callTo_goes hL h _ _ 3, far _ _⟩

/-! ### Returns -/

theorem toNat_sp_popped (s : State) :
    (s.setSp ((s.sp.toNat : Int) + s.cfg.pcBytes)).sp.toNat =
      (s.sp.toNat + s.cfg.pcBytes) % 65536 := by
  rw [sp_setSp, BitVec.toNat_ofInt]; omega

theorem dataFrame_setSp (s : State) (w : Int) : DataFrame [0x5D, 0x5E] s (s.setSp w) := by
  intro x hx
  simp only [List.mem_cons, List.not_mem_nil, or_false, not_or] at hx
  rw [byte_setSp_ofInt, if_neg hx.1, if_neg hx.2]

theorem sp_setSreg (s : State) (v : Byte) : (s.setSreg v).sp = s.sp := by
  rw [State.sp, State.sp, pair_def, pair_def, byte_setSreg, byte_setSreg]; rfl

theorem flagOf_setI (x : Byte) (f : Flag) :
    flagOf (x ||| 0x80) f = if f = .I then true else flagOf x f := by
  have h := getLsbD_setBit x 7 (bit_lt f)
  cases f <;> exact h

theorem flagOf_clearI (x : Byte) : flagOf (x &&& 0x7F) .I = false :=
  getLsbD_clearBit x 7 (by decide)

/-- Settles O54: RETI is RET with I set as well. -/
theorem returns : Obligations.Returns := by
  intro s hL h n
  have hret := (Ran.refl s).setSp ((s.sp.toNat : Int) + s.cfg.pcBytes)
  have hreti := hret.withData
    ((s.setSp ((s.sp.toNat : Int) + s.cfg.pcBytes)).setSreg (s.sreg ||| 0x80)).data
  have hgoes := fun {u : State} (hu : Ran [] s u) => hu.goesTo hL (poppedPC s) (farCycles s.cfg)
  rw [farCycles_eq] at hgoes
  refine ⟨⟨_, toOutcome_eq_next.mpr (returnFromSubroutine_eq_ok.mpr ⟨h, rfl⟩), hgoes hret,
      called_nil_iff.mp (hret.finishAt_called ..), toNat_sp_popped s, dataFrame_setSp s _⟩,
    _, toOutcome_eq_next.mpr (returnFromInterrupt_eq_ok.mpr ⟨h, rfl⟩), hgoes hreti,
    called_nil_iff.mp (hreti.finishAt_called ..), ?sp, fun x hx => ?frame, ?set, fun f hf => ?flags⟩
  case sp => exact (congrArg BitVec.toNat (sp_setSreg ..)).trans (toNat_sp_popped s)
  case frame =>
    simp only [List.mem_cons, List.not_mem_nil, or_false, not_or] at hx
    obtain ⟨hl, hh, hf⟩ := hx
    rw [byte_finishAt, byte_setSreg, if_neg hf, byte_setSp_ofInt, if_neg hl, if_neg hh]
  case set => rw [flag_finishAt, flag_setSreg, flagOf_setI, if_pos rfl]
  case flags =>
    rw [flag_finishAt, flag_setSreg, flagOf_setI, if_neg (by simpa using hf)]; rfl

/-! ### Dispatch -/

/-- The state `Dispatch` leaves when there is room to push. -/
def dispatched (a : Nat) (s : State) : State :=
  { (pushed s.pc s).setSreg ((pushed s.pc s).sreg &&& 0x7F) with
    cycles := s.cycles + s.cfg.irqCycles, pc := a }

theorem dispatch_in (a : Nat) (h : RoomToPush s) : dispatch a s = .ok (dispatched a s) := by
  refine dispatch_eq_ok.mpr ⟨_, pushPC_in h, ?_⟩
  rw [dispatched, ← (ran_pushed s.pc s).cycles]

theorem quiet_dispatched (a : Nat) (s : State) : Quiet s (dispatched a s) :=
  called_nil_iff.mp (called_withData (ran_pushed s.pc s).called ..)

theorem byte_dispatched (a : Nat) (h : RoomToPush s) (x : Nat) : (dispatched a s).byte x =
    if x = 0x5F then afterPush s s.pc x &&& 0x7F else afterPush s s.pc x := by
  have hbyte : (dispatched a s).byte x =
      ((pushed s.pc s).setSreg ((pushed s.pc s).sreg &&& 0x7F)).byte x := rfl
  rw [hbyte, byte_setSreg, sreg_def, byte_pushed h, byte_pushed h]
  by_cases hx : x = 0x5F
  · subst hx; rfl
  · rw [if_neg hx, if_neg hx]

theorem flag_I_dispatched (a : Nat) (s : State) : (dispatched a s).flag .I = false :=
  (flag_setSreg ..).trans (flagOf_clearI _)

/-- Settles O20: `dispatched` byte by byte, and the fault of the push. -/
theorem dispatchEntry : Obligations.DispatchEntry := by
  intro s a
  refine ⟨fun h => ⟨_, dispatch_in a h, rfl, rfl, quiet_dispatched a s, flag_I_dispatched a s,
    byte_dispatched a h⟩, fun hout => ?sp, fun hin hlow => ?below⟩
  case sp =>
    have hroom : ¬RoomToPush s := fun h => absurd h.2 (Nat.not_lt.mpr hout)
    rw [dispatch, pushPC_out hroom, if_pos hout]; rfl
  case below =>
    have hroom : ¬RoomToPush s := fun h => absurd h.1 (Nat.not_le.mpr hlow)
    rw [dispatch, pushPC_out hroom, if_neg (Nat.not_le.mpr hin)]; rfl

/-! ### What a return finds -/

/-- A return address stands on the stack of `t` as `s` has pushed it. -/
structure Holds (v : Nat) (s t : State) : Prop where
  cfg : t.cfg = s.cfg
  sp : t.sp.toNat = s.sp.toNat - s.cfg.pcBytes
  bytes : ∀ j < s.cfg.pcBytes, t.byte (s.sp.toNat - j) = BitVec.ofNat 8 (v / 256 ^ j)

theorem poppedPC_of_holds (h : Holds v s t) (hv : v < 256 ^ s.cfg.pcBytes)
    (hroom : s.cfg.pcBytes ≤ s.sp.toNat) : poppedPC t = v := by
  obtain ⟨hcfg, hsp, hbytes⟩ := h
  rw [poppedPC, hcfg, hsp]
  cases hp : s.cfg.pc22 with
  | true =>
    rw [pcBytes_of_pc22 hp] at hbytes hv hroom ⊢
    have h0 := hbytes 0 (by decide)
    have h1 := hbytes 1 (by decide)
    have h2 := hbytes 2 (by decide)
    rw [if_pos rfl, show s.sp.toNat - 3 + 1 = s.sp.toNat - 2 by omega,
      show s.sp.toNat - 3 + 2 = s.sp.toNat - 1 by omega,
      show s.sp.toNat - 3 + 3 = s.sp.toNat - 0 by omega, h0, h1, h2]
    simp only [BitVec.toNat_ofNat]
    omega
  | false =>
    rw [pcBytes_of_pc16 hp] at hbytes hv hroom ⊢
    have h0 := hbytes 0 (by decide)
    have h1 := hbytes 1 (by decide)
    rw [if_neg Bool.false_ne_true, show s.sp.toNat - 2 + 1 = s.sp.toNat - 1 by omega,
      show s.sp.toNat - 2 + 2 = s.sp.toNat - 0 by omega, h0, h1]
    simp only [BitVec.toNat_ofNat]
    omega

theorem Holds.finishAt (h : Holds v s t) (p : Int) (n : Nat) : Holds v s (t.finishAt p n) :=
  ⟨h.cfg, h.sp, h.bytes⟩

theorem lt_pcBytes_cases {c : Config} {j : Nat} (hj : j < c.pcBytes) :
    j = 0 ∨ j = 1 ∨ (j = 2 ∧ c.pc22 = true) := by
  cases hp : c.pc22 with
  | true => rw [pcBytes_of_pc22 hp] at hj; simp only [and_true]; omega
  | false => rw [pcBytes_of_pc16 hp] at hj; omega

section
variable (hclear : ∀ j < s.cfg.pcBytes, s.sp.toNat - j ≠ 0x5D ∧ s.sp.toNat - j ≠ 0x5E)
  (hroom : s.cfg.pcBytes ≤ s.sp.toNat)
include hclear hroom

/-- Clear of SP's own bytes, the stack reads back what was pushed. -/
theorem afterPush_stack {j : Nat} (hj : j < s.cfg.pcBytes) :
    afterPush s v (s.sp.toNat - j) = BitVec.ofNat 8 (v / 256 ^ j) := by
  obtain ⟨hl, hh⟩ := hclear j hj
  rw [afterPush, if_neg hl, if_neg hh]
  rcases lt_pcBytes_cases hj with rfl | rfl | ⟨rfl, hp⟩
  · rw [if_pos (by omega), pow_zero, Nat.div_one]
  · rw [if_neg (by omega), if_pos (by omega), pow_one]
  · rw [if_neg (by omega), if_neg (by omega), if_pos ⟨by omega, hp⟩]; rfl

theorem holds_pushed (hsp : s.sp.toNat < s.cfg.dataSize) : Holds v s (pushed v s) where
  cfg := (ran_pushed v s).called.build.cfg
  sp := by
    rw [pushed, sp_setSp, BitVec.toNat_ofInt]
    have := sp_lt s
    omega
  bytes := fun j hj => by rw [byte_pushed ⟨by omega, hsp⟩, afterPush_stack hclear hroom hj]

end

theorem ofInt_toNat (w : Word) : BitVec.ofInt 16 (w.toNat : Int) = w := by
  rw [BitVec.ofInt_natCast, BitVec.ofNat_toNat, BitVec.setWidth_eq]

section
variable (h : Holds v s t) (hroom : s.cfg.pcBytes ≤ s.sp.toNat)
include h hroom

theorem sp_add_of_holds : (t.sp.toNat : Int) + t.cfg.pcBytes = s.sp.toNat := by
  rw [h.cfg, h.sp]; omega

theorem roomToPop_of_holds (hsp : s.sp.toNat < s.cfg.dataSize) :
    t.sp.toNat + t.cfg.pcBytes < t.cfg.dataSize := by
  rw [h.cfg, h.sp]; omega

theorem popPC_of_holds (hv : v < 256 ^ s.cfg.pcBytes) (hsp : s.sp.toNat < s.cfg.dataSize) :
    popPC t = .ok (v, t.setSp s.sp.toNat) := by
  refine popPC_eq_ok.mpr ⟨roomToPop_of_holds h hroom hsp, ?_⟩
  rw [poppedPC_of_holds h hv hroom, sp_add_of_holds h hroom]

end

theorem sp_setSp_toNat (w : Word) : (s.setSp w.toNat).sp = w := by
  rw [sp_setSp, ofInt_toNat]

/-- Settles O19: the pushed bytes stand clear of SP, so `PopPC` finds them. -/
theorem pushThenPop : Obligations.PushThenPop := fun _ _ hv hroom hsp hclear =>
  have hholds := holds_pushed hclear hroom hsp
  have hpush : RoomToPush _ := ⟨by omega, hsp⟩
  ⟨_, _, pushPC_in hpush, byte_pushed hpush, popPC_of_holds hholds hroom hv hsp,
    sp_setSp_toNat _⟩

theorem finishAt_pc_nat (s : State) (v n : Nat) :
    (s.finishAt ((v : Int) - 1) n).pc = v % s.cfg.progWords := by
  rw [finishAt_pc, Int.sub_add_cancel]
  exact Int.toNat_natCast (v % s.cfg.progWords)

section
variable (h : Holds v s t) (hroom : s.cfg.pcBytes ≤ s.sp.toNat)
  (hv : v < 256 ^ s.cfg.pcBytes) (hsp : s.sp.toNat < s.cfg.dataSize)
include h hroom hv hsp

theorem ret_of_holds :
    ∃ u, exec .ret t = .next u ∧ u.pc = v % s.cfg.progWords ∧ u.sp = s.sp := by
  refine ⟨((t.setSp s.sp.toNat).finishAt ((v : Int) - 1) (farCycles t.cfg)),
    toOutcome_eq_next.mpr (bind_eq_ok.mpr ⟨_, popPC_of_holds h hroom hv hsp, rfl⟩), ?_,
    sp_setSp_toNat s.sp⟩
  rw [finishAt_pc_nat]
  exact congrArg (v % ·.progWords) h.cfg

theorem reti_of_holds :
    ∃ u, exec .reti t = .next u ∧ u.pc = v % s.cfg.progWords ∧ u.sp = s.sp ∧
      u.flag .I = true := by
  refine ⟨_, toOutcome_eq_next.mpr (bind_eq_ok.mpr ⟨_, popPC_of_holds h hroom hv hsp, rfl⟩), ?_,
    (sp_setSreg ..).trans (sp_setSp_toNat s.sp), ?_⟩
  · exact (finishAt_pc_nat ..).trans (congrArg (v % ·.progWords) h.cfg)
  · rw [flag_finishAt, flag_setSreg, flagOf_setI, if_pos rfl]

end

theorem Holds.dispatched (hclear : ∀ j < s.cfg.pcBytes, s.sp.toNat - j < 0x5D ∨
    0x5F < s.sp.toNat - j) (h : Holds s.pc s (pushed s.pc s)) (a : Nat) :
    Holds s.pc s (dispatched a s) where
  cfg := h.cfg
  sp := (congrArg BitVec.toNat (sp_setSreg ..)).trans h.sp
  bytes := fun j hj => by
    have := hclear j hj
    rw [← h.bytes j hj]
    exact (byte_setSreg ..).trans (if_neg (by omega))

theorem pc_lt_of_mode {m : Nat} (hm : m ≤ 2 ^ 22 + 1) (h : m < 65536 ∨ s.cfg.pc22 = true) :
    m < 256 ^ s.cfg.pcBytes := by
  cases hp : s.cfg.pc22 with
  | true => rw [pcBytes_of_pc22 hp]; omega
  | false => rw [pcBytes_of_pc16 hp]; simp only [hp, Bool.false_eq_true, or_false] at h; omega

/-- Settles O55: a call and a dispatch leave their return address on the stack, where the return
finds it. -/
theorem callReturnRoundTrip : Obligations.CallReturnRoundTrip := by
  intro s k a hL hpc hmax hroom hsp hclear
  have hclear' : ∀ j < s.cfg.pcBytes, s.sp.toNat - j ≠ 0x5D ∧ s.sp.toNat - j ≠ 0x5E :=
    fun j hj => by have := hclear j hj; omega
  have hpush : RoomToPush s := ⟨by omega, hsp⟩
  refine ⟨fun hmode => ?call, ?dispatch⟩
  case call =>
    have hholds : Holds (s.pc + 2) s
        ((pushed (s.pc + 2) s).finishAt ((k.toNat : Int) - 1) (farCycles s.cfg)) :=
      (holds_pushed hclear' hroom hsp).finishAt ..
    obtain ⟨u, hret, hupc, husp⟩ :=
      ret_of_holds hholds hroom (pc_lt_of_mode (by omega) hmode) hsp
    exact ⟨_, u, toOutcome_eq_next.mpr (bind_eq_ok.mpr ⟨_, pushPC_in hpush, rfl⟩), hret, hupc, husp⟩
  case dispatch =>
    have hmode : s.pc < 65536 ∨ s.cfg.pc22 = true := by
      rw [Config.pc22, decide_eq_true_iff]; omega
    obtain ⟨u, hreti, hupc, husp, hI⟩ :=
      reti_of_holds ((holds_pushed hclear' hroom hsp).dispatched hclear a) hroom
        (pc_lt_of_mode (by omega) hmode) hsp
    exact ⟨_, u, dispatch_in a hpush, hreti, hupc.trans (Nat.mod_eq_of_lt hpc), husp, hI⟩

end Sys2Proof.Machine
end

section
/-! PROOFS. `tick()` and the scheduler (60_exceptions.md sections 3 and 4): which vector is taken
and which event fires, when an enable takes effect, and where a new event goes. -/

namespace Sys2Proof.Machine

open Sys2Proof.Claims

variable {s t u : State} {q : Descriptor} {rest : List Descriptor}

/-! ### The second half of `tick()` -/

theorem dispatchPending_idle (hp : pendingSorted s.pending)
    (h : s.flag .I = false ∨ s.pending = []) : dispatchPending s = .ok s := by
  refine dispatchPending_eq_ok.mpr ⟨hp, ?_⟩
  rcases h with hI | hnil
  · rw [hI]
  · rw [hnil]; cases s.flag .I <;> rfl

theorem dispatchPending_head (hp : pendingSorted s.pending) (hq : s.pending = q :: rest)
    (hI : s.flag .I = true) (hroom : RoomToPush s) :
    dispatchPending s = match q.kind with
      | .edge => clearInterrupt q true (dispatched q.vectorAddress s)
      | .level => .ok (dispatched q.vectorAddress s) := by
  rw [dispatchPending, if_pos hp, hI, hq]
  dsimp only
  rw [dispatch_in _ hroom, bind_ok]
  rfl

theorem withoutVector_head (h : pendingSorted (q :: rest)) :
    withoutVector q.vectorAddress (q :: rest) = rest := by
  obtain ⟨hlt, -⟩ := List.pairwise_cons.mp h
  rw [withoutVector, List.filter_cons_of_neg (by simp)]
  exact List.filter_eq_self.mpr fun p hp => by simpa using (hlt p hp).ne'

/-- Some flag byte cleared cannot set I. -/
theorem flag_I_flagCleared (h : s.flag .I = false) : (flagCleared q s).flag .I = false := by
  rw [State.flag, sreg_def, byte_flagCleared]
  split
  · rw [flagOf, BitVec.getLsbD_and]
    exact Bool.and_eq_false_imp.mpr fun hbit => absurd (hbit.symm.trans h) (by decide)
  · exact h

theorem and_ff (x : Byte) : x &&& 0xFF = x := BitVec.and_allOnes

/-! ### `tick()` with no event due -/

theorem tick_of_noneDue (hs : eventsSorted s.events) (h : NoneDue s) :
    tick s = dispatchPending s := by
  rw [tick, fireEvent_eq_ok.mpr ⟨hs, .inl ⟨h, rfl⟩⟩, bind_ok]

/-- Settles O21: `dispatched` for both kinds; an edge-sensitive vector is then cleared. -/
theorem tickTakesLeastVector : Obligations.TickTakesLeastVector := by
  intro s hs hp hnone
  rw [tick_of_noneDue hs hnone]
  refine ⟨fun h => dispatchPending_idle hp (h.imp_right nextInterrupt_eq_none_iff.mp),
    fun q rest hq hI hroom hf => ⟨(List.pairwise_cons.mp (hq ▸ hp)).1, ?_⟩⟩
  have hquiet := quiet_dispatched q.vectorAddress s
  have hbytes := byte_dispatched q.vectorAddress hroom
  have hI' := flag_I_dispatched q.vectorAddress s
  rw [dispatchPending_head hp hq hI hroom]
  cases hk : q.kind with
  | edge =>
    have hp' : pendingSorted (dispatched q.vectorAddress s).pending := by rwa [hquiet.pending]
    have hf' : q.flagRegister < (dispatched q.vectorAddress s).cfg.dataSize := by
      rwa [hquiet.build.cfg]
    refine ⟨_, clearInterrupt_in true hp' hf', rfl, rfl, flag_I_flagCleared hI', hquiet.events,
      hquiet.calls, hquiet.build.trans ⟨rfl, rfl, rfl, rfl, rfl, rfl⟩, fun _ => ?_, nofun,
      fun x => (byte_flagCleared x).trans ?_⟩
    · show withoutVector _ (dispatched q.vectorAddress s).pending = rest
      rw [hquiet.pending, hq, withoutVector_head (hq ▸ hp)]
    · rw [← hbytes]
      by_cases hx : x = q.flagRegister
      · rw [if_pos hx, if_pos ⟨hx, rfl⟩]
      · rw [if_neg hx, if_neg (hx ·.1), and_ff]
  | level =>
    exact ⟨_, rfl, rfl, rfl, hI', hquiet.events, hquiet.calls, hquiet.build, nofun,
      fun _ => hquiet.pending.trans hq,
      fun x => by
        have hkind : ¬(x = q.flagRegister ∧ IrqKind.level = .edge) := fun ⟨_, h⟩ => nomatch h
        rw [← hbytes, if_neg hkind, and_ff]⟩

/-! ### An event that is due -/

theorem fireEvent_due {e : ClockEvent} {es : List ClockEvent} (hs : eventsSorted s.events)
    (he : s.events = e :: es) (hdue : e.due ≤ s.cycles) :
    fireEvent s = envCallback e.id { s with events := es } := by
  rw [fireEvent, if_pos hs, he]
  exact if_pos hdue

theorem envCallback_draws {id : Nat} (h : envCallback id s = .ok t) : t.draws = s.draws + 1 := by
  obtain ⟨p, hp, rfl⟩ := map_eq_ok.mp h
  exact (envCall_keeps hp).2

/-- Settles O22: the callback runs on the rest of the chain; a silent one only notes its call. -/
theorem tickFiresOneEvent : Obligations.TickFiresOneEvent := by
  intro s e rest hs he hdue
  have hfire := fireEvent_due hs he hdue
  refine ⟨hfire, fun t ht => ⟨fireEvent_keeps ht,
    envCallback_draws (s := { s with events := rest }) (hfire.symm.trans ht)⟩,
    fun hsilent hp hI => ?_⟩
  have hcall : envCallback e.id { s with events := rest } =
      .ok ({ s with events := rest }.useReply.noteCall (.callback e.id)) := by
    have hsilent' : Silent { s with events := rest } := hsilent
    rw [envCallback, envCall_silent hsilent']; rfl
  refine ⟨{ s with events := rest }.useReply.noteCall (.callback e.id), ?_,
    rfl, rfl, rfl, rfl, rfl, rfl⟩
  rw [tick, hfire, hcall, bind_ok]
  exact dispatchPending_idle hp (.inl hI)

/-! ### SEI and CLI -/

theorem step_of_exec {w : Word} {i : Instr} (hpc : s.pc < s.cfg.progWords)
    (hw : s.prog.read s.pc = w) (hone : twoWord w = false) (hd : decode w 0 = .ok i)
    (hexec : exec i s = .next u) : step s = toOutcome (tick u.start) := by
  have hstep := engineStep_of_fetch (fetch_oneWord hpc (hw ▸ hone)) (hw ▸ hd)
  show thenTick (engineStep s) = _
  rw [hstep, hexec]; rfl

/-- Room to push is the same before and after BSET or BCLR. -/
theorem roomToPush_writeFlags {v : Byte} (h : RoomToPush s) :
    RoomToPush (writeFlags v s).start := by
  have hsp : (writeFlags v s).start.sp = s.sp := sp_setSreg s v
  rw [RoomToPush, hsp]
  exact h

/-- Settles O23: BSET 7 and BCLR 7 are done when `tick()` looks at I. -/
theorem interruptEnableHasNoDelay : Obligations.InterruptEnableHasNoDelay := by
  intro s q rest hpc hevents hp hq
  have hpending : ∀ v, (writeFlags v s).start.pending = s.pending := fun _ => rfl
  have hsorted : ∀ v, eventsSorted (writeFlags v s).start.events := fun v => by
    rw [show (writeFlags v s).start.events = [] from hevents]; exact .nil
  have hnone : ∀ v, NoneDue (writeFlags v s).start := fun v e he => by
    rw [show (writeFlags v s).start.events = [] from hevents] at he; cases he
  refine ⟨fun hw hroom hf => ?sei, fun hw => ?cli⟩
  case sei =>
    have hI : (writeFlags (s.sreg ||| 0x80) s).start.flag .I = true := by
      rw [flag_start, State.flag, sreg_writeFlags, flagOf_setI, if_pos rfl]
    have hstep := step_of_exec hpc hw (by decide) (i := .bset 7) (by decide) rfl
    obtain ⟨-, htake⟩ := tickTakesLeastVector _ (hsorted _) hp (hnone _)
    obtain ⟨-, t, htick, hpc', hcycles, hI', -⟩ :=
      htake q rest hq hI (roomToPush_writeFlags hroom) hf
    exact ⟨t, hstep.trans (congrArg toOutcome htick), hpc', hI', hcycles⟩
  case cli =>
    have hI : (writeFlags (s.sreg &&& 0x7F) s).start.flag .I = false := by
      rw [flag_start, State.flag, sreg_writeFlags, flagOf_clearI]
    have hstep := step_of_exec hpc hw (by decide) (i := .bclr 7) (by decide) rfl
    obtain ⟨hidle, -⟩ := tickTakesLeastVector _ (hsorted (s.sreg &&& 0x7F)) hp (hnone _)
    exact ⟨_, hstep.trans (congrArg toOutcome (hidle (.inl hI))), finish_pc _ 0, hI, hq, rfl⟩

/-! ### Scheduling -/

theorem dueAt_eq (now : Nat) (n : Int) : (dueAt now n : Int) = now + max 1 n := by
  rw [dueAt, Int.natCast_add, Int.toNat_of_nonneg (by omega)]

/-- Settles O29: `insertEvent` splits the chain at the place the tie order gives. -/
theorem addClockEventRule : Obligations.AddClockEventRule := by
  intro s now id n hs
  have hdue := dueAt_eq now n
  obtain ⟨before, after, hsplit, hinsert, hbefore, hafter⟩ :=
    insertEvent_split s.cfg.tieOrder ⟨dueAt now n, id⟩ s.events hs
  refine ⟨_, ⟨dueAt now n, id⟩, before, after, addClockEvent_eq_ok.mpr ⟨hs, rfl⟩, rfl, rfl, hdue,
    (by omega : now < dueAt now n), hsplit, hinsert, eventsSorted_insertEvent _ _ hs,
    fun htie => ?_, fun htie => ?_⟩
  · rw [htie] at hbefore hafter; exact ⟨hbefore, hafter⟩
  · rw [htie] at hbefore hafter; exact ⟨hbefore, hafter⟩

end Sys2Proof.Machine
end
